-- ==== Sys2Proof/Word.lean ====
section
/-! DEFINITION. The word types of the device and their plainest arithmetic (00_scope.md R3, R6: little-endian, 64-bit virtual
addresses; 10_isa_formats_and_opcode_map.md R203: 32-bit slot words in 128-bit bundles). -/

namespace Sys2Proof

/-- One byte of memory. -/
abbrev Byte := BitVec 8

/-- A scalar register's value, a virtual address, a CSR (R105). -/
abbrev Word := BitVec 64

/-- One 32-bit lane, one FP32 value, one slot word. -/
abbrev Lane := BitVec 32

/-- A vector value: 1,024 bits, lane i in bits [32i+31:32i] (12_isa_vector.md R257). -/
abbrev Vec := BitVec 1024

end Sys2Proof
end

