-- ==== Sys2Proof/Machine/Bits.lean ====
section
/-! DEFINITION. Bytes, lanes and elements (00 R3; 12 R257): plain functions over bit vectors and lists, and the association
lists the state keeps its sparse data in. -/

namespace Sys2Proof.Machine

/-- The low n bytes of a number, little-endian (00 R3). -/
def bytesOf : Nat → Nat → List Byte
  | 0, _ => []
  | n + 1, x => BitVec.ofNat 8 x :: bytesOf n (x / 256)

/-- A little-endian number from bytes. -/
def natOf : List Byte → Nat
  | [] => 0
  | b :: r => b.toNat + 256 * natOf r

/-- n bytes from offset o of a byte list, zero beyond its end. -/
def sliceBytes (bs : List Byte) (o n : Nat) : List Byte := (List.range n).map fun i => bs.getD (o + i) 0

/-- A little-endian number of n bytes at offset o. -/
def fieldAt (bs : List Byte) (o n : Nat) : Nat := natOf (sliceBytes bs o n)

/-- Lane i of a vector (12 R257). -/
def lane (v : Vec) (i : Nat) : Lane := v.extractLsb' (32 * i) 32

/-- Element e of width w (12 R257). -/
def elem (w : Nat) (v : Vec) (e : Nat) : Nat := (v.extractLsb' (w * e) w).toNat

/-- The number whose w-bit digits are f 0, f 1, … f (n-1). -/
def digits (w : Nat) (f : Nat → Nat) : Nat → Nat
  | 0 => 0
  | n + 1 => digits w f n + f n % 2 ^ w * 2 ^ (w * n)

/-- A vector from its elements of width w. -/
def ofElems (w : Nat) (f : Nat → Nat) : Vec := BitVec.ofNat 1024 (digits w f (1024 / w))

/-- A vector from its 32 lanes. -/
def ofLanes (f : Nat → Lane) : Vec := ofElems 32 fun i => (f i).toNat

/-- A mask from its 32 bits. -/
def ofBits (f : Nat → Bool) : Lane := BitVec.ofNat 32 (digits 1 (fun i => if f i then 1 else 0) 32)

/-- A vector's 128 bytes, byte b at its address (12 R257). -/
def vecBytes (v : Vec) : List Byte := bytesOf 128 v.toNat

/-- A vector from bytes. -/
def vecOf (bs : List Byte) : Vec := BitVec.ofNat 1024 (natOf bs)

/-- A signed reading of a w-bit number. -/
def sgn (w x : Nat) : Int := if 2 * (x % 2 ^ w) < 2 ^ w then (x % 2 ^ w : Nat) else (x % 2 ^ w : Nat) - (2 ^ w : Nat)

/-- An integer modulo 2^w. -/
def wrap (w : Nat) (x : Int) : Nat := (x % (2 ^ w : Nat)).toNat

/-- Length of a number in bits; 0 for 0. -/
def bitLen (n : Nat) : Nat := if n = 0 then 0 else Nat.log2 n + 1

/-- Number of one bits among the low w bits. -/
def popCount : Nat → Nat → Nat
  | 0, _ => 0
  | w + 1, x => x % 2 + popCount w (x / 2)

/-- Number of leading zero bits of a w-bit number. -/
def leadZeros (w x : Nat) : Nat := w - bitLen (x % 2 ^ w)

/-- Number of trailing zero bits of a w-bit number; w for 0. -/
def trailZeros : Nat → Nat → Nat
  | 0, _ => 0
  | w + 1, x => if x % 2 = 1 then 0 else 1 + trailZeros w (x / 2)

/-! ## Association lists with rising keys -/

/-- Look up a key. -/
def lookup {α : Type} (k : Nat) : List (Nat × α) → Option α
  | [] => none
  | (j, x) :: r => if j = k then some x else lookup k r

/-- Put a value at a key, keeping the keys rising. -/
def put {α : Type} (k : Nat) (x : α) : List (Nat × α) → List (Nat × α)
  | [] => [(k, x)]
  | (j, y) :: r => if k < j then (k, x) :: (j, y) :: r else if k = j then (k, x) :: r else (j, y) :: put k x r

/-- Remove a key. -/
def del {α : Type} (k : Nat) : List (Nat × α) → List (Nat × α)
  | [] => []
  | (j, y) :: r => if j = k then del k r else (j, y) :: del k r

/-- A count at a key, 0 where unlisted. -/
def countAt (k : Nat) (l : List (Nat × Nat)) : Nat := (lookup k l).getD 0

/-- Insert by an order, after the elements it does not precede. -/
def insertBy {α : Type} (le : α → α → Bool) (x : α) : List α → List α
  | [] => [x]
  | y :: r => if le x y then x :: y :: r else y :: insertBy le x r

/-- A stable insertion sort (structural, so that it evaluates). -/
def sortBy {α : Type} (le : α → α → Bool) : List α → List α
  | [] => []
  | x :: r => insertBy le x (sortBy le r)

/-- Put a number in a rising list without repeats. -/
def insertNat (k : Nat) : List Nat → List Nat
  | [] => [k]
  | j :: r => if k < j then k :: j :: r else if k = j then j :: r else j :: insertNat k r

end Sys2Proof.Machine
end

