-- ==== Sys2Proof/Syntax.lean ====
section
/-! DEFINITION. The instructions: one constructor for every row of spec/opcode_table.json. The 162 rows with an encoding are
slot instructions (10_isa_formats_and_opcode_map.md, Tables 10-6 to 10-11); the 74 rows without one are the device's own
steps (an event of a link, a sensor, the host, the firmware, the Shepherd or an engine), whose arguments are what the event
brings with it. -/

namespace Sys2Proof

/-- Scalar register S0–S31. -/
abbrev SReg := Fin 32
/-- Predicate flag F0–F15. -/
abbrev FReg := Fin 16
/-- Mask M0–M3. -/
abbrev MReg := Fin 4
/-- Codebook binding B0–B7. -/
abbrev BReg := Fin 8
/-- Accumulator tile AC0–AC3. -/
abbrev AcReg := Fin 4
/-- Circular buffer CB0–CB15. -/
abbrev CbReg := Fin 16
/-- Address generator AG0–AG5 (R209: 6 and 7 are illegal). -/
abbrev AgReg := Fin 6
/-- Fence range register FR0–FR7. -/
abbrev FrReg := Fin 8
/-- Barrier number 0–511. -/
abbrev BarReg := Fin 512

/-- A vector source: Table 10-4 with its peek mark (R208). `bc s` carries S(BCSEL), the register the bundle's header
selects; without a header it is S0 (R109). -/
inductive VSrc where
  | q (k : Fin 16) (pk : Bool)
  | l (k : Fin 4)
  | p (k : Fin 4) (pk : Bool)
  | bc (s : SReg)
deriving DecidableEq, Repr

/-- A vector destination (R209): a queue, a queue with the no-write-back bit (latch only), or the write ports P4 and P5. -/
inductive VDst where
  | q (k : Fin 16)
  | nwb (k : Fin 16)
  | p4
  | p5
deriving DecidableEq, Repr

/-- The lane-mask bits lent by the header (Table 10-3): MEN and MSK. -/
structure Merge where
  men : Bool
  msk : MReg
deriving DecidableEq, Repr

/-- Scopes, narrowest first (R6, Table 10-5, Table 7-1). -/
inductive Scope where
  | core | clu | die | pkg | sys
deriving DecidableEq, Repr

/-- SCOPE2 of LDT and VLDT (Table 10-5). -/
inductive Scope2 where
  | clu | die | pkg | sys
deriving DecidableEq, Repr

/-- ORD (Table 10-5). -/
inductive Ord where
  | rlx | acq | rel | acqrel
deriving DecidableEq, Repr

/-- TY codes 0h–Fh (Table 10-5). -/
inductive VTy where
  | s32 | n32 | s16 | n16 | s8 | n8 | f32 | f16 | bf16 | e4m3 | e5m2 | mx4 | mxi8 | ix4 | ix8 | ix12
deriving DecidableEq, Repr

/-- COND codes 0–Ah (Table 10-5). -/
inductive Cond where
  | eq | ne | lt | le | gt | ge | ltn | len | gtn | gen | un
deriving DecidableEq, Repr

/-- SZ: access size 1, 2, 4 or 8 bytes (Table 10-5). -/
inductive Size where
  | b1 | b2 | b4 | b8
deriving DecidableEq, Repr

/-- AMO operations (Table 13-4). -/
inductive AmoOp where
  | swap | add | and | or | xor | min | max | minn | maxn
deriving DecidableEq, Repr

/-- ROP of RED (R213). -/
inductive RedOp where
  | add | min | max
deriving DecidableEq, Repr

/-- RTY of RED (R213). -/
inductive RedTy where
  | f32 | bf16 | s32 | s64 | n32 | n64
deriving DecidableEq, Repr

/-- KIND of FENCE (R310, Table 7-3). -/
inductive FenceKind where
  | acq | rel | full
deriving DecidableEq, Repr

/-- AUX[2:0] of VRED (R271). -/
inductive VRedOp where
  | add | min | max | and | or | xor
deriving DecidableEq, Repr

/-- AUX[1:0] of VSCAN (R272). -/
inductive VScanOp where
  | add | min | max
deriving DecidableEq, Repr

/-- AUX[2:0] of VXPAND (R277). -/
inductive VXSrc where
  | s4 | n4 | e2m1 | e2m3 | e3m2
deriving DecidableEq, Repr

/-- FMT of MMD (Table 14-3). -/
inductive MmdFmt where
  | bf16 | f16 | e4e4 | e4e5 | e5e4 | e5e5 | mx4
deriving DecidableEq, Repr

/-- The CSRs of Table 10-12. -/
inductive Csr where
  | status | cause | epc | eval | evec | scratch | timecmp | ipisend | tlbinv | accown | accdirty | latprof
  | tstat (k : Fin 4) | ctxid | vdid | coreid | cycle | bundles | freezecnt | bankstall | stqcnt
deriving DecidableEq, Repr

/-- Why a slot word is no instruction: the SUB of ILLEGAL (R221). -/
inductive IllegalSub where
  | opcode    -- 01h: unassigned opcode, or a fetch at or beyond NBUND (R203)
  | reserved  -- 02h: a reserved field is non-zero
  | twice     -- 03h: one destination written twice
  | value     -- 04h: a reserved operand value
deriving DecidableEq, Repr

/-! ## What the device's own events bring with them -/

/-- The bring-up work that can complete or time out on its own (Table 1-6); Falyth and Ethernet have rows of their own. -/
inductive BringItem where
  | root                    -- step 1
  | pcie (k : Fin 2)        -- step 2, link k
  | hbm (s : Fin 8)         -- step 3, stack s
  | mpe                     -- step 4
  | service                 -- step 5
deriving DecidableEq, Repr

/-- What an end of a Falyth link states in PARAM (01 R15, R17, R18): its port number, whether it is a switch, its lane count, its replay depth,
whether it supports reductions, and its receive credits by virtual channel. -/
structure FalPartner where
  port    : Nat
  switch  : Bool
  lanes   : Nat
  depth   : Nat
  reduces : Bool
  credits : List Nat
deriving DecidableEq, Repr

/-- Where a die-to-die transfer is retried to, and whether it is the transfer's first retry (R10). -/
structure RetryTo where
  die   : Fin 4
  first : Bool
deriving DecidableEq, Repr

/-- What a driver submits for placement: a code object, and the rewritten object of a profile-4 one (03 R44, 17 R339). -/
structure Submission where
  obj       : List Byte
  rewritten : Option (List Byte)
deriving DecidableEq, Repr

/-- A PCI Express function: the physical function of a link, or a virtual function of it (R34). -/
inductive PciFn where
  | pf (link : Fin 2)
  | vf (link : Fin 2) (n : Fin 64)
deriving DecidableEq, Repr

/-- An operation on a dependence counter (Table 5-2); NAME carries the 64 bytes of the continuation's record. -/
inductive CtrOp where
  | add (n : Int)
  | dec
  | name (record : List Byte)
deriving DecidableEq, Repr

/-- What a failed integrity check covers (R70, payload byte 29); a node of level L(level + 1) (Table 4-5). -/
inductive IntegKind where
  | data | counter | node (level : Fin 7) | root
deriving DecidableEq, Repr

/-- The kind of a translated access (R120). -/
inductive AccKind where
  | rd | wr | fetch
deriving DecidableEq, Repr

/-- Every row of spec/opcode_table.json. -/
inductive Instr where
  -- Bring-up, links, heat and power (01_package_and_links.md, 02_heat_and_power.md)
  | powerOn
  | bringupStepComplete (w : BringItem)
  | bringupTimeout (w : BringItem)
  | pcieFundamentalReset
  | configRequest (fn : PciFn)
  | d2dTransferRetry (a : Fin 4) (b : RetryTo)
  | d2dLinkDown (a b : Fin 4)
  | falythFlitReceive (port : Fin 24) (sent : List Byte) (errs : List (Nat × Byte))
  | falythAckTimeout (port : Fin 24)
  | falythReplayLimit (port : Fin 24)
  | falythPhaseExit (port : Fin 24) (lanes : Fin 3) (partner : FalPartner)
  | falythTrainingTimeout (port : Fin 24)
  | falythDetectRetry (port : Fin 24) (seen : Bool)
  | reductionResultWrite (w : Nat) (off : Nat)
  | reductionReject (core : Nat) (seq : Nat)
  | ethernetLinkTraining (lane : Fin 16) (lanes : Nat)
  | thermalSample (die : Fin 4) (temps : Vector (BitVec 16 × Bool) 8)
  | throttleClockStep (die : Fin 4)
  | thermalTripClear (die : Fin 4)
  | hbmTempSample (stack : Fin 8) (temp : Int)
  | hbmRefresh (stack : Fin 8) (bank : Nat)
  | powerMeasurement (watts : BitVec 12)
  -- Host interface (03_host_interface.md)
  | pwrctlWrite (fn : PciFn) (authorised : Bool) (v : BitVec 32)
  | registerWrite (fn : PciFn) (off : Nat) (size : Nat) (v : Word)
  | evtailWrite (link : Fin 2) (vf : Fin 64) (v : Word)
  | apertureAccess (link : Fin 2) (vf : Fin 64) (off : Nat) (wr : Bool) (len : Nat) (bytes : List Byte)
  | continuationInjection (link : Fin 2) (vf : Fin 64) (off : Nat) (bytes : List Byte)
  -- Lifecycle (04_virtual_devices_and_protected_memory.md); the request stands in the mailbox of the link
  | vdCreate (link : Fin 2)
  | vdDestroy (link : Fin 2)
  | vdPause (link : Fin 2)
  | vdResume (link : Fin 2)
  | vdReset (link : Fin 2)
  | vdMigrate (link : Fin 2)
  | codePlace (link : Fin 2) (vd : Nat) (va : Word) (obj : Submission)
  | codeUnload (link : Fin 2) (vd : Nat) (handle : BitVec 32)
  | winCreate (link : Fin 2)
  | winRekey (link : Fin 2)
  | winFree (link : Fin 2)
  | handleMake (link : Fin 2)
  | attest (link : Fin 2) (vd : Nat) (nonce : List Byte)
  | doeAttestation (fn : PciFn) (vd : Nat) (nonce : List Byte) (chain : Bool)
  | telemetry (link : Fin 2)
  | eventPost (vd : Nat) (cls code : BitVec 8) (payload : List Byte)
  | msixSend (vd : Nat) (cls : Fin 8)
  | eventPendingDelivery (vd : Nat)
  -- Memory Protection Engine and translation
  | mpeRead (block : Nat) (fail : Option IntegKind)
  | mpeWrite (addr : Nat) (bytes : List Byte)
  | pageWalk (va : Word) (acc : AccKind)
  | loadDataArrival (core : Nat) (seq : Nat)
  -- Shepherd (05_shepherd_scheduling.md)
  | tileGenerate (vd : Nat) (cursor : Nat)
  | shepherdDispatch (die : Fin 4)
  | counterOperation (vd : Nat) (gen : BitVec 16) (ctr : BitVec 16) (op : CtrOp) (bund : Word)
  | quantumExpiry (core : Nat)
  | qosWindowEnd (vd : Nat)
  | tnextAnswer (core : Nat)
  -- Engines
  | copyCompletion (core : Nat) (chan : Nat)
  | arrayCommandCompletion (cluster : Nat)
  | cbsRefill (core : Nat) (b : BReg)
  | cbinvCompletion (k : Nat)
  | leaseGrant (cluster : Nat)
  | barrierArrival (k : Nat)
  -- Reports, interrupts and stops of the acting core (09_traps_and_contexts.md)
  | impreciseReport
  | timerInterrupt
  | ipiInterrupt
  | debugHalt
  | tlbinv (v : Word)
  | ipisend (v : Word)
  | timecmpWrite (v : Word)
  -- Slot 0: scalar (11_isa_scalar_and_control.md)
  | nop
  | add (p : FReg) (d a b : SReg)
  | sub (p : FReg) (d a b : SReg)
  | mul (p : FReg) (d a b : SReg)
  | mulh (p : FReg) (d a b : SReg)
  | mulhn (p : FReg) (d a b : SReg)
  | div (p : FReg) (d a b : SReg)
  | divn (p : FReg) (d a b : SReg)
  | rem (p : FReg) (d a b : SReg)
  | remn (p : FReg) (d a b : SReg)
  | and (p : FReg) (d a b : SReg)
  | or (p : FReg) (d a b : SReg)
  | xor (p : FReg) (d a b : SReg)
  | shl (p : FReg) (d a b : SReg)
  | shr (p : FReg) (d a b : SReg)
  | sra (p : FReg) (d a b : SReg)
  | min (p : FReg) (d a b : SReg)
  | max (p : FReg) (d a b : SReg)
  | minn (p : FReg) (d a b : SReg)
  | maxn (p : FReg) (d a b : SReg)
  | clz (p : FReg) (d a : SReg)
  | ctz (p : FReg) (d a : SReg)
  | popc (p : FReg) (d a : SReg)
  | addx (p : FReg) (d a b : SReg) (sh : Fin 8)
  | sel (p : FReg) (d a b : SReg) (fs : FReg)
  | addi (p : FReg) (d a : SReg) (imm : BitVec 12)
  | andi (p : FReg) (d a : SReg) (imm : BitVec 12)
  | ori (p : FReg) (d a : SReg) (imm : BitVec 12)
  | xori (p : FReg) (d a : SReg) (imm : BitVec 12)
  | shli (p : FReg) (d a : SReg) (sh : Fin 64)
  | shri (p : FReg) (d a : SReg) (sh : Fin 64)
  | srai (p : FReg) (d a : SReg) (sh : Fin 64)
  | exts (p : FReg) (d a : SReg) (pos lenm1 : Fin 64)
  | extz (p : FReg) (d a : SReg) (pos lenm1 : Fin 64)
  | li (p : FReg) (d : SReg) (imm : BitVec 17)
  | lih (p : FReg) (d : SReg) (imm : BitVec 16)
  | cmp (p : FReg) (fd : FReg) (a b : SReg) (c : Cond)
  | cmpi (p : FReg) (fd : FReg) (a : SReg) (c : Cond) (imm : BitVec 9)
  | fset (p : FReg) (fd : FReg)
  | fclr (p : FReg) (fd : FReg)
  | fand (p : FReg) (fd fa fb : FReg)
  | forr (p : FReg) (fd fa fb : FReg)
  | fnot (p : FReg) (fd fa : FReg)
  | lds (p : FReg) (d a : SReg) (sz : Size) (sgn : Bool) (disp : BitVec 9)
  | ldt8 (p : FReg) (d a : SReg) (arr : BitVec 8) (sgn acq : Bool) (sc : Scope2)
  | ldt16 (p : FReg) (d a : SReg) (arr : BitVec 8) (sgn acq : Bool) (sc : Scope2)
  | ldt32 (p : FReg) (d a : SReg) (arr : BitVec 8) (sgn acq : Bool) (sc : Scope2)
  | ldt64 (p : FReg) (d a : SReg) (arr : BitVec 8) (acq : Bool) (sc : Scope2)
  | st (p : FReg) (t a : SReg) (sz : Size) (rel : Bool) (sc : Scope) (disp : BitVec 6)
  | br (p : FReg) (off : BitVec 22)
  | brf (p : FReg) (fa : FReg) (off : BitVec 18)
  | jr (p : FReg) (a : SReg)
  | call (p : FReg) (off : BitVec 22)
  | callr (p : FReg) (a : SReg)
  | ret (p : FReg)
  | loop (p : FReg) (cntm1 : BitVec 12) (lenm1 : BitVec 10)
  | loops (p : FReg) (a : SReg) (lenm1 : BitVec 10)
  | loopp (p : FReg) (a b : SReg) (lenm1 : BitVec 10)
  | lstep (p : FReg) (d a : SReg)
  | lbrk (p : FReg)
  | waitf (p : FReg) (mask : BitVec 16) (any : Bool)
  | crd (p : FReg) (d : SReg) (csr : Csr)
  | cwr (p : FReg) (d : SReg) (csr : Csr)
  | stqpop (p : FReg) (d : SReg) (h : Bool)
  -- Slot 0: atomics, reductions, barriers, fences (13_isa_memory_sync_and_copy.md)
  | amo (p : FReg) (t a : SReg) (op : AmoOp) (ord : Ord) (sc : Scope) (sz64 : Bool)
  | cas (p : FReg) (t a b : SReg) (ord : Ord) (sc : Scope) (sz64 : Bool)
  | red (p : FReg) (a b : SReg) (op : RedOp) (ty : RedTy) (sc : Scope)
  | redWin (p : FReg) (a b : SReg)
  | barinit (p : FReg) (n : BarReg) (a : SReg)
  | bararr (p : FReg) (n : BarReg) (a : SReg)
  | barwait (p : FReg) (n : BarReg) (sense : Bool) (fb : FReg)
  | frset (p : FReg) (k : FrReg) (a b : SReg)
  | fence (p : FReg) (mask : BitVec 8) (kind : FenceKind) (sc : Scope)
  -- Slot 0: tasks and system (14_isa_matrix_tasks_and_system.md)
  | tspawn (p : FReg) (a b : SReg)
  | tspawnWait (p : FReg) (a b : SReg)
  | tdep (p : FReg) (a b : SReg)
  | tdepDec (p : FReg) (a : SReg)
  | cwait (p : FReg) (a : SReg) (fb : FReg)
  | cwaitYield (p : FReg) (a : SReg) (live : BitVec 12)
  | tsusp (p : FReg) (live : BitVec 12)
  | texit (p : FReg)
  | tnext (p : FReg)
  | safept (p : FReg) (live : BitVec 12)
  | trap (p : FReg) (imm : BitVec 16)
  | eret (p : FReg)
  | ebrk (p : FReg)
  | isync (p : FReg)
  | iinv (p : FReg) (a b : SReg)
  -- Slot 1: vector memory
  | vld (p : FReg) (d : VDst) (a : SReg) (disp : BitVec 18)
  | vldt (p : FReg) (d : VDst) (a : SReg) (arr : BitVec 15) (acq : Bool) (sc : Scope2)
  | vst (p : FReg) (s : VSrc) (a : SReg) (sc : Scope) (rel men : Bool) (msk : MReg) (disp : BitVec 11)
  | vldx (p : FReg) (d : VDst) (a : SReg) (x : VSrc)
  | vstx (p : FReg) (s : VSrc) (a : SReg) (x : VSrc) (men : Bool) (msk : MReg)
  | vstq (p : FReg) (s : VSrc) (a b : SReg) (n : BReg)
  | agset (p : FReg) (g : AgReg) (a : SReg)
  | cbset (p : FReg) (c : CbReg) (a : SReg)
  | cbacq (p : FReg) (c : CbReg) (d : SReg) (fb : FReg)
  | cbrel (p : FReg) (c : CbReg)
  -- Slot 2: vector arithmetic (12_isa_vector.md)
  | vadd (p : FReg) (m : Merge) (d : VDst) (a b : VSrc) (ty : VTy)
  | vsub (p : FReg) (m : Merge) (d : VDst) (a b : VSrc) (ty : VTy)
  | vmul (p : FReg) (m : Merge) (d : VDst) (a b : VSrc) (ty : VTy)
  | vfma (p : FReg) (m : Merge) (d : VDst) (a b c : VSrc) (bf : Bool)
  | vfms (p : FReg) (m : Merge) (d : VDst) (a b c : VSrc) (bf : Bool)
  | vmin (p : FReg) (m : Merge) (d : VDst) (a b : VSrc) (ty : VTy)
  | vmax (p : FReg) (m : Merge) (d : VDst) (a b : VSrc) (ty : VTy)
  | vabs (p : FReg) (m : Merge) (d : VDst) (a : VSrc) (ty : VTy)
  | vneg (p : FReg) (m : Merge) (d : VDst) (a : VSrc) (ty : VTy)
  | vand (p : FReg) (m : Merge) (d : VDst) (a b : VSrc)
  | vor (p : FReg) (m : Merge) (d : VDst) (a b : VSrc)
  | vxor (p : FReg) (m : Merge) (d : VDst) (a b : VSrc)
  | vnot (p : FReg) (m : Merge) (d : VDst) (a : VSrc)
  | vshl (p : FReg) (m : Merge) (d : VDst) (a b : VSrc) (ty : VTy)
  | vshr (p : FReg) (m : Merge) (d : VDst) (a b : VSrc) (ty : VTy)
  | vsra (p : FReg) (m : Merge) (d : VDst) (a b : VSrc) (ty : VTy)
  | vcmp (p : FReg) (md : MReg) (a b : VSrc) (c : Cond) (ty : VTy)
  | vsel (p : FReg) (m : Merge) (d : VDst) (a b : VSrc) (k : MReg)
  | vmov (p : FReg) (m : Merge) (d : VDst) (a : VSrc)
  | vbc (p : FReg) (m : Merge) (d : VDst) (a : VSrc) (k : Fin 64) (ty : VTy)
  | vperm (p : FReg) (m : Merge) (d : VDst) (a b : VSrc) (ty : VTy)
  | vrot (p : FReg) (m : Merge) (d : VDst) (a : VSrc) (k : Fin 64) (ty : VTy)
  | vshuf (p : FReg) (m : Merge) (d : VDst) (a b : VSrc) (ty : VTy)
  | vred (p : FReg) (m : Merge) (d : VDst) (a : VSrc) (op : VRedOp) (ty : VTy)
  | vscan (p : FReg) (m : Merge) (d : VDst) (a : VSrc) (op : VScanOp) (excl : Bool) (ty : VTy)
  | vext (p : FReg) (d : SReg) (a : VSrc) (k : Fin 64) (ty : VTy)
  | vexp2 (p : FReg) (m : Merge) (d : VDst) (a : VSrc)
  | vlog2 (p : FReg) (m : Merge) (d : VDst) (a : VSrc)
  | vrcp (p : FReg) (m : Merge) (d : VDst) (a : VSrc)
  | vrsq (p : FReg) (m : Merge) (d : VDst) (a : VSrc)
  | vcvt (p : FReg) (m : Merge) (d : VDst) (a : VSrc) (sat part : Bool) (ts td : VTy)
  | vxpand (p : FReg) (m : Merge) (d : VDst) (a : VSrc) (src : VXSrc) (hi : Bool)
  | vmx (p : FReg) (m : Merge) (d : VDst) (a b : VSrc) (ty : VTy)
  | vqz (p : FReg) (m : Merge) (d : VDst) (a b : VSrc) (n : BReg)
  | vdq (p : FReg) (m : Merge) (d : VDst) (a b : VSrc) (n : BReg)
  | vdiff (p : FReg) (md : MReg) (a b : VSrc) (ty : VTy)
  | vcompact (p : FReg) (m : Merge) (d : VDst) (a b : VSrc) (k : MReg)
  | vexpand (p : FReg) (m : Merge) (d : VDst) (a b : VSrc) (k : MReg)
  | vpopc (p : FReg) (m : Merge) (d : VDst) (a : VSrc) (ty : VTy)
  | vclz (p : FReg) (m : Merge) (d : VDst) (a : VSrc) (ty : VTy)
  | vtrp (p : FReg) (a : VSrc) (rst : Bool)
  | vtrc (p : FReg) (m : Merge) (d : VDst) (rst : Bool)
  | mset (p : FReg) (d : MReg) (a : SReg)
  | mand (p : FReg) (d x y : MReg)
  | mor (p : FReg) (d x y : MReg)
  | mnot (p : FReg) (d x : MReg)
  -- Slot 3: array, codebooks, copies
  | lease (p : FReg)
  | lfree (p : FReg)
  | mmd (p : FReg) (c : AcReg) (a b t : SReg) (f : MmdFmt)
  | tbld (p : FReg) (n : BReg) (a b t : SReg)
  | mmt (p : FReg) (c : AcReg) (n : BReg) (a b t : SReg)
  | mmtd (p : FReg) (c : AcReg) (n : BReg) (a b t : SReg)
  | accz (p : FReg) (c : AcReg) (t : SReg)
  | accld (p : FReg) (c : AcReg) (a : SReg) (tg : Fin 16) (t : SReg)
  | accst (p : FReg) (c : AcReg) (a : SReg) (ty : VTy) (sat : Bool) (t : SReg)
  | cbbind (p : FReg) (n : BReg) (a : SReg) (mode : Bool) (t : SReg)
  | cbfree (p : FReg) (n : BReg)
  | cbinv (p : FReg) (a t : SReg)
  | cbpre (p : FReg) (a : SReg)
  | cpy (p : FReg) (d s h t : SReg)
  | cpyq (p : FReg) (d s h t : SReg)
  | cpyd (p : FReg) (d s h t : SReg)
  | cpym (p : FReg) (d s h t : SReg)
  | cpyf (p : FReg) (d s h t : SReg)
  -- Words that are no instruction, and the rest of the device's events
  | illegalSlotWord (slot : Fin 4) (why : IllegalSub) (word : BitVec 32)
  | requestCompletion (core : Nat) (seq : Nat)
  | cbsEviction (cluster : Nat) (key : Nat) (gen : BitVec 32)
  | pcieLinkTrained (link : Fin 2)
  | powerOff
  | unassignedOffsetAccess (fn : PciFn)
deriving DecidableEq, Repr

end Sys2Proof
end

