-- ==== Sys2Proof/Machine/Float.lean ====
section
/-! DEFINITION. Floating-point values and the one rounding of every operation (08_formats_and_codebooks.md R156-R160, Tables
8-1 to 8-3; 12 R263, R275, R276). A finite value is an exact dyadic number; an operation is exact and its result is rounded
once to nearest, ties to even. -/

namespace Sys2Proof.Machine

/-- A format of Table 8-1: mantissa and total bits below the sign, bias, the magnitude bits of the largest finite value, of
infinity and of the canonical NaN. -/
structure Fmt where
  mb     : Nat
  width  : Nat
  bias   : Nat
  maxMag : Nat
  inf    : Option Nat
  nan    : Nat
deriving DecidableEq, Repr

def fmtF32 : Fmt := ⟨23, 32, 127, 0x7F7FFFFF, some 0x7F800000, 0x7FC00000⟩
def fmtF16 : Fmt := ⟨10, 16, 15, 0x7BFF, some 0x7C00, 0x7E00⟩
def fmtBf16 : Fmt := ⟨7, 16, 127, 0x7F7F, some 0x7F80, 0x7FC0⟩
def fmtE4m3 : Fmt := ⟨3, 8, 7, 0x7E, none, 0x7F⟩
def fmtE5m2 : Fmt := ⟨2, 8, 15, 0x7B, some 0x7C, 0x7E⟩
/-- E2M1 has neither infinity nor NaN; its NaN field is never read (08 Table 8-1). -/
def fmtE2m1 : Fmt := ⟨1, 4, 1, 0x7, none, 0x8⟩

/-- The floating format of a type code. -/
def fmtOf : VTy → Option Fmt
  | .f32 => some fmtF32
  | .f16 => some fmtF16
  | .bf16 => some fmtBf16
  | .e4m3 => some fmtE4m3
  | .e5m2 => some fmtE5m2
  | _ => none

/-- A value: NaN, an infinity, or (−1)^neg × m × 2^e exactly; a zero keeps its sign. -/
inductive FVal where
  | nan
  | inf (neg : Bool)
  | num (neg : Bool) (m : Nat) (e : Int)
deriving DecidableEq, Repr

/-- +0. -/
def FVal.zero : FVal := .num false 0 0

/-- The value of an encoding (R156). -/
def fdec (f : Fmt) (x : Nat) : FVal :=
  let neg := x / 2 ^ (f.width - 1) % 2 == 1
  let mag := x % 2 ^ (f.width - 1)
  let ex := mag / 2 ^ f.mb
  let fr := mag % 2 ^ f.mb
  if mag ≤ f.maxMag then
    if ex = 0 then .num neg fr (1 - (f.bias : Int) - f.mb)
    else .num neg (2 ^ f.mb + fr) ((ex : Int) - f.bias - f.mb)
  else if f.inf = some mag then .inf neg
  else .nan

/-- m / 2^sh rounded to nearest, ties to even. -/
def roundShift (m sh : Nat) : Nat :=
  let q := m / 2 ^ sh
  let r := m % 2 ^ sh
  if sh = 0 then m
  else if 2 * r < 2 ^ sh then q
  else if 2 * r > 2 ^ sh then q + 1
  else q + q % 2

/-- m × 2^e rounded to an integer, ties to even. -/
def roundInt (m : Nat) (e : Int) : Nat :=
  if 0 ≤ e then m * 2 ^ e.toNat else roundShift m (-e).toNat

/-- A rounded result: the magnitude bits as the unbounded exponent range gives them, and whether a nonzero value became 0. -/
structure Rounded where
  mag   : Nat
  under : Bool
deriving DecidableEq, Repr

/-- Round m × 2^e to the format's precision with the exponent unbounded above (R158). -/
def roundMag (f : Fmt) (m : Nat) (e : Int) : Rounded :=
  if m = 0 then ⟨0, false⟩ else
  let emin : Int := 1 - (f.bias : Int) - f.mb
  let q0 : Int := e + bitLen m - (f.mb + 1 : Nat)
  let q : Int := if q0 < emin then emin else q0
  let r := roundInt m (e - q)
  let (r, q) := if r = 2 ^ (f.mb + 1) then (2 ^ f.mb, q + 1) else (r, q)
  if r < 2 ^ f.mb then ⟨r, r = 0⟩
  else ⟨(q - emin + 1).toNat * 2 ^ f.mb + (r - 2 ^ f.mb), false⟩

/-- A converted value with what R158 records of it. -/
structure Conv where
  bits  : Nat
  sat   : Bool
  ovf  : Bool
  under : Bool
  nan   : Bool
deriving DecidableEq, Repr

/-- Put a sign on magnitude bits. -/
def signed (f : Fmt) (neg : Bool) (mag : Nat) : Nat := (if neg then 2 ^ (f.width - 1) else 0) + mag

/-- Conversion to a floating format (R158, Table 8-2). `sat` is the saturating form. -/
def fconv (f : Fmt) (sat : Bool) : FVal → Conv
  | .nan => ⟨f.nan, false, false, false, true⟩
  | .inf neg =>
    match f.inf with
    | some i => if sat then ⟨signed f neg f.maxMag, true, false, false, false⟩ else ⟨signed f neg i, false, false, false, false⟩
    | none => ⟨signed f neg f.maxMag, true, false, false, false⟩
  | .num neg m e =>
    let r := roundMag f m e
    if r.mag ≤ f.maxMag then ⟨signed f neg r.mag, false, false, r.under, false⟩
    else match f.inf with
      | some i =>
        if sat then ⟨signed f neg f.maxMag, true, false, false, false⟩ else ⟨signed f neg i, false, true, false, false⟩
      | none => ⟨signed f neg f.maxMag, true, false, false, false⟩

/-- Round under R157: the encoding of an operation's exact result. -/
def fround (f : Fmt) (v : FVal) : Nat := (fconv f false v).bits

/-- Conversion to a signed or unsigned integer of w bits (Table 8-2). -/
def iconv (w : Nat) (isSigned : Bool) (v : FVal) : Conv :=
  let lo : Int := if isSigned then -(2 ^ (w - 1) : Nat) else 0
  let hi : Int := if isSigned then (2 ^ (w - 1) : Nat) - 1 else (2 ^ w : Nat) - 1
  match v with
  | .nan => ⟨0, true, false, false, true⟩
  | .inf neg => ⟨wrap w (if neg then lo else hi), true, false, false, false⟩
  | .num neg m e =>
    let n : Int := roundInt m e
    let n := if neg then -n else n
    if n < lo then ⟨wrap w lo, true, false, false, false⟩
    else if hi < n then ⟨wrap w hi, true, false, false, false⟩
    else ⟨wrap w n, false, false, false, false⟩

/-- The value of an integer. -/
def FVal.ofInt (n : Int) : FVal := .num (decide (n < 0)) n.natAbs 0

/-- The signed mantissa at exponent q, for q at most e. -/
def atExp (neg : Bool) (m : Nat) (e q : Int) : Int :=
  let x : Int := m * 2 ^ (e - q).toNat
  if neg then -x else x

/-- Exact sum (R157). -/
def FVal.add : FVal → FVal → FVal
  | .nan, _ | _, .nan => .nan
  | .inf a, .inf b => if a = b then .inf a else .nan
  | .inf a, _ | _, .inf a => .inf a
  | .num na ma ea, .num nb mb eb =>
    let q := if ea < eb then ea else eb
    let s := atExp na ma ea q + atExp nb mb eb q
    if s = 0 then .num (ma == 0 && mb == 0 && na && nb) 0 q
    else .num (decide (s < 0)) s.natAbs q

/-- Sign change. -/
def FVal.neg : FVal → FVal
  | .nan => .nan
  | .inf a => .inf (!a)
  | .num n m e => .num (!n) m e

/-- Exact product (R157). -/
def FVal.mul : FVal → FVal → FVal
  | .nan, _ | _, .nan => .nan
  | .inf a, .inf b => .inf (a != b)
  | .inf a, .num n m _ | .num n m _, .inf a => if m = 0 then .nan else .inf (a != n)
  | .num na ma ea, .num nb mb eb => .num (na != nb) (ma * mb) (ea + eb)

/-- Times 2^k. -/
def FVal.scale (k : Int) : FVal → FVal
  | .nan => .nan
  | .inf a => .inf a
  | .num n m e => .num n m (e + k)

/-- Whether a value is NaN. -/
def FVal.isNan : FVal → Bool
  | .nan => true
  | _ => false

/-- Whether a value is an infinity. -/
def FVal.isInf : FVal → Bool
  | .inf _ => true
  | _ => false

/-- Whether a value is a nonzero number. -/
def FVal.nonzero : FVal → Bool
  | .num _ m _ => m != 0
  | _ => false

/-- a < b for values that are not NaN, −0 equal to +0. -/
def FVal.lt : FVal → FVal → Bool
  | .inf a, .inf b => a && !b
  | .inf a, .num _ _ _ => a
  | .num _ _ _, .inf b => !b
  | .num na ma ea, .num nb mb eb =>
    let q := if ea < eb then ea else eb
    decide (atExp na ma ea q < atExp nb mb eb q)
  | _, _ => false

/-- The sign of a value. -/
def FVal.isNeg : FVal → Bool
  | .num n _ _ => n
  | .inf n => n
  | .nan => false

/-- Smaller, −0 below +0, NaN where either is NaN (12 R263). -/
def FVal.min (a b : FVal) : FVal :=
  if a.isNan || b.isNan then .nan
  else if a.lt b then a else if b.lt a then b else if a.isNeg then a else b

/-- Larger, −0 below +0, NaN where either is NaN. -/
def FVal.max (a b : FVal) : FVal :=
  if a.isNan || b.isNan then .nan
  else if a.lt b then b else if b.lt a then a else if a.isNeg then b else a

/-- Magnitude. -/
def FVal.abs : FVal → FVal
  | .nan => .nan
  | .inf _ => .inf false
  | .num _ m e => .num false m e

/-! ## Transcendental functions (12 R275)

Each value is computed exactly, or with its first bits exact and a mark that it is not exact, which is enough for one rounding:
`sticky m` stands for a value strictly between m and m + 1. -/

/-- A mantissa whose true value lies strictly above m and below m + 1, one binary place finer. -/
def sticky (m : Nat) (inexact : Bool) : Nat := 2 * m + (if inexact then 1 else 0)

/-- Integer square root by binary digits, from bit i downward. -/
def isqrtFrom : Nat → Nat → Nat → Nat
  | 0, n, r => if (r + 1) * (r + 1) ≤ n then r + 1 else r
  | i + 1, n, r =>
    let t := r + 2 ^ (i + 1)
    isqrtFrom i n (if t * t ≤ n then t else r)

/-- Integer square root of a number below 2^520. -/
def isqrt (n : Nat) : Nat := isqrtFrom 259 n 0

/-- 1/x rounded. -/
def frcp (x : FVal) : FVal :=
  match x with
  | .nan => .nan
  | .inf n => .num n 0 0
  | .num n m e =>
    if m = 0 then .inf n
    else
      let k := 2 * bitLen m + 64
      .num n (sticky (2 ^ k / m) (2 ^ k % m != 0)) (-e - k - 1)

/-- 1/√x rounded. -/
def frsq (x : FVal) : FVal :=
  match x with
  | .nan => .nan
  | .inf n => if n then .nan else .zero
  | .num n m e =>
    if m = 0 then .inf n
    else if n then .nan
    else
      let m2 := if e % 2 = 0 then m else 2 * m
      let e2 := if e % 2 = 0 then e else e - 1
      let s := isqrt (2 ^ 256 / m2)
      .num false (sticky s (s * s * m2 != 2 ^ 256)) (-(e2 / 2) - 128 - 1)

/-- 2^(2^-i) for i = 1, 2, … in units of 2^-200, multiplied up over the fraction bits of a number below 2^n: `root` is
2^(2^-(i-1)), `acc` the product so far. -/
def exp2Frac : Nat → Nat → Nat → Nat → Nat
  | 0, _, _, acc => acc
  | i + 1, f, root, acc =>
    let r := isqrt (root * 2 ^ 200)
    let b := f / 2 ^ i % 2
    exp2Frac i f r (if b = 1 then acc * r / 2 ^ 200 else acc)

/-- 2^x rounded. A finite x outside −200 … 200 overflows or underflows in FP32 whatever its fraction; an x nearer to 0 than
2^-40 gives 1 after the rounding. -/
def fexp2 (x : FVal) : FVal :=
  match x with
  | .nan => .nan
  | .inf n => if n then .zero else .inf false
  | .num n m e =>
    if m = 0 then .num false 1 0
    else if decide ((bitLen m : Int) + e > 9) then (if n then .num false 1 (-400) else .num false 1 400)
    else if decide ((bitLen m : Int) + e < -40) then .num false (2 ^ 60 + (if n then 0 else 2) - 1) (-60)
    else
      let fixed : Int := atExp n m (e + 80) 0
      let fixed := if e + 80 < 0 then (if n then -1 else 1) * ((m / 2 ^ (-(e + 80)).toNat : Nat) : Int) else fixed
      let ip := fixed / (2 ^ 80 : Nat)
      let fp := (fixed % (2 ^ 80 : Nat)).toNat
      if fp = 0 then .num false 1 ip
      else .num false (sticky (exp2Frac 80 fp (2 * 2 ^ 200) (2 ^ 200)) true) (ip - 200 - 1)

/-- The first n binary places of log2 of y / 2^200, y between 2^200 and 2^201. -/
def log2Frac : Nat → Nat → Nat → Nat
  | 0, _, acc => acc
  | n + 1, y, acc =>
    let y2 := y * y / 2 ^ 200
    if y2 ≥ 2 ^ 201 then log2Frac n (y2 / 2) (2 * acc + 1) else log2Frac n y2 (2 * acc)

/-- log2 x rounded. -/
def flog2 (x : FVal) : FVal :=
  match x with
  | .nan => .nan
  | .inf n => if n then .nan else .inf false
  | .num n m e =>
    if m = 0 then .inf true
    else if n then .nan
    else
      let k : Nat := bitLen m - 1
      let ip : Int := e + k
      let y := m * 2 ^ (200 - k)
      if m = 2 ^ k then FVal.ofInt ip
      else
        let fixed : Int := ip * (2 ^ 100 : Nat) + (log2Frac 100 y 0 : Nat)
        if fixed < 0 then .num true (sticky (-fixed - 1).toNat true) (-101)
        else .num false (sticky fixed.toNat true) (-101)

/-! ## MX blocks and sub-byte sources -/

/-- floor(log2 v) of a nonzero finite value. -/
def floorLog2 (m : Nat) (e : Int) : Int := e + (bitLen m : Int) - 1

/-- The largest finite magnitude of a list of values (08 R159, R171). -/
def amax (vs : List FVal) : FVal :=
  vs.foldl (fun acc v => if v.isInf || v.isNan then acc else if acc.lt v.abs then v.abs else acc) .zero

/-- The scale R159 chooses; `emax` is 2 for MXFP4 and 0 for MXINT8. -/
def mxScale (vs : List FVal) (emax : Int) : Nat :=
  if vs.any (·.isNan) then 0xFF
  else match amax vs with
    | .num _ m e => if m = 0 then 0 else (Max.max 0 (Min.min 254 (floorLog2 m e - emax + 127))).toNat
    | _ => 0

/-- An MXFP4 element (08 R159). -/
def mxElem4 (x : Nat) (v : FVal) : Conv :=
  if x = 0xFF then ⟨0, false, false, false, v.isNan⟩ else fconv fmtE2m1 false (v.scale (127 - (x : Int)))

/-- An MXINT8 element (08 R159): rounded, then clamped to −127 … 127. -/
def mxElem8 (x : Nat) (v : FVal) : Conv :=
  if x = 0xFF then ⟨0, false, false, false, v.isNan⟩ else
  match v with
  | .nan => ⟨0, false, false, false, true⟩
  | .inf n => ⟨wrap 8 (if n then -127 else 127), true, false, false, false⟩
  | .num n m e =>
    let r : Int := roundInt m (e + 133 - x)
    let s : Int := if n then -r else r
    if 127 < s then ⟨127, true, false, false, false⟩
    else if s < -127 then ⟨wrap 8 (-127), true, false, false, false⟩
    else ⟨wrap 8 s, false, false, m != 0 && r == 0, false⟩

/-- The value of a sub-byte field (08 Table 8-3). -/
def subByte (src : VXSrc) (x : Nat) : FVal :=
  match src with
  | .s4 => FVal.ofInt (sgn 4 x)
  | .n4 => FVal.ofInt x
  | .e2m1 => fdec fmtE2m1 x
  | .e2m3 => fdec ⟨3, 6, 1, 0x1F, none, 0x20⟩ x
  | .e3m2 => fdec ⟨2, 6, 3, 0x1F, none, 0x20⟩ x

/-- E8M0: 2^(x−127), FFh a NaN (08 Table 8-1). -/
def e8m0 (x : Nat) : FVal := if x = 0xFF then .nan else .num false 1 ((x : Int) - 127)

end Sys2Proof.Machine
end

