-- ==== Sys2Proof/Config.lean ====
section
/-! DEFINITION. The values the spec leaves open: opaque constants without a body, so that no proof can lean on one. A function
of a counter is drawn with `State.fresh`, a new argument each time; the cryptographic primitives and root firmware's secrets
are uninterpreted functions of what they are applied to (log entries 2, 3, 13). -/

namespace Sys2Proof.Config

/-- Die cycles of a freeze or a wait whose length the spec leaves open (06 Table 6-1). -/
opaque freezeCycles : Nat → Nat

/-- Nanoseconds of package time that passed before an event is stamped (03 Table 3-10). -/
opaque elapsedNs : Nat → Nat

/-- The die clock, in units of 10 MHz, with which a die starts again after a trip (02 R27). -/
opaque restartClock : Nat → Nat

/-- CODE of an event of a class for which the spec states none: 0, 4, 5 (03 Table 3-10). -/
opaque eventCode : Nat → BitVec 8

/-- Payload bytes of an event that its class does not state (03 Table 3-10): draw, byte. -/
opaque eventPad : Nat → Nat → Byte

/-- Whether a fetch that may see old or new code sees the old (07 R155). -/
opaque staleFetch : Nat → Bool

/-- Which of the 128 TLB entries a fill replaces (06 R121). -/
opaque tlbVictim : Nat → Nat

/-- Which copy of a full CBS a fill replaces (08 R167). -/
opaque cbsVictim : Nat → Nat

/-- Whether a byte stored fewer than 8 cycles before an AGSET or CBSET is seen by it (13 R294). -/
opaque recentStoreSeen : Nat → Bool

/-- Whether the scale that VMX.n8 gives is that of MXFP4 rather than that of MXINT8 (12 R278, 08 R159 name no choice). -/
opaque scaleOfMx4 : Bool

/-- The estimate in ns that the queue-latency monitor reports for a bin whose upper edge is no whole number, or which has none
(05 R102). -/
opaque qosEdge : Nat → Nat

/-- A code object handle root firmware chooses (03 R45). -/
opaque handleValue : Nat → BitVec 32

/-- AES-256 under the encryption key of a domain: domain, key generation, input block (04 R60, R61). -/
opaque aesBlock : Nat → Nat → BitVec 128 → BitVec 128

/-- AES-256-CMAC under the MAC key of a domain: domain, key generation, message (04 R62). -/
opaque cmac : Nat → Nat → List Byte → BitVec 128

/-- The ECDSA signature r, s of a digest under the device identity key (03 R50, R51). -/
opaque ecdsaSign : BitVec 384 → BitVec 768

/-- The certificate chain of the device identity key (03 R51). -/
opaque certChain : List Byte

/-- The measurement of boot ROM and root firmware (03 R50). -/
opaque meas0 : BitVec 384

/-- The measurement of service firmware (03 R50). -/
opaque meas1 : BitVec 384

/-- The answer to a TELEMETRY request, of which the spec gives no layout (03 Table 3-11). -/
opaque telemetryAnswer : Nat → List Byte

/-- A contribution of a rank that is not a core of this package to line `off` of reduction window `w` (01 R20): window, offset,
epoch, rank. -/
opaque peerLine : Nat → Nat → Nat → Nat → BitVec 512

/-- Bytes of peer memory that a copy reads through a kind 2 handle: chip, handle, offset, draw (06 R122). -/
opaque peerByte : Nat → Nat → Nat → Nat → Byte

/-- The host range of a VF that the PF driver has assigned: link, VF, bus address (06 R122). -/
opaque hostRangeAssigned : Nat → Nat → Nat → Bool

/-- The 64-byte place in the pool at which root firmware puts a node of the levels L4 to L7 (04 Table 4-5): domain, die, level, index. -/
opaque poolSlot : Nat → Nat → Nat → Nat → Nat

/-- Which of the six Falyth ports of a die takes the contributions to a line (13 R305): home chip, home handle, offset div 64. -/
opaque portOf : Nat → Nat → Nat → Fin 6

/-- Which entry of the metadata cache is evicted, if any (04 R64). -/
opaque metadataVictim : Nat → Nat

/-- The HBM-region offset reported for a poisoned block that no page of the VD maps (04 R70). -/
opaque unmappedOffset : Nat → Word

end Sys2Proof.Config
end

