-- ==== Sys2Proof/WellFormed.lean ====
section
/-! DEFINITION. Well-formed instructions: the operand values an instruction's own entry accepts, where the types of Syntax
admit more (10_isa_formats_and_opcode_map.md R221 case 3, 12_isa_vector.md R261 Table 12-2 and the entries named below). -/

namespace Sys2Proof

/-- The element width of a type code in bits; 0 for a code that names no plain element (12 R257). -/
def VTy.width : VTy → Nat
  | .s32 | .n32 | .f32 => 32
  | .s16 | .n16 | .f16 | .bf16 => 16
  | .s8 | .n8 | .e4m3 | .e5m2 => 8
  | _ => 0

/-- Codes 0h-8h (Table 12-2): integers of 32, 16 and 8 bits, .f32, .f16, .bf16. -/
def VTy.arith : VTy → Bool
  | .s32 | .n32 | .s16 | .n16 | .s8 | .n8 | .f32 | .f16 | .bf16 => true
  | _ => false

/-- Codes 0h-5h: the integer types. -/
def VTy.isInt : VTy → Bool
  | .s32 | .n32 | .s16 | .n16 | .s8 | .n8 => true
  | _ => false

/-- Codes 0h-6h (VRED, VSCAN). -/
def VTy.redOk : VTy → Bool
  | .s32 | .n32 | .s16 | .n16 | .s8 | .n8 | .f32 => true
  | _ => false

/-- Codes 0h-Ah (VCVT). -/
def VTy.cvtOk (t : VTy) : Bool := t.width != 0

/-- The signed integer types. -/
def VTy.signed : VTy → Bool
  | .s32 | .s16 | .s8 => true
  | _ => false

/-- The conditions of integers: .eq to .gen (11 R235). -/
def Cond.isInt : Cond → Bool
  | .un => false
  | _ => true

/-- The conditions of VCMP on .f32: .eq to .ge and .un (12 R267). -/
def Cond.isFloat : Cond → Bool
  | .eq | .ne | .lt | .le | .gt | .ge | .un => true
  | _ => false

/-- The types a condition of VCMP goes with (12 R267). -/
def vcmpOk (c : Cond) : VTy → Bool
  | .s32 | .n32 => c.isInt
  | .f32 => c.isFloat
  | _ => false

/-- An element index of VBC, VROT or VEXT is below N (12 R270, R273). -/
def laneOk (k : Fin 64) (ty : VTy) : Bool := ty.arith && decide (k.val * ty.width < 1024)

/-- VRED: for .f32 only .add, .min and .max (12 R271). -/
def vredOk (op : VRedOp) (ty : VTy) : Bool :=
  ty.redOk && (ty != .f32 || (op == .add || op == .min || op == .max))

/-- VCVT (12 R276): both codes 0h-Ah and different; SAT only with a floating target other than E4M3; PART only between
different widths. -/
def vcvtOk (sat part : Bool) (ts td : VTy) : Bool :=
  ts.cvtOk && td.cvtOk && ts != td && (!sat || !(td.isInt || td == .e4m3)) && (!part || ts.width != td.width)

/-- VXPAND: HI must be 0 with an FP6 source (12 R277). -/
def vxpandOk (src : VXSrc) (hi : Bool) : Bool :=
  !hi || (src == .s4 || src == .n4 || src == .e2m1)

/-- VMX: TY 5h, Bh or Ch (12 R278). -/
def vmxOk : VTy → Bool
  | .n8 | .mx4 | .mxi8 => true
  | _ => false

/-- VDIFF: TY Dh, Eh or Fh (12 R282). -/
def vdiffOk : VTy → Bool
  | .ix4 | .ix8 | .ix12 => true
  | _ => false

/-- ACCST: .s32, .f32, .f16, .bf16, .e4m3 or .e5m2, and .sat not with .s32 or .e4m3 (14 Table 14-4). -/
def accstOk (ty : VTy) (sat : Bool) : Bool :=
  match ty with
  | .s32 | .e4m3 => !sat
  | .f32 | .f16 | .bf16 | .e5m2 => true
  | _ => false

/-- The register a source of code 24 carries, if it is one. -/
def VSrc.bcReg : VSrc → Option SReg
  | .bc s => some s
  | _ => none

/-- Two sources can stand under one header: BCSEL is one register (10 R206). -/
def bcAgree (a b : VSrc) : Bool :=
  match a.bcReg, b.bcReg with
  | some x, some y => x == y
  | _, _ => true

/-- A core index of an event (00 R4). -/
def coreOk (k : Nat) : Bool := decide (k < 512)

/-- A cluster index of an event. -/
def clusterOk (k : Nat) : Bool := decide (k < 128)

/-- Well-formed: every operand value is one the instruction's entry accepts. -/
def Instr.wf : Instr → Bool
  | .exts _ _ _ pos lenm1 | .extz _ _ _ pos lenm1 => decide (pos.val + lenm1.val ≤ 63)
  | .cmp _ _ _ _ c | .cmpi _ _ _ c _ => c.isInt
  | .ldt8 _ _ _ arr _ _ _ | .ldt16 _ _ _ arr _ _ _ | .ldt32 _ _ _ arr _ _ _ => decide (8 ≤ arr.toNat)
  | .ldt64 _ _ _ arr _ _ => decide (8 ≤ arr.toNat)
  | .vldt _ _ _ arr _ _ => decide (8 ≤ arr.toNat)
  | .lds _ _ _ sz sgn _ => sz != .b8 || !sgn
  | .waitf _ mask _ => mask != 0
  | .barwait _ _ _ fb | .cbacq _ _ _ fb | .cwait _ _ fb => fb != 0
  | .vadd _ _ _ a b ty | .vsub _ _ _ a b ty | .vmul _ _ _ a b ty | .vmin _ _ _ a b ty | .vmax _ _ _ a b ty =>
    ty.arith && bcAgree a b
  | .vabs _ _ _ _ ty | .vneg _ _ _ _ ty => ty.arith
  | .vshl _ _ _ a b ty | .vshr _ _ _ a b ty | .vsra _ _ _ a b ty => ty.isInt && bcAgree a b
  | .vpopc _ _ _ _ ty | .vclz _ _ _ _ ty => ty.isInt
  | .vcmp _ _ a b c ty => vcmpOk c ty && bcAgree a b
  | .vbc _ _ _ _ k ty | .vrot _ _ _ _ k ty | .vext _ _ _ k ty => laneOk k ty
  | .vperm _ _ _ a b ty | .vshuf _ _ _ a b ty => ty.arith && bcAgree a b
  | .vred _ _ _ _ op ty => vredOk op ty
  | .vscan _ _ _ _ _ _ ty => ty.redOk
  | .vcvt _ _ _ _ sat part ts td => vcvtOk sat part ts td
  | .vxpand _ _ _ _ src hi => vxpandOk src hi
  | .vmx _ _ _ a b ty => vmxOk ty && bcAgree a b
  | .vdiff _ _ a b ty => vdiffOk ty && bcAgree a b
  | .vfma _ _ _ a b c _ | .vfms _ _ _ a b c _ => bcAgree a b && bcAgree a c && bcAgree b c
  | .vand _ _ _ a b | .vor _ _ _ a b | .vxor _ _ _ a b => bcAgree a b
  | .vsel _ _ _ a b _ | .vcompact _ _ _ a b _ | .vexpand _ _ _ a b _ => bcAgree a b
  | .vqz _ _ _ a b _ | .vdq _ _ _ a b _ => bcAgree a b
  | .vstx _ a _ x _ _ => bcAgree a x
  | .cpyq _ _ _ _ t | .cpyd _ _ _ _ t | .cpym _ _ _ _ t => t != 0
  | .mmtd _ _ _ _ b _ => b != 31
  | .accld _ _ _ tg _ => decide (tg.val ≤ 5)
  | .accst _ _ _ ty sat _ => accstOk ty sat
  | .reductionReject core _ | .loadDataArrival core _ | .quantumExpiry core | .tnextAnswer core | .copyCompletion core _
  | .cbsRefill core _ | .requestCompletion core _ => coreOk core
  | .arrayCommandCompletion k | .leaseGrant k => clusterOk k
  | .cbsEviction k _ _ => clusterOk k
  | _ => true

end Sys2Proof
end

