-- ==== Sys2Proof/Decode.lean ====
section
/-! DEFINITION. The decoder of slot words and bundles, total on any bits, rejecting by name (10_isa_formats_and_opcode_map.md
R203-R221, Tables 10-1 to 10-12), and the encoder written from the same tables. Words are natural numbers and a field is
taken by division, so that a proof over fields is linear arithmetic. -/

namespace Sys2Proof

/-! ## Fields and codes -/

/-- Field [lo+n-1:lo] of a word. -/
def fld (w lo n : Nat) : Nat := w / 2 ^ lo % 2 ^ n

/-- One bit of a word. -/
def bit (w lo : Nat) : Bool := w / 2 ^ lo % 2 == 1

/-- A register field of n values. -/
def reg (n : Nat) [NeZero n] (w lo bits : Nat) : Fin n := Fin.ofNat n (fld w lo bits)

/-- Scalar register field. -/
def sreg (w lo : Nat) : SReg := Fin.ofNat 32 (fld w lo 5)
/-- Flag field. -/
def freg (w lo : Nat) : FReg := Fin.ofNat 16 (fld w lo 4)
/-- Mask field. -/
def mreg (w lo : Nat) : MReg := Fin.ofNat 4 (fld w lo 2)

/-- TY codes (Table 10-5). -/
def VTy.ofCode (n : Nat) : VTy :=
  match n with
  | 0 => .s32 | 1 => .n32 | 2 => .s16 | 3 => .n16 | 4 => .s8 | 5 => .n8 | 6 => .f32 | 7 => .f16 | 8 => .bf16
  | 9 => .e4m3 | 10 => .e5m2 | 11 => .mx4 | 12 => .mxi8 | 13 => .ix4 | 14 => .ix8 | _ => .ix12

/-- The code of a type. -/
def VTy.code : VTy → Nat
  | .s32 => 0 | .n32 => 1 | .s16 => 2 | .n16 => 3 | .s8 => 4 | .n8 => 5 | .f32 => 6 | .f16 => 7 | .bf16 => 8
  | .e4m3 => 9 | .e5m2 => 10 | .mx4 => 11 | .mxi8 => 12 | .ix4 => 13 | .ix8 => 14 | .ix12 => 15

/-- COND codes (Table 10-5); Bh-Fh are reserved. -/
def Cond.ofCode (n : Nat) : Option Cond :=
  match n with
  | 0 => some .eq | 1 => some .ne | 2 => some .lt | 3 => some .le | 4 => some .gt | 5 => some .ge
  | 6 => some .ltn | 7 => some .len | 8 => some .gtn | 9 => some .gen | 10 => some .un | _ => none

/-- The code of a condition. -/
def Cond.code : Cond → Nat
  | .eq => 0 | .ne => 1 | .lt => 2 | .le => 3 | .gt => 4 | .ge => 5 | .ltn => 6 | .len => 7 | .gtn => 8 | .gen => 9
  | .un => 10

/-- SZ codes. -/
def Size.ofCode (n : Nat) : Size :=
  match n with | 0 => .b1 | 1 => .b2 | 2 => .b4 | _ => .b8

/-- The code of a size. -/
def Size.code : Size → Nat
  | .b1 => 0 | .b2 => 1 | .b4 => 2 | .b8 => 3

/-- SCOPE codes; 5-7 are reserved. -/
def Scope.ofCode (n : Nat) : Option Scope :=
  match n with | 0 => some .core | 1 => some .clu | 2 => some .die | 3 => some .pkg | 4 => some .sys | _ => none

/-- The code of a scope. -/
def Scope.code : Scope → Nat
  | .core => 0 | .clu => 1 | .die => 2 | .pkg => 3 | .sys => 4

/-- SCOPE2 codes. -/
def Scope2.ofCode (n : Nat) : Scope2 :=
  match n with | 0 => .clu | 1 => .die | 2 => .pkg | _ => .sys

/-- The code of a SCOPE2. -/
def Scope2.code : Scope2 → Nat
  | .clu => 0 | .die => 1 | .pkg => 2 | .sys => 3

/-- ORD codes. -/
def Ord.ofCode (n : Nat) : Ord :=
  match n with | 0 => .rlx | 1 => .acq | 2 => .rel | _ => .acqrel

/-- The code of an ordering. -/
def Ord.code : Ord → Nat
  | .rlx => 0 | .acq => 1 | .rel => 2 | .acqrel => 3

/-- OP4 of AMO (Table 13-4); 9h-Fh are reserved. -/
def AmoOp.ofCode (n : Nat) : Option AmoOp :=
  match n with
  | 0 => some .swap | 1 => some .add | 2 => some .and | 3 => some .or | 4 => some .xor | 5 => some .min | 6 => some .max
  | 7 => some .minn | 8 => some .maxn | _ => none

/-- The code of an AMO operation. -/
def AmoOp.code : AmoOp → Nat
  | .swap => 0 | .add => 1 | .and => 2 | .or => 3 | .xor => 4 | .min => 5 | .max => 6 | .minn => 7 | .maxn => 8

/-- ROP (R213); 3 is reserved. -/
def RedOp.ofCode (n : Nat) : Option RedOp :=
  match n with | 0 => some .add | 1 => some .min | 2 => some .max | _ => none

/-- The code of a reduction operation. -/
def RedOp.code : RedOp → Nat
  | .add => 0 | .min => 1 | .max => 2

/-- RTY (R213); 6 and 7 are reserved. -/
def RedTy.ofCode (n : Nat) : Option RedTy :=
  match n with
  | 0 => some .f32 | 1 => some .bf16 | 2 => some .s32 | 3 => some .s64 | 4 => some .n32 | 5 => some .n64 | _ => none

/-- The code of a reduction type. -/
def RedTy.code : RedTy → Nat
  | .f32 => 0 | .bf16 => 1 | .s32 => 2 | .s64 => 3 | .n32 => 4 | .n64 => 5

/-- KIND of FENCE; 3 is reserved. -/
def FenceKind.ofCode (n : Nat) : Option FenceKind :=
  match n with | 0 => some .acq | 1 => some .rel | 2 => some .full | _ => none

/-- The code of a fence kind. -/
def FenceKind.code : FenceKind → Nat
  | .acq => 0 | .rel => 1 | .full => 2

/-- AUX[2:0] of VRED; 6 and 7 are refused. -/
def VRedOp.ofCode (n : Nat) : Option VRedOp :=
  match n with
  | 0 => some .add | 1 => some .min | 2 => some .max | 3 => some .and | 4 => some .or | 5 => some .xor | _ => none

/-- The code of a VRED operation. -/
def VRedOp.code : VRedOp → Nat
  | .add => 0 | .min => 1 | .max => 2 | .and => 3 | .or => 4 | .xor => 5

/-- AUX[1:0] of VSCAN; 3 is refused. -/
def VScanOp.ofCode (n : Nat) : Option VScanOp :=
  match n with | 0 => some .add | 1 => some .min | 2 => some .max | _ => none

/-- The code of a VSCAN operation. -/
def VScanOp.code : VScanOp → Nat
  | .add => 0 | .min => 1 | .max => 2

/-- AUX[2:0] of VXPAND; 5-7 are refused. -/
def VXSrc.ofCode (n : Nat) : Option VXSrc :=
  match n with | 0 => some .s4 | 1 => some .n4 | 2 => some .e2m1 | 3 => some .e2m3 | 4 => some .e3m2 | _ => none

/-- The code of a VXPAND source. -/
def VXSrc.code : VXSrc → Nat
  | .s4 => 0 | .n4 => 1 | .e2m1 => 2 | .e2m3 => 3 | .e3m2 => 4

/-- FMT of MMD (Table 14-3); 7-F are reserved. -/
def MmdFmt.ofCode (n : Nat) : Option MmdFmt :=
  match n with
  | 0 => some .bf16 | 1 => some .f16 | 2 => some .e4e4 | 3 => some .e4e5 | 4 => some .e5e4 | 5 => some .e5e5
  | 6 => some .mx4 | _ => none

/-- The code of an MMD format. -/
def MmdFmt.code : MmdFmt → Nat
  | .bf16 => 0 | .f16 => 1 | .e4e4 => 2 | .e4e5 => 3 | .e5e4 => 4 | .e5e5 => 5 | .mx4 => 6

/-- CSR numbers (Table 10-12). -/
def Csr.ofNum (n : Nat) : Option Csr :=
  match n with
  | 0x000 => some .status | 0x001 => some .cause | 0x002 => some .epc | 0x003 => some .eval | 0x004 => some .evec
  | 0x005 => some .scratch | 0x006 => some .timecmp | 0x007 => some .ipisend | 0x008 => some .tlbinv
  | 0x010 => some .accown | 0x011 => some .accdirty | 0x018 => some .latprof
  | 0x020 => some (.tstat 0) | 0x021 => some (.tstat 1) | 0x022 => some (.tstat 2) | 0x023 => some (.tstat 3)
  | 0x030 => some .ctxid | 0x031 => some .vdid | 0x032 => some .coreid
  | 0x040 => some .cycle | 0x041 => some .bundles | 0x042 => some .freezecnt | 0x043 => some .bankstall
  | 0x048 => some .stqcnt
  | _ => none

/-- The number of a CSR. -/
def Csr.num : Csr → Nat
  | .status => 0x000 | .cause => 0x001 | .epc => 0x002 | .eval => 0x003 | .evec => 0x004 | .scratch => 0x005
  | .timecmp => 0x006 | .ipisend => 0x007 | .tlbinv => 0x008 | .accown => 0x010 | .accdirty => 0x011 | .latprof => 0x018
  | .tstat k => 0x020 + k.val
  | .ctxid => 0x030 | .vdid => 0x031 | .coreid => 0x032 | .cycle => 0x040 | .bundles => 0x041 | .freezecnt => 0x042
  | .bankstall => 0x043 | .stqcnt => 0x048

/-- A vector source code with its peek mark (R208, Table 10-4). -/
def VSrc.ofCode (bc : SReg) (code : Nat) (pk : Bool) : Option VSrc :=
  if code < 16 then some (.q (Fin.ofNat 16 code) pk)
  else if code < 20 then if pk then none else some (.l (Fin.ofNat 4 (code - 16)))
  else if code < 24 then some (.p (Fin.ofNat 4 (code - 20)) pk)
  else if code = 24 then if pk then none else some (.bc bc)
  else none

/-- The code of a vector source. -/
def VSrc.code : VSrc → Nat
  | .q k _ => k.val
  | .l k => 16 + k.val
  | .p k _ => 20 + k.val
  | .bc _ => 24

/-- The peek mark of a vector source. -/
def VSrc.pk : VSrc → Bool
  | .q _ pk | .p _ pk => pk
  | .l _ | .bc _ => false

/-- A vector destination code with NWB (R209). -/
def VDst.ofCode (code : Nat) (nwb : Bool) : Option VDst :=
  if code < 16 then some (if nwb then .nwb (Fin.ofNat 16 code) else .q (Fin.ofNat 16 code))
  else if nwb then none
  else if code = 16 then some .p4
  else if code = 17 then some .p5
  else none

/-- The code of a vector destination. -/
def VDst.code : VDst → Nat
  | .q k | .nwb k => k.val
  | .p4 => 16
  | .p5 => 17

/-- The no-write-back bit of a vector destination. -/
def VDst.nwbBit : VDst → Bool
  | .nwb _ => true
  | _ => false

/-! ## The fates of a word (R221) -/

/-- Cases 2, 3 and 5 of R221 for a word whose opcode is assigned: a reserved field, a reserved value, the instruction. -/
def fate (resv : List Nat) (i : Option Instr) : Except IllegalSub Instr :=
  if resv.any (· != 0) then .error .reserved
  else match i with
    | none => .error .value
    | some i => if i.wf then .ok i else .error .value

/-- FN of the ALU group (Table 10-11). -/
def aluOfFn (p : FReg) (d a b : SReg) (fn : Nat) : Option Instr :=
  match fn with
  | 0x00 => some (.add p d a b) | 0x01 => some (.sub p d a b) | 0x02 => some (.mul p d a b) | 0x03 => some (.mulh p d a b)
  | 0x04 => some (.mulhn p d a b) | 0x05 => some (.div p d a b) | 0x06 => some (.divn p d a b) | 0x07 => some (.rem p d a b)
  | 0x08 => some (.remn p d a b) | 0x09 => some (.and p d a b) | 0x0A => some (.or p d a b) | 0x0B => some (.xor p d a b)
  | 0x0C => some (.shl p d a b) | 0x0D => some (.shr p d a b) | 0x0E => some (.sra p d a b) | 0x0F => some (.min p d a b)
  | 0x10 => some (.max p d a b) | 0x11 => some (.minn p d a b) | 0x12 => some (.maxn p d a b)
  | 0x13 => some (.clz p d a) | 0x14 => some (.ctz p d a) | 0x15 => some (.popc p d a)
  | _ => none

/-- Whether FN leaves the B field reserved (R213). -/
def aluNoB (fn : Nat) : Bool := fn == 0x13 || fn == 0x14 || fn == 0x15

/-- Slot 0 (Tables 10-6, 10-10, 10-11). The header (OP 3Fh) is no instruction and is taken by `decodeBundle`. -/
def decodeS (w : Nat) : Except IllegalSub Instr :=
  let p := freg w 22
  let d := sreg w 17
  let a := sreg w 12
  let b := sreg w 7
  match fld w 26 6 with
  | 0x00 => fate [fld w 0 26] (some .nop)
  | 0x01 => fate [if aluNoB (fld w 0 7) then fld w 7 5 else 0] (aluOfFn p d a b (fld w 0 7))
  | 0x02 => fate [fld w 3 4] (some (.addx p d a b (Fin.ofNat 8 (fld w 0 3))))
  | 0x03 => fate [fld w 4 3] (some (.sel p d a b (freg w 0)))
  | 0x04 => fate [] (some (.addi p d a (BitVec.ofNat 12 (fld w 0 12))))
  | 0x05 => fate [] (some (.andi p d a (BitVec.ofNat 12 (fld w 0 12))))
  | 0x06 => fate [] (some (.ori p d a (BitVec.ofNat 12 (fld w 0 12))))
  | 0x07 => fate [] (some (.xori p d a (BitVec.ofNat 12 (fld w 0 12))))
  | 0x08 => fate [fld w 6 6] (some (.shli p d a (Fin.ofNat 64 (fld w 0 6))))
  | 0x09 => fate [fld w 6 6] (some (.shri p d a (Fin.ofNat 64 (fld w 0 6))))
  | 0x0A => fate [fld w 6 6] (some (.srai p d a (Fin.ofNat 64 (fld w 0 6))))
  | 0x0B => fate [] (some (.exts p d a (Fin.ofNat 64 (fld w 6 6)) (Fin.ofNat 64 (fld w 0 6))))
  | 0x0C => fate [] (some (.extz p d a (Fin.ofNat 64 (fld w 6 6)) (Fin.ofNat 64 (fld w 0 6))))
  | 0x0D => fate [] (some (.li p d (BitVec.ofNat 17 (fld w 0 17))))
  | 0x0E => fate [fld w 16 1] (some (.lih p d (BitVec.ofNat 16 (fld w 0 16))))
  | 0x0F => fate [fld w 0 4] ((Cond.ofCode (fld w 4 4)).map (.cmp p (freg w 18) (sreg w 13) (sreg w 8) ·))
  | 0x10 => fate []
      ((Cond.ofCode (fld w 9 4)).map (.cmpi p (freg w 18) (sreg w 13) · (BitVec.ofNat 9 (fld w 0 9))))
  | 0x11 =>
    let fd := freg w 18
    let fa := freg w 14
    let fb := freg w 10
    match fld w 0 3 with
    | 0 => fate [fld w 3 7, fld w 14 4, fld w 10 4] (some (.fset p fd))
    | 1 => fate [fld w 3 7, fld w 14 4, fld w 10 4] (some (.fclr p fd))
    | 2 => fate [fld w 3 7] (some (.fand p fd fa fb))
    | 3 => fate [fld w 3 7] (some (.forr p fd fa fb))
    | 4 => fate [fld w 3 7, fld w 10 4] (some (.fnot p fd fa))
    | _ => fate [fld w 3 7] none
  | 0x12 => fate [if fld w 10 2 = 3 then fld w 9 1 else 0]
      (some (.lds p d a (Size.ofCode (fld w 10 2)) (bit w 9) (BitVec.ofNat 9 (fld w 0 9))))
  | 0x13 => fate [] (some (.ldt8 p d a (BitVec.ofNat 8 (fld w 4 8)) (bit w 3) (bit w 2) (Scope2.ofCode (fld w 0 2))))
  | 0x14 => fate [] (some (.ldt16 p d a (BitVec.ofNat 8 (fld w 4 8)) (bit w 3) (bit w 2) (Scope2.ofCode (fld w 0 2))))
  | 0x15 => fate [] (some (.ldt32 p d a (BitVec.ofNat 8 (fld w 4 8)) (bit w 3) (bit w 2) (Scope2.ofCode (fld w 0 2))))
  | 0x16 => fate [fld w 3 1] (some (.ldt64 p d a (BitVec.ofNat 8 (fld w 4 8)) (bit w 2) (Scope2.ofCode (fld w 0 2))))
  | 0x17 => fate []
      ((Scope.ofCode (fld w 6 3)).map (.st p d a (Size.ofCode (fld w 10 2)) (bit w 9) · (BitVec.ofNat 6 (fld w 0 6))))
  | 0x18 => fate [] (some (.br p (BitVec.ofNat 22 (fld w 0 22))))
  | 0x19 => fate [] (some (.brf p (freg w 18) (BitVec.ofNat 18 (fld w 0 18))))
  | 0x1A => fate [fld w 17 5, fld w 0 12] (some (.jr p a))
  | 0x1B => fate [] (some (.call p (BitVec.ofNat 22 (fld w 0 22))))
  | 0x1C => fate [fld w 17 5, fld w 0 12] (some (.callr p a))
  | 0x1D => fate [fld w 0 22] (some (.ret p))
  | 0x1E => fate [] (some (.loop p (BitVec.ofNat 12 (fld w 10 12)) (BitVec.ofNat 10 (fld w 0 10))))
  | 0x1F => fate [fld w 12 5, fld w 10 2] (some (.loops p d (BitVec.ofNat 10 (fld w 0 10))))
  | 0x20 => fate [fld w 10 2] (some (.loopp p d a (BitVec.ofNat 10 (fld w 0 10))))
  | 0x21 => fate [fld w 0 12] (some (.lstep p d a))
  | 0x22 => fate [fld w 0 22] (some (.lbrk p))
  | 0x23 => fate [fld w 0 5] (some (.waitf p (BitVec.ofNat 16 (fld w 6 16)) (bit w 5)))
  | 0x24 => fate [fld w 0 5] ((Csr.ofNum (fld w 5 12)).map (.crd p d ·))
  | 0x25 => fate [fld w 0 5] ((Csr.ofNum (fld w 5 12)).map (.cwr p d ·))
  | 0x26 => fate [fld w 0 16] (some (.stqpop p d (bit w 16)))
  | 0x27 => fate [fld w 0 2]
      ((AmoOp.ofCode (fld w 8 4)).bind fun op => (Scope.ofCode (fld w 3 3)).map
        (.amo p d a op (Ord.ofCode (fld w 6 2)) · (bit w 2)))
  | 0x28 => fate [fld w 0 1]
      ((Scope.ofCode (fld w 2 3)).map (.cas p d a b (Ord.ofCode (fld w 5 2)) · (bit w 1)))
  | 0x29 =>
    if bit w 3 then
      fate [fld w 0 3] (if fld w 10 2 = 0 ∧ fld w 7 3 = 0 ∧ fld w 4 3 = 4 then some (.redWin p d a) else none)
    else fate [fld w 0 3]
      ((RedOp.ofCode (fld w 10 2)).bind fun op => (RedTy.ofCode (fld w 7 3)).bind fun ty =>
        (Scope.ofCode (fld w 4 3)).map (.red p d a op ty ·))
  | 0x2A =>
    let n := reg 512 w 13 9
    match fld w 0 2 with
    | 0 => fate [fld w 2 6] (some (.barinit p n (sreg w 8)))
    | 1 => fate [fld w 2 6] (some (.bararr p n (sreg w 8)))
    | 2 => fate [fld w 2 6] (some (.barwait p n (bit w 12) (freg w 8)))
    | _ => fate [fld w 2 6] none
  | 0x2B => fate [fld w 0 9] (some (.frset p (reg 8 w 19 3) (sreg w 14) (sreg w 9)))
  | 0x2C => fate [fld w 0 9]
      ((FenceKind.ofCode (fld w 12 2)).bind fun k => (Scope.ofCode (fld w 9 3)).map
        (.fence p (BitVec.ofNat 8 (fld w 14 8)) k ·))
  | 0x2D => fate [fld w 0 10]
      (match fld w 10 2 with
       | 0 => some (.tspawn p d a)
       | 1 => some (.tspawnWait p d a)
       | _ => none)
  | 0x2E =>
    if bit w 11 then fate [fld w 0 11, fld w 12 5] (some (.tdepDec p d))
    else fate [fld w 0 11] (some (.tdep p d a))
  | 0x2F =>
    if bit w 16 then fate [fld w 12 4] (some (.cwaitYield p d (BitVec.ofNat 12 (fld w 0 12))))
    else fate [fld w 12 4, fld w 4 8] (some (.cwait p d (freg w 0)))
  | 0x30 => fate [fld w 12 10] (some (.tsusp p (BitVec.ofNat 12 (fld w 0 12))))
  | 0x31 => fate [fld w 0 22] (some (.texit p))
  | 0x32 => fate [fld w 0 22] (some (.tnext p))
  | 0x33 => fate [fld w 12 10] (some (.safept p (BitVec.ofNat 12 (fld w 0 12))))
  | 0x34 => fate [fld w 16 6] (some (.trap p (BitVec.ofNat 16 (fld w 0 16))))
  | 0x35 => fate [fld w 0 22] (some (.eret p))
  | 0x36 => fate [fld w 0 22] (some (.ebrk p))
  | 0x37 => fate [fld w 0 22] (some (.isync p))
  | 0x38 => fate [fld w 0 12] (some (.iinv p d a))
  | _ => .error .opcode

/-- Sign extension of the low n bits of a displacement field to m bits. -/
def sext (n m x : Nat) : BitVec m := (BitVec.ofNat n x).signExtend m

/-- Slot 1 (Tables 10-7, 10-10), with the lent bits of Table 10-3. -/
def decodeM (bc : SReg) (hdr : Bool) (ext w : Nat) : Except IllegalSub Instr :=
  let p := freg w 22
  let d := VDst.ofCode (fld w 17 5) (bit w 16)
  let a := sreg w 11
  match fld w 26 6 with
  | 0x00 => fate [fld w 0 26, ext] (some .nop)
  | 0x01 =>
    fate [] (d.map (.vld p · a (if hdr then BitVec.ofNat 18 (ext * 2048 + fld w 0 11) else sext 11 18 (fld w 0 11))))
  | 0x02 =>
    fate [] (d.map (.vldt p · a (BitVec.ofNat 15 (ext * 256 + fld w 3 8)) (bit w 2) (Scope2.ofCode (fld w 0 2))))
  | 0x03 => fate []
      ((VSrc.ofCode bc (fld w 17 5) (bit ext 6)).bind fun s => (Scope.ofCode (fld w 9 3)).map
        (.vst p s (sreg w 12) · (bit w 8) (bit w 7) (mreg w 5)
          (if hdr then BitVec.ofNat 11 (fld ext 0 6 * 32 + fld w 0 5) else sext 5 11 (fld w 0 5))))
  | 0x04 => fate [fld w 0 5, ext]
      (d.bind fun d => (VSrc.ofCode bc (fld w 6 5) (bit w 5)).map (.vldx p d a ·))
  | 0x05 => fate [fld w 0 2, ext]
      ((VSrc.ofCode bc (fld w 17 5) (bit w 6)).bind fun s => (VSrc.ofCode bc (fld w 7 5) (bit w 5)).map
        (.vstx p s (sreg w 12) · (bit w 4) (mreg w 2)))
  | 0x06 => fate [fld w 0 3, ext]
      ((VSrc.ofCode bc (fld w 17 5) (bit w 16)).map (.vstq p · a (sreg w 6) (reg 8 w 3 3)))
  | 0x07 => fate [fld w 0 14, ext]
      (if fld w 19 3 < 6 then some (.agset p (Fin.ofNat 6 (fld w 19 3)) (sreg w 14)) else none)
  | 0x08 => fate [fld w 0 4, ext, fld w 9 9] (some (.cbset p (reg 16 w 18 4) (sreg w 4)))
  | 0x09 => fate [fld w 0 4, ext, fld w 4 5] (some (.cbacq p (reg 16 w 18 4) (sreg w 13) (freg w 9)))
  | 0x0A => fate [fld w 0 4, ext, fld w 4 14] (some (.cbrel p (reg 16 w 18 4)))
  | _ => .error .opcode

/-- A slot-2 instruction of format VA with a type. -/
def decodeVA (mk : Merge → VDst → VSrc → VSrc → VTy → Instr) (bc : SReg) (ext w : Nat) : Except IllegalSub Instr :=
  fate [fld ext 3 4]
    ((VDst.ofCode (fld w 17 5) (bit w 16)).bind fun d => (VSrc.ofCode bc (fld w 11 5) (bit w 5)).bind fun a =>
      (VSrc.ofCode bc (fld w 6 5) (bit w 4)).map fun b =>
        mk ⟨bit ext 2, mreg ext 0⟩ d a b (VTy.ofCode (fld w 0 4)))

/-- A slot-2 instruction of format VA whose TY is reserved (VAND, VOR, VXOR). -/
def decodeVL (mk : Merge → VDst → VSrc → VSrc → Instr) (bc : SReg) (ext w : Nat) : Except IllegalSub Instr :=
  fate [fld ext 3 4, fld w 0 4]
    ((VDst.ofCode (fld w 17 5) (bit w 16)).bind fun d => (VSrc.ofCode bc (fld w 11 5) (bit w 5)).bind fun a =>
      (VSrc.ofCode bc (fld w 6 5) (bit w 4)).map fun b => mk ⟨bit ext 2, mreg ext 0⟩ d a b)

/-- Format VU: the reserved fields beside EXT2[6:3], and the instruction of its merge, destination and source. -/
def decodeVU (resv : List Nat) (mk : Merge → VDst → VSrc → Option Instr) (bc : SReg) (ext w : Nat) :
    Except IllegalSub Instr :=
  fate (fld ext 3 4 :: resv)
    ((VDst.ofCode (fld w 17 5) (bit w 16)).bind fun d => (VSrc.ofCode bc (fld w 11 5) (bit w 10)).bind fun a =>
      mk ⟨bit ext 2, mreg ext 0⟩ d a)

/-- Format VS. -/
def decodeVS (mk : Merge → VDst → VSrc → VSrc → MReg → Instr) (bc : SReg) (ext w : Nat) : Except IllegalSub Instr :=
  fate [fld ext 3 4, fld w 0 2]
    ((VDst.ofCode (fld w 17 5) (bit w 16)).bind fun d => (VSrc.ofCode bc (fld w 11 5) (bit w 5)).bind fun a =>
      (VSrc.ofCode bc (fld w 6 5) (bit w 4)).map fun b => mk ⟨bit ext 2, mreg ext 0⟩ d a b (mreg w 2))

/-- Format VT, with its peek marks in the lent bits. -/
def decodeVT (mk : Merge → VDst → VSrc → VSrc → VSrc → Bool → Instr) (bc : SReg) (ext w : Nat) :
    Except IllegalSub Instr :=
  fate [fld ext 6 1]
    ((VDst.ofCode (fld w 17 5) (bit w 16)).bind fun d => (VSrc.ofCode bc (fld w 11 5) (bit ext 2)).bind fun a =>
      (VSrc.ofCode bc (fld w 6 5) (bit ext 1)).bind fun b => (VSrc.ofCode bc (fld w 1 5) (bit ext 0)).map fun c =>
        mk ⟨bit ext 3, mreg ext 4⟩ d a b c (bit w 0))

/-- Format VB. -/
def decodeVB (mk : Merge → VDst → VSrc → VSrc → BReg → Instr) (bc : SReg) (ext w : Nat) : Except IllegalSub Instr :=
  fate [fld ext 3 4, fld w 3 1]
    ((VDst.ofCode (fld w 17 5) (bit w 16)).bind fun d => (VSrc.ofCode bc (fld w 11 5) (bit w 5)).bind fun a =>
      (VSrc.ofCode bc (fld w 6 5) (bit w 4)).map fun b => mk ⟨bit ext 2, mreg ext 0⟩ d a b (reg 8 w 0 3))

/-- Slot 2 (Tables 10-8, 10-10). -/
def decodeV (bc : SReg) (ext w : Nat) : Except IllegalSub Instr :=
  let p := freg w 22
  let ty := VTy.ofCode (fld w 0 4)
  let aux := fld w 4 6
  match fld w 26 6 with
  | 0x00 => fate [fld w 0 26, ext] (some .nop)
  | 0x01 => decodeVA (.vadd p) bc ext w
  | 0x02 => decodeVA (.vsub p) bc ext w
  | 0x03 => decodeVA (.vmul p) bc ext w
  | 0x04 => decodeVT (.vfma p) bc ext w
  | 0x05 => decodeVT (.vfms p) bc ext w
  | 0x06 => decodeVA (.vmin p) bc ext w
  | 0x07 => decodeVA (.vmax p) bc ext w
  | 0x08 => decodeVU [aux] (fun m d a => some (.vabs p m d a ty)) bc ext w
  | 0x09 => decodeVU [aux] (fun m d a => some (.vneg p m d a ty)) bc ext w
  | 0x0A => decodeVL (.vand p) bc ext w
  | 0x0B => decodeVL (.vor p) bc ext w
  | 0x0C => decodeVL (.vxor p) bc ext w
  | 0x0D => decodeVU [aux, fld w 0 4] (fun m d a => some (.vnot p m d a)) bc ext w
  | 0x0E => decodeVA (.vshl p) bc ext w
  | 0x0F => decodeVA (.vshr p) bc ext w
  | 0x10 => decodeVA (.vsra p) bc ext w
  | 0x11 => fate [ext]
      ((VSrc.ofCode bc (fld w 15 5) (bit w 9)).bind fun a => (VSrc.ofCode bc (fld w 10 5) (bit w 8)).bind fun b =>
        (Cond.ofCode (fld w 4 4)).map fun c => .vcmp p (mreg w 20) a b c ty)
  | 0x12 => decodeVS (.vsel p) bc ext w
  | 0x13 => decodeVU [aux, fld w 0 4] (fun m d a => some (.vmov p m d a)) bc ext w
  | 0x14 => decodeVU [] (fun m d a => some (.vbc p m d a (Fin.ofNat 64 aux) ty)) bc ext w
  | 0x15 => decodeVA (.vperm p) bc ext w
  | 0x16 => decodeVU [] (fun m d a => some (.vrot p m d a (Fin.ofNat 64 aux) ty)) bc ext w
  | 0x17 => decodeVA (.vshuf p) bc ext w
  | 0x18 => decodeVU [fld w 7 3] (fun m d a => (VRedOp.ofCode (fld w 4 3)).map (.vred p m d a · ty)) bc ext w
  | 0x19 => decodeVU [fld w 7 3] (fun m d a => (VScanOp.ofCode (fld w 4 2)).map (.vscan p m d a · (bit w 6) ty)) bc ext w
  | 0x1A => fate [ext, fld w 16 1]
      ((VSrc.ofCode bc (fld w 11 5) (bit w 10)).map (.vext p (sreg w 17) · (Fin.ofNat 64 aux) ty))
  | 0x1B => decodeVU [aux] (fun m d a => if fld w 0 4 = 6 then some (.vexp2 p m d a) else none) bc ext w
  | 0x1C => decodeVU [aux] (fun m d a => if fld w 0 4 = 6 then some (.vlog2 p m d a) else none) bc ext w
  | 0x1D => decodeVU [aux] (fun m d a => if fld w 0 4 = 6 then some (.vrcp p m d a) else none) bc ext w
  | 0x1E => decodeVU [aux] (fun m d a => if fld w 0 4 = 6 then some (.vrsq p m d a) else none) bc ext w
  | 0x1F => fate [fld ext 3 4]
      ((VDst.ofCode (fld w 17 5) (bit w 16)).bind fun d => (VSrc.ofCode bc (fld w 11 5) (bit w 10)).map fun a =>
        .vcvt p ⟨bit ext 2, mreg ext 0⟩ d a (bit w 9) (bit w 8) (VTy.ofCode (fld w 4 4)) ty)
  | 0x20 => decodeVU [fld w 8 2]
      (fun m d a => if fld w 0 4 = 9 then (VXSrc.ofCode (fld w 4 3)).map (.vxpand p m d a · (bit w 7)) else none) bc ext w
  | 0x21 => decodeVA (.vmx p) bc ext w
  | 0x22 => decodeVB (.vqz p) bc ext w
  | 0x23 => decodeVB (.vdq p) bc ext w
  | 0x24 => fate [ext, fld w 4 4]
      ((VSrc.ofCode bc (fld w 15 5) (bit w 9)).bind fun a => (VSrc.ofCode bc (fld w 10 5) (bit w 8)).map fun b =>
        .vdiff p (mreg w 20) a b ty)
  | 0x25 => decodeVS (.vcompact p) bc ext w
  | 0x26 => decodeVS (.vexpand p) bc ext w
  | 0x27 => decodeVU [aux] (fun m d a => some (.vpopc p m d a ty)) bc ext w
  | 0x28 => decodeVU [aux] (fun m d a => some (.vclz p m d a ty)) bc ext w
  | 0x29 => fate [ext, fld w 16 6, fld w 5 5, fld w 0 4]
      ((VSrc.ofCode bc (fld w 11 5) (bit w 10)).map (.vtrp p · (bit w 4)))
  | 0x2A => fate [fld ext 3 4, fld w 10 6, fld w 5 5, fld w 0 4]
      ((VDst.ofCode (fld w 17 5) (bit w 16)).map (.vtrc p ⟨bit ext 2, mreg ext 0⟩ · (bit w 4)))
  | 0x2B => fate [ext, fld w 0 11, fld w 16 4] (some (.mset p (mreg w 20) (sreg w 11)))
  | 0x2C => fate [ext, fld w 0 11, fld w 11 5] (some (.mand p (mreg w 20) (mreg w 18) (mreg w 16)))
  | 0x2D => fate [ext, fld w 0 11, fld w 11 5] (some (.mor p (mreg w 20) (mreg w 18) (mreg w 16)))
  | 0x2E => fate [ext, fld w 0 11, fld w 11 5, fld w 16 2] (some (.mnot p (mreg w 20) (mreg w 18)))
  | _ => .error .opcode

/-- Format EC. -/
def decodeEC (mk : SReg → SReg → SReg → SReg → Instr) (ext w : Nat) : Except IllegalSub Instr :=
  fate [ext, fld w 0 2] (some (mk (sreg w 17) (sreg w 12) (sreg w 7) (sreg w 2)))

/-- Slot 3 (Tables 10-9, 10-10). -/
def decodeE (ext w : Nat) : Except IllegalSub Instr :=
  let p := freg w 22
  let ac := reg 4 w 20 2
  match fld w 26 6 with
  | 0x00 => fate [fld w 0 26, ext] (some .nop)
  | 0x01 => fate [fld w 0 22, ext] (some (.lease p))
  | 0x02 => fate [fld w 0 22, ext] (some (.lfree p))
  | 0x03 => fate [ext, fld w 4 1]
      ((MmdFmt.ofCode (fld w 0 4)).map (.mmd p ac (sreg w 15) (sreg w 10) (sreg w 5) ·))
  | 0x04 => fate [ext, fld w 0 4] (some (.tbld p (reg 8 w 19 3) (sreg w 14) (sreg w 9) (sreg w 4)))
  | 0x05 => fate [ext, fld w 0 2] (some (.mmt p ac (reg 8 w 17 3) (sreg w 12) (sreg w 7) (sreg w 2)))
  | 0x06 => fate [ext, fld w 0 2] (some (.mmtd p ac (reg 8 w 17 3) (sreg w 12) (sreg w 7) (sreg w 2)))
  | 0x07 => fate [ext, fld w 10 10, fld w 0 5] (some (.accz p ac (sreg w 5)))
  | 0x08 => fate [ext, fld w 10 1, fld w 0 5] (some (.accld p ac (sreg w 15) (reg 16 w 11 4) (sreg w 5)))
  | 0x09 => fate [ext, fld w 0 5] (some (.accst p ac (sreg w 15) (VTy.ofCode (fld w 11 4)) (bit w 10) (sreg w 5)))
  | 0x0A => fate [ext, fld w 0 8] (some (.cbbind p (reg 8 w 19 3) (sreg w 14) (bit w 13) (sreg w 8)))
  | 0x0B => fate [ext, fld w 0 19] (some (.cbfree p (reg 8 w 19 3)))
  | 0x0C => fate [ext, fld w 0 8, fld w 13 1, fld w 19 3] (some (.cbinv p (sreg w 14) (sreg w 8)))
  | 0x0D => fate [ext, fld w 0 14, fld w 19 3] (some (.cbpre p (sreg w 14)))
  | 0x0E => decodeEC (.cpy p) ext w
  | 0x0F => decodeEC (.cpyq p) ext w
  | 0x10 => decodeEC (.cpyd p) ext w
  | 0x11 => decodeEC (.cpym p) ext w
  | 0x12 => decodeEC (.cpyf p) ext w
  | _ => .error .opcode

/-- One slot word under a header's BCSEL and lent bits (BCSEL 0 and EXT 0 without one, R206). -/
def decodeSlot (slot : Nat) (bc : SReg) (hdr : Bool) (ext w : Nat) : Except IllegalSub Instr :=
  match slot with
  | 0 => decodeS w
  | 1 => decodeM bc hdr ext w
  | 2 => decodeV bc ext w
  | _ => decodeE ext w

/-! ## Destinations and bundles -/

/-- A destination of R211. -/
inductive DestName where
  | s (r : SReg)
  | f (r : FReg)
  | m (r : MReg)
  | port (p5 : Bool)
  | csr (c : Csr)
  | n
deriving DecidableEq, Repr

/-- A scalar destination; S0 is none (R211). -/
def sDest (r : SReg) : List DestName := if r = 0 then [] else [.s r]
/-- A flag destination; F0 is none. -/
def fDest (r : FReg) : List DestName := if r = 0 then [] else [.f r]
/-- A vector destination: only the write ports count (R211). -/
def vDest : VDst → List DestName
  | .p4 => [.port false]
  | .p5 => [.port true]
  | _ => []

/-- The destinations an instruction names, whatever its predicate (R211, R245, R249, R268, R273, R296, R332). -/
def Instr.dests : Instr → List DestName
  | .add _ d _ _ | .sub _ d _ _ | .mul _ d _ _ | .mulh _ d _ _ | .mulhn _ d _ _ | .div _ d _ _ | .divn _ d _ _
  | .rem _ d _ _ | .remn _ d _ _ | .and _ d _ _ | .or _ d _ _ | .xor _ d _ _ | .shl _ d _ _ | .shr _ d _ _
  | .sra _ d _ _ | .min _ d _ _ | .max _ d _ _ | .minn _ d _ _ | .maxn _ d _ _ => sDest d
  | .clz _ d _ | .ctz _ d _ | .popc _ d _ => sDest d
  | .addx _ d _ _ _ | .sel _ d _ _ _ => sDest d
  | .addi _ d _ _ | .andi _ d _ _ | .ori _ d _ _ | .xori _ d _ _ | .shli _ d _ _ | .shri _ d _ _ | .srai _ d _ _ => sDest d
  | .exts _ d _ _ _ | .extz _ d _ _ _ => sDest d
  | .li _ d _ | .lih _ d _ => sDest d
  | .cmp _ fd _ _ _ | .cmpi _ fd _ _ _ => fDest fd
  | .fset _ fd | .fclr _ fd => fDest fd
  | .fand _ fd _ _ | .forr _ fd _ _ => fDest fd
  | .fnot _ fd _ => fDest fd
  | .lds _ d _ _ _ _ => sDest d
  | .ldt8 _ d _ _ _ _ _ | .ldt16 _ d _ _ _ _ _ | .ldt32 _ d _ _ _ _ _ => sDest d
  | .ldt64 _ d _ _ _ _ => sDest d
  | .call _ _ | .callr _ _ => sDest 31
  | .crd _ d _ => sDest d
  | .cwr _ _ c => [.csr c]
  | .stqpop _ d _ => sDest d
  | .amo _ t _ _ _ _ _ => sDest t
  | .cas _ t _ _ _ _ _ => sDest t
  | .barwait _ _ _ fb => fDest fb
  | .cwait _ _ fb => fDest fb
  | .tnext _ => [.s 1, .n]
  | .vld _ d _ _ | .vldx _ d _ _ => vDest d
  | .vldt _ d _ _ _ _ => vDest d
  | .cbacq _ _ d fb => sDest d ++ fDest fb
  | .vadd _ _ d _ _ _ | .vsub _ _ d _ _ _ | .vmul _ _ d _ _ _ | .vmin _ _ d _ _ _ | .vmax _ _ d _ _ _
  | .vshl _ _ d _ _ _ | .vshr _ _ d _ _ _ | .vsra _ _ d _ _ _ | .vperm _ _ d _ _ _ | .vshuf _ _ d _ _ _
  | .vmx _ _ d _ _ _ => vDest d
  | .vfma _ _ d _ _ _ _ | .vfms _ _ d _ _ _ _ => vDest d
  | .vabs _ _ d _ _ | .vneg _ _ d _ _ | .vpopc _ _ d _ _ | .vclz _ _ d _ _ => vDest d
  | .vand _ _ d _ _ | .vor _ _ d _ _ | .vxor _ _ d _ _ => vDest d
  | .vnot _ _ d _ | .vmov _ _ d _ | .vexp2 _ _ d _ | .vlog2 _ _ d _ | .vrcp _ _ d _ | .vrsq _ _ d _ => vDest d
  | .vcmp _ md _ _ _ _ => [.m md]
  | .vdiff _ md _ _ _ => [.m md]
  | .vsel _ _ d _ _ _ | .vcompact _ _ d _ _ _ | .vexpand _ _ d _ _ _ | .vqz _ _ d _ _ _ | .vdq _ _ d _ _ _ => vDest d
  | .vbc _ _ d _ _ _ | .vrot _ _ d _ _ _ => vDest d
  | .vred _ _ d _ _ _ => vDest d
  | .vscan _ _ d _ _ _ _ => vDest d
  | .vext _ d _ _ _ => sDest d
  | .vcvt _ _ d _ _ _ _ _ => vDest d
  | .vxpand _ _ d _ _ _ => vDest d
  | .vtrc _ _ d _ => vDest d
  | .mset _ d _ | .mnot _ d _ => [.m d]
  | .mand _ d _ _ | .mor _ d _ _ => [.m d]
  | _ => []

/-- What a bundle is: its lowest illegal slot with the instructions of the slots below it, or the instructions of its slots that are not
NOP, in ascending slot order. -/
inductive Bundle where
  | illegal (slot : Fin 4) (why : IllegalSub) (word : BitVec 32) (below : List (Fin 4 × Instr))
  | slots (is : List (Fin 4 × Instr))
deriving DecidableEq, Repr

/-- The first illegal slot of a decoded list, in ascending slot order (R186: among equal codes the lowest slot): one that is no instruction,
or names a destination that a lower slot has named (R211, R221). -/
def firstIllegal (seen : List DestName) : List (Fin 4 × Nat × Except IllegalSub Instr) → Option (Fin 4 × IllegalSub × Nat)
  | [] => none
  | (k, w, .error e) :: _ => some (k, e, w)
  | (k, w, .ok i) :: r => if i.dests.any (seen.contains ·) then some (k, .twice, w) else firstIllegal (i.dests ++ seen) r

/-- The instructions of the legal slots, the NOPs left out (R220). -/
def keptSlots : List (Fin 4 × Nat × Except IllegalSub Instr) → List (Fin 4 × Instr)
  | [] => []
  | (_, _, .error _) :: r => keptSlots r
  | (_, _, .ok .nop) :: r => keptSlots r
  | (k, _, .ok i) :: r => (k, i) :: keptSlots r

/-- A bundle from its four slot words, lowest slot first (R203-R211, R221). -/
def decodeWords (w0 w1 w2 w3 : Nat) : Bundle :=
  let hdr : Bool := fld w0 26 6 == 0x3F
  let h := if hdr then w0 else 0
  let bc := sreg h 21
  let r1 := decodeSlot 1 bc hdr (fld h 0 7) w1
  let r2 := decodeSlot 2 bc hdr (fld h 7 7) w2
  let r3 := decodeSlot 3 bc hdr (fld h 14 7) w3
  let rest : List (Fin 4 × Nat × Except IllegalSub Instr) := [(1, w1, r1), (2, w2, r2), (3, w3, r3)]
  let all := if hdr then rest else (0, w0, decodeSlot 0 0 false 0 w0) :: rest
  match firstIllegal [] all with
  | some (k, e, w) => .illegal k e (BitVec.ofNat 32 w) ((keptSlots all).filter fun p => decide (p.1 < k))
  | none => .slots (keptSlots all)

/-- A bundle from a 128-bit value (R203). -/
def decodeBundle (b : Nat) : Bundle :=
  decodeWords (b % 2 ^ 32) (b / 2 ^ 32 % 2 ^ 32) (b / 2 ^ 64 % 2 ^ 32) (b / 2 ^ 96 % 2 ^ 32)

/-- A little-endian number from its bytes. -/
def leNat : List Byte → Nat
  | [] => 0
  | b :: r => b.toNat + 256 * leNat r

/-- A bundle from its 16 bytes at rising addresses (R203, R3). -/
def decodeBytes (bs : List Byte) : Bundle := decodeBundle (leNat bs)

/-! ## The encoder -/

/-- An encoded instruction: its slot, its word, the register its header selects and the bits its header lends it; `hdr`
says whether it needs a header (R224). -/
structure Enc where
  slot : Nat
  word : Nat
  hdr  : Bool
  bc   : SReg
  ext  : Nat
deriving DecidableEq, Repr

/-- A slot word of an opcode, a predicate and fields. -/
def word (op : Nat) (p : FReg) (fields : Nat) : Nat := op * 2 ^ 26 + p.val * 2 ^ 22 + fields

/-- A bit as a number. -/
def b2n (b : Bool) : Nat := if b then 1 else 0

/-- A slot-0 word (never under a header). -/
def encS (op : Nat) (p : FReg) (fields : Nat) : Option Enc := some ⟨0, word op p fields, false, 0, 0⟩

/-- The register of the first source that is BC, S0 where none is. -/
def bcOf : List VSrc → SReg
  | [] => 0
  | .bc s :: _ => s
  | _ :: r => bcOf r

/-- A slot-k word with lent bits: a header stands where the broadcast register or a lent bit is not 0, or `must` says so. -/
def encK (k op : Nat) (p : FReg) (fields : Nat) (bc : SReg) (ext : Nat) (must : Bool := false) : Option Enc :=
  some ⟨k, word op p fields, must || bc != 0 || ext != 0, bc, ext⟩

/-- Fields of format SR. -/
def srF (d a b : SReg) (fn : Nat) : Nat := d.val * 2 ^ 17 + a.val * 2 ^ 12 + b.val * 2 ^ 7 + fn
/-- Fields of format SI. -/
def siF (d a : SReg) (imm : Nat) : Nat := d.val * 2 ^ 17 + a.val * 2 ^ 12 + imm
/-- Fields of format STT. -/
def sttF (d a : SReg) (arr : BitVec 8) (sgn acq : Bool) (sc : Scope2) : Nat :=
  d.val * 2 ^ 17 + a.val * 2 ^ 12 + arr.toNat * 2 ^ 4 + b2n sgn * 2 ^ 3 + b2n acq * 2 ^ 2 + sc.code
/-- DEST and NWB. -/
def dF (d : VDst) : Nat := d.code * 2 ^ 17 + b2n d.nwbBit * 2 ^ 16
/-- Lent bits of a merge in formats VA, VU, VS, VV, VB. -/
def mX (m : Merge) : Nat := b2n m.men * 4 + m.msk.val

/-- Format VA. -/
def encVA (op : Nat) (p : FReg) (m : Merge) (d : VDst) (a b : VSrc) (low : Nat) : Option Enc :=
  encK 2 op p (dF d + a.code * 2 ^ 11 + b.code * 2 ^ 6 + b2n a.pk * 2 ^ 5 + b2n b.pk * 2 ^ 4 + low) (bcOf [a, b]) (mX m)
/-- Format VU. -/
def encVU (op : Nat) (p : FReg) (m : Merge) (d : VDst) (a : VSrc) (aux ty : Nat) : Option Enc :=
  encK 2 op p (dF d + a.code * 2 ^ 11 + b2n a.pk * 2 ^ 10 + aux * 2 ^ 4 + ty) (bcOf [a]) (mX m)
/-- Format VT. -/
def encVT (op : Nat) (p : FReg) (m : Merge) (d : VDst) (a b c : VSrc) (bf : Bool) : Option Enc :=
  encK 2 op p (dF d + a.code * 2 ^ 11 + b.code * 2 ^ 6 + c.code * 2 + b2n bf) (bcOf [a, b, c])
    (m.msk.val * 16 + b2n m.men * 8 + b2n a.pk * 4 + b2n b.pk * 2 + b2n c.pk)
/-- Format VC. -/
def encVC (op : Nat) (p : FReg) (md : MReg) (a b : VSrc) (c ty : Nat) : Option Enc :=
  encK 2 op p (md.val * 2 ^ 20 + a.code * 2 ^ 15 + b.code * 2 ^ 10 + b2n a.pk * 2 ^ 9 + b2n b.pk * 2 ^ 8 + c * 2 ^ 4 + ty)
    (bcOf [a, b]) 0
/-- Format VM. -/
def encVM (op : Nat) (p : FReg) (md ma mb : MReg) (a : SReg) : Option Enc :=
  encK 2 op p (md.val * 2 ^ 20 + ma.val * 2 ^ 18 + mb.val * 2 ^ 16 + a.val * 2 ^ 11) 0 0
/-- Format EC. -/
def encEC (op : Nat) (p : FReg) (d s h t : SReg) : Option Enc :=
  encK 3 op p (d.val * 2 ^ 17 + s.val * 2 ^ 12 + h.val * 2 ^ 7 + t.val * 2 ^ 2) 0 0
/-- Whether an 18-bit displacement fits the 11 bits of the slot. -/
def fits11 (x : BitVec 18) : Bool := (x.setWidth 11).signExtend 18 == x
/-- Whether an 11-bit displacement fits the 5 bits of the slot. -/
def fits5 (x : BitVec 11) : Bool := (x.setWidth 5).signExtend 11 == x

/-- The words of an instruction; none for the rows that have no encoding. -/
def encode : Instr → Option Enc
  | .nop => some ⟨0, 0, false, 0, 0⟩
  | .add p d a b => encS 0x01 p (srF d a b 0x00)
  | .sub p d a b => encS 0x01 p (srF d a b 0x01)
  | .mul p d a b => encS 0x01 p (srF d a b 0x02)
  | .mulh p d a b => encS 0x01 p (srF d a b 0x03)
  | .mulhn p d a b => encS 0x01 p (srF d a b 0x04)
  | .div p d a b => encS 0x01 p (srF d a b 0x05)
  | .divn p d a b => encS 0x01 p (srF d a b 0x06)
  | .rem p d a b => encS 0x01 p (srF d a b 0x07)
  | .remn p d a b => encS 0x01 p (srF d a b 0x08)
  | .and p d a b => encS 0x01 p (srF d a b 0x09)
  | .or p d a b => encS 0x01 p (srF d a b 0x0A)
  | .xor p d a b => encS 0x01 p (srF d a b 0x0B)
  | .shl p d a b => encS 0x01 p (srF d a b 0x0C)
  | .shr p d a b => encS 0x01 p (srF d a b 0x0D)
  | .sra p d a b => encS 0x01 p (srF d a b 0x0E)
  | .min p d a b => encS 0x01 p (srF d a b 0x0F)
  | .max p d a b => encS 0x01 p (srF d a b 0x10)
  | .minn p d a b => encS 0x01 p (srF d a b 0x11)
  | .maxn p d a b => encS 0x01 p (srF d a b 0x12)
  | .clz p d a => encS 0x01 p (srF d a 0 0x13)
  | .ctz p d a => encS 0x01 p (srF d a 0 0x14)
  | .popc p d a => encS 0x01 p (srF d a 0 0x15)
  | .addx p d a b sh => encS 0x02 p (srF d a b sh.val)
  | .sel p d a b fs => encS 0x03 p (srF d a b fs.val)
  | .addi p d a imm => encS 0x04 p (siF d a imm.toNat)
  | .andi p d a imm => encS 0x05 p (siF d a imm.toNat)
  | .ori p d a imm => encS 0x06 p (siF d a imm.toNat)
  | .xori p d a imm => encS 0x07 p (siF d a imm.toNat)
  | .shli p d a sh => encS 0x08 p (siF d a sh.val)
  | .shri p d a sh => encS 0x09 p (siF d a sh.val)
  | .srai p d a sh => encS 0x0A p (siF d a sh.val)
  | .exts p d a pos l => encS 0x0B p (siF d a (pos.val * 2 ^ 6 + l.val))
  | .extz p d a pos l => encS 0x0C p (siF d a (pos.val * 2 ^ 6 + l.val))
  | .li p d imm => encS 0x0D p (d.val * 2 ^ 17 + imm.toNat)
  | .lih p d imm => encS 0x0E p (d.val * 2 ^ 17 + imm.toNat)
  | .cmp p fd a b c => encS 0x0F p (fd.val * 2 ^ 18 + a.val * 2 ^ 13 + b.val * 2 ^ 8 + c.code * 2 ^ 4)
  | .cmpi p fd a c imm => encS 0x10 p (fd.val * 2 ^ 18 + a.val * 2 ^ 13 + c.code * 2 ^ 9 + imm.toNat)
  | .fset p fd => encS 0x11 p (fd.val * 2 ^ 18)
  | .fclr p fd => encS 0x11 p (fd.val * 2 ^ 18 + 1)
  | .fand p fd fa fb => encS 0x11 p (fd.val * 2 ^ 18 + fa.val * 2 ^ 14 + fb.val * 2 ^ 10 + 2)
  | .forr p fd fa fb => encS 0x11 p (fd.val * 2 ^ 18 + fa.val * 2 ^ 14 + fb.val * 2 ^ 10 + 3)
  | .fnot p fd fa => encS 0x11 p (fd.val * 2 ^ 18 + fa.val * 2 ^ 14 + 4)
  | .lds p d a sz sgn disp => encS 0x12 p (siF d a (sz.code * 2 ^ 10 + b2n sgn * 2 ^ 9 + disp.toNat))
  | .ldt8 p d a arr sgn acq sc => encS 0x13 p (sttF d a arr sgn acq sc)
  | .ldt16 p d a arr sgn acq sc => encS 0x14 p (sttF d a arr sgn acq sc)
  | .ldt32 p d a arr sgn acq sc => encS 0x15 p (sttF d a arr sgn acq sc)
  | .ldt64 p d a arr acq sc => encS 0x16 p (sttF d a arr false acq sc)
  | .st p t a sz rl sc disp =>
    encS 0x17 p (siF t a (sz.code * 2 ^ 10 + b2n rl * 2 ^ 9 + sc.code * 2 ^ 6 + disp.toNat))
  | .br p off => encS 0x18 p off.toNat
  | .brf p fa off => encS 0x19 p (fa.val * 2 ^ 18 + off.toNat)
  | .jr p a => encS 0x1A p (a.val * 2 ^ 12)
  | .call p off => encS 0x1B p off.toNat
  | .callr p a => encS 0x1C p (a.val * 2 ^ 12)
  | .ret p => encS 0x1D p 0
  | .loop p c l => encS 0x1E p (c.toNat * 2 ^ 10 + l.toNat)
  | .loops p a l => encS 0x1F p (a.val * 2 ^ 17 + l.toNat)
  | .loopp p a b l => encS 0x20 p (a.val * 2 ^ 17 + b.val * 2 ^ 12 + l.toNat)
  | .lstep p d a => encS 0x21 p (siF d a 0)
  | .lbrk p => encS 0x22 p 0
  | .waitf p mask any => encS 0x23 p (mask.toNat * 2 ^ 6 + b2n any * 2 ^ 5)
  | .crd p d c => encS 0x24 p (d.val * 2 ^ 17 + c.num * 2 ^ 5)
  | .cwr p d c => encS 0x25 p (d.val * 2 ^ 17 + c.num * 2 ^ 5)
  | .stqpop p d h => encS 0x26 p (d.val * 2 ^ 17 + b2n h * 2 ^ 16)
  | .amo p t a op ord sc w =>
    encS 0x27 p (siF t a (op.code * 2 ^ 8 + ord.code * 2 ^ 6 + sc.code * 2 ^ 3 + b2n w * 2 ^ 2))
  | .cas p t a b ord sc w =>
    encS 0x28 p (siF t a (b.val * 2 ^ 7 + ord.code * 2 ^ 5 + sc.code * 2 ^ 2 + b2n w * 2))
  | .red p a b op ty sc =>
    encS 0x29 p (siF a b (op.code * 2 ^ 10 + ty.code * 2 ^ 7 + sc.code * 2 ^ 4))
  | .redWin p a b => encS 0x29 p (siF a b (4 * 2 ^ 4 + 2 ^ 3))
  | .barinit p n a => encS 0x2A p (n.val * 2 ^ 13 + a.val * 2 ^ 8)
  | .bararr p n a => encS 0x2A p (n.val * 2 ^ 13 + a.val * 2 ^ 8 + 1)
  | .barwait p n sense fb => encS 0x2A p (n.val * 2 ^ 13 + b2n sense * 2 ^ 12 + fb.val * 2 ^ 8 + 2)
  | .frset p k a b => encS 0x2B p (k.val * 2 ^ 19 + a.val * 2 ^ 14 + b.val * 2 ^ 9)
  | .fence p mask kind sc => encS 0x2C p (mask.toNat * 2 ^ 14 + kind.code * 2 ^ 12 + sc.code * 2 ^ 9)
  | .tspawn p a b => encS 0x2D p (siF a b 0)
  | .tspawnWait p a b => encS 0x2D p (siF a b (2 ^ 10))
  | .tdep p a b => encS 0x2E p (siF a b 0)
  | .tdepDec p a => encS 0x2E p (siF a 0 (2 ^ 11))
  | .cwait p a fb => encS 0x2F p (a.val * 2 ^ 17 + fb.val)
  | .cwaitYield p a live => encS 0x2F p (a.val * 2 ^ 17 + 2 ^ 16 + live.toNat)
  | .tsusp p live => encS 0x30 p live.toNat
  | .texit p => encS 0x31 p 0
  | .tnext p => encS 0x32 p 0
  | .safept p live => encS 0x33 p live.toNat
  | .trap p imm => encS 0x34 p imm.toNat
  | .eret p => encS 0x35 p 0
  | .ebrk p => encS 0x36 p 0
  | .isync p => encS 0x37 p 0
  | .iinv p a b => encS 0x38 p (siF a b 0)
  | .vld p d a disp =>
    encK 1 0x01 p (dF d + a.val * 2 ^ 11 + disp.toNat % 2048) 0 (if fits11 disp then 0 else disp.toNat / 2048)
      (!fits11 disp)
  | .vldt p d a arr acq sc =>
    encK 1 0x02 p (dF d + a.val * 2 ^ 11 + arr.toNat % 256 * 2 ^ 3 + b2n acq * 2 ^ 2 + sc.code) 0 (arr.toNat / 256)
  | .vst p s a sc rl men msk disp =>
    let f := s.code * 2 ^ 17 + a.val * 2 ^ 12 + sc.code * 2 ^ 9 + b2n rl * 2 ^ 8 + b2n men * 2 ^ 7 + msk.val * 2 ^ 5
      + disp.toNat % 32
    if bcOf [s] = 0 ∧ s.pk = false ∧ fits5 disp then some ⟨1, word 0x03 p f, false, 0, 0⟩
    else some ⟨1, word 0x03 p f, true, bcOf [s], b2n s.pk * 64 + disp.toNat / 32⟩
  | .vldx p d a x => encK 1 0x04 p (dF d + a.val * 2 ^ 11 + x.code * 2 ^ 6 + b2n x.pk * 2 ^ 5) (bcOf [x]) 0
  | .vstx p s a x men msk =>
    encK 1 0x05 p (s.code * 2 ^ 17 + a.val * 2 ^ 12 + x.code * 2 ^ 7 + b2n s.pk * 2 ^ 6 + b2n x.pk * 2 ^ 5
      + b2n men * 2 ^ 4 + msk.val * 2 ^ 2) (bcOf [s, x]) 0
  | .vstq p s a b n =>
    encK 1 0x06 p (s.code * 2 ^ 17 + b2n s.pk * 2 ^ 16 + a.val * 2 ^ 11 + b.val * 2 ^ 6 + n.val * 2 ^ 3) (bcOf [s]) 0
  | .agset p g a => encK 1 0x07 p (g.val * 2 ^ 19 + a.val * 2 ^ 14) 0 0
  | .cbset p c a => encK 1 0x08 p (c.val * 2 ^ 18 + a.val * 2 ^ 4) 0 0
  | .cbacq p c d fb => encK 1 0x09 p (c.val * 2 ^ 18 + d.val * 2 ^ 13 + fb.val * 2 ^ 9) 0 0
  | .cbrel p c => encK 1 0x0A p (c.val * 2 ^ 18) 0 0
  | .vadd p m d a b ty => encVA 0x01 p m d a b ty.code
  | .vsub p m d a b ty => encVA 0x02 p m d a b ty.code
  | .vmul p m d a b ty => encVA 0x03 p m d a b ty.code
  | .vfma p m d a b c bf => encVT 0x04 p m d a b c bf
  | .vfms p m d a b c bf => encVT 0x05 p m d a b c bf
  | .vmin p m d a b ty => encVA 0x06 p m d a b ty.code
  | .vmax p m d a b ty => encVA 0x07 p m d a b ty.code
  | .vabs p m d a ty => encVU 0x08 p m d a 0 ty.code
  | .vneg p m d a ty => encVU 0x09 p m d a 0 ty.code
  | .vand p m d a b => encVA 0x0A p m d a b 0
  | .vor p m d a b => encVA 0x0B p m d a b 0
  | .vxor p m d a b => encVA 0x0C p m d a b 0
  | .vnot p m d a => encVU 0x0D p m d a 0 0
  | .vshl p m d a b ty => encVA 0x0E p m d a b ty.code
  | .vshr p m d a b ty => encVA 0x0F p m d a b ty.code
  | .vsra p m d a b ty => encVA 0x10 p m d a b ty.code
  | .vcmp p md a b c ty => encVC 0x11 p md a b c.code ty.code
  | .vsel p m d a b k => encVA 0x12 p m d a b (k.val * 4)
  | .vmov p m d a => encVU 0x13 p m d a 0 0
  | .vbc p m d a k ty => encVU 0x14 p m d a k.val ty.code
  | .vperm p m d a b ty => encVA 0x15 p m d a b ty.code
  | .vrot p m d a k ty => encVU 0x16 p m d a k.val ty.code
  | .vshuf p m d a b ty => encVA 0x17 p m d a b ty.code
  | .vred p m d a op ty => encVU 0x18 p m d a op.code ty.code
  | .vscan p m d a op excl ty => encVU 0x19 p m d a (op.code + b2n excl * 4) ty.code
  | .vext p d a k ty =>
    encK 2 0x1A p (d.val * 2 ^ 17 + a.code * 2 ^ 11 + b2n a.pk * 2 ^ 10 + k.val * 2 ^ 4 + ty.code) (bcOf [a]) 0
  | .vexp2 p m d a => encVU 0x1B p m d a 0 6
  | .vlog2 p m d a => encVU 0x1C p m d a 0 6
  | .vrcp p m d a => encVU 0x1D p m d a 0 6
  | .vrsq p m d a => encVU 0x1E p m d a 0 6
  | .vcvt p m d a sat part ts td =>
    encK 2 0x1F p (dF d + a.code * 2 ^ 11 + b2n a.pk * 2 ^ 10 + b2n sat * 2 ^ 9 + b2n part * 2 ^ 8 + ts.code * 2 ^ 4
      + td.code) (bcOf [a]) (mX m)
  | .vxpand p m d a src hi => encVU 0x20 p m d a (src.code + b2n hi * 8) 9
  | .vmx p m d a b ty => encVA 0x21 p m d a b ty.code
  | .vqz p m d a b n => encVA 0x22 p m d a b n.val
  | .vdq p m d a b n => encVA 0x23 p m d a b n.val
  | .vdiff p md a b ty => encVC 0x24 p md a b 0 ty.code
  | .vcompact p m d a b k => encVA 0x25 p m d a b (k.val * 4)
  | .vexpand p m d a b k => encVA 0x26 p m d a b (k.val * 4)
  | .vpopc p m d a ty => encVU 0x27 p m d a 0 ty.code
  | .vclz p m d a ty => encVU 0x28 p m d a 0 ty.code
  | .vtrp p a rst => encK 2 0x29 p (a.code * 2 ^ 11 + b2n a.pk * 2 ^ 10 + b2n rst * 2 ^ 4) (bcOf [a]) 0
  | .vtrc p m d rst => encK 2 0x2A p (dF d + b2n rst * 2 ^ 4) 0 (mX m)
  | .mset p d a => encVM 0x2B p d 0 0 a
  | .mand p d x y => encVM 0x2C p d x y 0
  | .mor p d x y => encVM 0x2D p d x y 0
  | .mnot p d x => encVM 0x2E p d x 0 0
  | .lease p => encK 3 0x01 p 0 0 0
  | .lfree p => encK 3 0x02 p 0 0 0
  | .mmd p c a b t f =>
    encK 3 0x03 p (c.val * 2 ^ 20 + a.val * 2 ^ 15 + b.val * 2 ^ 10 + t.val * 2 ^ 5 + f.code) 0 0
  | .tbld p n a b t => encK 3 0x04 p (n.val * 2 ^ 19 + a.val * 2 ^ 14 + b.val * 2 ^ 9 + t.val * 2 ^ 4) 0 0
  | .mmt p c n a b t =>
    encK 3 0x05 p (c.val * 2 ^ 20 + n.val * 2 ^ 17 + a.val * 2 ^ 12 + b.val * 2 ^ 7 + t.val * 2 ^ 2) 0 0
  | .mmtd p c n a b t =>
    encK 3 0x06 p (c.val * 2 ^ 20 + n.val * 2 ^ 17 + a.val * 2 ^ 12 + b.val * 2 ^ 7 + t.val * 2 ^ 2) 0 0
  | .accz p c t => encK 3 0x07 p (c.val * 2 ^ 20 + t.val * 2 ^ 5) 0 0
  | .accld p c a tg t => encK 3 0x08 p (c.val * 2 ^ 20 + a.val * 2 ^ 15 + tg.val * 2 ^ 11 + t.val * 2 ^ 5) 0 0
  | .accst p c a ty sat t =>
    encK 3 0x09 p (c.val * 2 ^ 20 + a.val * 2 ^ 15 + ty.code * 2 ^ 11 + b2n sat * 2 ^ 10 + t.val * 2 ^ 5) 0 0
  | .cbbind p n a mode t => encK 3 0x0A p (n.val * 2 ^ 19 + a.val * 2 ^ 14 + b2n mode * 2 ^ 13 + t.val * 2 ^ 8) 0 0
  | .cbfree p n => encK 3 0x0B p (n.val * 2 ^ 19) 0 0
  | .cbinv p a t => encK 3 0x0C p (a.val * 2 ^ 14 + t.val * 2 ^ 8) 0 0
  | .cbpre p a => encK 3 0x0D p (a.val * 2 ^ 14) 0 0
  | .cpy p d s h t => encEC 0x0E p d s h t
  | .cpyq p d s h t => encEC 0x0F p d s h t
  | .cpyd p d s h t => encEC 0x10 p d s h t
  | .cpym p d s h t => encEC 0x11 p d s h t
  | .cpyf p d s h t => encEC 0x12 p d s h t
  | _ => none

/-- The instruction the decoder reads from an encoding. -/
def decodeEnc (e : Enc) : Except IllegalSub Instr := decodeSlot e.slot e.bc e.hdr e.ext e.word

/-! ## The table's words -/

/-- The first slot class, in ascending order, whose decoder takes a 32-bit word as an instruction: the class the table means
where a word is given alone (the classes have separate opcode spaces, R203). The word of the table is of no other class when
its own class comes first; see log entry 20. -/
def tableSlot (w : Nat) : Option (Fin 4 × Instr) :=
  match decodeS w with
  | .ok i => some (0, i)
  | .error _ =>
    match decodeM 0 false 0 w with
    | .ok i => some (1, i)
    | .error _ =>
      match decodeV 0 0 w with
      | .ok i => some (2, i)
      | .error _ =>
        match decodeE 0 w with
        | .ok i => some (3, i)
        | .error _ => none

/-- The instruction of a table row's bits: a 32-bit slot word. -/
def decodeTableWord (nbits w : Nat) : Option Instr :=
  if nbits = 0 then none else (tableSlot (w % 2 ^ 32)).map (·.2)

end Sys2Proof
end

