-- ==== Sys2Proof/Machine/State.lean ====
section
/-! DEFINITION. The state of the machine as plain data, the reasons a step can stop, and the state right after power-on. Every
piece of state is listed with its rule in INVENTORY.md, '## State'. -/

namespace Sys2Proof.Machine

/-- Why a step can stop with a fault. -/
inductive Fault where
  /-- Raised by the meaning of an event row whose occasion does not exist in the state (a completion of a request that is not
  outstanding, a sample of a sensor while power is off, an index out of range). The device has no such event, so stopping is
  safe: no claim about a behaviour the device has is lost. -/
  | noSuchEvent
deriving DecidableEq, Repr

/-- Why a step can be refused. -/
inductive Refusal where
  /-- Raised by an arm of `exec` whose instruction has no meaning in the model. Safe: nothing can be proved of it. -/
  | notModelled (mnemonic : String)
deriving DecidableEq, Repr

/-- A sparse memory: (address, byte) pairs, addresses strictly rising, no byte equal to what an unlisted address reads as. -/
abbrev Mem := List Host.Cell

/-- What an address that is not listed reads as: zero (04 R59 for SRAM, R63 and R65 for HBM; log entry 11 for memory beyond
the package). -/
def Mem.unlisted : Byte := 0

/-! ## The core's registers -/

/-- A fence range register (07 Table 7-2). -/
structure FenceRange where
  lo : Word
  hi : Word
deriving DecidableEq, Repr

/-- A codebook binding (08 Table 8-8). -/
structure Binding where
  entry   : BitVec 16
  cbid    : BitVec 16
  ver     : BitVec 16
  valid   : Bool
  mode    : Bool
  kc      : BitVec 2
  vl      : BitVec 2
  wide    : Bool
  gen     : BitVec 32
  scale   : BitVec 8
  prevver : BitVec 16
deriving DecidableEq, Repr

/-- No binding (04 R59). -/
def Binding.none : Binding := ⟨0, 0, 0, false, false, 0, 0, false, 0, 0, 0⟩

/-- A circular buffer (06 Table 6-4, 13 Table 13-3). `done` lists the slots whose copies have completed while an older
producer-held slot has not (06 R117). -/
structure CbBuf where
  base   : Word
  slotsz : Nat
  nslot  : Nat
  free   : Nat
  filled : Nat
  pidx   : Nat
  cidx   : Nat
  pheld  : Nat
  cheld  : Nat
  done   : List Nat
deriving DecidableEq, Repr

/-- A disabled buffer (04 R59). -/
def CbBuf.none : CbBuf := ⟨0, 0, 0, 0, 0, 0, 0, 0, 0, []⟩

/-- An address generator's 64-byte parameter set (13 Table 13-2). -/
abbrev AgSet := BitVec 512

/-- One entry of a queue register: reserved while `data` is none, landed with its value (06 R106). -/
structure QEntry where
  id   : Nat
  data : Option Vec
deriving DecidableEq, Repr

/-- What a flag is bound to (13 R296): a barrier phase, a counter reaching zero, a circular buffer with a filled slot. -/
inductive FlagBind where
  | bar (n : BarReg) (sense : Bool)
  | ctr (die num : Nat)
  | buf (k : CbReg)
deriving DecidableEq, Repr

/-- Steps of a loop level or armed by LSTEP: step 0 and step 1 (11 Table 11-6). -/
structure Steps where
  s0 : Option (SReg × SReg)
  s1 : Option (SReg × SReg)
deriving DecidableEq, Repr

/-- No steps. -/
def Steps.none : Steps := ⟨.none, .none⟩

/-- An active loop level (11 Table 11-6). -/
structure LoopLevel where
  start : Nat
  lenM1 : Nat
  count : Nat
  steps : Steps
deriving DecidableEq, Repr

/-- The loop state: active levels, outermost first, and the armed steps (11 R246). -/
structure LoopState where
  levels : List LoopLevel
  armed  : Steps
deriving DecidableEq, Repr

/-- DEPTH 0 and nothing armed. -/
def LoopState.none : LoopState := ⟨[], Steps.none⟩

/-- The transposer (12 R284). -/
structure Transposer where
  rows : Vector Vec 32
  rv   : BitVec 32
  rp   : Fin 32
  cp   : Fin 32
deriving DecidableEq, Repr

/-- A statistics record (06 Table 6-7). -/
structure StqRec where
  bund   : BitVec 22
  slot   : Fin 4
  kind   : BitVec 8
  count  : BitVec 32
  detail : BitVec 64
deriving DecidableEq, Repr

/-- A barrier (13 R306). -/
structure Barrier where
  expect  : Nat
  arrived : Nat
  ph      : Bool
deriving DecidableEq, Repr

/-- An accumulator tile: element (m, n) at 32m + n. -/
abbrev Tile := Vector Lane 1024

/-- The registers of Table 6-2 with the state that goes with them. -/
structure Regs where
  s     : Vector Word 32
  f     : Vector Bool 16
  fbind : Vector (Option FlagBind) 16
  m     : Vector Lane 4
  n     : Vector Word 4
  q     : Vector (List QEntry) 16
  l     : Vector (Option Vec) 4
  ac    : Vector Tile 4
  tag   : Vector (BitVec 4) 4
  fr    : Vector FenceRange 8
  b     : Vector Binding 8
  ag    : Vector AgSet 6
  cb    : Vector CbBuf 16
  loops : LoopState
  tr    : Transposer
  stq   : List StqRec
  lost  : BitVec 16
  bars  : List (Nat × Barrier)
deriving DecidableEq, Repr

/-- The CSRs of Tables 6-3, 6-9, 6-10, 9-1, 9-5 that are stored; the others are views. `cycle` and the counters are not
wrapped here: their reads are modulo 2^64 (06 R130). -/
structure Csrs where
  mode      : Bool
  slend     : Bool
  ipTimer   : Bool
  ipIpi     : Bool
  cause     : Word
  epc       : Word
  eval      : Word
  evec      : Word
  scratch   : Word
  timecmp   : Word
  accown    : Word
  accdirty  : BitVec 4
  compat    : Bool
  cfrz      : BitVec 16
  tstat     : Vector Word 4
  tstatNext : List (Fin 4 × Word × Nat)
  cycle     : Nat
  bundles   : Nat
  freezecnt : Nat
  bankstall : Nat
deriving DecidableEq, Repr

/-! ## Results owed, requests, engines -/

/-- Where a result goes when it lands (06 R103, R106, R107, R108; 09 Table 9-3; the last eight have latency 1 and are never
owed across a boundary). -/
inductive Dest where
  | sreg (r : SReg)
  | next (k : Fin 4)
  | flag (r : FReg)
  | mask (r : MReg)
  | queue (k : Fin 16) (id : Nat)
  | latch
  | port (p5 : Bool) (addr : Word) (pad : Bool)
  | csr (c : Csr)
  | fence (k : FrReg)
  | agen (g : AgReg)
  | buf (k : CbReg)
  | bind (n : BReg)
  | trow (r : Fin 32)
  | loopStep (r : SReg)
deriving DecidableEq, Repr

/-- A result owed: `due` is the core cycle from which it is seen, or its DIST while it is a shadow entry; `data` is none until
the data of a timed load, an atomic or a TNEXT arrive; `present` is the die cycle from which the data of a COMPAT landing are
present (06 R112); `eval` is the load's address; `latch` says which pair the result enters, if any (06 R107); `recs` are the
statistics records that enter when it is written (06 R128); `cbs` is the key of the codebook copy it was computed from
(12 R283). -/
structure Owed where
  ord     : Nat
  due     : Nat
  slot    : Fin 4
  dest    : Dest
  data    : Option Vec
  timed   : Bool
  present : Nat
  poison  : Bool
  eval    : Word
  latch   : Option (Fin 2)
  recs    : List StqRec
  cbs     : Option Nat
deriving DecidableEq, Repr

/-- What an outstanding request does when it is performed. Addresses are physical bytes; `got` are the bytes of a vector load that
have been read already (07 R133). -/
inductive ReqOp where
  | load (bytes : List Nat) (sgn : Bool) (got : List Host.Cell)
  | store (cells : List Host.Cell)
  | amo (pa : Nat) (n : Nat) (op : AmoOp) (v : Word)
  | cas (pa : Nat) (n : Nat) (exp new : Word)
  | red (pa : Nat) (op : RedOp) (ty : RedTy) (v : Word)
  | redWin (a : Word) (line : List Nat) (rank epoch : Nat) (sent : Bool)
  | fence (mask : BitVec 8) (kind : FenceKind)
  | bararr (core : Nat) (n : BarReg)
  | bindcnt (pa : Nat) (va : Word)
deriving DecidableEq, Repr

/-- An outstanding request of a core's LSU, or a fence or barrier arrival that holds others (06 R111, 07 R134-R144,
13 R308); `cyc` is the core cycle of its issue. `lanes` says that its 4-byte lanes are accesses of their own (07 R133), `fwd` that
its core has read bytes of it by forwarding (07 R146), `wins` the windows that a fence's registers match (07 R152). -/
structure Req where
  ord   : Nat
  op    : ReqOp
  va    : Word
  scope : Scope
  acq   : Bool
  rel   : Bool
  tags  : BitVec 8
  win   : Option Nat
  bund  : Word
  task  : Nat
  cyc   : Nat
  lanes : Bool
  fwd   : Bool
  wins  : List Nat
deriving DecidableEq, Repr

/-- The copies of Table 13-7. -/
inductive CopyOp where
  | cpy | cpyf | cpyq | cpyd | cpym
deriving DecidableEq, Repr

/-- The destination bytes of a codebook copy that has begun to write (13 R314, R315): runs of bytes with their poison marks, at
offsets of the destination side, its records by kind, the first poisoned source address, and the key of the CBS copy it uses until its last
write (08 R169). -/
structure CopyPlan where
  runs   : List (Nat × List (Byte × Bool))
  recs   : List (Nat × Nat)
  poison : Option Nat
  cbs    : Option Nat
deriving DecidableEq, Repr

/-- A copy as its bundle names it: the four register values of Table 13-5, whether a counter register is named, its bundle. -/
structure CopyArgs where
  op    : CopyOp
  dst   : Word
  src   : Word
  shp   : Word
  ctr   : Word
  named : Bool
  bund  : Word
deriving DecidableEq, Repr

/-- How far a copy with a peer has come (01 R18, log entry 35): its reads of peer memory are to be sent, so many of them are unanswered,
its writes are to be sent, so many are unanswered; idle before and after, and for a copy without a peer. -/
inductive PeerStage where
  | idle
  | read
  | reading (n : Nat)
  | write
  | writing (n : Nat)
deriving DecidableEq, Repr

/-- A busy copy channel (06 R124, 13 R311). `slot` is the circular-buffer slot the copy has taken; `held` says that it has taken none
yet; accesses of its core to the slot with issue numbers below `after` come before it (07 R140, R147). `wins` are the windows its
sides name, `plain` says that a side lies outside all windows (07 R152). `done` are the words it has written before its completion, `plan`
what a codebook copy writes (07 R133, R148). `peer` is its progress with a peer, `lost` the ranges of peer memory, as offset and length,
whose requests a port has lost (01 R18). -/
structure Chan where
  id   : Fin 16
  ord  : Nat
  op   : CopyOp
  dst  : Word
  src  : Word
  shp  : Word
  ctr  : Word
  named : Bool
  bund : Word
  bnd  : Option Binding
  vd   : Nat
  gen  : BitVec 16
  held : Bool
  slot : Option Nat
  tags : BitVec 8
  task : Nat
  after : Nat
  wins : List Nat
  plain : Bool
  done : List Nat
  plan : Option CopyPlan
  peer : PeerStage
  lost : List (Nat × Nat)
deriving DecidableEq, Repr

/-- What an array command does (14 R321-R325): physical addresses of its operands, each within one slice or page, and its
descriptors, as read at issue. -/
inductive CmaOp where
  | mmd (c : AcReg) (a b : Nat) (f : MmdFmt)
  | tbld (a : Nat) (b : Word)
  | mmt (c : AcReg) (a : Nat) (b : Word)
  | mmtd (c : AcReg) (a : Nat) (b b1 : Word)
  | accz (c : AcReg)
  | accld (c : AcReg) (a : Nat) (tg : Fin 16)
  | accst (c : AcReg) (a : Nat) (ty : VTy) (sat : Bool)
deriving DecidableEq, Repr

/-- An array command in the CMA's queue (06 R126); `bn` is the number of its binding, `tag` the tile's tag after it, `wins` and `plain`
as in a channel, `done` the 4-byte words that an ACCST has written before its completion (07 R148). -/
structure CmaCmd where
  core : Nat
  ord  : Nat
  op   : CmaOp
  bnd  : Option Binding
  ctr  : Option (BitVec 16)
  bund : Word
  vd   : Nat
  gen  : BitVec 16
  tags : BitVec 8
  tag  : BitVec 4
  bn   : Nat
  task : Nat
  wins : List Nat
  plain : Bool
  done : List Nat
deriving DecidableEq, Repr

/-- An entry of the TLB (06 R121): virtual base, whether it maps 2 MiB, physical base, W and X, and the window it lies in. -/
structure TlbEntry where
  va  : Nat
  big : Bool
  pa  : Nat
  w   : Bool
  x   : Bool
  win : Option Nat
deriving DecidableEq, Repr

/-- An imprecise report that waits (09 R187): its command's cause, slot and bundle. -/
structure Report where
  cause : BitVec 8
  sub   : BitVec 8
  slot  : Fin 4
  bund  : Word
deriving DecidableEq, Repr

/-- Lease state of a core (14 R319). -/
inductive LeaseState where
  | none | requested | held
deriving DecidableEq, Repr

/-- A continuation record (05 Table 5-1). SHEP is the Shepherd's own (log entry 14): home die, launch cursor, tile index,
count of TNEXT answers, count of tiles to be counted at exit, core that last ran it. -/
structure Cont where
  code  : BitVec 32
  pc    : BitVec 32
  wid   : Word
  frame : Word
  dctr  : BitVec 16
  live  : BitVec 16
  prio  : BitVec 8
  vd    : BitVec 8
  gen   : BitVec 16
  flags : BitVec 16
  rsv   : BitVec 48
  arg   : Word
  shep  : BitVec 128
deriving DecidableEq, Repr

/-- The running task: its continuation record, the serial of its dispatch, the die cycle it was dispatched at, the TNEXT
answers received, the tiles taken through TNEXT, and the serial of its first dispatch, which names it through its suspensions. -/
structure Task where
  cont   : Cont
  vd     : Nat
  gen    : BitVec 16
  disp   : Nat
  since  : Nat
  count  : Nat
  tiles  : Nat
  id     : Nat
deriving DecidableEq, Repr

/-- An urgent stop that waits for the core to leave supervisor mode (09 R192). -/
inductive StopReq where
  | pause | reset | debug
deriving DecidableEq, Repr

/-- What a bundle does after its slots have taken effect (09 R186, 14 R331). -/
inductive After where
  | syscall (imm : BitVec 16)
  | brk
  | suspend (live : Nat)
  | nameOn (ctr : BitVec 16) (live : Nat)
  | exit
  | isync
deriving DecidableEq, Repr

/-- Why a task leaves its core when it did not choose to (09 R192, R202): an urgent stop, or a double trap with the POISON, the
code and the bytes 16-31 of its event. -/
inductive Urgent where
  | stop (why : StopReq)
  | double (code : Nat) (eval : Word) (bund : Word)
deriving DecidableEq, Repr

/-- How a task that is leaving its core leaves it, while what must finish first cannot (09 R190, R192; 06 R118). -/
inductive Leaving where
  | task (a : After)
  | urgent (u : Urgent)
deriving DecidableEq, Repr

/-- What the stopped domain of a core waits for, before its bundle issues (06 Table 6-1). An array command that waits for the lease has been
checked: the physical address and window of its operand in HBM, if it has one there, and the TLB entry that the check fills (14 R316). -/
inductive Wait where
  | flags (seen : Vector Bool 16)
  | lease (op : Option (Nat × Option Nat × Option TlbEntry))
  | channels
  | requests
  | landing
  | leave (l : Leaving)
deriving DecidableEq, Repr

/-- The instruction cache: 64-byte lines of virtual addresses with the bytes fetched, and lines invalidated since the last
ISYNC (07 R155, 14 R334). -/
structure ICache where
  lines : List (Nat × List Byte)
  stale : List (Nat × List Byte)
deriving DecidableEq, Repr

/-- One core. `seen` are the writes not yet applied everywhere that it has read, with the tags and window of the access; `past` those
that precede its later writes causally, with their windows (07 R137, R146). `lateStop` says that a late landing has stopped it,
`empty` counts empty cycles still to pass, `leavePc` is the bundle whose after-effect waits, `again` are the held channels of its task that
have not been reissued yet (06 R118). -/
structure Core where
  regs    : Regs
  csr     : Csrs
  dieCyc  : Nat
  serial  : Nat
  owed    : List Owed
  shadow  : List Owed
  srbL    : Vector (Option Vec) 4
  setAside : LoopState
  trapPc  : Nat
  lsu     : List Req
  chans   : List Chan
  tlb     : List TlbEntry
  icache  : ICache
  lease   : LeaseState
  leaseAtTrap : LeaseState
  grace   : Bool
  reports : List Report
  task    : Option Task
  code    : BitVec 32
  pc      : Nat
  stop    : Option StopReq
  debug   : Bool
  wait    : Option Wait
  lastCtx : Option Word
  seen    : List (Nat × BitVec 8 × Option Nat)
  past    : List (Nat × Option Nat)
  lateStop : Bool
  empty   : Nat
  leavePc : Nat
  again   : List CopyArgs
deriving DecidableEq, Repr

/-! ## Clusters, Shepherd, virtual devices -/

/-- A copy of a codebook version in a CBS (08 R167): key, GEN, codewords, map. -/
structure CbsCopy where
  key : Nat
  gen : BitVec 32
  cw  : List Byte
  map : Option (List Byte)
deriving DecidableEq, Repr

/-- A fill of a CBS copy that CBBIND or CBPRE has started (14 R326, R327): its core, the physical address of its entry, the binding
it is for, whether it fetches the map, and CBBIND's counter. `pre` marks a CBPRE, whose binding names only ENTRY, CBID and VER. -/
structure Fill where
  core : Nat
  pa   : Nat
  pre  : Bool
  bn   : BReg
  bnd  : Binding
  map  : Bool
  ctr  : Option (BitVec 16)
  vd   : Nat
  gen  : BitVec 16
  bund : Word
deriving DecidableEq, Repr

/-- A cluster's shared state: CMA queue, lease, CBS copies (06 R125-R127). `turn` counts the lease's array commands, `turnAt`
is the holder's core cycle at the grant. -/
structure Cluster where
  cmds   : List CmaCmd
  holder : Option Nat
  reqs   : List Nat
  last   : Nat
  turn   : Nat
  turnAt : Nat
  ending : Bool
  cbs    : List CbsCopy
  fills  : List Fill
deriving DecidableEq, Repr

/-- A cluster after a scrub (04 R59). -/
def Cluster.idle : Cluster := ⟨[], none, [], 3, 0, 0, false, [], []⟩

/-- A release of a codebook version in progress (08 R169). -/
structure CbInv where
  core : Nat
  ord  : Nat
  key  : Nat
  ctr  : Option (BitVec 16)
  vd   : Nat
  gen  : BitVec 16
  bund : Word
deriving DecidableEq, Repr

/-- States of a VD (03 VDSTAT.STATE). -/
inductive VdState where
  | running | paused | migrating | resetting
deriving DecidableEq, Repr

/-- A code object placed for a VD (03 R43-R45): handle, virtual address, fields of its header, its tables, its bytes as
submitted. -/
structure CodeObj where
  handle : BitVec 32
  va     : Nat
  nbund  : Nat
  off    : Nat
  compat : Bool
  live   : List Word
  tgts   : List Nat
  rel    : List Word
  ncore  : Nat
  bytes  : List Byte
deriving DecidableEq, Repr

/-- Kinds of handle (06 Table 6-6). -/
inductive HandleKind where
  | device | host | peer
deriving DecidableEq, Repr

/-- A handle: its pages' places. `pages` are physical addresses for kind 0; `target` is the bus address for kind 1 and the
remote handle and chip for kind 2 (06 R122). `win` names the window of a page, if any. -/
structure Handle where
  kind   : HandleKind
  rd     : Bool
  wr     : Bool
  htso   : Bool
  npage  : Nat
  target : Word
  link   : Fin 2
  pbmp   : Word
  pages  : List (Nat × Option Nat)
deriving DecidableEq, Repr

/-- A dependence counter (05 R88): COUNT and the named continuation. -/
structure Ctr where
  count : Int
  named : Option Cont
deriving DecidableEq, Repr

/-- A continuation or launch that waits in a ready queue: its class, the die of the queue, the time it became ready, and the
cursor and tile it was generated from (05 R92, R95). -/
structure Ready where
  cont  : Cont
  die   : Fin 4
  since : Nat
  tile  : Option (Nat × Nat)
deriving DecidableEq, Repr

/-- A launch cursor (05 R85, R87): header address, fields, next tile, tiles counted. -/
structure Cursor where
  id     : Nat
  hdr    : Word
  code   : BitVec 32
  entry  : BitVec 32
  prio   : BitVec 8
  fw     : List Nat
  ext    : List Nat
  map    : List (Word × Nat × List Int)
  frame  : Word
  stride : Nat
  donectr : BitVec 16
  evdone : Bool
  next   : Nat
  total  : Nat
  done   : Nat
  turn   : Nat
deriving DecidableEq, Repr

/-- An event record that waits, without its PHASE (03 Table 3-10). -/
structure Event where
  cls     : BitVec 8
  code    : BitVec 8
  gen     : BitVec 16
  seq     : BitVec 31
  time    : Word
  payload : List Byte
deriving DecidableEq, Repr

/-- An entry of an MSI-X table: address, data, masked (03 Table 3-3). -/
structure MsixEntry where
  addr : Word
  data : BitVec 32
  ctl  : BitVec 32
deriving DecidableEq, Repr

/-- A window-map entry of a holder (04 R71). -/
structure WinMap where
  base : Nat
  len  : Nat
  win  : Nat
deriving DecidableEq, Repr

/-- The VD registers of Table 3-4 that are stored. -/
structure VdRegs where
  acc   : Word
  rej   : BitVec 32
  drop  : BitVec 16
  last  : BitVec 8
  evhdl : BitVec 32
  evoff : BitVec 32
  log2n : Nat
  modus : BitVec 8
  en    : Bool
  head  : BitVec 32
  tail  : BitVec 32
  stale : BitVec 32
  lost  : BitVec 32
  vec   : Vector (BitVec 6) 8
  win   : BitVec 9
deriving DecidableEq, Repr

/-- The reset values of Table 3-4. -/
def VdRegs.reset : VdRegs := ⟨0, 0, 0, 0, 0, 0, 6, 0, false, 0, 0, 0, 0, Vector.replicate 8 0, 0⟩

/-- A lifecycle request that waits for what must finish first (04 R77, R80; 09 R192). A reset that root firmware halts ends paused
(02 R29); `leaving` is a VD_DESTROY that has reset the VD and takes it out of its windows (04 R81, R75). -/
inductive LifeReq where
  | pause (link : Fin 2) | reset (link : Fin 2) (halted : Bool) | destroy (link : Fin 2) | migrate (link : Fin 2) (was : VdState)
  | firmware | leaving (link : Fin 2)
deriving DecidableEq, Repr

/-- A virtual device (04 R52, Table 4-1). `pos` are the places of its frames in its tree on each die, as die, frame and place, `posNext`
the next place on each die (04 R65, R79); `tasks` are the serials of its suspended tasks by the address of their frames. -/
structure Vd where
  maxprio  : Nat
  weight   : Nat
  link     : Fin 2
  vf       : Fin 64
  clusters : List Nat
  framesN  : Vector Nat 4
  ctrsN    : Vector Nat 4
  quota    : Nat
  pedbase  : Word
  pedn     : Nat
  qosns    : Nat
  qosp     : Nat
  state    : VdState
  gen      : BitVec 16
  life     : Option LifeReq
  regs     : VdRegs
  tableDie : Fin 4
  slots    : List ((Nat × Nat) × (Nat × Nat))
  pos      : List ((Nat × Nat) × Nat)
  posNext  : Vector Nat 4
  winmap   : List WinMap
  handles  : List (Nat × Handle)
  codes    : List CodeObj
  ctrs     : List (Nat × Ctr)
  ready    : List Ready
  ovf     : List Ready
  cursors  : List Cursor
  nextCur  : Nat
  hold     : List (List Byte)
  pend     : List Event
  seq      : BitVec 31
  lostRun  : Nat
  due7     : Bool
  msix     : List (Nat × MsixEntry)
  msgs     : List (Fin 8 × BitVec 6)
  msixAt   : Option Nat
  hist     : List (Nat × Nat)
  meas2    : BitVec 384
  meas2c   : BitVec 384
  measured : Nat
  tasks    : List (Nat × Nat)
deriving DecidableEq, Repr

/-- A shared window (04 R71). -/
structure Window where
  id      : Nat
  die     : Fin 4
  first   : Nat
  n       : Nat
  holders : List Nat
  keyGen  : Nat
deriving DecidableEq, Repr

/-- A window request past its re-key point that waits for the accesses before it (04 R73, R75): the window, the new holders with their
bases, none for a WIN_FREE, and the link whose mailbox made it. -/
structure WinOp where
  win  : Nat
  new  : Option (List (Nat × Nat))
  link : Fin 2
deriving DecidableEq, Repr

/-- The owner of a data frame (04 R68). -/
inductive Owner where
  | vd (v : Nat)
  | win (w : Nat)
deriving DecidableEq, Repr

/-- A contribution that waits in a Falyth switch (01 R20): rank, line, and the request it came from. -/
structure Contribution where
  rank : Nat
  line : BitVec 512
  core : Nat
  seq  : Nat
deriving DecidableEq, Repr

/-- A reduction window registered in a switch (01 R19, Table 1-5). `home` is the VD of this package that holds the home, none for a home
on another chip. -/
structure RedWindow where
  switch : Nat
  chip   : Nat
  handle : Nat
  off    : Nat
  len    : Nat
  ty     : RedTy
  op     : RedOp
  n      : Nat
  ranks  : List Nat
  home   : Option Nat
  lines  : List (Nat × Nat × List Contribution)
  rejected : Nat
deriving DecidableEq, Repr

/-! ## Links, heat, power, management -/

/-- Falyth training phases (01 Table 1-4). -/
inductive FalPhase where
  | detect | signal | equalize | align | param | active | down
deriving DecidableEq, Repr

/-- What a request that leaves through a Falyth port belongs to (01 R17, R18): a contribution with its VD, home (chip, handle, offset),
line, rank and epoch; or a copy, with the range of peer memory that it reads, or the bytes it writes there, as chip, handle, offset. -/
inductive TxOp where
  | red (vd : Nat) (home : Option Nat × Nat × Nat) (line : BitVec 512) (rank epoch : Nat)
  | read (off n : Nat)
  | write (chip handle off : Nat) (bytes : List Byte)
deriving DecidableEq, Repr

/-- A request that leaves through a Falyth port: its virtual channel and payload, what it belongs to, its core and issue number. -/
structure TxReq where
  vc      : Fin 4
  payload : List Byte
  op      : TxOp
  core    : Nat
  ord     : Nat
deriving DecidableEq, Repr

/-- A data flit in a replay buffer: its sequence number, its request, the credits it returns and their channel (01 R17). -/
structure TxFlit where
  seq   : Nat
  req   : TxReq
  crd   : Nat
  crdvc : Fin 4
deriving DecidableEq, Repr

/-- A Falyth port (01 R15-R18): its training, the flits sent and unacknowledged, the requests that wait to be
sent, the next sequence number, the last ACK received, the last data flit received in order, whether it discards flits up to a replay,
replays without progress, whether its replay buffer survives the training under way, its credits, and its partner. -/
structure FalPort where
  phase   : FalPhase
  fails   : Nat
  lanes   : Nat
  replay  : List TxFlit
  queue   : List TxReq
  nextSeq : Nat
  lastAck : Nat
  rxLast  : Nat
  dropping : Bool
  stalls  : Nat
  kept    : Bool
  credits : Vector Nat 4
  partner : Option FalPartner
deriving DecidableEq, Repr

/-- A port before training. -/
def FalPort.idle : FalPort := ⟨.detect, 0, 0, [], [], 0, 4095, 4095, false, 0, false, Vector.replicate 4 0, none⟩

/-- A die's throttle controller, its sensors and stacks (02 R26-R30). Clocks are in units of 10 MHz. -/
structure DieHeat where
  level   : Nat
  clkT    : Nat
  clkP    : Nat
  hard    : Bool
  tripped : Bool
  stktrip : Bool
  sensors : Vector (BitVec 16 × Bool) 8
  stack   : Vector Int 2
  refr    : Vector Nat 2
  temp    : Int
deriving DecidableEq, Repr

/-- A die right after power-on (02 Tables 2-2, 2-4). -/
def DieHeat.cool : DieHeat :=
  ⟨0, 140, 140, false, false, false, Vector.replicate 8 (0, false), Vector.replicate 2 0, Vector.replicate 2 0, 0⟩

/-- A die's Shepherd beyond the queues of the VDs: the round robin of R93. -/
structure DieShep where
  last : Nat
  used : List (Nat × Nat)
deriving DecidableEq, Repr

/-- Bring-up (01 R22, R23). `todo` is the work of Table 1-6 that has neither completed nor failed. -/
structure BringUp where
  hbmok   : BitVec 8
  hbmfail : BitVec 8
  pcieup  : BitVec 2
  ready   : Bool
  degr    : Bool
  fail    : Bool
  fstep   : BitVec 2
  ethup   : BitVec 16
  todo    : List BringItem
deriving DecidableEq, Repr

/-- A mailbox: MBCTL and MBBUF (03 R49, Table 3-12). -/
structure Mailbox where
  busy   : Bool
  status : BitVec 8
  buf    : List Byte
deriving DecidableEq, Repr

/-- What the device sends to the outside: host messages and notices to firmware (03, 01, 02). -/
inductive Msg where
  | cfgRetry (fn : PciFn)
  | cfgDone (fn : PciFn)
  | read (fn : PciFn) (value : List Byte)
  | msix (fn : PciFn) (vec : Nat) (addr : Word) (data : BitVec 32)
  | doe (fn : PciFn) (bytes : List Byte)
  | rootNotice (cause : BitVec 8) (value : Nat)
  | serviceNotice (port : Nat)
  | flit (port : Nat) (bytes : List Byte)
  | param (port : Nat) (own : FalPartner)
  | peerWrite (chip handle off : Nat) (bytes : List Byte)
deriving DecidableEq, Repr

/-- The package's management state (01, 02, 03). `ethGroup` is the number of lanes of every Ethernet port once service firmware has
grouped them (01 R14), `redRejects` counts contributions outside every window (01 R21), `pfMsix` and `pfPba` are the MSI-X tables of the
two physical functions and their pending vectors, vector v of link k at 2,048k + v (01 R13). -/
structure Pkg where
  on       : Bool
  bring    : BringUp
  mgmterr  : Word
  setpt    : Nat
  band     : Nat
  en       : Bool
  pkgw     : Nat
  balrun   : Bool
  heat     : Vector DieHeat 4
  shep     : Vector DieShep 4
  boxes    : Vector Mailbox 2
  waiting  : List (Fin 2)
  d2dDown  : List (Nat × Nat)
  d2dTries : List ((Nat × Nat) × Nat)
  ports    : Vector FalPort 24
  ethGroup : Option Nat
  redRejects : Nat
  pfMsix   : List (Nat × MsixEntry)
  pfPba    : List Nat
  timeNs   : Nat
deriving DecidableEq, Repr

/-- A counter block (level 0) or a node of a domain's tree on a die (04 Table 4-5), by its level and its index in the tree. -/
structure TreeKey where
  domain : Nat
  die    : Nat
  level  : Nat
  idx    : Nat
deriving DecidableEq, Repr

/-- Counters of the Memory Protection Engine (04 R63-R65): major by granule, minor by block; the counter that the parent of a counter block
or node holds for it, those of level 7 in the root registers; the metadata cache with its dirty marks. Zero where unlisted. -/
structure Mpe where
  major : List (Nat × Nat)
  minor : List (Nat × Nat)
  tree  : List (TreeKey × Nat)
  cache : List (TreeKey × Bool)
  keyGen : List (Nat × Nat)
deriving DecidableEq, Repr

/-! ## What the step does next, and the scratch of an issue -/

/-- What comes next when it is not the device by itself (log entries 1, 6): an event of the device; the turn of another core; that the
device goes on while writes are not applied everywhere; a request performed with dies left that have not applied it; the application of
a write by a die; some lanes of a vector access; atomics that race, their scopes not containing each other's issuers; some words of a copy, or of
the ACCST at the head of a cluster's queue; the registration of a reduction window by service firmware; an entry of a PF's MSI-X table written by the host. -/
inductive Input where
  | event (i : Instr)
  | turn (core : Nat)
  | go
  | weak (core ord : Nat) (dies : BitVec 4)
  | apply (id : Nat) (die : Fin 4)
  | lanes (core ord : Nat) (mask : BitVec 32)
  | race (reqs : List (Nat × Nat))
  | chunk (core chan lo n : Nat)
  | drain (cluster lo n : Nat)
  | window (id : Nat) (w : RedWindow)
  | pfVector (link : Fin 2) (vec : Nat) (e : MsixEntry)
deriving DecidableEq, Repr

/-- A cause with what CAUSE and EVAL get (09 Table 9-2). -/
structure Trap where
  code : Nat
  sub  : Nat
  slot : Fin 4
  eval : Word
deriving DecidableEq, Repr

/-- How `exec` runs a slot: alone in its bundle (waits, checks and effect), or one phase of a bundle of several slots. -/
inductive Phase where
  | alone | waits | checks | effect
deriving DecidableEq, Repr

/-- A use of a queue, latch or port by one slot of the bundle: its sources and what it pushes (06 R106-R108). -/
structure Use where
  slot : Fin 4
  srcs : List VSrc
  dst  : Option VDst
deriving DecidableEq, Repr

/-- The scratch of the bundle being issued: empty between bundles. `seen` holds the flags as a bundle of several slots reads
them at its issue; `mems` and `lands` count the requests and landing entries that its slots will take; `binds` are the bindings its slots
make, `fences` its fence, `block` the bytes that its AGSET or CBSET has read and checked, `walk` says that a translation has missed the
TLB or a codebook has been fetched, `granted` that the lease its array command waited for has come, `checked` the operand checked before. -/
structure Issue where
  phase  : Phase
  slot   : Fin 4
  uses   : List Use
  traps  : List Trap
  blocked : Option Wait
  unsat  : Bool
  next   : Option Nat
  jumped : Bool
  broke  : Bool
  started : Bool
  after  : Option After
  eret   : Bool
  ended  : Bool
  granted : Bool
  seen   : Option (Vector Bool 16)
  mems   : Nat
  lands  : Nat
  binds  : List (FReg × FlagBind)
  fences : List Req
  block  : Option (List Byte)
  walk   : Bool
  checked : Option (Nat × Option Nat × Option TlbEntry)
deriving DecidableEq, Repr

/-- An empty scratch. -/
def Issue.none : Issue := ⟨.alone, 0, [], [], .none, false, .none, false, false, false, .none, false, false, false, .none, 0, 0, [], [],
  .none, false, .none⟩

/-- A byte of a write that some dies have not applied: its address, the byte before the write, those dies. -/
structure LateByte where
  addr : Nat
  old  : Byte
  dies : BitVec 4
deriving DecidableEq, Repr

/-- A write that some dies have not applied (07 R132, R137): its number, core, scope and window, its fence tags, the writes that precede
it causally, those that one who acquires from it gets besides, and its bytes. A release of narrow scope whose own bytes every die has
applied stays listed while one of those has not been. -/
structure Late where
  id    : Nat
  core  : Nat
  scope : Scope
  win   : Option Nat
  tags  : BitVec 8
  preds : List Nat
  link  : List Nat
  bytes : List LateByte
deriving DecidableEq, Repr

/-- A 16-byte block of memory that an operation, named by its core and issue number, has written in part (07 R133, R155): the bytes that a
fetch sees until the operation is complete, and the places in the block that it has written. -/
structure Torn where
  core  : Nat
  ord   : Nat
  blk   : Nat
  old   : List Byte
  parts : List Nat
deriving DecidableEq, Repr

/-- The machine. `cur` is the global index of the acting core; `others` holds the other cores that have left their reset state, by
rising index. `mem` is memory as the homes of its locations hold it; `late` lists, in coherence order, the writes that not every die has
applied, `writes` numbers the writes. `torn` are the blocks written in part. `winOp` is a window request that waits, and `deferred`
are the BAR 2 accesses that wait for it; `parked` are the counter operations that wait at the Shepherd of a die whose clocks are stopped
(02 R27). -/
structure State where
  cur      : Nat
  c        : Core
  others   : List (Nat × Core)
  clusters : List (Nat × Cluster)
  mem      : Mem
  ext      : Mem
  poison   : List Nat
  failed   : List TreeKey
  mpe      : Mpe
  owners   : List (Nat × Owner)
  vds      : List (Nat × Vd)
  wins     : List (Nat × Window)
  reds     : List (Nat × RedWindow)
  cbinvs   : List CbInv
  arrivals : List (Nat × BarReg)
  pkg      : Pkg
  inputs   : List Input
  outbox   : List Msg
  fresh    : Nat
  disp     : Nat
  late     : List Late
  writes   : Nat
  torn     : List Torn
  winOp    : Option WinOp
  deferred : List Instr
  parked   : List Instr
  iss      : Issue
deriving DecidableEq, Repr

/-! ## Reset -/

/-- A scrubbed register file (04 R59). -/
def Regs.scrubbed : Regs where
  s := Vector.replicate 32 0
  f := Vector.replicate 16 false
  fbind := Vector.replicate 16 none
  m := Vector.replicate 4 0
  n := Vector.replicate 4 0
  q := Vector.replicate 16 []
  l := Vector.replicate 4 none
  ac := Vector.replicate 4 (Vector.replicate 1024 0)
  tag := Vector.replicate 4 0
  fr := Vector.replicate 8 ⟨0, 0⟩
  b := Vector.replicate 8 Binding.none
  ag := Vector.replicate 6 0
  cb := Vector.replicate 16 CbBuf.none
  loops := LoopState.none
  tr := ⟨Vector.replicate 32 0, 0, 0, 0⟩
  stq := []
  lost := 0
  bars := []

/-- The CSRs at reset (Tables 6-3, 6-9, 6-10, 9-1, 9-5). -/
def Csrs.reset : Csrs where
  mode := false
  slend := false
  ipTimer := false
  ipIpi := false
  cause := 0
  epc := 0
  eval := 0
  evec := 0
  scratch := 0
  timecmp := 0
  accown := 0
  accdirty := 0
  compat := false
  cfrz := 0
  tstat := Vector.replicate 4 0
  tstatNext := []
  cycle := 0
  bundles := 0
  freezecnt := 0
  bankstall := 0

/-- A core at reset and after a scrub: no task, nothing in flight (04 R59, 06 R130). -/
def Core.reset : Core where
  regs := Regs.scrubbed
  csr := Csrs.reset
  dieCyc := 0
  serial := 0
  owed := []
  shadow := []
  srbL := Vector.replicate 4 none
  setAside := LoopState.none
  trapPc := 0
  lsu := []
  chans := []
  tlb := []
  icache := ⟨[], []⟩
  lease := .none
  leaseAtTrap := .none
  grace := false
  reports := []
  task := none
  code := 0
  pc := 0
  stop := none
  debug := false
  wait := none
  lastCtx := none
  seen := []
  past := []
  lateStop := false
  empty := 0
  leavePc := 0
  again := []

/-- The work of Table 1-6 that completes or times out by its own row. -/
def BringUp.all : List BringItem :=
  [.root, .pcie 0, .pcie 1, .hbm 0, .hbm 1, .hbm 2, .hbm 3, .hbm 4, .hbm 5, .hbm 6, .hbm 7, .mpe, .service]

/-- Management state right after power-on: bring-up has begun (01 R22), the registers hold their reset values (Tables 1-7,
2-2, 2-4, 2-6, 2-7, 3-12). -/
def Pkg.reset : Pkg where
  on := true
  bring := ⟨0, 0, 0, false, false, false, 0, 0, BringUp.all⟩
  mgmterr := 0
  setpt := 2400
  band := 50
  en := false
  pkgw := 0
  balrun := false
  heat := Vector.replicate 4 DieHeat.cool
  shep := Vector.replicate 4 ⟨63, []⟩
  boxes := Vector.replicate 2 ⟨false, 0, []⟩
  waiting := []
  d2dDown := []
  d2dTries := []
  ports := Vector.replicate 24 FalPort.idle
  ethGroup := none
  redRejects := 0
  pfMsix := []
  pfPba := []
  timeNs := 0

/-- The machine right after power-on. -/
def State.reset : State where
  cur := 0
  c := Core.reset
  others := []
  clusters := []
  mem := []
  ext := []
  poison := []
  failed := []
  mpe := ⟨[], [], [], [], []⟩
  owners := []
  vds := []
  wins := []
  reds := []
  cbinvs := []
  arrivals := []
  pkg := Pkg.reset
  inputs := []
  outbox := []
  fresh := 0
  disp := 0
  late := []
  writes := 0
  torn := []
  winOp := none
  deferred := []
  parked := []
  iss := Issue.none

end Sys2Proof.Machine
end

