-- ==== Sys2Proof/Machine/Memory.lean ====
section
/-! DEFINITION. Memory: the sparse byte memories, the device physical map (04_virtual_devices_and_protected_memory.md R56,
Table 4-2), poison and the Memory Protection Engine's counters and metadata (R61-R70), and the views that the dies have of memory
(07 R131-R137). -/

namespace Sys2Proof.Machine

/-! ## Sparse memories -/

/-- Read one byte. -/
def Mem.get : Mem → Nat → Byte
  | [], _ => Mem.unlisted
  | (k, b) :: r, a => if k = a then b else if a < k then Mem.unlisted else Mem.get r a

/-- Write one byte, keeping the canonical form: writing what an unlisted address reads as removes the entry. -/
def Mem.set : Mem → Nat → Byte → Mem
  | [], a, b => if b = Mem.unlisted then [] else [(a, b)]
  | (k, x) :: r, a, b =>
    if a < k then (if b = Mem.unlisted then (k, x) :: r else (a, b) :: (k, x) :: r)
    else if a = k then (if b = Mem.unlisted then r else (a, b) :: r)
    else (k, x) :: Mem.set r a b

/-- Every entry of a list lies above an address and is listed for a reason. -/
def Mem.above (lo : Nat) : Mem → Bool
  | [] => true
  | (k, b) :: r => decide (lo < k) && (b != Mem.unlisted) && Mem.above k r

/-- The canonical form: addresses strictly rising, no entry equal to what an unlisted address reads as. -/
def Mem.wf : Mem → Bool
  | [] => true
  | (k, b) :: r => (b != Mem.unlisted) && Mem.above k r

/-- A memory without an entry at its head for an address. -/
def Mem.pop (a : Nat) : Mem → Mem
  | [] => []
  | (k, x) :: r => if k = a then r else (k, x) :: r

/-- Write bytes at rising addresses into a memory that lists nothing below them. -/
def Mem.run (m : Mem) (a : Nat) : List Byte → Mem
  | [] => m
  | b :: r => if b = Mem.unlisted then Mem.run (m.pop a) (a + 1) r else (a, b) :: Mem.run (m.pop a) (a + 1) r

/-- Write bytes at rising addresses. -/
def Mem.setBytes : Mem → Nat → List Byte → Mem
  | [], a, bs => Mem.run [] a bs
  | (k, x) :: r, a, bs => if k < a then (k, x) :: Mem.setBytes r a bs else Mem.run ((k, x) :: r) a bs

/-- Read n bytes. -/
def Mem.bytes (m : Mem) (a : Nat) : Nat → List Byte
  | 0 => []
  | n + 1 =>
    let rest : Mem := m.dropWhile fun c => decide (c.1 < a)
    Mem.get rest a :: Mem.bytes rest (a + 1) n

/-- Make a range read as never written. -/
def Mem.erase (m : Mem) (a n : Nat) : Mem := m.filter fun c => !(decide (a ≤ c.1) && decide (c.1 < a + n))

/-! ## Free values and time -/

/-- The argument of the next free value (log entry 2). -/
def State.draw (s : State) : State := { s with fresh := s.fresh + 1 }

/-- Package time moves on by an open number of nanoseconds (03 Table 3-10; log entry 3). -/
def State.tick (s : State) : State :=
  { s with fresh := s.fresh + 1, pkg := { s.pkg with timeNs := s.pkg.timeNs + Config.elapsedNs s.fresh } }

/-- Send something to the outside. -/
def State.send (s : State) (m : Msg) : State := { s with outbox := s.outbox ++ [m] }

/-! ## Cores, clusters, VDs -/

/-- A core by global index. -/
def State.coreAt (s : State) (k : Nat) : Core := if k = s.cur then s.c else (lookup k s.others).getD Core.reset

/-- Put a core. -/
def State.setCore (s : State) (k : Nat) (c : Core) : State :=
  if k = s.cur then { s with c := c } else { s with others := put k c s.others }

/-- Change a core. -/
def State.updCore (s : State) (k : Nat) (f : Core → Core) : State := s.setCore k (f (s.coreAt k))

/-- A cluster by global index. -/
def State.clusterAt (s : State) (m : Nat) : Cluster := (lookup m s.clusters).getD Cluster.idle

/-- Change a cluster. -/
def State.updCluster (s : State) (m : Nat) (f : Cluster → Cluster) : State :=
  { s with clusters := put m (f (s.clusterAt m)) s.clusters }

/-- A VD by number. -/
def State.vd? (s : State) (v : Nat) : Option Vd := lookup v s.vds

/-- Change a VD, if it exists. -/
def State.updVd (s : State) (v : Nat) (f : Vd → Vd) : State :=
  match s.vd? v with
  | some d => { s with vds := put v (f d) s.vds }
  | none => s

/-- The cluster of a global core (00 R4). -/
def clusterOf (k : Nat) : Nat := k / 4
/-- The die of a global core. -/
def dieOf (k : Nat) : Nat := k / 128

/-- The VD that owns a cluster (04 R52). -/
def State.ownerOfCluster (s : State) (m : Nat) : Option Nat :=
  (s.vds.find? fun p => p.2.clusters.contains m).map (·.1)

/-- Logical core c of a VD as a global index (04 R54). -/
def Vd.globalCore (d : Vd) (c : Nat) : Option Nat := d.clusters[c / 4]?.map fun m => 4 * m + c % 4

/-- Logical index of a global core in a VD (04 R54). -/
def Vd.logicalCore (d : Vd) (k : Nat) : Option Nat :=
  let i := d.clusters.idxOf (clusterOf k)
  if i < d.clusters.length then some (4 * i + k % 4) else none

/-- NCORE of a VD. -/
def Vd.ncore (d : Vd) : Nat := 4 * d.clusters.length

/-- The home die: the die of the lowest-numbered cluster (04 R53). -/
def Vd.homeDie (d : Vd) : Nat := d.clusters.headD 0 / 32

/-- Whether a VD owns a cluster on a die. -/
def Vd.onDie (d : Vd) (die : Nat) : Bool := d.clusters.any fun m => m / 32 == die

/-- The cores of a VD, by global index, in logical order. -/
def Vd.cores (d : Vd) : List Nat := d.clusters.flatMap fun m => [4 * m, 4 * m + 1, 4 * m + 2, 4 * m + 3]

/-! ## The physical map (04 Table 4-2) -/

/-- First address above HBM (01 R12). -/
def hbmEnd : Nat := 0x4000000000
/-- Bytes of one die's HBM range. -/
def dieSpan : Nat := 0x1000000000
/-- Bytes of a frame. -/
def frameSize : Nat := 0x200000
/-- Data frames of a die. -/
def dieFrames : Nat := 28672
/-- Bytes of a core's own slice (00 Table 0-2). -/
def sliceSize : Nat := 0x180000
/-- Physical base of the slice of a global core. -/
def sliceBase (k : Nat) : Nat := 0x8000000000 + k * 0x200000
/-- Physical base of a cluster's CBS. -/
def cbsBase (m : Nat) : Nat := 0x8040000000 + m * 0x100000
/-- Physical base of a cluster's PPT. -/
def pptBase (m : Nat) : Nat := cbsBase m + 0x40000

/-- What a physical address is. The top 256 KiB of a cluster's 1 MiB step, which Table 4-2 gives no use, count as reserved (DESIGN
CHOICE, log entry 66). -/
inductive PhysArea where
  | hbmData (die frame off : Nat)
  | hbmMeta (die : Nat)
  | slice (core off : Nat)
  | store (cluster off : Nat)
  | reserved
deriving DecidableEq, Repr

/-- The physical map. -/
def physArea (pa : Nat) : PhysArea :=
  if pa < hbmEnd then
    let o := pa % dieSpan
    if o < dieFrames * frameSize then .hbmData (pa / dieSpan) (o / frameSize) (o % frameSize) else .hbmMeta (pa / dieSpan)
  else if 0x8000000000 ≤ pa ∧ pa < 0x8040000000 then
    let o := (pa - 0x8000000000) % 0x200000
    if o < sliceSize then .slice ((pa - 0x8000000000) / 0x200000) o else .reserved
  else if 0x8040000000 ≤ pa ∧ pa < 0x8048000000 then
    let o := (pa - 0x8040000000) % 0x100000
    if o < 0xC0000 then .store ((pa - 0x8040000000) / 0x100000) o else .reserved
  else .reserved

/-- Physical address of a frame. -/
def frameBase (die frame : Nat) : Nat := die * dieSpan + frame * frameSize

/-- The stack of an HBM address (01 R12). -/
def stackOf (pa : Nat) : Nat := 2 * (pa / dieSpan) + pa / 4096 % 2

/-- A die that gives up its HBM range because a stack is excluded (01 R24). -/
def State.degraded (s : State) (die : Nat) : Bool :=
  s.pkg.bring.hbmfail.getLsbD (2 * die) || s.pkg.bring.hbmfail.getLsbD (2 * die + 1)

/-! ## Where the metadata lies (04 R66, Table 4-7) -/

/-- Spread of R66. -/
def spread (base p x : Nat) : Nat := base + x / 4096 * 8192 + p * 4096 + x % 4096

/-- Die offset of the MAC of block j of granule g of frame f. -/
def macOff (f g j : Nat) : Nat := spread 0xE00000000 (g % 2) (f * 114688 + g / 2 * 448 + 7 * j)
/-- Die offset of a counter block. -/
def ctrBlockOff (f g : Nat) : Nat := spread 0xF88000000 (g % 2) (f * 16384 + g / 2 * 64)
/-- Die offset of a leaf MAC. -/
def leafMacOff (f g : Nat) : Nat := 0xFC0000000 + f * 4096 + g * 8
/-- Die offset of an L1 node. -/
def l1Off (f g : Nat) : Nat := 0xFC7000000 + f * 4096 + g / 8 * 64
/-- Die offset of an L2 node. -/
def l2Off (f g : Nat) : Nat := 0xFCE000000 + f * 1024 + g / 64 * 64
/-- Die offset of an L3 node. -/
def l3Off (f : Nat) : Nat := 0xFCE000000 + f * 1024 + 512

/-! ## Encryption and authentication (04 R60-R62) -/

/-- The AES counter input of Table 4-4. -/
def aesInput (domain pa major minor blk : Nat) : BitVec 128 :=
  BitVec.ofNat 128 (domain % 256 * 2 ^ 120 + pa / 64 % 2 ^ 32 * 2 ^ 88 + major % 2 ^ 64 * 2 ^ 24 + minor % 128 * 2 ^ 17
    + blk % 4)

/-- The 64 bytes of keystream of a block. -/
def keystream (domain keyGen pa major minor : Nat) : List Byte :=
  (List.range 4).flatMap fun i => bytesOf 16 (Config.aesBlock domain keyGen (aesInput domain pa major minor i)).toNat

/-- Encryption and decryption of a block: counter mode (R61). -/
def cryptBlock (domain keyGen pa major minor : Nat) (bs : List Byte) : List Byte :=
  List.zipWith (· ^^^ ·) bs (keystream domain keyGen pa major minor)

/-- The message of a data MAC (R62). -/
def macMessage (domain pa major minor : Nat) (ct : List Byte) : List Byte :=
  bytesOf 1 domain ++ bytesOf 4 (pa / 64) ++ bytesOf 8 major ++ bytesOf 1 minor ++ ct

/-- The 56-bit MAC of a data block (R62). -/
def dataMac (domain keyGen pa major minor : Nat) (ct : List Byte) : BitVec 56 :=
  (Config.cmac domain keyGen (macMessage domain pa major minor ct)).setWidth 56

/-- The 56-bit MAC of a counter block or tree node (R62): physical address, the parent's counter for it, its counter bytes. -/
def nodeMac (domain keyGen pa parent : Nat) (ctrs : List Byte) : BitVec 56 :=
  (Config.cmac domain keyGen (bytesOf 8 pa ++ bytesOf 7 parent ++ ctrs)).setWidth 56

/-- The domain of an owner (R60). -/
def Owner.domain : Owner → Nat
  | .vd v => v
  | .win w => 0x80 + w

/-- The owner of the data frame of an address. -/
def State.ownerOf (s : State) (pa : Nat) : Option Owner :=
  match physArea pa with
  | .hbmData d f _ => lookup (d * dieFrames + f) s.owners
  | _ => none

/-- The ciphertext that stands in HBM for a block (R61, R69); none where no domain owns the frame. -/
def State.ciphertext (s : State) (blk : Nat) : Option (List Byte) :=
  (s.ownerOf (blk * 64)).map fun o =>
    cryptBlock o.domain (countAt o.domain s.mpe.keyGen) (blk * 64) (countAt (blk / 64) s.mpe.major)
      (countAt blk s.mpe.minor) (s.mem.bytes (blk * 64) 64)

/-! ## Poison (04 R69, R70) -/

/-- The place of a frame in its domain's tree on its die (R65, R79): that of the VD's assignment, or the frame's place in its window. -/
def State.framePlace (s : State) (o : Owner) (die frame : Nat) : Nat :=
  match o with
  | .vd v => (((s.vd? v).bind fun d => d.pos.find? fun p => p.1 == (die, frame)).map (·.2)).getD 0
  | .win w => ((lookup w s.wins).map fun x => frame - x.first).getD 0

/-- The counter block (level 0), the node of a level, or the root registers (level 8) that cover a block of a domain (Table 4-5). -/
def State.treeKey (s : State) (level blk : Nat) : Option TreeKey :=
  match s.ownerOf (blk * 64), physArea (blk * 64) with
  | some o, .hbmData die frame _ =>
    some ⟨o.domain, die, level, (s.framePlace o die frame * 512 + blk / 64 % 512) / 8 ^ level⟩
  | _, _ => none

/-- Whether a block lies below a counter block, node or root that has failed (R70). -/
def State.failedBlock (s : State) (blk : Nat) : Bool := s.failed.any fun k => s.treeKey k.level blk == some k

/-- Whether a read of the address gives poison (R56, R70, 01 R24). -/
def State.poisoned (s : State) (pa : Nat) : Bool :=
  match physArea pa with
  | .reserved => true
  | .hbmMeta _ => true
  | .hbmData d _ _ => s.degraded d || s.poison.contains (pa / 64) || s.failedBlock (pa / 64)
  | _ => s.poison.contains (pa / 64)

/-- Whether a range holds poison. -/
def State.poisonedRange (s : State) (pa n : Nat) : Bool :=
  (List.range ((pa + n + 63) / 64 - pa / 64)).any fun i => decide (0 < n) && s.poisoned ((pa / 64 + i) * 64)

/-- Mark the block of an address poisoned. -/
def State.markPoison (s : State) (blk : Nat) : State := { s with poison := insertNat blk s.poison }

/-- n bytes of physical memory. -/
def State.read (s : State) (pa n : Nat) : List Byte := s.mem.bytes pa n

/-- The VDs of a domain (R70): the owner, or the holders of a window. -/
def State.domainVds (s : State) : Owner → List Nat
  | .vd v => [v]
  | .win w => ((lookup w s.wins).map (·.holders)).getD []

/-- Bits [lo+n-1:lo] of a page-table entry or another register value. -/
def bits (x lo n : Nat) : Nat := x / 2 ^ lo % 2 ^ n

/-- The physical address of a VD's frame slot (06 R119), if the VD has it. -/
def Vd.slotBase (d : Vd) (die slot : Nat) : Option Nat :=
  (d.slots.find? fun p => p.1 == (die, slot)).map fun p => frameBase p.2.1 p.2.2

/-- Physical address of the table frame. -/
def Vd.tableBase (d : Vd) : Option Nat := d.slotBase d.tableDie.val 0

/-- An 8-byte page-table entry, read without checks. -/
def State.pte (s : State) (pa : Nat) : Nat := natOf (s.read pa 8)

/-- The HBM-region offset at which a VD sees a physical block: in a window, in the table frame, or through the first page
that maps it (R70). -/
def State.offsetOf (s : State) (v blk : Nat) : Option Nat :=
  match s.vd? v with
  | none => none
  | some d =>
    let pa := blk * 64
    let inWin := d.winmap.find? fun w =>
      match lookup w.win s.wins with
      | some x => decide (frameBase x.die.val x.first ≤ pa ∧ pa < frameBase x.die.val x.first + w.len)
      | none => false
    match inWin with
    | some w =>
      (lookup w.win s.wins).map fun x => w.base - 0x20000000000 + (pa - frameBase x.die.val x.first)
    | none =>
      match d.tableBase with
      | none => none
      | some tb =>
        if tb ≤ pa ∧ pa < tb + frameSize then some (pa - tb)
        else
          let table (e : Nat) : Option Nat :=
            (d.slotBase (bits e 8 2) (bits e 10 15)).map fun b => b + bits e 25 13 * 256
          (List.range 2048).findSome? fun i1 =>
            let e1 := s.pte (tb + 8 * i1)
            if e1 % 2 = 0 then none else (table e1).bind fun t2 =>
              (List.range 512).findSome? fun i2 =>
                let e2 := s.pte (t2 + 8 * i2)
                if e2 % 2 = 0 then none else (table e2).bind fun b2 =>
                  if bits e2 1 1 = 1 then
                    if b2 ≤ pa ∧ pa < b2 + frameSize then some (i1 * 2 ^ 30 + i2 * 2 ^ 21 + (pa - b2)) else none
                  else (List.range 32).findSome? fun i3 =>
                    let e3 := s.pte (b2 + 8 * i3)
                    if e3 % 2 = 0 then none else (table e3).bind fun b3 =>
                      if b3 ≤ pa ∧ pa < b3 + 65536 then some (i1 * 2 ^ 30 + i2 * 2 ^ 21 + i3 * 2 ^ 16 + (pa - b3)) else none

/-! ## Counters of the MPE (04 R63-R65) -/

/-- Remove the minor counters of a granule. -/
def clearMinors (g : Nat) (l : List (Nat × Nat)) : List (Nat × Nat) := l.filter fun p => p.1 / 64 != g

/-- An entry is in the metadata cache, dirty or as it was verified (R64). -/
def Mpe.keep (m : Mpe) (k : TreeKey) (dirty : Bool) : Mpe :=
  let was := m.cache.any fun p => p.1 == k && p.2
  { m with cache := (k, dirty || was) :: m.cache.filter fun p => p.1 != k }

/-- Whether an entry is in the metadata cache. -/
def Mpe.holds (m : Mpe) (k : TreeKey) : Bool := m.cache.any fun p => p.1 == k

/-- The counters after one write of a block (R63): the minor, or the major with every minor of the granule set to 0. -/
def Mpe.bump (m : Mpe) (blk : Nat) : Mpe :=
  let g := blk / 64
  let n := countAt blk m.minor
  if n = 127 then { m with major := put g (countAt g m.major + 1) m.major, minor := clearMinors g m.minor }
  else { m with minor := put blk (n + 1) m.minor }

/-- The counters after one write of a block, whose counter block is then dirty in the cache (R64). -/
def State.bumped (s : State) (blk : Nat) : Mpe :=
  match s.treeKey 0 blk with
  | some k => (s.mpe.bump blk).keep k true
  | none => s.mpe.bump blk

/-- Whether a write of the block would wrap the major counter (R63). -/
def Mpe.wouldWrap (m : Mpe) (blk : Nat) : Bool :=
  countAt blk m.minor == 127 && countAt (blk / 64) m.major == 2 ^ 64 - 1

/-- The counter that the parent of a counter block or node holds for it (R64). -/
def Mpe.counter (m : Mpe) (k : TreeKey) : Nat := ((m.tree.find? fun p => p.1 == k).map (·.2)).getD 0

/-- An entry leaves the metadata cache; where it is dirty, its counter in the parent increments and the parent becomes dirty, up to the
root registers (R64). The spec names no outcome for the largest value of a 56-bit counter: it goes on at 0 (DESIGN CHOICE, log entry 87). -/
def Mpe.evict (m : Mpe) (k : TreeKey) : Mpe :=
  let dirty := m.cache.any fun p => p.1 == k && p.2
  let m' : Mpe := { m with cache := m.cache.filter fun p => p.1 != k }
  if dirty then
    let m' : Mpe := { m' with tree := (k, (m.counter k + 1) % 2 ^ 56) :: m.tree.filter fun p => p.1 != k }
    if k.level < 7 then m'.keep { k with level := k.level + 1, idx := k.idx / 8 } true else m'
  else m'

/-- The block counters of a range start again at zero (R65, R80). -/
def Mpe.forget (m : Mpe) (base n : Nat) : Mpe :=
  let inR (blk : Nat) : Bool := decide (base ≤ blk * 64) && decide (blk * 64 < base + n)
  { m with
    major := m.major.filter fun p => !inR (p.1 * 64)
    minor := m.minor.filter fun p => !inR p.1 }

/-- A domain's root registers on every die are set to zero (R65, R75, R80): its whole tree counts as never written, and nothing of it is
cached. -/
def Mpe.zeroRoots (m : Mpe) (domain : Nat) : Mpe :=
  { m with
    tree := m.tree.filter fun p => p.1.domain != domain
    cache := m.cache.filter fun p => p.1.domain != domain }

/-- The eight root counters of a domain on a die (R65). -/
def Mpe.roots (m : Mpe) (domain die : Nat) : List Nat := (List.range 8).map fun i => m.counter ⟨domain, die, 7, i⟩

/-- The 64 bytes of the counter block of a granule (R63): the major counter, then sixty-four 7-bit minor counters. -/
def Mpe.counterBlock (m : Mpe) (g : Nat) : List Byte :=
  bytesOf 8 (countAt g m.major) ++ bytesOf 56 (digits 7 (fun j => countAt (64 * g + j) m.minor) 64)

/-- The eight child counters of a tree node, 56 bits each (R64). -/
def Mpe.childBytes (m : Mpe) (k : TreeKey) : List Byte :=
  (List.range 8).flatMap fun i => bytesOf 7 (m.counter { k with level := k.level - 1, idx := 8 * k.idx + i })

/-- The frame at a place of a domain's tree on a die. -/
def State.frameAt (s : State) (o : Owner) (die place : Nat) : Option Nat :=
  match o with
  | .vd v => ((s.vd? v).bind fun d => d.pos.find? fun p => p.1.1 == die && p.2 == place).map (·.1.2)
  | .win w => (lookup w s.wins).map fun x => x.first + place

/-- The owner of a domain number (R60). -/
def ownerOfDomain (n : Nat) : Owner := if n < 0x80 then .vd n else .win (n - 0x80)

/-- Die offset of the pool (Table 4-7), which ends with the die's range. -/
def poolBase : Nat := 0xFCFC00000

/-- Places of 64 bytes in a die's pool. -/
def poolSlots : Nat := (dieSpan - poolBase) / 64

/-- Where a tree node lies (R66, Table 4-7); the pool's places are root firmware's. -/
def State.nodeAddr (s : State) (k : TreeKey) : Nat :=
  let f (place : Nat) : Nat := (s.frameAt (ownerOfDomain k.domain) k.die place).getD 0
  match k.level with
  | 1 => k.die * dieSpan + l1Off (f (k.idx / 64)) (k.idx % 64 * 8)
  | 2 => k.die * dieSpan + l2Off (f (k.idx / 8)) (k.idx % 8 * 64)
  | 3 => k.die * dieSpan + l3Off (f k.idx)
  | n => k.die * dieSpan + poolBase + 64 * (Config.poolSlot k.domain k.die n k.idx % poolSlots)

/-- The 64 bytes of a tree node (R64): its child counters, its MAC under its parent's counter for it, and zero. -/
def State.nodeBytes (s : State) (k : TreeKey) : List Byte :=
  let cs := s.mpe.childBytes k
  cs ++ bytesOf 7 (nodeMac k.domain (countAt k.domain s.mpe.keyGen) (s.nodeAddr k) (s.mpe.counter k) cs).toNat ++ bytesOf 1 0

/-- The leaf MAC of the counter block of a granule (R62, R64). -/
def State.leafMac (s : State) (g : Nat) : Option (BitVec 56) :=
  (s.treeKey 0 (64 * g)).map fun k =>
    nodeMac k.domain (countAt k.domain s.mpe.keyGen) (k.die * dieSpan + ctrBlockOff (g * 4096 % dieSpan / frameSize) (g % 512))
      (s.mpe.counter k) (s.mpe.counterBlock g)

/-! ## Views of memory (07 R131-R138, R141) -/

/-- The observers of Table 7-1 (07 R131): a core, the engine operations of a core, the array of a cluster, the Shepherd and the MPE of a
die, the host, a peer. -/
inductive Observer where
  | core (k : Nat)
  | engine (k : Nat)
  | array (cluster : Nat)
  | shepherd (die : Nat)
  | mpe (die : Nat)
  | host
  | peer
deriving DecidableEq, Repr

/-- The die of an observer in the package. -/
def Observer.die : Observer → Option Nat
  | .core k | .engine k => some (dieOf k)
  | .array m => some (m / 32)
  | .shepherd d | .mpe d => some d
  | .host | .peer => none

/-- Whether a scope that core k names contains an observer (Table 7-1). An array works for the four cores of its cluster. -/
def scopeContains (sc : Scope) (k : Nat) (o : Observer) : Bool :=
  match sc with
  | .core => o == .core k || o == .engine k
  | .clu => match o with
    | .core j | .engine j => clusterOf j == clusterOf k
    | .array m => m == clusterOf k
    | _ => false
  | .die => match o with
    | .mpe _ => false
    | _ => o.die == some (dieOf k)
  | .pkg => o.die.isSome
  | .sys => true

/-- Whether a scope reaches other dies. -/
def wideScope : Scope → Bool
  | .pkg | .sys => true
  | _ => false

/-- Whether each of two cores lies in the scope that the other names (07 R139, R141). -/
def mutualScopes (a : Scope) (j : Nat) (b : Scope) (k : Nat) : Bool := scopeContains a j (.core k) && scopeContains b k (.core j)

/-- The byte before the oldest write to an address that a die has not applied. -/
def lateOld (die a : Nat) : List Late → Option Byte
  | [] => none
  | w :: r =>
    match w.bytes.find? fun b => b.addr == a && b.dies.getLsbD die with
    | some b => some b.old
    | none => lateOld die a r

/-- A byte as a die sees it: each die has applied a prefix of the writes to it (R134, R137). -/
def State.view (s : State) (die a : Nat) : Byte := (lateOld die a s.late).getD (s.mem.get a)

/-- Whether some die has not applied a write. -/
def Late.live (w : Late) : Bool := w.bytes.any fun b => b.dies != 0

/-- The bytes of a write that stay listed: those that some die has not applied, all those of a release that links others. -/
def Late.rest (w : Late) (bs : List LateByte) : Late := { w with bytes := if w.link.isEmpty then bs.filter fun b => b.dies != 0 else bs }

/-- What stays listed: a write that some die has not applied, and a release while a write that it links is such a one (R137). -/
def tidyLate (l : List Late) : List Late :=
  l.filter fun w => w.live || (!w.bytes.isEmpty && l.any fun x => x.live && w.link.contains x.id)

/-- The writes of a list applied by some dies, with the older writes that they supersede; and the addresses applied. -/
def applyGo (ids : List Nat) (dies : BitVec 4) : List Late → List Nat × List Late
  | [] => ([], [])
  | w :: r =>
    let (as, r') := applyGo ids dies r
    let mine := ids.contains w.id
    let bs := w.bytes.map fun b => if mine || as.contains b.addr then { b with dies := b.dies &&& ~~~dies } else b
    (if mine then as ++ w.bytes.map (·.addr) else as, w.rest bs :: r')

/-- Some dies apply writes, after every write that precedes them causally (R137). -/
def State.applyAt (s : State) (ids : List Nat) (dies : BitVec 4) : State :=
  let all := ids ++ (s.late.filter fun w => ids.contains w.id).flatMap (·.preds)
  { s with late := tidyLate (applyGo all dies s.late).2 }

/-- Every die applies the writes of which a test holds. -/
def State.flush (s : State) (p : Late → Bool) : State := s.applyAt ((s.late.filter p).map (·.id)) 0xF

/-- A die applies every write to some bytes. -/
def State.catchUp (s : State) (die : Nat) (bs : List Nat) : State :=
  s.applyAt ((s.late.filter fun w => w.bytes.any fun b => bs.contains b.addr).map (·.id)) (BitVec.ofNat 4 (2 ^ die))

/-- Whether a number lies in a range. -/
def inRange (a n x : Nat) : Bool := decide (a ≤ x) && decide (x < a + n)

/-- A write that every die applies at once supersedes the writes to its bytes that dies have not applied. -/
def State.supersede (s : State) (a n : Nat) : State :=
  { s with late := tidyLate (s.late.map fun w => { w with bytes := w.bytes.filter fun b => !inRange a n b.addr }) }

/-- The write to a byte that a die reads, where some die has not applied it: the last one it has applied. -/
def lateRead (die a : Nat) (acc : Option Late) : List Late → Option Late
  | [] => acc
  | w :: r =>
    match w.bytes.find? fun b => b.addr == a with
    | some b => if b.dies.getLsbD die then acc else lateRead die a (some w) r
    | none => lateRead die a acc r

/-- The writes that a die reads in some bytes, of those not applied everywhere. -/
def State.lateSeen (s : State) (die : Nat) (bs : List Nat) : List Late :=
  if s.late.isEmpty then [] else s.late.filter fun w => bs.any fun a => (lateRead die a none s.late).any fun x => x.id == w.id

/-! ## Blocks written in part (07 R133, R155) -/

/-- A whole write of bytes changes what a fetch sees of a block. -/
def Torn.patch (x : Torn) (pa : Nat) (bs : List Byte) : Torn :=
  { x with old := (List.range 16).map fun i =>
      if inRange pa bs.length (16 * x.blk + i) then bs.getD (16 * x.blk + i - pa) 0 else x.old.getD i 0 }

/-- An operation is about to write one byte, not being complete. -/
def State.tear (s : State) (core ord a : Nat) : State :=
  let mine (x : Torn) : Bool := x.core == core && x.ord == ord && x.blk == a / 16
  if s.torn.any mine then
    { s with torn := s.torn.map fun x => if mine x then { x with parts := x.parts ++ [a % 16] } else x }
  else { s with torn := s.torn ++ [⟨core, ord, a / 16, s.read (a / 16 * 16) 16, [a % 16]⟩] }

/-- An operation is complete: what it has written is seen. -/
def State.mend (s : State) (core ord : Nat) : State :=
  let mine (x : Torn) : Bool := x.core == core && x.ord == ord
  let done := s.torn.filter mine
  let wrote (x : Torn) (i : Nat) : Bool := done.any fun y => y.blk == x.blk && y.parts.contains i
  { s with torn := (s.torn.filter fun x => !mine x).map fun x =>
      { x with old := (List.range 16).map fun i => if wrote x i then s.mem.get (16 * x.blk + i) else x.old.getD i 0 } }

/-- The 16 bytes of a block as a fetch of a die sees them. -/
def State.fetchBlock (s : State) (die blk : Nat) : List Byte :=
  match s.torn.find? fun x => x.blk == blk with
  | some x => x.old
  | none => if s.late.isEmpty then s.read (16 * blk) 16 else (List.range 16).map fun i => s.view die (16 * blk + i)

end Sys2Proof.Machine
end

