-- ==== Sys2Proof/Machine/Regs.lean ====
section
/-! DEFINITION. The one home of every core register: reads and writes through accessors (06_core_and_memory.md R105-R109,
R128-R130; 09 Table 9-1; 11 R226, R255), results owed and their landing (06 R103, R106, R107, R110, R112). -/

namespace Sys2Proof.Machine

/-! ## Scalar registers, flags, masks -/

/-- Read a scalar register; S0 reads as zero (R105). -/
def Core.readS (c : Core) (r : SReg) : Word := if r = 0 then 0 else c.regs.s[r]

/-- Write a scalar register; S0 ignores writes (R105). -/
def Core.setS (c : Core) (r : SReg) (v : Word) : Core :=
  if r = 0 then c else { c with regs := { c.regs with s := c.regs.s.set r v } }

/-- Whether the event a flag is bound to holds (13 R296). -/
def bindHolds (vd : Option Vd) (c : Core) : FlagBind → Bool
  | .bar n sense => ((lookup n.val c.regs.bars).getD ⟨0, 0, false⟩).ph == sense
  | .ctr die num =>
    match vd with
    | some d => ((lookup (die * 16384 + num) d.ctrs).getD ⟨0, none⟩).count == 0
    | none => false
  | .buf k => c.regs.cb[k].filled != 0

/-- The VD of the task a core runs. -/
def State.vdOf (s : State) (c : Core) : Option Vd :=
  match c.task with
  | some t => s.vd? t.vd
  | none => none

/-- Read a flag of a core: F0 reads as 1; a bound flag reads the event it is bound to (R105, 11 R227, 13 R296). -/
def State.readFof (s : State) (c : Core) (r : FReg) : Bool :=
  if r = 0 then true
  else match c.regs.fbind[r] with
    | none => c.regs.f[r]
    | some b => bindHolds (s.vdOf c) c b

/-- Read a flag of the acting core, as the bundle being issued saw it at its issue (11 R226). -/
def State.readF (s : State) (r : FReg) : Bool :=
  match s.iss.seen with
  | some v => if r = 0 then true else v[r]
  | none => s.readFof s.c r

/-- Write a flag: F0 ignores writes; a write ends the flag's binding (13 R296). -/
def Core.setF (c : Core) (r : FReg) (v : Bool) : Core :=
  if r = 0 then c
  else { c with regs := { c.regs with f := c.regs.f.set r v, fbind := c.regs.fbind.set r none } }

/-- Bind a flag to an event; an older binding is replaced (13 R296). -/
def Core.bindF (c : Core) (r : FReg) (b : FlagBind) : Core :=
  if r = 0 then c else { c with regs := { c.regs with fbind := c.regs.fbind.set r (some b) } }

/-- Every flag as it reads. -/
def State.flagsOf (s : State) (c : Core) : Vector Bool 16 := Vector.ofFn fun r => s.readFof c r

/-- End every binding, the flags keeping their last values (13 R296). -/
def State.unbindFlags (s : State) (c : Core) : Core :=
  { c with regs := { c.regs with f := s.flagsOf c, fbind := Vector.replicate 16 none } }

/-- Write a mask. -/
def Core.setM (c : Core) (r : MReg) (v : Lane) : Core := { c with regs := { c.regs with m := c.regs.m.set r v } }

/-- Write a register of the next-tile set (05 R101). -/
def Core.setN (c : Core) (k : Fin 4) (v : Word) : Core := { c with regs := { c.regs with n := c.regs.n.set k v } }

/-! ## Queues and latches -/

/-- A result enters its slot's latch pair; the older member moves down (R107). -/
def Core.enterLatch (c : Core) (pair : Fin 2) (v : Vec) : Core :=
  if pair = 0 then { c with regs := { c.regs with l := (c.regs.l.set 1 c.regs.l[0]).set 0 (some v) } }
  else { c with regs := { c.regs with l := (c.regs.l.set 3 c.regs.l[2]).set 2 (some v) } }

/-- Fill a reserved queue entry (R106). -/
def fillEntry (id : Nat) (v : Vec) : List QEntry → List QEntry
  | [] => []
  | e :: r => if e.id = id then { e with data := some v } :: r else e :: fillEntry id v r

/-- Write a queue register's list. -/
def Core.setQ (c : Core) (k : Fin 16) (l : List QEntry) : Core := { c with regs := { c.regs with q := c.regs.q.set k l } }

/-! ## Statistics queue (R128) -/

/-- Append a record; a full queue discards it and counts it in LOST. -/
def Core.appendRec (c : Core) (r : StqRec) : Core :=
  if c.regs.stq.length < 64 then { c with regs := { c.regs with stq := c.regs.stq ++ [r] } }
  else { c with regs := { c.regs with lost := if c.regs.lost = 0xFFFF then 0xFFFF else c.regs.lost + 1 } }

/-- Records of one command enter together, in ascending KIND. -/
def Core.appendRecs (c : Core) (rs : List StqRec) : Core :=
  (sortBy (fun a b => decide (a.kind.toNat ≤ b.kind.toNat)) rs).foldl Core.appendRec c

/-- A record count, saturating. -/
def recCount (n : Nat) : BitVec 32 := BitVec.ofNat 32 (Min.min n 0xFFFFFFFF)

/-! ## CSRs -/

/-- STATUS as it reads (09 Table 9-1). -/
def Csrs.status (c : Csrs) : Word :=
  BitVec.ofNat 64 ((if c.mode then 1 else 0) + (if c.slend then 2 else 0) + (if c.ipTimer then 256 else 0)
    + (if c.ipIpi then 512 else 0))

/-- LATPROF as it reads (Table 6-3). -/
def Csrs.latprof (c : Csrs) : Word :=
  BitVec.ofNat 64 ((if c.compat then 1 else 0) + 6 * 16 + c.cfrz.toNat * 65536)

/-- STQCNT as it reads (Table 6-9). -/
def Regs.stqcnt (r : Regs) : Word := BitVec.ofNat 64 (r.stq.length + r.lost.toNat * 65536)

/-- TSTATk at a core cycle: the newest drain that has become visible (R129). -/
def Csrs.tstatAt (c : Csrs) (k : Fin 4) : Word :=
  c.tstatNext.foldl (fun v p => if p.1 = k ∧ p.2.2 ≤ c.cycle then p.2.1 else v) c.tstat[k]

/-- CTXID: FRAME[63:6] of the running continuation. -/
def Core.ctxid (c : Core) : Word :=
  match c.task with
  | some t => BitVec.ofNat 64 (t.cont.frame.toNat / 64)
  | none => 0

/-- VDID: the VD of the running task and its generation. -/
def State.vdidOf (s : State) (c : Core) : Word :=
  match c.task with
  | some t => BitVec.ofNat 64 (t.vd % 64 + ((s.vd? t.vd).map fun d => d.gen.toNat * 65536).getD 0)
  | none => 0

/-- COREID of a core: its global index and its logical index in the VD that owns its cluster. -/
def State.coreidOf (s : State) (k : Nat) : Word :=
  let l : Nat := match s.ownerOfCluster (clusterOf k) with
    | some v => ((s.vd? v).bind fun d => d.logicalCore k).getD 0
    | none => 0
  BitVec.ofNat 64 (k % 512 + l * 65536)

/-- A CSR as CRD reads it (11 R255, 10 R219: a write-only CSR reads 0). -/
def State.csrValue (s : State) (k : Nat) (c : Core) : Csr → Word
  | .status => c.csr.status
  | .cause => c.csr.cause
  | .epc => c.csr.epc
  | .eval => c.csr.eval
  | .evec => c.csr.evec
  | .scratch => c.csr.scratch
  | .timecmp => c.csr.timecmp
  | .ipisend => 0
  | .tlbinv => 0
  | .accown => c.csr.accown
  | .accdirty => c.csr.accdirty.setWidth 64
  | .latprof => c.csr.latprof
  | .tstat j => c.csr.tstatAt j
  | .ctxid => c.ctxid
  | .vdid => s.vdidOf c
  | .coreid => s.coreidOf k
  | .cycle => BitVec.ofNat 64 c.csr.cycle
  | .bundles => BitVec.ofNat 64 c.csr.bundles
  | .freezecnt => BitVec.ofNat 64 c.csr.freezecnt
  | .bankstall => BitVec.ofNat 64 c.csr.bankstall
  | .stqcnt => c.regs.stqcnt

/-- The TLB after a write of TLBINV (06 R121): the entries that cover the address go, or all of them for all ones. -/
def dropTlb (v : Word) (l : List TlbEntry) : List TlbEntry :=
  if v = 0xFFFFFFFFFFFFFFFF then []
  else l.filter fun e => e.va != (if e.big then v.toNat / 0x200000 * 0x200000 else v.toNat / 65536 * 65536)

/-- A write of a CSR's stored fields: reserved bits are ignored, W1C bits clear, a read-only CSR ignores it (09 Table 9-1,
10 R219, 11 R255). IPISEND acts on another core and has an operation of its own. -/
def Core.writeCsr (c : Core) (x : Csr) (v : Word) : Core :=
  match x with
  | .status => { c with csr := { c.csr with
      ipTimer := c.csr.ipTimer && !v.getLsbD 8, ipIpi := c.csr.ipIpi && !v.getLsbD 9 } }
  | .cause => { c with csr := { c.csr with cause := v &&& 0x03FF01FF } }
  | .epc => { c with csr := { c.csr with epc := v } }
  | .eval => { c with csr := { c.csr with eval := v } }
  | .evec => { c with csr := { c.csr with evec := v } }
  | .scratch => { c with csr := { c.csr with scratch := v } }
  | .timecmp => { c with csr := { c.csr with timecmp := v, ipTimer := false } }
  | .accown => { c with csr := { c.csr with accown := v &&& 0x07FFFFFFFFFFFFFF } }
  | .accdirty => { c with csr := { c.csr with accdirty := v.setWidth 4 } }
  | .latprof => { c with csr := { c.csr with compat := v.getLsbD 0 } }
  | .tlbinv => { c with tlb := dropTlb v c.tlb }
  | .stqcnt => { c with regs := { c.regs with lost := (v >>> 16).setWidth 16 } }
  | _ => c

/-! ## Bindings, fence ranges, address generators, circular buffers as bits -/

/-- Bk as its 128 bits (08 Table 8-8). -/
def Binding.pack (b : Binding) : Nat :=
  b.entry.toNat + b.cbid.toNat * 2 ^ 16 + b.ver.toNat * 2 ^ 32 + (if b.valid then 2 ^ 48 else 0)
    + (if b.mode then 2 ^ 49 else 0) + b.kc.toNat * 2 ^ 50 + b.vl.toNat * 2 ^ 52 + (if b.wide then 2 ^ 54 else 0)
    + b.gen.toNat * 2 ^ 64 + b.scale.toNat * 2 ^ 96 + b.prevver.toNat * 2 ^ 104

/-- Bk from its 128 bits. -/
def Binding.unpack (x : Nat) : Binding :=
  ⟨BitVec.ofNat 16 x, BitVec.ofNat 16 (x / 2 ^ 16), BitVec.ofNat 16 (x / 2 ^ 32), x / 2 ^ 48 % 2 == 1, x / 2 ^ 49 % 2 == 1,
   BitVec.ofNat 2 (x / 2 ^ 50), BitVec.ofNat 2 (x / 2 ^ 52), x / 2 ^ 54 % 2 == 1, BitVec.ofNat 32 (x / 2 ^ 64),
   BitVec.ofNat 8 (x / 2 ^ 96), BitVec.ofNat 16 (x / 2 ^ 104)⟩

/-- The 32-byte state block of a circular buffer (13 Table 13-3). -/
def CbBuf.pack (b : CbBuf) : List Byte :=
  bytesOf 8 b.base.toNat ++ bytesOf 4 b.slotsz ++ bytesOf 2 b.nslot ++ bytesOf 2 b.free ++ bytesOf 2 b.filled
    ++ bytesOf 2 b.pidx ++ bytesOf 2 b.cidx ++ bytesOf 2 b.pheld ++ bytesOf 2 b.cheld ++ bytesOf 6 0

/-- A circular buffer from its state block. -/
def CbBuf.unpack (bs : List Byte) : CbBuf :=
  ⟨BitVec.ofNat 64 (fieldAt bs 0 8), fieldAt bs 8 4, fieldAt bs 12 2, fieldAt bs 14 2, fieldAt bs 16 2, fieldAt bs 18 2,
   fieldAt bs 20 2, fieldAt bs 22 2, fieldAt bs 24 2, []⟩

/-- Reserved bits of Table 7-2 are stored as zero (13 R309). -/
def FenceRange.ofWords (lo hi : Word) : FenceRange :=
  ⟨lo &&& 0xFFFFFFFFFFFFFFC0, hi &&& 0xFFFFFFFFFFFFFFC3⟩

/-- Whether a fence range register in address form matches a byte range; LAST below BASE matches nothing (07 R142,
Table 7-2). -/
def FenceRange.matchesVa (r : FenceRange) (va n : Nat) : Bool :=
  r.hi.getLsbD 0 && !r.hi.getLsbD 1 && decide (0 < n) && decide (r.lo.toNat / 64 ≤ r.hi.toNat / 64)
    && decide (r.lo.toNat / 64 ≤ (va + n - 1) / 64) && decide (va / 64 ≤ r.hi.toNat / 64)

/-- Whether a fence range register in handle form matches a range of a handle (07 R142). -/
def FenceRange.matchesHandle (r : FenceRange) (hid off n : Nat) : Bool :=
  r.hi.getLsbD 0 && r.hi.getLsbD 1 && decide (0 < n) && decide (r.lo.toNat / 2 ^ 32 = hid)
    && decide (r.lo.toNat % 2 ^ 32 / 64 ≤ r.hi.toNat % 2 ^ 32 / 64)
    && decide (r.lo.toNat % 2 ^ 32 / 64 ≤ (off + n - 1) / 64) && decide (off / 64 ≤ r.hi.toNat % 2 ^ 32 / 64)

/-- The fence range registers that an FRSET of the bundle being issued writes: their counters are loaded with every access
outstanding, those of the bundle among them (07 R145). -/
def Core.frPending (c : Core) : BitVec 8 :=
  c.owed.foldl (fun m e => match e.dest with
    | .fence k => m ||| BitVec.ofNat 8 (2 ^ k.val)
    | _ => m) 0

/-- The tags an access gets at issue: bit k for FRk (07 R142, R145). -/
def Core.tagsBy (c : Core) (p : FenceRange → Bool) : BitVec 8 :=
  BitVec.ofNat 8 (digits 1 (fun i => if h : i < 8 then (if p c.regs.fr[i] then 1 else 0) else 0) 8) ||| c.frPending

/-- The tags of an access to a virtual range. -/
def Core.tagsOf (c : Core) (va n : Nat) : BitVec 8 := c.tagsBy fun r => r.matchesVa va n

/-- The name of the running task; 0 where none runs. -/
def Core.taskId (c : Core) : Nat := (c.task.map (·.id)).getD 0

/-! ## Owing and landing -/

/-- The next issue-order number. -/
def Core.bumpSerial (c : Core) : Core := { c with serial := c.serial + 1 }

/-- Owe a result of a fixed latency whose value is known (R103). -/
def Core.owe (c : Core) (lat : Nat) (slot : Fin 4) (dest : Dest) (v : Vec) (latch : Option (Fin 2) := none)
    (recs : List StqRec := []) : Core :=
  { c with
    serial := c.serial + 1
    owed := c.owed ++ [⟨c.serial, c.csr.cycle + lat, slot, dest, some v, false, 0, false, 0, latch, recs, none⟩] }

/-- Owe a 64-bit scalar. -/
def Core.oweS (c : Core) (lat : Nat) (slot : Fin 4) (r : SReg) (v : Word) : Core :=
  c.owe lat slot (.sreg r) (v.setWidth 1024)

/-- Owe a flag. -/
def Core.oweF (c : Core) (slot : Fin 4) (r : FReg) (v : Bool) : Core :=
  c.owe 1 slot (.flag r) (if v then 1 else 0)

/-- Owe a mask. -/
def Core.oweM (c : Core) (lat : Nat) (slot : Fin 4) (r : MReg) (v : Lane) (recs : List StqRec := []) : Core :=
  c.owe lat slot (.mask r) (v.setWidth 1024) none recs

/-- Virtual base of the flat SRAM window (00 R3). -/
def sramBase : Nat := 0x10000000000
/-- Virtual base of the HBM region (00 R3). -/
def hbmBase : Nat := 0x20000000000
/-- End of the HBM region (06 R119). -/
def hbmTop : Nat := 0x40000000000

/-- Physical address of an own-slice byte of a global core. -/
def ownPhys (k : Nat) (va : Nat) : Nat := sliceBase k + (va - sramBase) % sliceSize

/-- A store to an own-slice range, as an outstanding request at .core. -/
def localStore (k ord : Nat) (va : Nat) (bs : List Byte) (tags : BitVec 8) (bund : Word) (task cyc : Nat) : Req :=
  ⟨ord, .store ((List.range bs.length).map fun i => (ownPhys k va + i, bs.getD i 0)), BitVec.ofNat 64 va, .core, false,
   false, tags, none, bund, task, cyc, decide (128 ≤ bs.length), false, []⟩

/-! ## Circular buffers (06 R116, R117) -/

/-- Take the slot at PIDX for a copy. -/
def CbBuf.take (b : CbBuf) : CbBuf :=
  { b with free := b.free - 1, pidx := (b.pidx + 1) % b.nslot, pheld := b.pheld + 1 }

/-- The oldest producer-held slot. -/
def CbBuf.oldest (b : CbBuf) : Nat := (b.pidx + b.nslot - b.pheld % Max.max 1 b.nslot) % Max.max 1 b.nslot

/-- FILLED grows while the oldest producer-held slot is complete (R117). -/
def CbBuf.fill : Nat → CbBuf → CbBuf
  | 0, b => b
  | n + 1, b =>
    if b.pheld != 0 && b.done.contains b.oldest then
      CbBuf.fill n { b with done := b.done.erase b.oldest, pheld := b.pheld - 1, filled := b.filled + 1 }
    else b

/-- A copy into slot i is complete. -/
def CbBuf.complete (b : CbBuf) (i : Nat) : CbBuf := CbBuf.fill (b.pheld + 1) { b with done := b.done ++ [i] }

/-- Whether a channel holds a copy that waits for a slot of a buffer. -/
def Chan.waitsFor (h : Chan) (k : CbReg) : Bool := h.held && h.dst.toNat % 16 == k.val

/-- Accesses of the core with issue numbers below `after` come before every copy that waits for a slot of a buffer (07 R140). -/
def Core.holdBack (c : Core) (k : CbReg) (after : Nat) : Core :=
  { c with chans := c.chans.map fun g => if g.waitsFor k then { g with after := Max.max g.after after } else g }

/-- Whether the bundle being issued loads a buffer's state block: a copy of the bundle into the buffer waits for it (log entry 69). -/
def Core.loadsBuf (c : Core) (q : CbReg) : Bool := c.owed.any fun e => e.dest == .buf q

/-- The slot of a copy into a buffer: the one it has taken, or the one at PIDX that it takes when it starts to move data (R117). -/
def Core.slotOf (c : Core) (h : Chan) : Option Nat :=
  let q : CbReg := Fin.ofNat 16 (h.dst.toNat % 16)
  if h.held then (if 0 < c.regs.cb[q].free ∧ c.loadsBuf q = false then some c.regs.cb[q].pidx else none) else h.slot

/-- A copy takes its slot: it starts to move data (R117). -/
def Core.takeSlot (c : Core) (h : Chan) : Core :=
  let q : CbReg := Fin.ofNat 16 (h.dst.toNat % 16)
  { c with
    chans := c.chans.map fun g => if g.ord = h.ord then { g with held := false, slot := some c.regs.cb[q].pidx } else g
    regs := { c.regs with cb := c.regs.cb.set q c.regs.cb[q].take } }

/-- A parameter set as a generator holds it: its reserved bits read as zero (00 R5, 13 Table 13-2). -/
def agMasked (g : AgSet) : AgSet := g &&& ~~~((0xFCE0 : BitVec 512) <<< 64)

/-- Write one landed result to its destination (R103): queue, latch and port results also enter the slot's latch pair. -/
def Core.commit (k : Nat) (c : Core) (e : Owed) : Core :=
  let v := e.data.getD 0
  let c := c.appendRecs e.recs
  let c := match e.latch with
    | some p => c.enterLatch p v
    | none => c
  match e.dest with
  | .sreg r => c.setS r (v.setWidth 64)
  | .next j =>
    let c := (c.setS 1 (v.setWidth 64)).setN j (v.setWidth 64)
    match c.task with
    | some t => { c with task := some { t with count := t.count + 1 } }
    | none => c
  | .flag r => c.setF r (v.getLsbD 0)
  | .mask r => c.setM r (v.setWidth 32)
  | .queue q id => c.setQ q (fillEntry id v c.regs.q[q])
  | .latch => c
  | .port _ addr pad =>
    if pad then c
    else { c with
      serial := c.serial + 1
      lsu := c.lsu ++ [localStore k c.serial addr.toNat (vecBytes v) (c.tagsOf addr.toNat 128) 0 c.taskId c.csr.cycle] }
  | .csr x => c.writeCsr x (v.setWidth 64)
  | .fence j => { c with regs := { c.regs with
      fr := c.regs.fr.set j (FenceRange.ofWords (v.setWidth 64) ((v >>> 64).setWidth 64)) } }
  | .agen g => { c with regs := { c.regs with ag := c.regs.ag.set g (agMasked (v.setWidth 512)) } }
  | .buf b =>
    let c' : Core := { c with regs := { c.regs with cb := c.regs.cb.set b (CbBuf.unpack (bytesOf 32 v.toNat)) } }
    c'.holdBack b e.ord
  | .bind n => { c with regs := { c.regs with b := c.regs.b.set n (Binding.unpack v.toNat) } }
  | .trow r => { c with regs := { c.regs with tr := { c.regs.tr with rows := c.regs.tr.rows.set r v } } }
  | .loopStep r => c.setS r (v.setWidth 64)

/-- Whether a result due has its data: those of a timed load have arrived, those of a COMPAT landing are present (R112). -/
def Core.hasData (c : Core) (e : Owed) : Bool := e.data.isSome && decide (e.present ≤ c.dieCyc)

/-- The results due at or before the present cycle. -/
def Core.due (c : Core) : List Owed := c.owed.filter fun e => decide (e.due ≤ c.csr.cycle)

/-- Order of landing: by cycle, then by issue (R103). -/
def landOrder (a b : Owed) : Bool := decide (a.due < b.due) || (a.due == b.due && decide (a.ord ≤ b.ord))

/-- Land every result due, once the data of all of them are there; a poisoned one is not written and stays owed (R241). -/
def Core.land (k : Nat) (c : Core) : Core :=
  let d := c.due
  if d.all c.hasData then
    (sortBy landOrder (d.filter fun e => !e.poison)).foldl (Core.commit k)
      { c with owed := c.owed.filter fun e => !decide (e.due ≤ c.csr.cycle) || e.poison }
  else c

/-- The first result due that still lacks its data. -/
def Core.late (c : Core) : Option Owed := c.due.find? fun e => !c.hasData e

/-- The earliest-issued poisoned result due (R241). -/
def Core.poisonedDue (c : Core) : Option Owed := c.due.find? fun e => e.poison

/-- Core cycles pass: `n` of them, the drains of TSTAT becoming visible and TIMER pending where its compare holds
(09 Table 9-1). -/
def Core.pass (c : Core) (n : Nat) : Core :=
  let cyc := c.csr.cycle + n
  { c with
    dieCyc := c.dieCyc + n
    csr := { c.csr with
      cycle := cyc
      tstat := Vector.ofFn fun j => { c.csr with cycle := cyc }.tstatAt j
      tstatNext := c.csr.tstatNext.filter fun p => !decide (p.2.2 ≤ cyc)
      ipTimer := c.csr.ipTimer || (c.csr.timecmp != 0 && decide (c.csr.timecmp.toNat ≤ cyc % 2 ^ 64)) } }

/-- Die cycles of freeze pass at a stopped core (R104). -/
def Core.freeze (c : Core) (n : Nat) : Core :=
  { c with dieCyc := c.dieCyc + n, csr := { c.csr with freezecnt := c.csr.freezecnt + n } }

/-- The die cycles until the data of every result due are present, all of them having arrived (R112); none while some have not. -/
def Core.presence (c : Core) : Option Nat :=
  if c.due.all fun e => e.data.isSome then some (c.due.foldl (fun n e => Max.max n (e.present - c.dieCyc)) 0) else none

/-- The stop of a compatibility landing (R112): die cycles that FREEZECNT and LATPROF.CFRZ count. -/
def Core.awaitPresence (c : Core) (n : Nat) : Core :=
  let c := c.freeze n
  { c with csr := { c.csr with cfrz := BitVec.ofNat 16 (Min.min 0xFFFF (c.csr.cfrz.toNat + n)) } }

/-- Core cycles pass one by one, each with the landings due at its end and the stops that these need (R103, R110, R112): where data have
not arrived, the cycles left stay to be passed; a poisoned result stays owed, for the boundary that follows (11 R241). -/
def Core.spend (k : Nat) : Nat → Core → Core
  | 0, c => { c with empty := 0 }
  | n + 1, c =>
    let c := c.pass 1
    match c.presence with
    | none => { c with empty := n }
    | some w => Core.spend k n ((c.awaitPresence w).land k)

/-- The empty cycles left pass at once (09 R192). -/
def Core.passEmpty (c : Core) : Core := { c.pass c.empty with empty := 0 }

/-- Whether a stop of a core's domain that FREEZECNT counts is under way, for a late landing or before an issue (06 Table 6-1). -/
def Core.frozen (c : Core) : Bool :=
  c.lateStop || (match c.wait with
    | some (.lease _) | some .channels | some .requests | some .landing => true
    | _ => false)

/-- The landing entries held: 64 for tasks, 8 for the supervisor (R111, 09 R189). -/
def Core.landingHeld (c : Core) : Nat := (c.owed.filter (·.timed)).length + (if c.csr.mode then 0 else (c.shadow.filter (·.timed)).length)

/-- The limit of the landing buffer in the present mode. -/
def Core.landingLimit (c : Core) : Nat := if c.csr.mode then 8 else 64

end Sys2Proof.Machine
end

