-- ==== Sys2Proof/Machine/Translate.lean ====
section
/-! DEFINITION. Addresses: the flat SRAM window, the table frame, the window map, the page walk, the TLB and handles
(04 R54, R55, R68, R71, R74; 06 R119-R122; 11 Table 11-4). -/

namespace Sys2Proof.Machine

/-- Cause codes of Table 9-2. -/
def cILLEGAL : Nat := 0x01
def cQEARLY : Nat := 0x02
def cQUNF : Nat := 0x03
def cQOVF : Nat := 0x04
def cLATCHINV : Nat := 0x05
def cMISALIGN : Nat := 0x06
def cPAGEFAULT : Nat := 0x07
def cACCESS : Nat := 0x08
def cHANDLEABSENT : Nat := 0x09
def cCOPYSPAN : Nat := 0x0A
def cACCFIRST : Nat := 0x0B
def cACCFMT : Nat := 0x0C
def cNOLEASE : Nat := 0x0D
def cCBSTALE : Nat := 0x0E
def cCBDEAD : Nat := 0x0F
def cBREAK : Nat := 0x10
def cSYSCALL : Nat := 0x11
def cPRIV : Nat := 0x12
def cAGBOUNDS : Nat := 0x13
def cCTRBAD : Nat := 0x14
def cBARBAD : Nat := 0x15
def cUE : Nat := 0x16
def cINTEGRITY : Nat := 0x17
def cTIMER : Nat := 0x20
def cIPI : Nat := 0x21

/-- A translated address: physical byte, the window it lies in, and the TLB entry a walk found, if one was made. -/
structure Xl where
  pa   : Nat
  win  : Option Nat
  fill : Option TlbEntry
deriving DecidableEq, Repr

/-- A cause with its subcode and EVAL, before the slot is known. -/
def mkTrap (code sub : Nat) (eval : Nat) : Trap := ⟨code, sub, 0, BitVec.ofNat 64 eval⟩

/-- SUB of PAGEFAULT (Table 9-2). -/
def AccKind.sub : AccKind → Nat
  | .rd => 0
  | .wr => 1
  | .fetch => 2

/-- The frame slots a VD has on a die: those of the slot table. -/
def Vd.hasSlot (d : Vd) (die slot : Nat) : Bool := d.slots.any fun p => p.1 == (die, slot)

/-- Checks of one page-table entry at a level 1 to 3 (R120): V, reserved bits, LEAF, OFF, SLOT. -/
def pteOk (d : Vd) (level e : Nat) : Bool :=
  e % 2 == 1 && bits e 4 4 == 0 && bits e 38 26 == 0
  && (match level with
      | 1 => bits e 1 1 == 0 && bits e 25 13 % 16 == 0
      | 2 => if bits e 1 1 = 1 then bits e 25 13 == 0 else true
      | _ => bits e 1 1 == 1 && bits e 25 13 % 256 == 0)
  && d.hasSlot (bits e 8 2) (bits e 10 15)

/-- Where an entry points. -/
def pteBase (d : Vd) (e : Nat) : Nat := (d.slotBase (bits e 8 2) (bits e 10 15)).getD 0 + bits e 25 13 * 256

/-- The frame owner check of R68. -/
def State.owns (s : State) (v pa : Nat) : Bool := s.ownerOf pa == some (.vd v)

/-- Whether the access is allowed by W and X (R120). -/
def permOk (w x : Bool) : AccKind → Bool
  | .rd => true
  | .wr => w
  | .fetch => x

/-- The page walk (R119, R120): the entry found, or the cause. -/
def State.walk (s : State) (v : Nat) (d : Vd) (va : Nat) (acc : AccKind) : Except Trap TlbEntry :=
  let fault : Except Trap TlbEntry := .error (mkTrap cPAGEFAULT (AccKind.sub acc) va)
  let ue : Except Trap TlbEntry := .error (mkTrap cUE 0 va)
  match d.tableBase with
  | none => fault
  | some tb =>
    let o := va - hbmBase
    let a1 := tb + 8 * bits o 30 11
    let e1 := s.pte a1
    if s.poisoned a1 then ue
    else if !pteOk d 1 e1 then fault
    else if !s.owns v (pteBase d e1) then .error (mkTrap cACCESS 0 va)
    else
      let a2 := pteBase d e1 + 8 * bits o 21 9
      let e2 := s.pte a2
      if s.poisoned a2 then ue
      else if !pteOk d 2 e2 then fault
      else if !s.owns v (pteBase d e2) then .error (mkTrap cACCESS 0 va)
      else if bits e2 1 1 = 1 then
        if permOk (bits e2 2 1 == 1) (bits e2 3 1 == 1) acc then
          .ok ⟨va / frameSize * frameSize, true, pteBase d e2, bits e2 2 1 == 1, bits e2 3 1 == 1, none⟩
        else fault
      else
        let a3 := pteBase d e2 + 8 * bits o 16 5
        let e3 := s.pte a3
        if s.poisoned a3 then ue
        else if !pteOk d 3 e3 then fault
        else if !s.owns v (pteBase d e3) then .error (mkTrap cACCESS 0 va)
        else if permOk (bits e3 2 1 == 1) (bits e3 3 1 == 1) acc then
          .ok ⟨va / 65536 * 65536, false, pteBase d e3, bits e3 2 1 == 1, bits e3 3 1 == 1, none⟩
        else fault

/-- Whether a TLB entry covers an address. -/
def TlbEntry.covers (e : TlbEntry) (va : Nat) : Bool :=
  e.va == (if e.big then va / frameSize * frameSize else va / 65536 * 65536)

/-- The physical address an entry gives. -/
def TlbEntry.phys (e : TlbEntry) (va : Nat) : Nat := e.pa + (va - e.va)

/-- The window-map entry that covers an address (R71). -/
def Vd.winAt (d : Vd) (va : Nat) : Option WinMap :=
  d.winmap.find? fun w => decide (w.base ≤ va) && decide (va < w.base + w.len)

/-- The answer of a translation that waits for a window request (R73 step 1): no cause of Table 9-2 has code 0. -/
def waitTrap : Trap := mkTrap 0 0 0

/-- Whether a window request past its re-key point holds the translations of a window (R73, R75). -/
def State.frozenWin (s : State) (w : Nat) : Bool :=
  match s.winOp with
  | some o => o.win == w
  | none => false

/-- A window address (R71, R74): it waits while a request holds the window; else through the map while the VD holds the window, from
the TLB or with a new entry of it; else ACCESS. -/
def State.xlateWin (s : State) (v : Nat) (tlb : List TlbEntry) (va : Nat) (w : WinMap) : Except Trap Xl :=
  if s.frozenWin w.win then .error waitTrap
  else match lookup w.win s.wins with
    | some x =>
      let pa := frameBase x.die.val x.first + (va - w.base)
      let e : TlbEntry := ⟨va / frameSize * frameSize, true, pa / frameSize * frameSize, true, true, some w.win⟩
      if x.holders.contains v then .ok ⟨pa, some w.win, if tlb.contains e then none else some e⟩
      else .error (mkTrap cACCESS 0 va)
    | none => .error (mkTrap cACCESS 0 va)

/-- A slice address: rows 3 of Table 11-4 and R54. -/
def Vd.xlateSlice (d : Vd) (va : Nat) : Except Trap Xl :=
  match d.globalCore ((va - sramBase) / sliceSize) with
  | some g => .ok ⟨sliceBase g + (va - sramBase) % sliceSize, none, none⟩
  | none => .error (mkTrap cACCESS 0 va)

/-- A page of the page tables: through a TLB entry that covers the address, else by a walk (R119-R121). -/
def State.xlatePage (s : State) (v : Nat) (d : Vd) (tlb : List TlbEntry) (va : Nat) (acc : AccKind) : Except Trap Xl :=
  match tlb.find? (·.covers va) with
  | some e => if permOk e.w e.x acc then .ok ⟨e.phys va, none, none⟩ else .error (mkTrap cPAGEFAULT (AccKind.sub acc) va)
  | none =>
    match s.walk v d va acc with
    | .ok e => .ok ⟨e.phys va, none, some e⟩
    | .error t => .error t

/-- Translation of an access of a VD: rows 3 to 5 of Table 11-4, with a TLB to look up. `sup` is supervisor mode. A window the VD
no longer holds gives ACCESS (R74, R75), unless the VD has mapped pages there since. -/
def State.xlate (s : State) (v : Nat) (d : Vd) (sup : Bool) (tlb : List TlbEntry) (va : Nat) (acc : AccKind) :
    Except Trap Xl :=
  if va < sramBase then .error (mkTrap cACCESS 0 va)
  else if va < hbmBase then d.xlateSlice va
  else if hbmTop ≤ va then .error (mkTrap cACCESS 0 va)
  else if va < hbmBase + frameSize then
    match sup, d.tableBase with
    | true, some tb => .ok ⟨tb + (va - hbmBase), none, none⟩
    | _, _ => .error (mkTrap cACCESS 0 va)
  else match d.winAt va with
    | some w =>
      match s.xlateWin v tlb va w with
      | .ok x => .ok x
      | .error t =>
        if t.code = 0 then .error t
        else match s.xlatePage v d tlb va acc with
          | .ok x => .ok x
          | .error _ => .error t
    | none => s.xlatePage v d tlb va acc

/-- Translation by the acting core. -/
def State.xlateCore (s : State) (va : Nat) (acc : AccKind) : Except Trap Xl :=
  match s.c.task with
  | some t =>
    match s.vd? t.vd with
    | some d => s.xlate t.vd d s.c.csr.mode s.c.tlb va acc
    | none => .error (mkTrap cACCESS 0 va)
  | none => .error (mkTrap cACCESS 0 va)

/-- Put an entry in a TLB of 128 entries; which one makes room is open (R121). -/
def fillTlb (draw : Nat) (tlb : List TlbEntry) (e : TlbEntry) : List TlbEntry :=
  if tlb.length < 128 then tlb ++ [e] else tlb.eraseIdx (Config.tlbVictim draw % 128) ++ [e]

/-- Whether an access of the acting core to an address misses its TLB: a walk then stops its domain, whatever it finds (06 Table 6-1, R121,
11 R237). -/
def State.misses (s : State) (va : Nat) : Bool :=
  decide (hbmBase + frameSize ≤ va ∧ va < hbmTop) && s.c.tlb.all fun e => !e.covers va

/-- The effect of a TLB miss: the walk's freeze, of open length, and the entry (Table 6-1, R121). -/
def State.afterXlate (s : State) (x : Xl) : State :=
  match x.fill with
  | none => s
  | some e =>
    let s' := s.draw
    { s' with c := { s.c.freeze (Config.freezeCycles s.fresh) with tlb := fillTlb s.fresh s.c.tlb e } }

/-- Die cycles of freeze, of open number, at the acting core. -/
def State.freezeOpen (s : State) : State :=
  let s' := s.draw
  { s' with c := s'.c.freeze (Config.freezeCycles s.fresh) }

/-- The 64-byte chunks of a virtual range: (address, length). -/
def chunksFuel : Nat → Nat → Nat → List (Nat × Nat)
  | 0, _, _ => []
  | fuel + 1, va, n =>
    if n = 0 then [] else
    let m := Min.min n (64 - va % 64)
    (va, m) :: chunksFuel fuel (va + m) (n - m)

/-- The chunks of a range. -/
def chunks (va n : Nat) : List (Nat × Nat) := chunksFuel (n / 64 + 2) va n

/-- Translation by the device on behalf of a VD, without a TLB and as a supervisor access does (03 R38, 05 R84). Where a window request
waits, it counts as made before the re-key point (log entry 44). -/
def State.xlateVd (s : State) (v va : Nat) (acc : AccKind) : Except Trap Xl :=
  match s.vd? v with
  | some d => ({ s with winOp := none } : State).xlate v d true [] va acc
  | none => .error (mkTrap cACCESS 0 va)

/-- Bytes of a VD's memory as the device reads them; none where an address does not translate. -/
def State.readVd (s : State) (v va n : Nat) : Option (List Byte) :=
  (chunks va n).foldl (fun acc p =>
    match acc, s.xlateVd v p.1 .rd with
    | some bs, .ok x => some (bs ++ s.read x.pa p.2)
    | _, _ => none) (some [])

/-- Whether a VD's memory holds poison in a range. -/
def State.poisonVd (s : State) (v va n : Nat) : Bool :=
  (chunks va n).any fun p => match s.xlateVd v p.1 .rd with
    | .ok x => s.poisonedRange x.pa p.2
    | .error _ => false

/-- Whether a VD's memory is mapped over a range. -/
def State.mappedVd (s : State) (v va n : Nat) : Bool :=
  (chunks va n).all fun p => match s.xlateVd v p.1 .rd with
    | .ok _ => true
    | .error _ => false

/-! ## Handles (06 R122, R123) -/

/-- Bytes of a handle. -/
def Handle.size (h : Handle) : Nat := h.npage * 65536

/-- The physical address of a byte of a kind 0 handle and the window it lies in. -/
def Handle.phys (h : Handle) (off : Nat) : Option (Nat × Option Nat) :=
  h.pages[off / 65536]?.map fun p => (p.1 + off % 65536, p.2)

/-- The key of a host memory byte behind a link. -/
def hostKey (link : Nat) (a : Nat) : Nat := link * 2 ^ 64 + a % 2 ^ 64

/-- The key of a peer's memory byte: chip, handle, offset. -/
def peerKey (chip handle off : Nat) : Nat := 2 ^ 66 + chip * 2 ^ 64 + handle * 2 ^ 32 + off

/-- A window in the handle's page is still held by the VD (R71). -/
def State.pageHeld (s : State) (v : Nat) (h : Handle) (off : Nat) : Bool :=
  match h.phys off with
  | some (_, some w) => ((lookup w s.wins).map fun x => x.holders.contains v).getD false
  | _ => true

end Sys2Proof.Machine
end

