-- ==== Sys2Proof/Machine/Writes.lean ====
section
/-! DEFINITION. Writes of memory (04_virtual_devices_and_protected_memory.md R69, R70), and the event queue of a VD, which a failed
integrity check fills (03_host_interface.md R46, R47). -/

namespace Sys2Proof.Machine

/-! ## Events of a VD (03 R46, R47) -/

/-- Whether a byte of a handle lies in a present page, as the device reads the bitmap. -/
def State.pageThere (s : State) (v : Nat) (h : Handle) (o : Nat) : Bool :=
  let i := o / 65536
  match s.readVd v (h.pbmp.toNat + i / 8) 1 with
  | some bs => (bs.headD 0).getLsbD (i % 8) && !s.poisonVd v (h.pbmp.toNat + i / 8) 1 && s.pageHeld v h o
  | none => false

/-- Where the i-th record from now goes: the handle and the offset, if the area can take it and those before it. -/
def State.areaSlotAt (s : State) (v : Nat) (d : Vd) (i : Nat) : Option (Handle × Nat) :=
  let r := d.regs
  let o := r.evoff.toNat + 32 * ((r.head.toNat + i) % 2 ^ r.log2n)
  if !r.en || (r.head - r.tail).toNat + i = 2 ^ r.log2n then none
  else match lookup r.evhdl.toNat d.handles with
    | some h => if h.wr && decide (o + 32 ≤ h.size) && s.pageThere v h o then some (h, o) else none
    | none => none

/-- Where the next record goes. -/
def State.areaSlot (s : State) (v : Nat) (d : Vd) : Option (Handle × Nat) := s.areaSlotAt v d 0

/-- Put an event in the pending queue, which every event passes on its way to the host (log entry 15); `room` is what the queue can hold now.
An event that finds no room is counted in LOST; a class 7 event goes first once there is room again. -/
def Vd.queueEvent (d : Vd) (room time : Nat) (cls code : BitVec 8) (payload : List Byte) : Vd :=
  let e : Event := ⟨cls, code, d.gen, d.seq, BitVec.ofNat 64 time, sliceBytes payload 0 16⟩
  if d.pend.length < room then
    if d.due7 && decide (d.pend.length + 1 < room) then
      let l : Event := ⟨7, 0, d.gen, d.seq, BitVec.ofNat 64 time, sliceBytes (bytesOf 4 (Min.min d.lostRun 0xFFFFFFFF)) 0 16⟩
      { d with pend := d.pend ++ [l, { e with seq := d.seq + 1 }], seq := d.seq + 2, lostRun := 0, due7 := false }
    else { d with pend := d.pend ++ [e], seq := d.seq + 1 }
  else { d with seq := d.seq + 1, lostRun := d.lostRun + 1, due7 := true, regs := { d.regs with lost := d.regs.lost + 1 } }

/-- What the pending queue of a VD can hold now (R47): its 256 events, and those that could have been delivered by now, the VD being neither
paused nor migrating and the area able to take their records. -/
def State.queueRoom (s : State) (v : Nat) (d : Vd) : Nat :=
  if d.state = .paused ∨ d.state = .migrating then 256
  else 256 + ((List.range (d.pend.length - 254)).takeWhile fun i => (s.areaSlotAt v d i).isSome).length

/-- The payload bytes that a class does not state are open (log entry 5). -/
def padPayload (draw : Nat) (payload : List Byte) : List Byte :=
  payload ++ (List.range (16 - payload.length)).map (Config.eventPad draw)

/-- Raise an event of a VD. -/
def State.raiseEvent (s : State) (v : Nat) (cls code : BitVec 8) (payload : List Byte) : State :=
  let p := padPayload s.fresh payload
  let s := s.tick
  s.updVd v fun d => d.queueEvent (s.queueRoom v d) s.pkg.timeNs cls code p

/-! ## Failed integrity checks (04 R70) -/

/-- The class 2 event of a failed integrity check (R70) for one VD. -/
def State.integrityEvent (s : State) (v blk n domain kind : Nat) : State :=
  let off : Nat := match s.offsetOf v blk with
    | some o => o
    | none => (Config.unmappedOffset s.fresh).toNat
  s.draw.raiseEvent v 2 0x17 (bytesOf 8 off ++ bytesOf 4 n ++ bytesOf 1 domain ++ bytesOf 1 kind)

/-- Report a failed integrity check: class 2 to every VD of the domain, a notice to root firmware (R70). -/
def State.reportIntegrity (s : State) (blk n kind : Nat) : State :=
  match s.ownerOf (blk * 64) with
  | none => s.send (.rootNotice 0x17 (blk * 64))
  | some o => ((s.domainVds o).foldl (fun s v => s.integrityEvent v blk n o.domain kind) s).send (.rootNotice 0x17 (blk * 64))

/-! ## Writes -/

/-- Store bytes within one 64-byte block (R69, R70): a full write clears poison, a partial write to poison is discarded and
reported again, nothing reaches a failed subtree, a reserved range (R56), a degraded die (01 R24) or the metadata area (DESIGN CHOICE, log
entry 86). -/
def State.writeBlock (s : State) (pa : Nat) (bs : List Byte) : State :=
  let blk := pa / 64
  match physArea pa with
  | .reserved | .hbmMeta _ => s.send (.rootNotice 0x16 pa)
  | .hbmData d _ _ =>
    if s.degraded d then s.send (.rootNotice 0x16 pa)
    else if s.failedBlock blk then s.reportIntegrity blk 1 0
    else if s.mpe.wouldWrap blk then s.reportIntegrity blk 1 0
    else if s.poison.contains blk && bs.length != 64 then s.reportIntegrity blk 1 0
    else ({ s with
      mem := s.mem.setBytes pa bs
      poison := s.poison.filter (· != blk)
      mpe := s.bumped blk
      torn := s.torn.map (·.patch pa bs) } : State).supersede pa bs.length
  | _ =>
    if s.poison.contains blk && bs.length != 64 then s
    else ({ s with
      mem := s.mem.setBytes pa bs
      poison := s.poison.filter (· != blk)
      torn := s.torn.map (·.patch pa bs) } : State).supersede pa bs.length

/-- Store bytes at rising physical addresses, block by block; the fuel is the number of bytes. -/
def State.writeFuel : Nat → State → Nat → List Byte → State
  | 0, s, _, _ => s
  | fuel + 1, s, pa, bs =>
    match bs with
    | [] => s
    | _ =>
      let room := 64 - pa % 64
      State.writeFuel fuel (s.writeBlock pa (bs.take room)) (pa + room) (bs.drop room)

/-- Store bytes at physical addresses. -/
def State.write (s : State) (pa : Nat) (bs : List Byte) : State := State.writeFuel bs.length s pa bs

/-- Store separate bytes, each at its address. -/
def State.writeCells (s : State) (cells : List Host.Cell) : State :=
  cells.foldl (fun s c => s.write c.1 [c.2]) s

/-- Group a list of cells into runs at rising addresses, so that a full block is stored at once. -/
def cellRuns : List Host.Cell → List (Nat × List Byte)
  | [] => []
  | (a, b) :: r =>
    match cellRuns r with
    | (a', bs) :: rest => if a' = a + 1 then (a, b :: bs) :: rest else (a, [b]) :: (a', bs) :: rest
    | [] => [(a, [b])]

/-- Store cells run by run. -/
def State.store (s : State) (cells : List Host.Cell) : State :=
  (cellRuns cells).foldl (fun s r => s.write r.1 r.2) s

/-- Store part of the cells of an operation that is not complete yet (07 R133). -/
def State.storePart (s : State) (core ord : Nat) (cells : List Host.Cell) : State :=
  let s := cells.foldl (fun s c => s.tear core ord c.1) s
  { s.store cells with torn := s.torn }

/-- Write poison over a range: every block it touches is marked (09 R187, 13 R315). -/
def State.writePoison (s : State) (pa n : Nat) : State :=
  (List.range ((pa + n + 63) / 64 - pa / 64)).foldl (fun s i => s.markPoison (pa / 64 + i)) s

/-- Store bytes in a VD's memory; a chunk that does not translate is left out. -/
def State.writeVd (s : State) (v va : Nat) (bs : List Byte) : State :=
  (chunks va bs.length).foldl (fun s p =>
    match s.xlateVd v p.1 .rd with
    | .ok x => s.write x.pa (sliceBytes bs (p.1 - va) p.2)
    | .error _ => s) s

end Sys2Proof.Machine
end

