-- ==== Sys2Proof/Machine/Falyth.lean ====
section
/-! DEFINITION. The link layer of a Falyth port (01_package_and_links.md R15-R17): the flit of Table 1-3 with its CRC, the receiver of a
damaged flit, the sender with its replay buffer and credits. -/

namespace Sys2Proof.Machine

/-! ## Flits (Table 1-3) -/

/-- One bit of CRC-32C, least significant bit first. -/
def crcBit (c : BitVec 32) : BitVec 32 := if c.getLsbD 0 then (c >>> 1) ^^^ 0x82F63B78 else c >>> 1

/-- CRC-32C over one more byte. -/
def crcByte (c : BitVec 32) (b : Byte) : BitVec 32 :=
  crcBit (crcBit (crcBit (crcBit (crcBit (crcBit (crcBit (crcBit (c ^^^ b.setWidth 32))))))))

/-- CRC-32C of bytes. -/
def crc32c (bs : List Byte) : BitVec 32 := ~~~(bs.foldl crcByte 0xFFFFFFFF)

/-- The header of a flit, bytes 0-7. -/
def flitHeader (typ seq ack : Nat) (nak : Bool) (vc crd crdvc : Nat) : Nat :=
  typ % 16 + seq % 4096 * 2 ^ 4 + ack % 4096 * 2 ^ 16 + (if nak then 2 ^ 28 else 0) + vc % 4 * 2 ^ 29 + crd % 256 * 2 ^ 32
    + crdvc % 4 * 2 ^ 40

/-- The 128 bytes of a flit: header, payload padded with zeros, CRC over the 124 bytes before it. -/
def flitBytes (header : Nat) (payload : List Byte) : List Byte :=
  let body := bytesOf 8 header ++ sliceBytes payload 0 116
  body ++ bytesOf 4 (crc32c body).toNat

/-- Bytes with errors added at places (R15). -/
def damage (bs : List Byte) (errs : List (Nat × Byte)) : List Byte :=
  (List.range bs.length).map fun i => errs.foldl (fun b e => if e.1 = i then b ^^^ e.2 else b) (bs.getD i 0)

/-- The flit that the receiver takes from the wire: RS(136,128) corrects errors in up to four of the 136 bytes of the flit and its
parity (R15); more stay in the flit. -/
def corrected (sent : List Byte) (errs : List (Nat × Byte)) : List Byte :=
  let places := (errs.filter fun e => e.2 != 0).foldl (fun l e => insertNat e.1 l) []
  if places.length ≤ 4 then sent else damage sent errs

/-- Whether a flit counts as a CRC failure (R16): its CRC fails, its TYPE is reserved or a reserved bit is set. -/
def flitBad (bs : List Byte) : Bool :=
  let h := fieldAt bs 0 8
  bs.length != 128 || fieldAt bs 124 4 != (crc32c (bs.take 124)).toNat || decide (3 < bits h 0 4) || bits h 31 1 != 0
    || bits h 42 22 != 0

/-! ## Sending (R17) -/

/-- Put a port. -/
def State.setPort (s : State) (port : Fin 24) (p : FalPort) : State := { s with pkg := { s.pkg with ports := s.pkg.ports.set port p } }

/-- A data flit, as its port sends it now. -/
def FalPort.dataFlit (p : FalPort) (x : TxFlit) : List Byte :=
  flitBytes (flitHeader 1 x.seq p.rxLast false x.req.vc.val x.crd x.crdvc.val) x.req.payload

/-- A control flit: what has been received, whether a failure was seen, and credits returned. -/
def FalPort.controlFlit (p : FalPort) (nak : Bool) (crd crdvc : Nat) : List Byte :=
  flitBytes (flitHeader 2 0 p.rxLast nak 0 crd crdvc) []

/-- Take the first element of a list that satisfies a test. -/
def takeFirst {α : Type} (p : α → Bool) : List α → Option (α × List α)
  | [] => none
  | x :: r => if p x then some (x, r) else (takeFirst p r).map fun q => (q.1, x :: q.2)

/-- The next request that a port may send: it is ACTIVE, fewer than 512 flits are unacknowledged, and the request's channel has a
credit. -/
def FalPort.sendable (p : FalPort) : Option (TxReq × List TxReq) :=
  if p.phase = .active ∧ p.replay.length < 512 then takeFirst (fun x => decide (0 < p.credits[x.vc])) p.queue else none

/-- A port sends the next data flit that it may, if any, with credits returned: it takes the next sequence number, enters the replay buffer
and spends a credit. -/
def State.sendFlit (s : State) (port : Fin 24) (crd : Nat) (crdvc : Fin 4) : Option State :=
  let p := s.pkg.ports[port]
  p.sendable.map fun x =>
    let f : TxFlit := ⟨p.nextSeq, x.1, crd, crdvc⟩
    let p' : FalPort := { p with
      queue := x.2
      replay := p.replay ++ [f]
      nextSeq := (p.nextSeq + 1) % 4096
      credits := p.credits.set x.1.vc (p.credits[x.1.vc] - 1) }
    (s.setPort port p').send (.flit port.val (p.dataFlit f))

/-- A port sends what it may; the fuel is the number of requests that wait. -/
def State.pumpPort : Nat → State → Fin 24 → State
  | 0, s, _ => s
  | n + 1, s, port =>
    match s.sendFlit port 0 0 with
    | none => s
    | some s' => State.pumpPort n s' port

/-- A port sends what it may. -/
def State.pump (s : State) (port : Fin 24) : State := State.pumpPort s.pkg.ports[port].queue.length s port

/-- A data flit is acknowledged and its credit returned: by the next data flit that may be sent, which returns it again where it is replayed,
else by a control flit (R17, log entry 34). -/
def State.acknowledge (s : State) (port : Fin 24) (vc : Fin 4) : State :=
  match s.sendFlit port 1 vc with
  | some s' => s'
  | none => s.send (.flit port.val (s.pkg.ports[port].controlFlit false 1 vc.val))

/-- A request waits for a port, which sends it as soon as it may. -/
def State.transmit (s : State) (port : Fin 24) (x : TxReq) : State :=
  let p := s.pkg.ports[port]
  (s.setPort port { p with queue := p.queue ++ [x] }).pump port

/-- Send every flit still unacknowledged again, in order (R17 steps 4, 5). -/
def State.resend (s : State) (port : Fin 24) : State :=
  let p := s.pkg.ports[port]
  p.replay.foldl (fun s x => s.send (.flit port.val (p.dataFlit x))) s

/-- Whether a port may replay: something is unacknowledged, and eight replays without progress have not been made (R17 step 6). -/
def FalPort.replays (p : FalPort) : Bool := !p.replay.isEmpty && decide (p.stalls < 8)

/-- A replay, counted until an acknowledgement makes progress; after eight the port waits for EQUALIZE (R17 step 6). -/
def State.replayPort (s : State) (port : Fin 24) : State :=
  let p := s.pkg.ports[port]
  if p.replays then (s.setPort port { p with stalls := p.stalls + 1 }).resend port else s

/-- What an ACK takes out of the replay buffer (R17): the port without the flits up to it, and those; nothing for one that names no flit
outstanding. -/
def FalPort.ack (p : FalPort) (ack : Nat) : FalPort × List TxReq :=
  match p.replay.findIdx? fun x => x.seq == ack with
  | some i => ({ p with replay := p.replay.drop (i + 1), lastAck := ack, stalls := 0 }, (p.replay.take (i + 1)).map (·.req))
  | none => (p, [])

end Sys2Proof.Machine
end

