-- ==== Sys2Proof/Machine/Lsu.lean ====
section
/-! DEFINITION. The load-store unit: when an outstanding request may be performed (07_memory_ordering.md R134, R135, R139, R142-R146,
R152; 13 R308) and what performing it does (11 R241; 13 R301-R305, R308, R327). A request is performed towards every die at once
(R132 lets it be), or, where an input says so, with dies left that have not applied its write (R137, R138). -/

namespace Sys2Proof.Machine

/-! ## Imprecise reports (09 R187) -/

/-- Report a cause to task `id` on core k: in the core's queue of 8 while that task runs there, else as a
class 3 event of the VD with the bundle address in bytes 16-23. -/
def State.report (s : State) (k id cause sub : Nat) (bund : Word) (slot : Fin 4 := 3) : State :=
  let c := s.coreAt k
  if c.task.isSome && c.taskId == id && decide (c.reports.length < 8) then
    s.setCore k { c with reports := c.reports ++ [⟨BitVec.ofNat 8 cause, BitVec.ofNat 8 sub, slot, bund⟩] }
  else match s.ownerOfCluster (clusterOf k) with
    | some v => s.raiseEvent v 3 (BitVec.ofNat 8 cause) (bytesOf 8 bund.toNat)
    | none => s

/-- Append statistics records of a finished command, if its task runs on its core (09 R195). -/
def State.recordTo (s : State) (k id : Nat) (rs : List StqRec) : State :=
  let c := s.coreAt k
  if c.task.isSome && c.taskId == id then s.setCore k (c.appendRecs rs) else s

/-- The cause of poison an engine meets: INTEGRITY in a failed subtree, UE otherwise (R70, R187; DEDUCED, log entry 16). -/
def State.poisonCause (s : State) (pa : Nat) : Nat := if s.failedBlock (pa / 64) then cINTEGRITY else cUE

/-! ## What a request touches -/

/-- Bytes of a RED element (13 R304). -/
def redBytes : RedTy → Nat
  | .bf16 => 2
  | .f32 | .s32 | .n32 => 4
  | .s64 | .n64 => 8

/-- The n bytes from an address. -/
def byteRange (pa n : Nat) : List Nat := (List.range n).map fun i => pa + i

/-- The bytes a request reads or writes. -/
def ReqOp.touched : ReqOp → List Nat
  | .load bs _ _ => bs
  | .store cells => cells.map (·.1)
  | .amo pa n _ _ => byteRange pa n
  | .cas pa n _ _ => byteRange pa n
  | .red pa _ ty _ => byteRange pa (redBytes ty)
  | .redWin _ line _ _ sent => if sent then [] else line
  | .fence _ _ => []
  | .bararr _ _ => []
  | .bindcnt pa _ => byteRange pa 8

/-- Whether a request counts as outstanding: loads, stores, atomics, reductions (06 R111). -/
def ReqOp.counts : ReqOp → Bool
  | .fence _ _ | .bararr _ _ => false
  | _ => true

/-- Whether a request is a load or an atomic (Table 7-3, acquire fences). -/
def ReqOp.reads : ReqOp → Bool
  | .load _ _ _ | .amo _ _ _ _ | .cas _ _ _ _ => true
  | _ => false

/-- Whether a request is a load only. -/
def ReqOp.isLoad : ReqOp → Bool
  | .load _ _ _ => true
  | _ => false

/-- Whether a request is a store only. -/
def ReqOp.isStore : ReqOp → Bool
  | .store _ => true
  | _ => false

/-- The requests that count against the limit of 1,024 (R111). -/
def Core.outstanding (c : Core) : Nat := (c.lsu.filter fun r => r.op.counts).length

/-- Whether two byte lists share a byte. -/
def meets (a b : List Nat) : Bool := a.any (b.contains ·)

/-! ## Holds between requests of one core -/

/-- Whether a fence's mask covers an access with these tags and window (R143, R152). -/
def covers (mask : BitVec 8) (tags : BitVec 8) (win : Option Nat) : Bool :=
  if mask = 0 then win.isNone else (mask &&& tags) != 0

/-- Whether a fence orders what is issued after it in a window domain (R152): in a window only where a register of its mask matches the
window's addresses. -/
def Req.bearsOn (q : Req) : Option Nat → Bool
  | none => true
  | some w => q.wins.contains w

/-- Whether an access is outstanding still for a release or a fence of scope sc: at .core a store is performed as it issues (R131,
R134). -/
def bears (sc : Scope) (q : Req) : Bool := sc != .core || !q.op.isStore

/-- Whether an earlier request q holds a later request r back. A fence waits for what it covers, a full fence that reaches other dies also
for every store that its core has read (R146); a release waits for every earlier access of its window domain, a barrier arrival for
every earlier access; an acquire holds everything after it in its domain; accesses to one byte are performed in issue order. -/
def holdsReq (q r : Req) : Bool :=
  match r.op with
  | .fence mask kind =>
    match q.op with
    | .fence m k => k != .rel || m == mask
    | _ => (covers mask q.tags q.win && (kind != .acq || q.op.reads) && bears r.scope q)
        || (kind == .full && wideScope r.scope && q.fwd && q.win.isNone)
  | .bararr _ _ => q.op.counts || (match q.op with | .fence _ _ => true | _ => false)
  | _ =>
    match q.op with
    | .fence _ k => q.bearsOn r.win && (k != .rel || !r.op.isLoad)
    | .bararr _ _ => false
    | _ =>
      (q.acq && q.win == r.win) || (r.rel && q.win == r.win && bears r.scope q) || meets q.op.touched r.op.touched

/-- A copy or array command in flight, as fences see it: its issue number, its tags, whether it touches memory outside all windows. -/
structure EngineOp where
  ord   : Nat
  tags  : BitVec 8
  plain : Bool
deriving DecidableEq, Repr

/-- Whether an earlier engine operation holds a fence: release and full fences wait for covered copies and array commands (R143, R144);
mask 00h covers what touches memory outside all windows (R152). -/
def holdsFence (r : Req) (o : EngineOp) : Bool :=
  match r.op with
  | .fence mask kind => decide (o.ord < r.ord) && kind != .acq && (if mask = 0 then o.plain else (mask &&& o.tags) != 0)
  | _ => false

/-- The copies and array commands of a core in flight. -/
def State.engineOps (s : State) (k : Nat) : List EngineOp :=
  ((s.coreAt k).chans.map fun h => ⟨h.ord, h.tags, h.plain⟩)
    ++ (((s.clusterAt (clusterOf k)).cmds.filter fun m => m.core == k).map fun m => ⟨m.ord, m.tags, m.plain⟩)

/-- Whether request r of core k may be performed now. -/
def State.canPerform (s : State) (k : Nat) (r : Req) : Bool :=
  ((s.coreAt k).lsu.all fun q => !(decide (q.ord < r.ord) && holdsReq q r))
    && ((s.engineOps k).all fun o => !holdsFence r o)
    && (match r.op with
        | .redWin _ _ _ _ true => false
        | _ => true)

/-! ## Local reads at issue -/

/-- Whether a request of the acting core holds back a local read of these bytes: an acquire, a fence, or an access of the same bytes that
is no plain store, or poison under a store still outstanding. -/
def holdsLocal (q : Req) (bs : List Nat) (win : Option Nat) (poisoned : Bool) : Bool :=
  match q.op with
  | .fence _ k => q.bearsOn win && k != .rel
  | .bararr _ _ => false
  | .store cells => poisoned && meets (cells.map (·.1)) bs
  | _ => (q.acq && q.win == win) || meets q.op.touched bs

/-- Whether a read of core k at issue must wait: an outstanding request holds it, or a fence of its own bundle, which counts as earlier
(13 R310), unless that fence can be performed at once. -/
def State.localHeldBy (s : State) (k : Nat) (bs : List Nat) (win : Option Nat := none) : Bool :=
  let poisoned := bs.any fun a => s.poisoned a
  ((s.coreAt k).lsu.any fun q => holdsLocal q bs win poisoned)
    || (k == s.cur && s.iss.fences.any fun q => holdsLocal q bs win poisoned && !s.canPerform k q)

/-- The same for the acting core. -/
def State.localHeld (s : State) (bs : List Nat) : Bool := s.localHeldBy s.cur bs

/-- A byte as its own core reads it: the latest of its outstanding stores to it, else memory as its die sees it (R134). -/
def State.byteBy (s : State) (k pa : Nat) : Byte :=
  (s.coreAt k).lsu.foldl (fun b q =>
    match q.op with
    | .store cells => cells.foldl (fun b x => if x.1 = pa then x.2 else b) b
    | _ => b) (s.view (dieOf k) pa)

/-- A byte as the acting core reads it. -/
def State.ownByte (s : State) (pa : Nat) : Byte := s.byteBy s.cur pa

/-- The bytes of a local read at issue. -/
def State.ownBytes (s : State) (bs : List Nat) : List Byte := bs.map s.ownByte

/-- What comes before the later writes of one who has acquired from a write (R137): the write, what precedes it, what it links. -/
def Late.chain (w : Late) (win : Option Nat) : List (Nat × Option Nat) := (w.id :: (w.preds ++ w.link)).map fun i => (i, win)

/-- The writes not applied everywhere that core k reads in some bytes: a read that acquires at package or system scope, reader and writer each
lying in the other's scope, puts the write and what precedes it before the core's later writes (R137, R139); of the others the core
remembers that it has read them (R146). -/
def State.noteRead (s : State) (k : Nat) (bs : List Nat) (tags : BitVec 8) (win : Option Nat) (acq : Option Scope) : State :=
  match s.lateSeen (dieOf k) bs with
  | [] => s
  | ws => s.updCore k fun c =>
    let syncs (w : Late) : Bool := match acq with
      | some sc => wideScope sc && w.win == win && mutualScopes w.scope w.core sc k
      | none => false
    { c with
      seen := c.seen ++ ws.map fun w => (w.id, tags, win)
      past := c.past ++ (ws.filter syncs).flatMap fun w => w.chain win }

/-- The acting core has read bytes at issue: its outstanding stores among them count as read (R146). -/
def State.noteLocal (s : State) (bs : List Nat) (tags : BitVec 8) : State :=
  if s.c.lsu.isEmpty && s.late.isEmpty then s
  else
    let s := s.noteRead s.cur bs tags none none
    { s with c := { s.c with lsu := s.c.lsu.map fun q => if q.op.isStore && meets q.op.touched bs then { q with fwd := true } else q } }

/-! ## The arithmetic of atomics and reductions -/

/-- Op of AMO on n-byte operands (Table 13-4). -/
def amoNew (op : AmoOp) (n old v : Nat) : Nat :=
  let w := 8 * n
  match op with
  | .swap => v % 2 ^ w
  | .add => (old + v) % 2 ^ w
  | .and => old &&& v % 2 ^ w
  | .or => old ||| v % 2 ^ w
  | .xor => old ^^^ v % 2 ^ w
  | .min => if sgn w v < sgn w old then v % 2 ^ w else old
  | .max => if sgn w old < sgn w v then v % 2 ^ w else old
  | .minn => if v % 2 ^ w < old then v % 2 ^ w else old
  | .maxn => if old < v % 2 ^ w then v % 2 ^ w else old

/-- One combination of a reduction's arithmetic (01 R20). -/
def redCombine (op : RedOp) (ty : RedTy) (x y : Nat) : Nat :=
  let flt (f : Fmt) : Nat :=
    match op with
    | .add => fround f ((fdec f x).add (fdec f y))
    | .min => fround f ((fdec f x).min (fdec f y))
    | .max => fround f ((fdec f x).max (fdec f y))
  let int (w : Nat) (sg : Bool) : Nat :=
    let lt (a b : Nat) : Bool := if sg then decide (sgn w a < sgn w b) else decide (a % 2 ^ w < b % 2 ^ w)
    match op with
    | .add => (x + y) % 2 ^ w
    | .min => if lt y x then y % 2 ^ w else x % 2 ^ w
    | .max => if lt x y then y % 2 ^ w else x % 2 ^ w
  match ty with
  | .f32 => flt fmtF32
  | .bf16 => flt fmtBf16
  | .s32 => int 32 true
  | .n32 => int 32 false
  | .s64 => int 64 true
  | .n64 => int 64 false

/-- Combination of two 64-byte lines, element by element. -/
def lineCombine (op : RedOp) (ty : RedTy) (x y : BitVec 512) : BitVec 512 :=
  let w := 8 * (redBytes ty)
  BitVec.ofNat 512 (digits w (fun i =>
    redCombine op ty ((x.extractLsb' (w * i) w).toNat) ((y.extractLsb' (w * i) w).toNat)) (512 / w))

/-- One level of the tree of R20. -/
def treeLevel (op : RedOp) (ty : RedTy) : List (BitVec 512) → List (BitVec 512)
  | x :: y :: r => lineCombine op ty x y :: treeLevel op ty r
  | r => r

/-- The combination of all lines in rank order; the fuel is the number of levels. -/
def treeFold (op : RedOp) (ty : RedTy) : Nat → List (BitVec 512) → BitVec 512
  | 0, l => l.headD 0
  | n + 1, l => treeFold op ty n (treeLevel op ty l)

/-! ## Performing a request -/

/-- The data of a load as it goes to its destination (11 R238: sign- or zero-extended; a vector as its bytes lie). -/
def loadData (bs : List Byte) (sg : Bool) : Vec :=
  if sg then BitVec.ofInt 1024 (wrap 64 (sgn (8 * bs.length) (natOf bs))) else BitVec.ofNat 1024 (natOf bs)

/-- Give a pending result its data or its poison mark, wherever it is held. -/
def giveData (ord : Nat) (v : Vec) (poison : Bool) (l : List Owed) : List Owed :=
  l.map fun e => if e.ord = ord ∧ e.data = none then { e with data := some v, poison := poison } else e

/-- Data arrive for the result of issue number `ord` (06 R110, 09 R189). -/
def Core.arrive (c : Core) (ord : Nat) (v : Vec) (poison : Bool) : Core :=
  { c with owed := giveData ord v poison c.owed, shadow := giveData ord v poison c.shadow }

/-- Take a request out of the LSU. -/
def Core.retire (c : Core) (ord : Nat) : Core := { c with lsu := c.lsu.filter fun q => q.ord != ord }

/-- An arrival that waits its turn at a barrier (13 R306): one at a time, in arrival order. -/
def State.arriveBarrier (s : State) (core : Nat) (n : BarReg) : State := { s with arrivals := s.arrivals ++ [(core, n)] }

/-- Before core k writes towards every die at once, or releases towards other dies, what precedes that write causally is applied
everywhere: what the core has acquired, and for a release all it has written (R137, R139), each in its window domain (R152). -/
def State.orderWrite (s : State) (k : Nat) (rel : Bool) (win : Option Nat) : State :=
  if s.late.isEmpty then s
  else
    let past := ((s.coreAt k).past.filter fun p => p.2 == win).map (·.1)
    s.flush fun w => past.contains w.id || (rel && w.core == k && w.win == win)

/-- Everything that core k has written, read or acquired is applied everywhere, and it remembers nothing of it: a suspension, a dispatch,
a decrement of a counter (R139, R150). -/
def State.settleViews (s : State) (k : Nat) : State :=
  let c := s.coreAt k
  let ids := c.seen.map (·.1) ++ c.past.map (·.1)
  let s := if s.late.isEmpty then s else s.flush fun w => w.core == k || ids.contains w.id
  if c.seen.isEmpty && c.past.isEmpty then s else s.updCore k fun c => { c with seen := [], past := [] }

/-- A fence is performed. One that reaches other dies: a release fence applies the core's covered writes everywhere, a full fence every
write outside windows, or in a window that it orders, that the core has written or read (R143, R146, R152); an acquire or full fence turns
covered reads into acquires (R137). -/
def State.fenceEffect (s : State) (k : Nat) (r : Req) (mask : BitVec 8) (kind : FenceKind) : State :=
  if s.late.isEmpty || !wideScope r.scope then s
  else
    let c := s.coreAt k
    let ids := c.seen.map (·.1) ++ c.past.map (·.1)
    let got := if kind = .rel then [] else
      (s.late.filter fun w => mutualScopes w.scope w.core r.scope k
        && c.seen.any fun x => x.1 == w.id && covers mask x.2.1 x.2.2 && x.2.2 == w.win).flatMap fun w => w.chain w.win
    let s := s.updCore k fun c => { c with past := c.past ++ got }
    match kind with
    | .acq => s
    | .rel => s.flush fun w => w.core == k && covers mask w.tags w.win
    | .full => s.flush fun w => (w.core == k || ids.contains w.id) && r.bearsOn w.win

/-- Everything that core k has written or acquired is applied everywhere: a barrier arrival, a release at .pkg towards every access (13
R308). -/
def State.releaseAll (s : State) (k : Nat) : State :=
  if s.late.isEmpty then s
  else
    let past := (s.coreAt k).past.map (·.1)
    s.flush fun w => w.core == k || past.contains w.id

/-- What a core's release of narrow scope links (R137): the writes of its window domain that the core made before it and that some die has
not applied. -/
def State.linkedBy (s : State) (k : Nat) (r : Req) : List Nat :=
  if r.rel && !wideScope r.scope then (s.late.filter fun w => w.core == k && w.win == r.win && w.live).map (·.id) else []

/-- The home of a contribution (R19, 13 R305), as the core's VD names it: the chip of a kind 2 handle, the handle there, the offset. -/
def State.redHome (s : State) (v : Nat) (a : Word) : Option Nat × Nat × Nat :=
  let h : Option Handle := (s.vd? v).bind fun d => lookup (a.toNat / 2 ^ 32) d.handles
  match h with
  | some h =>
    if h.kind = .peer then (some (bits h.target.toNat 32 16), bits h.target.toNat 0 32, a.toNat % 2 ^ 32)
    else (none, a.toNat / 2 ^ 32, a.toNat % 2 ^ 32)
  | none => (none, 0, a.toNat % 2 ^ 32)

/-- The payload of a contribution (DESIGN CHOICE, log entry 68): the line, the home, the rank, the epoch. -/
def redPayload (home : Option Nat × Nat × Nat) (line : BitVec 512) (rank epoch : Nat) : List Byte :=
  bytesOf 64 line.toNat ++ bytesOf 2 (home.1.getD 0) ++ bytesOf 4 home.2.1 ++ bytesOf 4 home.2.2 ++ bytesOf 2 rank ++ bytesOf 2 epoch

/-- A contribution leaves through a port of its core's die, in the reduction channel (R16, R19). -/
def State.sendRed (s : State) (k v : Nat) (a : Word) (line : BitVec 512) (rank epoch ord : Nat) : State :=
  let home := s.redHome v a
  let port : Fin 24 := Fin.ofNat 24 (6 * dieOf k + (Config.portOf (home.1.getD 0) home.2.1 (home.2.2 / 64)).val)
  s.transmit port ⟨2, redPayload home line rank epoch, .red v home line rank epoch, k, ord⟩

/-- An AMO or CAS of core k on a word whose old value is known completes: the new value is written, the old one returned (R141). -/
def State.atomicStep (s : State) (k : Nat) (r : Req) (pa n old new : Nat) (write : Bool) : State :=
  let s := (s.updCore k fun c => c.retire r.ord).noteRead k (byteRange pa n) r.tags r.win (if r.acq then some r.scope else none)
  let s := if write then s.write pa (bytesOf n new) else s
  s.updCore k fun c => c.arrive r.ord (BitVec.ofNat 1024 old) false

/-- The same from the request, for a given old value; nothing for another request. -/
def State.atomicWith (s : State) (k : Nat) (r : Req) (old : Nat) : State :=
  match r.op with
  | .amo pa n op v => s.atomicStep k r pa n old (amoNew op n old v.toNat) true
  | .cas pa n exp new => s.atomicStep k r pa n old new.toNat (old == exp.toNat % 2 ^ (8 * n))
  | _ => s

/-- The word of an atomic: its address and size. -/
def ReqOp.atomWord : ReqOp → Option (Nat × Nat)
  | .amo pa n _ _ | .cas pa n _ _ => some (pa, n)
  | _ => none

/-- The effect of request r of core k, which leaves the LSU with it. -/
def State.performAt (s : State) (k : Nat) (r : Req) : State :=
  let done (s : State) : State := s.updCore k fun c => c.retire r.ord
  let sc : Option Scope := if r.acq then some r.scope else none
  match r.op with
  | .load bs sg got =>
    let p := bs.any fun a => s.poisoned a
    let v := bs.map fun a => (lookup a got).getD (s.view (dieOf k) a)
    ((done s).noteRead k bs r.tags r.win sc).updCore k fun c => c.arrive r.ord (if p then 0 else loadData v sg) p
  | .store cells => (done s).store cells
  | .amo pa n _ _ | .cas pa n _ _ =>
    if s.poisoned pa then (done s).updCore k fun c => c.arrive r.ord 0 true
    else
      let s := s.catchUp (dieOf k) (byteRange pa n)
      s.atomicWith k r (natOf (s.read pa n))
  | .red pa op ty v =>
    if s.poisoned pa then (done s).report k r.task cUE 1 r.bund 0
    else (done s).write pa (bytesOf (redBytes ty) (redCombine op ty (natOf (s.read pa (redBytes ty))) v.toNat))
  | .redWin a line rank epoch _ =>
    match s.ownerOfCluster (clusterOf k) with
    | none => done s
    | some v =>
      if line.any fun a => s.poisoned a then (done s).report k r.task cUE 1 r.bund 0 else
      let s' := s.updCore k fun c => { c with lsu := c.lsu.map fun q =>
        if q.ord = r.ord then { q with op := .redWin a line rank epoch true } else q }
      s'.sendRed k v a (BitVec.ofNat 512 (natOf (line.map s.mem.get))) rank epoch r.ord
  | .fence mask kind => (done s).fenceEffect k r mask kind
  | .bararr core n => ((done s).releaseAll k).arriveBarrier core n
  | .bindcnt pa _ =>
    if s.poisoned pa then (done s).report k r.task cUE 1 r.bund
    else
      let st := natOf (s.read pa 8)
      if bits st 8 24 = 0 then done s else (done s).write pa (bytesOf 8 (st - 256))

/-- The bytes a request writes. -/
def ReqOp.written : ReqOp → List Nat
  | .store cells => cells.map (·.1)
  | .amo pa n _ _ | .cas pa n _ _ => byteRange pa n
  | .red pa _ ty _ => byteRange pa (redBytes ty)
  | .bindcnt pa _ => byteRange pa 8
  | _ => []

/-- Perform request r of core k towards every die at once, after what must be applied before it. A release of narrow scope stays listed while
what it links has not been applied everywhere. -/
def State.perform (s : State) (k : Nat) (r : Req) : State :=
  if r.op.written.isEmpty then s.performAt k r
  else
    let s := s.orderWrite k (r.rel && wideScope r.scope) r.win
    let link := s.linkedBy k r
    let s := (s.performAt k r).mend k r.ord
    if link.isEmpty then s
    else { s with
      late := s.late ++ [⟨s.writes, k, r.scope, r.win, r.tags, [], link, r.op.written.map fun a => ⟨a, s.mem.get a, 0⟩⟩]
      writes := s.writes + 1 }

/-- Perform request r of core k with dies left that have not applied its write: its own die applies it, and every die that does
has applied what precedes it (R132, R134, R137). -/
def State.performWeak (s : State) (k : Nat) (r : Req) (dies : BitVec 4) : State :=
  let dies := dies &&& ~~~(BitVec.ofNat 4 (2 ^ dieOf k))
  let bs := r.op.written
  if dies = 0 ∨ bs.isEmpty then s.perform k r
  else
    let s := if r.rel && wideScope r.scope then s.orderWrite k true r.win else s
    let past := (((s.coreAt k).past.filter fun p => p.2 == r.win).map (·.1)).filter fun i => s.late.any fun w => w.id == i
    let s := s.applyAt past (~~~dies)
    let s := if r.op.atomWord.isSome then s.catchUp (dieOf k) bs else s
    let keep : List Late := s.late.map fun w =>
      w.rest (w.bytes.map fun b => if bs.contains b.addr then { b with dies := b.dies &&& dies } else b)
    let new : Late := ⟨s.writes, k, r.scope, r.win, r.tags, past, s.linkedBy k r, bs.map fun a => ⟨a, s.mem.get a, dies⟩⟩
    { (s.performAt k r).mend k r.ord with late := tidyLate (keep ++ [new]), writes := s.writes + 1 }

/-- The bytes of some lanes of a vector access: those at the places 4 i to 4 i + 3 of its list. -/
def inLanes {α : Type} (mask : BitVec 32) (sel : Bool) (l : List α) : List α :=
  ((List.range l.length).zip l).filterMap fun p => if mask.getLsbD (p.1 / 4) == sel then some p.2 else none

/-- Perform some lanes of a vector load or store before the others (R133); lanes of a store that write one word keep their order. -/
def State.performLanes (s : State) (k : Nat) (r : Req) (mask : BitVec 32) : State :=
  let upd (s : State) (op : ReqOp) : State := s.updCore k fun c => { c with lsu := c.lsu.map fun q =>
    if q.ord = r.ord then { q with op := op } else q }
  match r.op with
  | .load bs sg got =>
    let now := (inLanes mask true bs).filter fun a => (lookup a got).isNone
    if now.any fun a => s.poisoned a then s
    else
      let s' := s.noteRead k now r.tags r.win (if r.acq then some r.scope else none)
      upd s' (.load bs sg (got ++ now.map fun a => (a, s.view (dieOf k) a)))
  | .store cells =>
    let now := inLanes mask true cells
    let rest := inLanes mask false cells
    if rest.isEmpty || now.any fun c => rest.any fun d => d.1 == c.1 then s
    else upd ((s.orderWrite k (r.rel && wideScope r.scope) r.win).storePart k r.ord now) (.store rest)
  | _ => s

/-- Whether atomics may read one old value (R141): the same word, none held back or poisoned, and no two of them name scopes that contain
each other's issuers. -/
def State.mayRace (s : State) : List (Nat × Req) → Bool
  | [] => true
  | (k, r) :: l =>
    s.canPerform k r && (match r.op.atomWord with | some w => !s.poisoned w.1 | none => false)
      && (l.all fun p => p.2.op.atomWord == r.op.atomWord && !mutualScopes r.scope k p.2.scope p.1) && s.mayRace l

/-- Atomics that race are performed one after another, each with the value the first one read. -/
def State.performRace (s : State) (l : List (Nat × Req)) : State :=
  match l.head?.bind fun p => p.2.op.atomWord with
  | none => s
  | some (pa, n) =>
    let old := natOf (s.read pa n)
    l.foldl (fun s p => ((s.orderWrite p.1 (p.2.rel && wideScope p.2.scope) p.2.win).catchUp (dieOf p.1) (byteRange pa n)).atomicWith p.1 p.2 old) s

/-- A contribution that its switch has turned away (R21), kept in the LSU until the rejection returns. -/
def Req.rejected (r : Req) : Bool :=
  match r.op with
  | .redWin _ [] _ _ true => r.rel
  | _ => false

/-- The request of a core with an issue number. -/
def Core.request (c : Core) (ord : Nat) : Option Req := c.lsu.find? fun r => r.ord == ord

end Sys2Proof.Machine
end

