-- ==== Sys2Proof/Machine/Codebook.lean ====
section
/-! DEFINITION. Codebooks (08_formats_and_codebooks.md R161-R172, R355): shapes, Pedigree entries, the copies a CBS holds, stamp
checks, and the nearest-codeword search. -/

namespace Sys2Proof.Machine

/-! ## Shapes (R161, R163) -/

/-- Index width w in bits of a KC code. -/
def kcWidth (kc : Nat) : Nat := 4 * (kc + 1)
/-- K_cb of a KC code. -/
def kcCount (kc : Nat) : Nat := if kc = 0 then 16 else if kc = 1 then 256 else 4096
/-- v of a VL code. -/
def vlCount (vl : Nat) : Nat := if vl = 0 then 4 else if vl = 1 then 8 else 16

/-- Index width of a binding. -/
def Binding.w (b : Binding) : Nat := kcWidth b.kc.toNat
/-- Codewords of a binding. -/
def Binding.kcb (b : Binding) : Nat := kcCount b.kc.toNat
/-- Group size of a binding. -/
def Binding.v (b : Binding) : Nat := vlCount b.vl.toNat
/-- f of Table 8-5. -/
def Binding.f (b : Binding) : Nat := if b.wide then 14 else 6
/-- Bytes of the codeword array (Table 8-5). -/
def Binding.cwBytes (b : Binding) : Nat := b.kcb * b.v * (if b.wide then 2 else 1)

/-! ## Pedigree entries (R164) -/

/-- A Pedigree entry (Table 8-6). -/
structure PedEntry where
  cbid    : Nat
  ver     : Nat
  prevver : Nat
  shape   : Nat
  scale   : Nat
  state   : Nat
  bindcnt : Nat
  gen     : Nat
  low     : Nat
  cwhdl   : Nat
  cwoff   : Nat
  maphdl  : Nat
  mapoff  : Nat
  rsv     : Nat
deriving DecidableEq, Repr

/-- A Pedigree entry from its 64 bytes. -/
def PedEntry.ofBytes (b : List Byte) : PedEntry where
  cbid := fieldAt b 0 2
  ver := fieldAt b 2 2
  prevver := fieldAt b 4 2
  shape := fieldAt b 6 1
  scale := fieldAt b 7 1
  state := fieldAt b 8 1 % 4
  bindcnt := fieldAt b 9 3
  gen := fieldAt b 12 4
  low := fieldAt b 8 1
  cwhdl := fieldAt b 0x10 4
  cwoff := fieldAt b 0x14 4
  maphdl := fieldAt b 0x18 4
  mapoff := fieldAt b 0x1C 4
  rsv := fieldAt b 0x20 32

/-- KC of an entry. -/
def PedEntry.kc (e : PedEntry) : Nat := bits e.shape 0 2
/-- VL of an entry. -/
def PedEntry.vl (e : PedEntry) : Nat := bits e.shape 2 2
/-- WIDE of an entry. -/
def PedEntry.wide (e : PedEntry) : Bool := bits e.shape 4 1 == 1

/-- Well formed (R164). -/
def PedEntry.ok (e : PedEntry) : Bool :=
  e.kc != 3 && e.vl != 3 && bits e.shape 5 3 == 0 && (!e.wide || (e.kc == 2 && e.vl == 0))
  && decide (1 ≤ e.ver ∧ e.ver ≤ 0xFFFE)
  && (e.prevver == 0 || (decide (e.prevver ≤ 0xFFFE) && e.prevver != e.ver)) && e.rsv == 0

/-- The binding an entry gives (R326 step 3). -/
def PedEntry.binding (e : PedEntry) (entry : Nat) (mode : Bool) : Binding :=
  ⟨BitVec.ofNat 16 entry, BitVec.ofNat 16 e.cbid, BitVec.ofNat 16 e.ver, true, mode, BitVec.ofNat 2 e.kc, BitVec.ofNat 2 e.vl,
   e.wide, BitVec.ofNat 32 e.gen, BitVec.ofNat 8 e.scale, BitVec.ofNat 16 e.prevver⟩

/-! ## Reading through a kind 0 handle -/

/-- Bytes of a kind 0 handle; none where they leave it, or lie in a window the VD no longer holds. -/
def State.handleBytes (s : State) (v : Nat) (h : Handle) (off n : Nat) : Option (List Byte) :=
  if h.kind = .device ∧ off + n ≤ h.size ∧ ((List.range ((off + n + 65535) / 65536 - off / 65536)).all fun i =>
      s.pageHeld v h ((off / 65536 + i) * 65536)) then
    some ((chunks off n).flatMap fun p => match h.phys p.1 with
      | some x => s.read x.1 p.2
      | none => [])
  else none

/-- The first poisoned byte of a range of a kind 0 handle. -/
def State.handlePoison (s : State) (h : Handle) (off n : Nat) : Option Nat :=
  ((chunks off n).find? fun p => match h.phys p.1 with
    | some x => s.poisoned x.1
    | none => false).map (·.1)

/-! ## CBS copies (R167) -/

/-- Why a fill fails: CBDEAD, or poison, with the address of its first byte (R355). -/
inductive FillErr where
  | dead
  | poison (eval : Word)
deriving DecidableEq, Repr

/-- Physical address of entry `i` of a VD's Pedigree, as the device translates it. -/
def State.entryPhys (s : State) (v i : Nat) : Option Nat :=
  match s.vd? v with
  | none => none
  | some d =>
    match s.xlateVd v (d.pedbase.toNat + 64 * i) .rd with
    | .ok x => some x.pa
    | .error _ => none

/-- Whether a range of a handle lies in a window (19 R343). -/
def State.handleIn (s : State) (w : Nat) (h : Handle) (off n : Nat) : Bool :=
  (chunks off n).all fun p => match h.phys p.1 with
    | some x => s.ownerOf x.1 == some (.win w)
    | none => false

/-- One array of a fill: codewords or map. The arrays of an entry in a window frame must lie in that window (19 R343). -/
def State.fillArray (s : State) (v pa hid off n : Nat) : Except FillErr (List Byte) :=
  let inside (h : Handle) : Bool := match s.ownerOf pa with
    | some (.win w) => s.handleIn w h off n
    | _ => true
  match (s.vd? v).bind fun d => lookup hid d.handles with
  | none => .error .dead
  | some h =>
    if !inside h then .error .dead else
    match s.handlePoison h off n with
    | some o => .error (.poison (h.target + BitVec.ofNat 64 o))
    | none =>
      match s.handleBytes v h off n with
      | some bs => .ok bs
      | none => .error .dead

/-- A fill of the copy a binding needs, the entry's physical address known (R167, R355). -/
def State.fillAt (s : State) (v pa : Nat) (b : Binding) (needMap : Bool) : Except FillErr CbsCopy :=
  let e := PedEntry.ofBytes (s.read pa 64)
  if s.poisoned pa then .error .dead
  else if !(e.ok && e.cbid == b.cbid.toNat && e.ver == b.ver.toNat && e.gen == b.gen.toNat && (e.state == 1 || e.state == 2))
  then .error .dead
  else
    match s.fillArray v pa e.cwhdl e.cwoff b.cwBytes with
    | .error r => .error r
    | .ok cw =>
      if needMap then
        match s.fillArray v pa e.maphdl e.mapoff (2 * b.kcb) with
        | .error r => .error r
        | .ok m => .ok ⟨pa, b.gen, cw, some m⟩
      else .ok ⟨pa, b.gen, cw, none⟩

/-- Whether a binding's commands need the revision map. -/
def Binding.needsMap (b : Binding) : Bool := b.mode && b.prevver != 0

/-- The copy a command finds in its cluster's CBS. -/
def State.findCopy (s : State) (cl pa : Nat) (b : Binding) (needMap : Bool) : Option CbsCopy :=
  (s.clusterAt cl).cbs.find? fun c => c.key == pa && c.gen == b.gen && (!needMap || c.map.isSome)

/-- The copy a command works with: found, or refilled; the mark says that it was refilled. -/
def State.getCopy (s : State) (cl v : Nat) (b : Binding) (needMap : Bool) : Except FillErr (CbsCopy × Bool) :=
  match s.entryPhys v b.entry.toNat with
  | none => .error .dead
  | some pa =>
    match s.findCopy cl pa b needMap with
    | some c => .ok (c, false)
    | none =>
      match s.fillAt v pa b needMap with
      | .ok c => .ok (c, true)
      | .error e => .error e

/-- Bytes of a copy in the CBS. -/
def CbsCopy.size (c : CbsCopy) : Nat := c.cw.length + (c.map.map (·.length)).getD 0

/-- Whether a core still computes with a copy of a codebook (08 R167, R169, 12 R283): a result owed, or a copy that has begun to write. -/
def Core.usesCopy (c : Core) (key : Nat) : Bool :=
  (c.owed ++ c.shadow).any (fun e => e.cbs == some key) || c.chans.any fun h => h.plan.any fun p => p.cbs == some key

/-- Whether a core of a cluster uses a copy of its CBS. -/
def State.copyInUse (s : State) (cl key : Nat) : Bool := [0, 1, 2, 3].any fun i => (s.coreAt (4 * cl + i)).usesCopy key

/-- Evict copies that are not in use until the rest leave room; which ones is open. -/
def evictFor (busy : CbsCopy → Bool) (draw need : Nat) : Nat → List CbsCopy → List CbsCopy
  | 0, l => l
  | n + 1, l =>
    let free := (List.range l.length).filter fun i => l[i]?.any fun c => !busy c
    if (l.map CbsCopy.size).foldl (· + ·) 0 + need ≤ 262144 ∨ free = [] then l
    else evictFor busy (draw + 1) need n (l.eraseIdx (free.getD (Config.cbsVictim draw % free.length) 0))

/-- Put a copy in a cluster's CBS (06 R127: 256 KiB). -/
def State.putCopy (s : State) (cl : Nat) (c : CbsCopy) : State :=
  let rest := (s.clusterAt cl).cbs.filter fun x => !(x.key == c.key && x.gen == c.gen)
  let s' : State := { s with fresh := s.fresh + rest.length + 1 }
  s'.updCluster cl fun k => { k with cbs := evictFor (fun x => s.copyInUse cl x.key) s.fresh c.size rest.length rest ++ [c] }

/-- Drop every copy keyed by an entry's physical address, in every CBS (R169). -/
def State.dropCopies (s : State) (pa : Nat) : State :=
  { s with clusters := s.clusters.map fun p => (p.1, { p.2 with cbs := p.2.cbs.filter fun c => c.key != pa }) }

/-! ## Codewords, stamps, indices -/

/-- Element j of codeword k (R163); the elements of a wide codebook lie two bytes apart (DEDUCED from its 32 KiB, log entry 17). -/
def Binding.code (b : Binding) (cw : List Byte) (k j : Nat) : Int :=
  if b.wide then sgn 16 (fieldAt cw (2 * (k * b.v + j)) 2) else sgn 8 (cw.getD (k * b.v + j) 0).toNat

/-- cm: the largest magnitude of the codewords, or 1 (R171). -/
def Binding.cm (b : Binding) (cw : List Byte) : Nat :=
  let m := (List.range b.kcb).foldl (fun m k =>
    (List.range b.v).foldl (fun m j => Max.max m (b.code cw k j).natAbs) m) 0
  if m = 0 then 1 else m

/-- Index g of a packed index field (R161). -/
def indexAt (w field g : Nat) : Nat := bits field (w * g) w

/-- The 32 indices of a field. -/
def indices (w field : Nat) : List Nat := (List.range 32).map fun g => indexAt w field g

/-- Pack indices (R161). -/
def packIndices (w : Nat) (is : List Nat) : Nat := digits w (fun g => is.getD g 0) 32

/-- Entry k of a revision map (R164). -/
def mapAt (m : List Byte) (k : Nat) : Nat := fieldAt m (2 * k) 2

/-- Translate indices through a map; none where one has no successor (R168). -/
def translate (kcb : Nat) (m : List Byte) (is : List Nat) : Option (List Nat) :=
  let r := is.map (mapAt m)
  if r.all fun n => n != 0xFFFF && decide (n < kcb) then some r else none

/-- The stamp check of one block (R168): its indices as the command sees them and whether they were translated; none for
CBSTALE. -/
def Binding.stampCheck (b : Binding) (map : Option (List Byte)) (hdr : Nat) (is : List Nat) : Option (List Nat × Bool) :=
  let st := hdr % 65536
  if st = b.ver.toNat then some (is, false)
  else if b.mode ∧ b.prevver ≠ 0 ∧ st = b.prevver.toNat then
    if hdr / 65536 % 256 = 0xFF then some (is, true)
    else match map with
      | some m => (translate b.kcb m is).map fun r => (r, true)
      | .none => .none
  else .none

/-- The value of element j of codeword k in a block of exponent e (R163). -/
def Binding.value (b : Binding) (cw : List Byte) (e k j : Nat) : FVal :=
  if e = 0xFF then .nan
  else (FVal.ofInt (b.code cw k j)).scale ((b.scale.toNat : Int) - 127 - b.f + ((e : Int) - 127))

/-! ## The search (R171, R172) -/

/-- The smallest exponent that reaches amax, or 254 (R171). -/
def Binding.exponent (b : Binding) (cm : Nat) (amax : FVal) : Nat :=
  if amax.isInf then 254
  else ((List.range 255).find? fun (e : Nat) =>
    !(FVal.num false cm ((b.scale.toNat : Int) - 127 - b.f + ((e : Int) - 127))).lt amax).getD 254

/-- A value quantized at exponent e, and whether a finite value was clamped (R171). -/
def Binding.quantize (b : Binding) (e : Nat) : FVal → Int × Bool
  | .nan => (0, false)
  | .inf n => (if n then -32767 else 32767, false)
  | .num n m x =>
    let r : Int := roundInt m (x + (127 - (e : Int)) + (127 + (b.f : Int) - b.scale.toNat))
    if 32767 < r then (if n then -32767 else 32767, true) else (if n then -r else r, false)

/-- D(k) of a group (R172). -/
def Binding.dist (b : Binding) (cw : List Byte) (q : List Int) (k : Nat) : Nat :=
  (List.range b.v).foldl (fun acc j => acc + ((q.getD j 0 - b.code cw k j) ^ 2).toNat) 0

/-- The nearest codeword, the lowest index among equals (R172). -/
def Binding.nearest (b : Binding) (cw : List Byte) (q : List Int) : Nat :=
  ((List.range b.kcb).foldl (fun (best : Nat × Nat) k =>
    let d := b.dist cw q k
    if d < best.2 then (k, d) else best) (0, b.dist cw q 0)).1

/-- An encoded run of groups: indices, exponent, and the counts of its records of kinds 01h, 02h, 05h. -/
structure Encoded where
  idx  : List Nat
  exp  : Nat
  nans : Nat
  sats : Nat
  infs : Nat
deriving DecidableEq, Repr

/-- Encode values under a binding, given the block's largest magnitude (R171, R172, 12 R280). -/
def Binding.encodeRun (b : Binding) (cw : List Byte) (amax : FVal) (vals : List FVal) : Encoded :=
  let n := (vals.filter FVal.isNan).length
  let g := vals.length / b.v
  if amax.isNan || n != 0 then ⟨List.replicate g 0, 0xFF, Max.max n 1, 0, 0⟩
  else
    let infs := (vals.filter FVal.isInf).length
    let e := b.exponent (b.cm cw) amax
    let q := vals.map (b.quantize e)
    ⟨(List.range g).map fun h => b.nearest cw ((q.drop (h * b.v)).take b.v |>.map (·.1)), e, 0,
     (q.filter (·.2)).length, if infs = 0 ∧ amax.isInf then 1 else infs⟩

/-- The largest magnitude of a block (R171): an infinity where one is present. -/
def amaxOf (vals : List FVal) : FVal := vals.foldl (fun m x => if m.lt x.abs then x.abs else m) FVal.zero

end Sys2Proof.Machine
end

