-- ==== Sys2Proof/Machine/Shepherd.lean ====
section
/-! DEFINITION. The Shepherd (05_shepherd_scheduling.md R82-R102, R354): continuation records, launches and placement, dependence
counters, ready queues with quotas and overflow, slice ends, the next-tile service. -/

namespace Sys2Proof.Machine

/-! ## The continuation record (Table 5-1) -/

/-- A record from its 64 bytes. -/
def Cont.ofBytes (b : List Byte) : Cont where
  code := BitVec.ofNat 32 (fieldAt b 0 4)
  pc := BitVec.ofNat 32 (fieldAt b 4 4)
  wid := BitVec.ofNat 64 (fieldAt b 8 8)
  frame := BitVec.ofNat 64 (fieldAt b 0x10 8)
  dctr := BitVec.ofNat 16 (fieldAt b 0x18 2)
  live := BitVec.ofNat 16 (fieldAt b 0x1A 2)
  prio := BitVec.ofNat 8 (fieldAt b 0x1C 1)
  vd := BitVec.ofNat 8 (fieldAt b 0x1D 1)
  gen := BitVec.ofNat 16 (fieldAt b 0x1E 2)
  flags := BitVec.ofNat 16 (fieldAt b 0x20 2)
  rsv := BitVec.ofNat 48 (fieldAt b 0x22 6)
  arg := BitVec.ofNat 64 (fieldAt b 0x28 8)
  shep := BitVec.ofNat 128 (fieldAt b 0x30 16)

/-- A record's 64 bytes. -/
def Cont.toBytes (c : Cont) : List Byte :=
  bytesOf 4 c.code.toNat ++ bytesOf 4 c.pc.toNat ++ bytesOf 8 c.wid.toNat ++ bytesOf 8 c.frame.toNat ++ bytesOf 2 c.dctr.toNat
    ++ bytesOf 2 c.live.toNat ++ bytesOf 1 c.prio.toNat ++ bytesOf 1 c.vd.toNat ++ bytesOf 2 c.gen.toNat
    ++ bytesOf 2 c.flags.toNat ++ bytesOf 6 c.rsv.toNat ++ bytesOf 8 c.arg.toNat ++ bytesOf 16 c.shep.toNat

/-- FLAGS.LAUNCH. -/
def Cont.launch (c : Cont) : Bool := c.flags.getLsbD 0
/-- FLAGS.SAVED. -/
def Cont.saved (c : Cont) : Bool := c.flags.getLsbD 1
/-- FLAGS.SIG. -/
def Cont.sig (c : Cont) : Bool := c.flags.getLsbD 2
/-- The priority class. -/
def Cont.cls (c : Cont) : Nat := c.prio.toNat % 8

/-- SHEP as the model's Shepherd lays it out (log entry 14): die of the queue, core that last ran it plus 1, cursor plus 1,
TNEXT answers, tiles taken through TNEXT. -/
def shepOf (die last cursor count tiles : Nat) : BitVec 128 :=
  BitVec.ofNat 128 (die % 4 + last % 2 ^ 16 * 2 ^ 16 + cursor % 2 ^ 32 * 2 ^ 32 + count % 2 ^ 32 * 2 ^ 64
    + tiles % 2 ^ 32 * 2 ^ 96)
/-- The die recorded in SHEP. -/
def Cont.shepDie (c : Cont) : Fin 4 := Fin.ofNat 4 (bits c.shep.toNat 0 2)
/-- The core that last ran it. -/
def Cont.shepLast (c : Cont) : Option Nat :=
  let n := bits c.shep.toNat 16 16
  if n = 0 then none else some (n - 1)
/-- The launch cursor. -/
def Cont.shepCursor (c : Cont) : Option Nat :=
  let n := bits c.shep.toNat 32 32
  if n = 0 then none else some (n - 1)
/-- TNEXT answers received (14 R332). -/
def Cont.shepCount (c : Cont) : Nat := bits c.shep.toNat 64 32
/-- Tiles taken through TNEXT (R87). -/
def Cont.shepTiles (c : Cont) : Nat := bits c.shep.toNat 96 32
/-- The same record with a queue die. -/
def Cont.onDie (c : Cont) (die : Fin 4) : Cont :=
  { c with shep := BitVec.ofNat 128 (c.shep.toNat / 4 * 4 + die.val) }

/-- The priority check of reason 03h (03 Table 3-5). -/
def Vd.prioOk (d : Vd) (p : Nat) : Bool := p == 7 || (decide (p ≤ 3) && decide (d.maxprio ≤ p))

/-- A counter is allocated to the VD (R88, R90): the 16-bit form names die and number. -/
def Vd.ctrOk (d : Vd) (ctr : Nat) : Bool := decide (ctr % 16384 < d.ctrsN[Fin.ofNat 4 (ctr / 16384)])

/-- The code object of a handle. -/
def Vd.code? (d : Vd) (h : BitVec 32) : Option CodeObj := d.codes.find? fun o => o.handle == h

/-! ## Launch headers (03 R41, R42) -/

/-- A two's complement 64-bit number. -/
def s64 (x : Nat) : Int := sgn 64 x

/-- A launch cursor from a valid header; none where the header breaks R41, or cannot be read. A reserved bit of LFLAGS that is set breaks it
(DESIGN CHOICE, log entry 84: R41 lists reserved bytes only). -/
def State.parseLaunch (s : State) (v addr id turn : Nat) : Option Cursor :=
  match s.vd? v, s.readVd v addr 128 with
  | some d, some b =>
    let nf := fieldAt b 2 1
    let fw := (List.range 6).map fun i => fieldAt b (0x10 + i) 1
    let ext := (List.range 6).map fun i => fieldAt b (0x18 + 8 * i) 8
    let mapn := fieldAt b 0x16 2
    let map : Option (List Byte) := if mapn ≤ 8 then s.readVd v (addr + 128) (64 * mapn) else none
    let ok : Bool := addr % 64 == 0 && fieldAt b 0 2 == 1 && decide (1 ≤ nf ∧ nf ≤ 6) && decide (fieldAt b 3 1 < 2)
      && fieldAt b 0xD 3 == 0 && fieldAt b 0x56 42 == 0 && decide (mapn ≤ 8) && d.prioOk (fieldAt b 0xC 1)
      && fieldAt b 0x48 8 % 64 == 0 && fieldAt b 0x50 4 % 64 == 0
      && decide ((fw.take nf).foldl (· + ·) 0 ≤ 64) && (fw.drop nf).all (· == 0) && (ext.drop nf).all (· == 0)
      && (List.range nf).all fun i =>
        decide (1 ≤ fw.getD i 0 ∧ fw.getD i 0 ≤ 64 ∧ 1 ≤ ext.getD i 0 ∧ ext.getD i 0 ≤ 2 ^ fw.getD i 0)
    match ok, map with
    | true, some mb =>
      let es := (List.range mapn).map fun j =>
        (BitVec.ofNat 64 (fieldAt mb (64 * j) 8), fieldAt mb (64 * j + 8) 4,
          (List.range 6).map fun i => s64 (fieldAt mb (64 * j + 16 + 8 * i) 8))
      if (List.range mapn).all fun j => fieldAt mb (64 * j + 12) 4 == 0
          && decide (1 ≤ fieldAt mb (64 * j + 8) 4 ∧ fieldAt mb (64 * j + 8) 4 ≤ 2 ^ 31) then
        some ⟨id, BitVec.ofNat 64 addr, BitVec.ofNat 32 (fieldAt b 4 4), BitVec.ofNat 32 (fieldAt b 8 4),
          BitVec.ofNat 8 (fieldAt b 0xC 1), fw.take nf, ext.take nf, es, BitVec.ofNat 64 (fieldAt b 0x48 8),
          fieldAt b 0x50 4, BitVec.ofNat 16 (fieldAt b 0x54 2), fieldAt b 3 1 % 2 == 1, 0,
          (ext.take nf).foldl (· * ·) 1, 0, turn⟩
      else none
    | _, _ => none
  | _, _ => none

/-- The checks 02h-07h of Table 3-5: the first failing reason. `fresh` adds what an injected or spawned record must hold. -/
def State.recordCheck (s : State) (v : Nat) (c : Cont) (fresh : Bool) : Option Nat :=
  match s.vd? v with
  | none => some 2
  | some d =>
    match d.code? c.code with
    | none => some 2
    | some o =>
      if !d.prioOk c.cls then some 3
      else if c.sig && !d.ctrOk c.dctr.toNat then some 4
      else if !c.launch && decide (o.nbund ≤ c.pc.toNat) then some 5
      else if c.launch && (s.parseLaunch v c.frame.toNat 0 0).isNone then some 6
      else if decide (8 ≤ c.prio.toNat) || decide (64 ≤ c.vd.toNat) || decide (8 ≤ c.flags.toNat) || c.rsv != 0 then some 7
      else if fresh && (c.live != 0xFFFF || c.saved || c.shep != 0) then some 7
      else none

/-! ## Slots (R95, R96, R354) -/

/-- Whether a VD has a free slot under its quota (R95). -/
def Vd.slotFree (d : Vd) : Bool := decide (d.ready.length < d.quota)

/-- The overflow list of a class. -/
def Vd.overOf (d : Vd) (cls : Nat) : List Ready := d.ovf.filter fun r => r.cont.cls == cls

/-- The dies in the order of R93: own, horizontal, vertical, diagonal neighbour (01 Table 1-1). -/
def dieOrder (d : Nat) : List Nat := [d, d ^^^ 1, d ^^^ 2, d ^^^ 3]

/-- The cores of a VD on a die. -/
def Vd.coresOn (d : Vd) (die : Nat) : List Nat := d.cores.filter fun k => dieOf k == die

/-- The class of the task a core runs. -/
def Core.cls (c : Core) : Option Nat := c.task.map fun t => t.cont.cls

/-- Set a pending slice end. -/
def Core.sliceEnd (c : Core) : Core := { c with csr := { c.csr with slend := true } }

/-- The idle cores of a VD on a die that may take work. -/
def State.idleCores (s : State) (d : Vd) (die : Nat) : List Nat :=
  (d.coresOn die).filter fun k => let c := s.coreAt k; c.task.isNone && !c.debug

/-- Whether a die's clocks are stopped (02 R27). -/
def State.stopped (s : State) (die : Nat) : Bool := s.pkg.heat[Fin.ofNat 4 die].level == 3

/-- Whether ballast is admitted (02 R31). -/
def State.ballast (s : State) : Bool := !s.pkg.en || s.pkg.balrun

/-- The core that a pre-emption marks (R98): highest class number above c, most recently dispatched among equals, not marked
yet. -/
def State.preemptChoice (s : State) (ks : List Nat) (cls : Nat) : Option Nat :=
  ks.foldl (fun best k =>
    let c := s.coreAt k
    match c.task with
    | none => best
    | some t =>
      if t.cont.cls ≤ cls || c.csr.slend then best
      else match best with
        | none => some k
        | some j =>
          match (s.coreAt j).task with
          | none => some k
          | some u => if u.cont.cls < t.cont.cls || (u.cont.cls == t.cont.cls && decide (u.disp < t.disp)) then some k else best)
    none

/-- Slice ends that follow from a task of class `cls` having become ready on a die, in its queue or spilled (R94, R98). -/
def State.markEnds (s : State) (v die cls : Nat) : State :=
  match s.vd? v with
  | none => s
  | some d =>
    let ks := d.coresOn die
    let s := if cls ≤ 3 then
        ks.foldl (fun s k => if (s.coreAt k).cls == some 7 then s.updCore k Core.sliceEnd else s) s
      else s
    if !(s.idleCores d die).isEmpty then s
    else
      let above := ks.filter fun k => match (s.coreAt k).cls with
        | some c => decide (cls < c)
        | none => false
      let top := above.foldl (fun m k => Max.max m (((s.coreAt k).cls).getD 0)) 0
      let waiting := ((d.ready ++ d.ovf).filter fun r => r.die.val == die && !r.cont.launch && decide (r.cont.cls < top)).length
      let pending := (above.filter fun k => (s.coreAt k).csr.slend).length
      if pending < waiting then
        match s.preemptChoice ks cls with
        | some k => s.updCore k Core.sliceEnd
        | none => s
      else s

/-- Put a continuation in its class queue on a die; it holds a slot. `since` is when a spilled one became ready (R102). A launch is no task,
and marks no core. -/
def State.enqueue (s : State) (v : Nat) (die : Fin 4) (c : Cont) (tile : Option (Nat × Nat)) (front : Bool)
    (since : Option Nat := none) : State :=
  let s := s.tick
  let r : Ready := ⟨c.onDie die, die, since.getD s.pkg.timeNs, tile⟩
  let s := s.updVd v fun d => { d with ready := if front then r :: d.ready else d.ready ++ [r] }
  if c.launch then s else s.markEnds v die.val c.cls

/-- A continuation is lost (R84): class 3, code 08h, the frame address; nothing is decremented. -/
def State.loseCont (s : State) (v : Nat) (frame : Word) : State := s.raiseEvent v 3 0x08 (bytesOf 8 frame.toNat)

/-- The launch cursors of the VDs whose home is a die. -/
def State.cursorsOn (s : State) (die : Nat) : Nat :=
  (s.vds.filter fun p => p.2.homeDie == die).foldl (fun n p => n + p.2.cursors.length) 0

/-- Whether a die's Shepherd can give a launch a cursor: it has one free, and its clocks run (R85, 02 R27). -/
def State.cursorFree (s : State) (die : Nat) : Bool := decide (s.cursorsOn die < 64) && !s.stopped die

/-- A launch gets a cursor (R85); a header that no longer satisfies R41 loses it as R84 states. -/
def State.startLaunch (s : State) (v : Nat) (c : Cont) : State :=
  match s.vd? v with
  | none => s
  | some d =>
    match s.parseLaunch v c.frame.toNat d.nextCur 0 with
    | some cur => s.updVd v fun d => { d with cursors := d.cursors ++ [cur], nextCur := d.nextCur + 1 }
    | none => s.loseCont v c.frame

/-- The best waiting party of a VD (R354): an overflow class, or a cursor. -/
inductive Waiting where
  | ovf (cls : Nat)
  | cursor (id : Nat)
deriving DecidableEq, Repr

/-- The first non-empty overflow class. -/
def Vd.overClass (d : Vd) : Option Nat := [0, 1, 2, 3, 7].find? fun k => !(d.overOf k).isEmpty

/-- The cursor of the highest class with tiles left, the one that started first among equals. -/
def Vd.bestCursor (d : Vd) : Option Cursor :=
  (d.cursors.filter fun c => decide (c.next < c.total)).foldl (fun best c =>
    match best with
    | none => some c
    | some b => if c.prio.toNat < b.prio.toNat then some c else best) none

/-- Who takes a slot that is free. -/
def Vd.slotWinner (d : Vd) : Option Waiting :=
  match d.overClass, d.bestCursor with
  | some k, some c => if c.prio.toNat < k then some (.cursor c.id) else some (.ovf k)
  | some k, none => some (.ovf k)
  | none, some c => some (.cursor c.id)
  | none, none => none

/-- Take the first overflow entry of a class. -/
def takeOver (cls : Nat) : List Ready → Option (Ready × List Ready)
  | [] => none
  | r :: t => if r.cont.cls = cls then some (r, t) else (takeOver cls t).map fun p => (p.1, r :: p.2)

/-- A continuation whose record has been read again and has passed its checks (R84); VD, GEN and SHEP are the Shepherd's own. -/
def Cont.reread (c : Cont) (b : List Byte) : Cont := { Cont.ofBytes b with vd := c.vd, gen := c.gen, shep := c.shep }

/-- An overflow head moves into its queue (R354): its record is read again, and checked (R84). -/
def State.refill (s : State) (v cls : Nat) : State :=
  match s.vd? v with
  | none => s
  | some d =>
    match takeOver cls d.ovf with
    | none => s
    | some (r, rest) =>
      let s := s.updVd v fun d => { d with ovf := rest }
      if r.cont.launch then
        if s.cursorFree d.homeDie then s.startLaunch v r.cont else s.enqueue v r.die r.cont none false (some r.since)
      else
        match s.readVd v r.cont.frame.toNat 64 with
        | none => s.loseCont v r.cont.frame
        | some b =>
          match s.recordCheck v (Cont.ofBytes b) false with
          | some _ => s.loseCont v r.cont.frame
          | none => s.enqueue v r.die (r.cont.reread b) r.tile false (some r.since)

/-! ## Tiles (R85, R86) -/

/-- The field values of tile t, outermost first. -/
def tileFields : List Nat → Nat → List Nat
  | [], _ => []
  | e :: r, t =>
    let inner := r.foldl (· * ·) 1
    (t / inner % e) :: tileFields r t

/-- WID of the field values (R85). -/
def widOf (fw w : List Nat) : Nat :=
  (List.range fw.length).foldl (fun acc i =>
    acc + w.getD i 0 * 2 ^ (64 - ((fw.take (i + 1)).foldl (· + ·) 0))) 0

/-- The bytes a placement entry credits to each die (R86 steps 1, 2). -/
def State.credit (s : State) (v : Nat) (m : Word × Nat × List Int) (w : List Nat) : List (Nat × Nat) :=
  match s.vd? v with
  | none => []
  | some d =>
    let off : Int := (List.range w.length).foldl (fun acc i => acc + m.2.2.getD i 0 * (w.getD i 0 : Nat)) 0
    let a := wrap 64 ((m.1.toNat : Int) + off)
    (List.range 64).filterMap fun i =>
      let g := a / 65536 * 65536 + i * 65536
      let lo := Max.max g a
      let hi := Min.min (g + 65536) (a + m.2.1)
      if lo < hi then
        match ({ s with winOp := none } : State).xlate v d false [] lo .rd with
        | .ok x => match physArea x.pa with
          | .hbmData die _ _ => some (die, hi - lo)
          | _ => none
        | .error _ => none
      else none

/-- The die of a tile (R86 steps 3-5), and whether the turn advances. -/
def State.placeTile (s : State) (v : Nat) (c : Cursor) (w : List Nat) : Fin 4 × Bool :=
  match s.vd? v with
  | none => (0, false)
  | some d =>
    let cr := c.map.flatMap fun m => s.credit v m w
    let sum (die : Nat) : Nat := (cr.filter fun p => p.1 == die).foldl (fun n p => n + p.2) 0
    let dies := (List.range 4).filter fun k => d.onDie k
    let best := dies.foldl (fun m k => Max.max m (sum k)) 0
    if best = 0 then
      let order := dies.filter (fun k => decide (d.homeDie ≤ k)) ++ dies.filter (fun k => decide (k < d.homeDie))
      (Fin.ofNat 4 (order.getD (c.turn % Max.max 1 order.length) d.homeDie), true)
    else
      let tied := dies.filter fun k => sum k == best
      (Fin.ofNat 4 (if tied.contains d.homeDie then d.homeDie else tied.headD d.homeDie), false)

/-- Generate the next tile of a cursor (R85). -/
def State.generateTile (s : State) (v : Nat) (c : Cursor) : State :=
  match s.vd? v with
  | none => s
  | some d =>
    let w := tileFields c.ext c.next
    let k : Cont :=
      ⟨c.code, c.entry, BitVec.ofNat 64 (widOf c.fw w), c.frame + BitVec.ofNat 64 (c.next * c.stride), c.donectr, 0xFFFF, c.prio,
       BitVec.ofNat 8 v, d.gen, 4, 0, c.hdr, shepOf 0 0 (c.id + 1) 0 0⟩
    let (die, adv) := s.placeTile v c w
    let c' := { c with next := c.next + 1, turn := if adv then c.turn + 1 else c.turn }
    (s.updVd v fun d => { d with cursors := d.cursors.map fun x => if x.id = c.id then c' else x }).enqueue v die k
      (some (c.id, c.next)) false

/-! ## Free slots (R354) -/

/-- Free slots go to the parties that R354 names: overflow heads, or the cursor that was paused for want of the one slot that is free,
where its Shepherd's clocks run. The fuel is the number of overflow entries and one tile. -/
def State.settleFuel (v : Nat) : Nat → State → State
  | 0, s => s
  | n + 1, s =>
    match s.vd? v with
    | none => s
    | some d =>
      if d.slotFree && d.state == .running then
        match d.slotWinner with
        | some (.ovf k) => State.settleFuel v n (s.refill v k)
        | some (.cursor id) =>
          if d.ready.length + 1 = d.quota ∧ s.stopped d.homeDie = false then
            match d.cursors.find? fun c => c.id == id with
            | some c => s.generateTile v c
            | none => s
          else s
        | none => s
      else s

/-- After a slot of a VD has freed. -/
def State.settle (s : State) (v : Nat) : State :=
  State.settleFuel v (((s.vd? v).map fun d => d.ovf.length).getD 0 + 1) s

/-- A continuation becomes ready on a die (R92): a launch takes a cursor when one is free, a slot is taken, or it spills (R96). -/
def State.makeReady (s : State) (v : Nat) (die : Fin 4) (c : Cont) (tile : Option (Nat × Nat)) (front : Bool := false) :
    State :=
  match s.vd? v with
  | none => s
  | some d =>
    let die : Fin 4 := if c.launch then Fin.ofNat 4 d.homeDie else die
    if c.launch && s.cursorFree d.homeDie then s.startLaunch v c
    else if d.slotFree && (front || (d.overOf c.cls).isEmpty) then s.enqueue v die c tile front
    else
      let c := c.onDie die
      let r : Ready := ⟨c, die, s.pkg.timeNs, tile⟩
      let add (s : State) : State := s.updVd v fun d => { d with ovf := if front then r :: d.ovf else d.ovf ++ [r] }
      if c.launch then add s
      else if s.mappedVd v c.frame.toNat 64 then (add (s.writeVd v c.frame.toNat c.toBytes)).markEnds v die.val c.cls
      else s.loseCont v c.frame

/-- The first launch that waits for a cursor of a die's Shepherd: the one ready longest. -/
def State.waitingLaunch (s : State) (die : Nat) : Option (Nat × Ready) :=
  (s.vds.filter fun p => p.2.homeDie == die).foldl (fun best p =>
    match p.2.ready.find? fun r => r.cont.launch with
    | none => best
    | some r =>
      match best with
      | none => some (p.1, r)
      | some b => if r.since < b.2.since then some (p.1, r) else best) none

/-- A cursor is free: the next launch waiting on the die gets it (R95: its slot frees as the cursor starts). -/
def State.nextLaunch (s : State) (die : Nat) : State :=
  match if s.cursorFree die then s.waitingLaunch die else none with
  | none => s
  | some (v, r) =>
    ((s.updVd v fun d => { d with ready := d.ready.erase r }).startLaunch v r.cont).settle v

/-! ## Dependence counters (R88-R91) -/

/-- A counter of a VD. -/
def Vd.ctr (d : Vd) (ctr : Nat) : Ctr := (lookup ctr d.ctrs).getD ⟨0, none⟩

/-- COUNT stays in the signed 32-bit range. -/
def ctrFits (n : Int) : Bool := decide (-(2 ^ 31 : Int) ≤ n ∧ n < 2 ^ 31)

/-- The rule after every operation (R88): COUNT 0 readies the named continuation. -/
def State.ctrRule (s : State) (v ctr : Nat) : State :=
  match s.vd? v with
  | none => s
  | some d =>
    let c := d.ctr ctr
    match c.named with
    | some k =>
      if c.count = 0 then
        (s.updVd v fun d => { d with ctrs := put ctr ⟨0, none⟩ d.ctrs }).makeReady v k.shepDie k none
      else s
    | none => s

/-- Set COUNT, and apply the rule. -/
def State.ctrSet (s : State) (v ctr : Nat) (n : Int) : State :=
  (s.updVd v fun d => { d with ctrs := put ctr { d.ctr ctr with count := n } d.ctrs }).ctrRule v ctr

/-- Whether an operation on a counter must wait: the clocks of its Shepherd's die are stopped (R88, 02 R27). -/
def State.parks (s : State) (ctr : Nat) : Bool := s.stopped (ctr / 16384)

/-- An operation waits at its counter's Shepherd. -/
def State.park (s : State) (v : Nat) (gen : BitVec 16) (ctr : Nat) (op : CtrOp) (bund : Word) : State :=
  { s with parked := s.parked ++ [.counterOperation v gen (BitVec.ofNat 16 ctr) op bund] }

/-- An ADD or DEC that arrives (R88, R90, R91): stale ones are discarded, one beyond the allocation changes nothing, an overflow
posts class 3, code 14h. -/
def State.ctrAdd (s : State) (v : Nat) (gen : BitVec 16) (ctr : Nat) (n : Int) (bund : Word) : State :=
  match s.vd? v with
  | none => s
  | some d =>
    if s.parks ctr then s.park v gen ctr (.add n) bund
    else if gen != d.gen || !d.ctrOk ctr then s
    else
      let m := (d.ctr ctr).count + n
      if ctrFits m then s.ctrSet v ctr m
      else s.raiseEvent v 3 0x14 (bytesOf 8 ctr ++ bytesOf 8 bund.toNat)

/-- A decrement by an engine, or none where the field is 0 (10 R209: CTR 0 names no counter). -/
def State.ctrDec (s : State) (v : Nat) (gen : BitVec 16) (ctr : BitVec 16) (bund : Word) : State :=
  s.ctrAdd v gen ctr.toNat (-1) bund

/-- NAME (R88): the continuation waits on the counter, or is ready at once. -/
def State.ctrName (s : State) (v ctr : Nat) (k : Cont) : State :=
  if s.parks ctr then s.park v (((s.vd? v).map (·.gen)).getD 0) ctr (.name k.toBytes) 0
  else (s.updVd v fun d => { d with ctrs := put ctr { d.ctr ctr with named := some k } d.ctrs }).ctrRule v ctr

/-! ## The end of a launch, the next-tile service (R87, R101) -/

/-- The next tile of a VD, where a slot is free and a cursor takes it (R85, R95, R354); slots still free then go to whom R354 names. A VD
that is being reset or moved generates none, nor does a Shepherd whose die's clocks are stopped (02 R27, R28). -/
def State.nextTile (s : State) (v : Nat) : Option (Nat × State) :=
  match s.vd? v with
  | none => none
  | some d =>
    if d.slotFree && (d.state == .running || d.state == .paused) && !s.stopped d.homeDie then
      match d.slotWinner with
      | some (.cursor id) => (d.cursors.find? fun c => c.id == id).map fun c =>
        let s' := s.generateTile v c
        (id, match (s'.vd? v).bind Vd.slotWinner with
          | some (.ovf _) => s'.settle v
          | _ => s')
      | _ => none
    else none

/-- Count tiles of a launch as exited (R87); when every tile is generated and counted the launch is done and its cursor frees. -/
def State.countTiles (s : State) (v id n : Nat) : State :=
  match s.vd? v with
  | none => s
  | some d =>
    match d.cursors.find? fun c => c.id == id with
    | none => s
    | some c =>
      let c' := { c with done := c.done + n }
      if c'.next = c'.total ∧ c'.total ≤ c'.done then
        let s := s.updVd v fun d => { d with cursors := d.cursors.filter fun x => x.id != id }
        let s := if c.evdone then s.raiseEvent v 0 (Config.eventCode s.fresh) (bytesOf 8 c.hdr.toNat) else s
        s.nextLaunch d.homeDie
      else s.updVd v fun d => { d with cursors := d.cursors.map fun x => if x.id = id then c' else x }

/-! ## The choice of a dispatch (R93, R198) -/

/-- Whether a core's ACCOWN names a context. -/
def Core.ownsCtx (c : Core) (ctx : Nat) : Bool := c.csr.accown.getLsbD 58 && c.csr.accown.toNat % 2 ^ 58 == ctx

/-- The core for which an entry is reserved (R198). -/
def State.reservedFor (s : State) (d : Vd) (c : Cont) : Option Nat :=
  d.cores.find? fun k => let x := s.coreAt k; x.ownsCtx (c.frame.toNat / 64) && x.csr.accdirty != 0

/-- Whether an entry is a tile of a launch that TNEXT may hand to core k: not yet run, its WID not all ones, and not reserved for another
core (09 R198). -/
def State.handsOut (s : State) (d : Vd) (id k : Nat) (r : Ready) : Bool :=
  r.cont.live == 0xFFFF && r.cont.wid != 0xFFFFFFFFFFFFFFFF && (r.tile.map (·.1)) == some id
    && ((s.reservedFor d r.cont).getD k) == k

/-- The ready tile that TNEXT hands out to core k (R101 steps 1, 2): lowest index, own die first. -/
def State.tileFor (s : State) (d : Vd) (id k : Nat) : Option Ready :=
  (dieOrder (dieOf k)).findSome? fun j =>
    (d.ready.filter fun r => r.die.val == j && s.handsOut d id k r).foldl (fun best r =>
        match best with
        | none => some r
        | some b => if (r.tile.map (·.2)).getD 0 < (b.tile.map (·.2)).getD 0 then some r else best) none

/-- The answer to a TNEXT (R101), if the Shepherd has one: the WID, and the tile taken. -/
def State.tnextFor (s : State) (d : Vd) (cursor : Option Nat) (k : Nat) : Option (Word × Option Ready) :=
  match cursor with
  | none => some (0xFFFFFFFFFFFFFFFF, none)
  | some id =>
    match s.tileFor d id k with
    | some r => some (r.cont.wid, some r)
    | none =>
      match d.cursors.find? fun c => c.id == id with
      | some c => if c.next = c.total then some (0xFFFFFFFFFFFFFFFF, none) else none
      | none => some (0xFFFFFFFFFFFFFFFF, none)

/-- The core for an entry that is not reserved (R93). -/
def State.coreFor (s : State) (c : Cont) (ks : List Nat) : Option Nat :=
  match ks.find? fun k => (s.coreAt k).ownsCtx (c.frame.toNat / 64) with
  | some k => some k
  | none =>
    match c.shepLast with
    | some k => if ks.contains k then some k else ks.head?
    | none => ks.head?

/-- The entry of one class queue that a set of idle cores takes: one reserved for one of them first, else, where `free` says so, the first
that is reserved for no core. Launches waiting for a cursor are not dispatched. -/
def State.classPick (s : State) (d : Vd) (die cls : Nat) (ks : List Nat) (free : Bool) : Option (Ready × Nat) :=
  let q := d.ready.filter fun r => r.die.val == die && r.cont.cls == cls && !r.cont.launch
  let mine := q.findSome? fun r => match s.reservedFor d r.cont with
    | some k => if ks.contains k then some (r, k) else none
    | none => none
  match mine with
  | some x => some x
  | none => if free then q.findSome? fun r => match s.reservedFor d r.cont with
    | some _ => none
    | none => (s.coreFor r.cont ks).map fun k => (r, k)
    else none

/-- The candidate of a VD on a die (R93 steps 1-3): of another die's entries, where an idle core there can take them, only those reserved for a
core of this die (R198); the queues of a die whose clocks are stopped lie open to the others (DESIGN CHOICE, log entry 76). A VD whose window
a request past its re-key point holds gets no dispatch until the request ends (log entry 44). -/
def State.vdPick (s : State) (d : Vd) (die : Nat) : Option (Ready × Nat) :=
  let ks := s.idleCores d die
  if ks.isEmpty || d.state != .running || d.life.isSome || d.winmap.any fun w => s.frozenWin w.win then none
  else
    match (dieOrder die).findSome? fun k =>
        [0, 1, 2, 3].findSome? fun c => s.classPick d k c ks (k == die || s.stopped k || (s.idleCores d k).isEmpty) with
    | some x => some x
    | none => if s.ballast then s.classPick d die 7 ks true else none

/-- The VDs with a candidate on a die: number, entry, core. -/
def State.candidates (s : State) (die : Nat) : List (Nat × Ready × Nat) :=
  s.vds.filterMap fun p => (s.vdPick p.2 die).map fun x => (p.1, x.1, x.2)

/-- The round robin of R93 among the VDs of the highest class: the VD served, and the Shepherd's memory afterwards. -/
def roundRobin (sh : DieShep) (weight : Nat → Nat) (vs : List Nat) : Option (Nat × DieShep) :=
  let left (used : List (Nat × Nat)) (v : Nat) : Nat := Max.max 1 (weight v) - countAt v used
  let used := if vs.all fun v => left sh.used v == 0 then [] else sh.used
  let order := vs.filter (fun v => decide (sh.last < v)) ++ vs.filter (fun v => decide (v ≤ sh.last))
  (order.find? fun v => left used v != 0).map fun v => (v, ⟨v, put v (countAt v used + 1) used⟩)

/-- The dispatch decision of a die (R93): VD, entry, core. A die whose clocks are stopped makes none (02 R27). -/
def State.dispatchChoice (s : State) (die : Fin 4) : Option (Nat × Ready × Nat × DieShep) :=
  let cs := if s.stopped die.val then [] else s.candidates die.val
  let top := cs.foldl (fun m x => Min.min m x.2.1.cont.cls) 7
  let tied := cs.filter fun x => x.2.1.cont.cls == top
  match roundRobin s.pkg.shep[die] (fun v => ((s.vd? v).map (·.weight)).getD 1) (tied.map (·.1)) with
  | none => none
  | some (v, sh) => (tied.find? fun x => x.1 == v).map fun x => (v, x.2.1, x.2.2, sh)

/-! ## The queue-latency monitor (R102) -/

/-- The bin of a latency: the first whose upper edge 64 × 2^(k/4) reaches it, compared in fourth powers. -/
def qosBin (ns : Nat) : Nat :=
  ((List.range 63).find? fun k => decide (ns ^ 4 ≤ 64 ^ 4 * 2 ^ k)).getD 63

/-- Record a latency. -/
def Vd.sample (d : Vd) (ns : Nat) : Vd :=
  if d.qosns = 0 then d else { d with hist := put (qosBin ns) (countAt (qosBin ns) d.hist + 1) d.hist }

end Sys2Proof.Machine
end

