-- ==== Sys2Proof/Machine/Engine.lean ====
section
/-! DEFINITION. The engines: copy channels (06 R117, R124; 07 R147-R149, R154; 08 R170; 13 R311-R315) and the cluster's matrix
array (06 R125, R126; 08 R173-R178; 14 R316-R325, R356). An engine operation is performed in one step of the device, at any time after
its fork that its holds allow; a copy may write some of its words before (07 R133, R148, log entry 4). -/

namespace Sys2Proof.Machine

/-! ## Where the bytes of a side lie -/

/-- A place: a physical byte, a byte of host memory, a byte of a peer, a byte of a peer whose request is lost. -/
inductive Place where
  | dev (pa : Nat)
  | host (key : Nat)
  | peer (chip handle off : Nat)
  | lost (key : Nat)
deriving DecidableEq, Repr

/-- A side of a copy: the slice of a core, a handle, or a peer's handle of which requests are lost, as offset and length (01 R18). -/
inductive SideAt where
  | slice (core : Nat)
  | handle (h : Handle)
  | broken (h : Handle) (lost : List (Nat × Nat))
deriving DecidableEq, Repr

/-- Where offset (or slice address) `o` of a side lies. -/
def SideAt.locate (x : SideAt) (o : Nat) : Place :=
  match x with
  | .slice core => .dev (ownPhys core o)
  | .handle h =>
    match h.kind with
    | .device => .dev ((h.phys o).map (·.1) |>.getD 0)
    | .host => .host (hostKey h.link.val (h.target.toNat + o))
    | .peer => .peer (bits h.target.toNat 32 16) (bits h.target.toNat 0 32) o
  | .broken h lost =>
    let chip := bits h.target.toNat 32 16
    let hid := bits h.target.toNat 0 32
    if lost.any fun r => r.1 / 64 == o / 64 then .lost (peerKey chip hid o) else .peer chip hid o

/-- Bytes of a side, each with its poison mark. -/
def State.sideRead (s : State) (x : SideAt) (o n : Nat) : List (Byte × Bool) :=
  (chunks o n).flatMap fun c =>
    match x.locate c.1 with
    | .dev pa => let p := s.poisoned pa; (s.read pa c.2).map fun b => (b, p)
    | .host k => (s.ext.bytes k c.2).map fun b => (b, false)
    | .peer chip hid off => (List.range c.2).map fun i => (Config.peerByte chip hid (off + i) s.fresh, false)
    | .lost _ => List.replicate c.2 (0, true)

/-- Write bytes to a side; a block with a poisoned byte becomes poisoned (R315, 09 R187). -/
def State.sideWrite (s : State) (x : SideAt) (o : Nat) (bs : List (Byte × Bool)) : State :=
  (chunks o bs.length).foldl (fun s c =>
    let part := (bs.drop (c.1 - o)).take c.2
    match x.locate c.1 with
    | .dev pa =>
      if part.any (·.2) then (s.write pa (part.map (·.1))).markPoison (pa / 64) else s.write pa (part.map (·.1))
    | .host k =>
      if part.any (·.2) then s else { s with ext := s.ext.setBytes k (part.map (·.1)) }
    | .peer chip hid off =>
      if part.any (·.2) then s else s.send (.peerWrite chip hid off (part.map (·.1)))
    | .lost _ => s) s

/-! ## The shape of a copy (Table 13-5) -/

def shpLen (shp : Word) : Nat := bits shp.toNat 0 16 + 1
def shpRows (shp : Word) : Nat := bits shp.toNat 16 12 + 1
def shpSkind (shp : Word) : Nat := bits shp.toNat 28 2
def shpDkind (shp : Word) : Nat := bits shp.toNat 30 2
def shpSstr (shp : Word) : Nat := bits shp.toNat 32 16 * 4
def shpDstr (shp : Word) : Nat := bits shp.toNat 48 16 * 4

/-- Whether a copy is a codebook copy. -/
def CopyOp.coded : CopyOp → Bool
  | .cpy | .cpyf => false
  | .cpyq | .cpyd | .cpym => true

/-- The element type of a codebook copy's element side. -/
def ctrTy (ctr : Word) : VTy := VTy.ofCode (bits ctr.toNat 20 4)
/-- HOFF of a codebook copy, signed as the HOFF of R323 is (DEDUCED, log entry 17). -/
def ctrHoff (ctr : Word) : Int := sgn 32 (bits ctr.toNat 32 32)
/-- The binding number of a codebook copy. -/
def ctrBind (ctr : Word) : Nat := bits ctr.toNat 16 3

/-- Bytes of a row of elements. -/
def elemRow (b : Binding) (ty : VTy) (nb : Nat) : Nat := nb * 32 * b.v * (ty.width / 8)

/-- The byte runs of one row of a side, as (offset from the row's start, length): plain, elements, or index and header. -/
def rowRuns (op : CopyOp) (b : Binding) (ctr shp : Word) (source : Bool) : List (Int × Nat) :=
  let nb := shpLen shp
  let index : List (Int × Nat) := [(0, nb * 4 * b.w), (ctrHoff ctr, nb * 3)]
  let plain : List (Int × Nat) := [(0, 4 * nb)]
  let element : List (Int × Nat) := [(0, elemRow b (ctrTy ctr) nb)]
  match op, source with
  | .cpy, _ => plain
  | .cpyf, true => []
  | .cpyf, false => plain
  | .cpyq, true => element
  | .cpyq, false => index
  | .cpyd, true => index
  | .cpyd, false => element
  | .cpym, _ => index

/-- Every byte run of a side, as (signed address or offset, length): the rows' runs at the rows' starts. -/
def sideSpans (op : CopyOp) (b : Binding) (ctr shp : Word) (source : Bool) (base : Nat) : List (Int × Nat) :=
  let st := if source then shpSstr shp else shpDstr shp
  (List.range (shpRows shp)).flatMap fun r =>
    (rowRuns op b ctr shp source).map fun p => (((base + r * st : Nat) : Int) + p.1, p.2)

/-- The same for a copy that has passed its checks. -/
def sideRuns (op : CopyOp) (b : Binding) (ctr shp : Word) (source : Bool) (base : Nat) : List (Nat × Nat) :=
  (sideSpans op b ctr shp source base).map fun p => (p.1.toNat, p.2)

/-- An address moved by a signed offset. -/
def shiftAddr (a : Nat) (o : Int) : Nat := ((a : Int) + o).toNat

/-- The bytes a run takes of physical memory, block by block. -/
def SideAt.blocks (x : SideAt) (runs : List (Nat × Nat)) : List Nat :=
  runs.flatMap fun p => (chunks p.1 p.2).filterMap fun c =>
    match x.locate c.1 with
    | .dev pa => some (pa / 64)
    | _ => none

/-! ## Holds on an engine operation (07 R147) -/

/-- What holds look at in an engine operation: its issue number, whether it is a copy, the windows it touches and whether it touches memory
outside them, and the blocks it reads and writes. -/
structure Forked where
  ord   : Nat
  copy  : Bool
  wins  : List Nat
  plain : Bool
  src   : List Nat
  dst   : List Nat
deriving DecidableEq, Repr

/-- Whether an operation touches a window domain (07 R152). -/
def Forked.inDomain (f : Forked) : Option Nat → Bool
  | none => f.plain
  | some w => f.wins.contains w

/-- Whether an earlier request of the core holds an engine operation: an acquire of its domain, a fence that bears on it, a store to its
blocks, a load of its destination. -/
def holdsEngine (q : Req) (f : Forked) : Bool :=
  let acq := q.acq && f.inDomain q.win
  decide (q.ord < f.ord) &&
    (match q.op with
     | .fence _ k => (k != .rel || f.copy) && (f.plain || f.wins.any fun w => q.bearsOn (some w))
     | .bararr _ _ => false
     | .store cells => acq || meets (cells.map fun c => c.1 / 64) (f.src ++ f.dst)
     | .load bs _ _ => acq || meets (bs.map fun a => a / 64) f.dst
     | _ => acq || meets (q.op.touched.map fun a => a / 64) (f.src ++ f.dst))

/-- The source side of a copy in flight. -/
def State.chanSrc (s : State) (h : Chan) : Option (SideAt × Nat) :=
  if h.op = .cpyf then none
  else if shpSkind h.shp = 0 then
    (s.vd? h.vd).bind fun d => (d.globalCore ((h.src.toNat - sramBase) / sliceSize)).map fun g => (.slice g, h.src.toNat)
  else
    (s.vd? h.vd).bind fun d => (lookup (h.src.toNat / 2 ^ 32) d.handles).map fun x =>
      (if x.kind = .peer ∧ h.lost ≠ [] then .broken x h.lost else .handle x, h.src.toNat % 2 ^ 32)

/-- The destination side of a copy in flight; none for a copy into a buffer that has no slot for it yet. -/
def State.chanDst (s : State) (k : Nat) (h : Chan) : Option (SideAt × Nat) :=
  match shpDkind h.shp with
  | 0 => (s.vd? h.vd).bind fun d => (d.globalCore ((h.dst.toNat - sramBase) / sliceSize)).map fun g => (.slice g, h.dst.toNat)
  | 1 => (s.vd? h.vd).bind fun d => (lookup (h.dst.toNat / 2 ^ 32) d.handles).map fun x => (.handle x, h.dst.toNat % 2 ^ 32)
  | _ =>
    let b := (s.coreAt k).regs.cb[Fin.ofNat 16 (h.dst.toNat % 16)]
    ((s.coreAt k).slotOf h).map fun i => (.slice k, b.base.toNat + i * b.slotsz)

/-- Whether a side lies in host-TSO pages. -/
def SideAt.tso (x : SideAt) : Bool :=
  match x with
  | .handle h => h.htso
  | _ => false

/-- The binding of a channel, or none. -/
def Chan.binding (h : Chan) : Binding := h.bnd.getD Binding.none

/-- Whether the source, or the destination, of a copy lies in host-TSO pages. -/
def State.tsoSrc (s : State) (h : Chan) : Bool := match s.chanSrc h with
  | some (x, _) => x.tso
  | none => false
def State.tsoDst (s : State) (k : Nat) (h : Chan) : Bool := match s.chanDst k h with
  | some (x, _) => x.tso
  | none => false

/-- Whether a copy comes after another under the order of host-TSO pages (03 R48, 07 R154): after the earlier ones of its core that access
such pages; a read of such pages after every write to them that the VD has begun. -/
def State.tsoAfter (s : State) (k : Nat) (h : Chan) (j : Nat) (g : Chan) : Bool :=
  if j = k then
    decide (g.ord < h.ord) && (s.tsoSrc h || s.tsoDst k h) && (s.tsoSrc g || s.tsoDst k g)
  else g.vd == h.vd && s.tsoSrc h && s.tsoDst j g && !g.done.isEmpty

/-- The copies of every core, with the cores. -/
def State.allChans (s : State) : List (Nat × Chan) :=
  (s.c.chans.map fun h => (s.cur, h)) ++ s.others.flatMap fun p => if p.1 = s.cur then [] else p.2.chans.map fun h => (p.1, h)

/-- A copy as its holds see it. -/
def State.forkOf (s : State) (h : Chan) (dx : SideAt) (db : Nat) : Forked :=
  ⟨h.ord, true, h.wins, h.plain,
   match s.chanSrc h with
   | some (x, b) => x.blocks (sideRuns h.op h.binding h.ctr h.shp true b)
   | none => [],
   dx.blocks (sideRuns h.op h.binding h.ctr h.shp false db)⟩

/-- Whether nothing of its own core or of the order of host-TSO pages holds a copy. A copy into a buffer also waits for the core's accesses
to the slot before the CBREL that gave it (07 R140); a copy of host-TSO pages for those before it (R154). -/
def State.copyFree (s : State) (k : Nat) (h : Chan) : Bool :=
  let c := s.coreAt k
  match s.chanDst k h with
  | none => false
  | some (dx, db) =>
    let f := s.forkOf h dx db
    (c.lsu.all fun q => !holdsEngine q f)
      && (shpDkind h.shp != 2 || c.lsu.all fun q => !(decide (q.ord < h.after) && meets (q.op.touched.map fun a => a / 64) f.dst))
      && (if s.tsoSrc h || s.tsoDst k h then s.allChans.all fun p => !s.tsoAfter k h p.1 p.2 else true)

/-- Whether a copy may move its data now: nothing holds it, and its requests to a peer have been answered or lost. -/
def State.copyReady (s : State) (k : Nat) (h : Chan) : Bool := s.copyFree k h && h.peer == .idle

/-- A copy into a buffer that starts to move data takes its slot (06 R117). -/
def State.beginCopy (s : State) (k : Nat) (h : Chan) : State × Chan :=
  if h.held then
    let s := s.updCore k fun c => c.takeSlot h
    (s, ((s.coreAt k).chans.find? fun g => g.ord == h.ord).getD h)
  else (s, h)

/-- The copies of a core that wait for a slot take one, the longest waiting first (DEDUCED, log entry 67), where nothing holds them; the fuel is
the number of channels. -/
def State.beginFuel (k : Nat) : Nat → State → State
  | 0, s => s
  | n + 1, s =>
    match (s.coreAt k).chans.find? fun h => h.held && s.copyFree k h with
    | some h => State.beginFuel k n (s.beginCopy k h).1
    | none => s

/-- The copies of a core that wait for a slot take one, where they can. -/
def State.beginCopies (s : State) (k : Nat) : State := State.beginFuel k (s.coreAt k).chans.length s

/-- Request r of core k is performed, and the copies that waited for it take their slots. -/
def State.performed (s : State) (k : Nat) (r : Req) : State := (s.perform k r).beginCopies k

/-- Before an operation that core k has forked writes, what the core has acquired is applied everywhere, in the domains it touches (07 R137,
R147, R152). -/
def State.orderEngine (s : State) (k : Nat) (wins : List Nat) (plain : Bool) : State :=
  if s.late.isEmpty then s
  else
    let past := ((s.coreAt k).past.filter fun p => match p.2 with
      | none => plain
      | some w => wins.contains w).map (·.1)
    s.flush fun w => past.contains w.id

/-- What an engine operation has read is applied everywhere as it completes: who joins it reads nothing older (07 R148). -/
def State.settleRead (s : State) (blks : List Nat) : State :=
  if s.late.isEmpty then s else s.flush fun w => w.bytes.any fun b => blks.contains (b.addr / 64)

/-! ## Moving the data -/

/-- What a codebook copy or array command came to: its records, poison met, or a cause that stops it. -/
structure Outcome where
  recs   : List (Nat × Nat)
  poison : Option Nat
  stop   : Option (Nat × Nat)
deriving DecidableEq, Repr

/-- Nothing to report. -/
def Outcome.fine : Outcome := ⟨[], none, none⟩

/-- The records of counts by kind, those that are not 0, for a command at a bundle. -/
def recsOf (bund : Word) (slot : Fin 4) (cs : List (Nat × Nat)) (detail : Nat → Nat := fun _ => 0) : List StqRec :=
  cs.filterMap fun p =>
    if p.2 = 0 then none
    else some ⟨BitVec.ofNat 22 bund.toNat, slot, BitVec.ofNat 8 p.1, recCount p.2, BitVec.ofNat 64 (detail p.1)⟩

/-- The first poisoned address of a side's runs. -/
def State.sidePoison (s : State) (x : SideAt) (runs : List (Nat × Nat)) : Option Nat :=
  runs.findSome? fun p => (chunks p.1 p.2).findSome? fun c =>
    match x.locate c.1 with
    | .dev pa => if s.poisoned pa then some pa else none
    | .lost key => some key
    | _ => none

/-- A byte of the pattern of a fill (R313). -/
def fillByte (h : Chan) (o : Nat) : Byte × Bool := (BitVec.ofNat 8 (h.src.toNat / 2 ^ (8 * (o % 4))), false)

/-- Words of a row of a plain copy. -/
def Chan.rowWords (h : Chan) : Nat := shpLen h.shp

/-- The offsets of word i of a plain copy on both sides: words count row by row. -/
def Chan.wordAt (h : Chan) (i : Nat) : Nat × Nat :=
  (i / h.rowWords * shpSstr h.shp + 4 * (i % h.rowWords), i / h.rowWords * shpDstr h.shp + 4 * (i % h.rowWords))

/-- Word i of a plain copy as it is read. -/
def State.wordRead (s : State) (h : Chan) (src : Option (SideAt × Nat)) (db i : Nat) : List (Byte × Bool) :=
  match src with
  | some (x, b) => s.sideRead x (b + (h.wordAt i).1) 4
  | none => (List.range 4).map fun j => fillByte h (db + (h.wordAt i).2 + j)

/-- Write runs of bytes to a side, in order. -/
def State.writeRuns (s : State) (dx : SideAt) (runs : List (Nat × List (Byte × Bool))) : State :=
  runs.foldl (fun s r => s.sideWrite dx r.1 r.2) s

/-- What CPY and CPYF write: all rows as they are read, in ascending order; a fill word goes into every aligned 4-byte word. -/
def State.plainRuns (s : State) (h : Chan) (src : Option (SideAt × Nat)) (db : Nat) : List (Nat × List (Byte × Bool)) :=
  let n := 4 * shpLen h.shp
  (List.range (shpRows h.shp)).map fun r =>
    (db + r * shpDstr h.shp, match src with
      | some (x, b) => s.sideRead x (b + r * shpSstr h.shp) n
      | none => (List.range n).map fun i => fillByte h (db + r * shpDstr h.shp + i))

/-- The order in which a plain copy may write its words one by one: by rows, or by ascending offset in host-TSO pages where its rows overlap
(07 R154). -/
def Chan.wordOrder (h : Chan) (tso : Bool) : List Nat :=
  let all := List.range (shpRows h.shp * h.rowWords)
  if tso ∧ shpDstr h.shp < 4 * shpLen h.shp then sortBy (fun a b => decide ((h.wordAt a).2 ≤ (h.wordAt b).2)) all else all

/-- CPY and CPYF move their data, but for the words that have been written before. -/
def State.moveBytes (s : State) (h : Chan) (src : Option (SideAt × Nat)) (dx : SideAt) (db : Nat) : State :=
  if h.done.isEmpty then s.draw.writeRuns dx (s.plainRuns h src db)
  else
    let ws := h.wordOrder dx.tso
    s.draw.writeRuns dx (((List.range ws.length).filter fun i => !h.done.contains i).map fun i =>
      (db + (h.wordAt (ws.getD i 0)).2, s.wordRead h src db (ws.getD i 0)))

/-- One block of an index side as read: index field, header, poison. -/
structure IdxBlock where
  row    : Nat
  blk    : Nat
  field  : Nat
  hdr    : Nat
  poison : Bool
deriving DecidableEq, Repr

/-- The blocks of an index side in row order. -/
def State.readBlocks (s : State) (x : SideAt) (base str : Nat) (hoff : Int) (rows nb w : Nat) : List IdxBlock :=
  (List.range rows).flatMap fun r => (List.range nb).map fun b =>
    let f := s.sideRead x (base + r * str + b * 4 * w) (4 * w)
    let g := s.sideRead x (shiftAddr (base + r * str + 3 * b) hoff) 3
    ⟨r, b, natOf (f.map (·.1)), natOf (g.map (·.1)), f.any (·.2) || g.any (·.2)⟩

/-- The runs of one block of an index side. -/
def idxRuns (base str : Nat) (hoff : Int) (w : Nat) (b : IdxBlock) : List (Nat × List (Byte × Bool)) :=
  let mark (bs : List Byte) : List (Byte × Bool) := bs.map fun y => (y, b.poison)
  [(base + b.row * str + b.blk * 4 * w, mark (bytesOf (4 * w) b.field)),
   (shiftAddr (base + b.row * str + 3 * b.blk) hoff, mark (bytesOf 3 b.hdr))]

/-- CPYQ (R171, R172, R313): each block encoded from its 32v values. -/
def State.planQuant (s : State) (h : Chan) (cw : List Byte) (x : SideAt) (sb db : Nat) : CopyPlan :=
  let b := h.binding
  let f := (fmtOf (ctrTy h.ctr)).getD fmtF32
  let sz := (ctrTy h.ctr).width / 8
  let nb := shpLen h.shp
  let work : List (IdxBlock × Encoded) := (List.range (shpRows h.shp)).flatMap fun r => (List.range nb).map fun k =>
    let raw := s.sideRead x (sb + r * shpSstr h.shp + k * 32 * b.v * sz) (32 * b.v * sz)
    let vals := (List.range (32 * b.v)).map fun i => fdec f (fieldAt (raw.map (·.1)) (sz * i) sz)
    if raw.any (·.2) then (⟨r, k, 0, 0, true⟩, ⟨[], 0, 0, 0, 0⟩)
    else
      let e := b.encodeRun cw (amaxOf vals) vals
      (⟨r, k, packIndices b.w e.idx, e.exp * 65536 + b.ver.toNat, false⟩, e)
  let sum (g : Encoded → Nat) : Nat := work.foldl (fun n p => n + g p.2) 0
  ⟨work.flatMap fun p => idxRuns db (shpDstr h.shp) (ctrHoff h.ctr) b.w p.1,
   [(1, sum (·.nans)), (2, sum (·.sats)), (5, sum (·.infs))], none, none⟩

/-- CPYD (R313): each element decoded as VDQ does, then converted to TY. -/
def planDequant (h : Chan) (cw : List Byte) (blocks : List (IdxBlock × List Nat × Bool)) (db : Nat) : CopyPlan :=
  let b := h.binding
  let f := (fmtOf (ctrTy h.ctr)).getD fmtF32
  let sz := (ctrTy h.ctr).width / 8
  let work : List (IdxBlock × List Conv) := blocks.map fun p =>
    (p.1, (List.range (32 * b.v)).map fun i =>
      let v := b.value cw (p.1.hdr / 65536 % 256) (p.2.1.getD (i / b.v) 0) (i % b.v)
      fconv f false (fdec fmtF32 (fround fmtF32 v)))
  let good := work.filter fun p => !p.1.poison
  let sum (g : Conv → Bool) : Nat := good.foldl (fun n p => n + (p.2.filter g).length) 0
  ⟨work.map fun p => (db + p.1.row * shpDstr h.shp + p.1.blk * 32 * b.v * sz,
      (p.2.flatMap fun c => bytesOf sz c.bits).map fun y => (y, p.1.poison)),
   [(1, sum (·.nan)), (2, sum (·.sat)), (3, sum (·.ovf)), (4, sum (·.under)), (6, (blocks.filter fun p => p.2.2).length)], none, none⟩

/-- CPYM (R313): each index field as the command sees it, stamped with the binding's version. -/
def planMap (h : Chan) (blocks : List (IdxBlock × List Nat × Bool)) (db : Nat) : CopyPlan :=
  let b := h.binding
  ⟨blocks.flatMap fun p => idxRuns db (shpDstr h.shp) (ctrHoff h.ctr) b.w
      { p.1 with field := packIndices b.w p.2.1, hdr := p.1.hdr / 65536 % 256 * 65536 + b.ver.toNat },
   [(6, (blocks.filter fun p => p.2.2).length)], none, none⟩

/-- The stamp check of every block of a copy (R168, R170): the blocks with their indices as seen; none where one is stale.
Poisoned blocks are not checked. -/
def checkBlocks (b : Binding) (map : Option (List Byte)) (bs : List IdxBlock) : Option (List (IdxBlock × List Nat × Bool)) :=
  bs.foldr (fun x acc =>
    match acc with
    | none => none
    | some l =>
      if x.poison then some ((x, [], false) :: l)
      else match b.stampCheck map x.hdr (indices b.w x.field) with
        | some (is, t) => some ((x, is, t) :: l)
        | none => none) (some [])

/-- Whether a copy needs the revision map of its binding. -/
def Chan.needsMap (h : Chan) : Bool :=
  if h.op = .cpym then h.binding.prevver != 0 else if h.op = .cpyd then h.binding.needsMap else false

/-- What a codebook copy writes, with the state after a refill of its CBS copy, or the cause that stops it (R168, R314). -/
def State.planCopy (s : State) (k : Nat) (h : Chan) (x : SideAt) (sb db : Nat) : State × Except (Nat × Nat) CopyPlan :=
  let b := h.binding
  let cl := clusterOf k
  let bad := s.sidePoison x (sideRuns h.op b h.ctr h.shp true sb)
  match s.getCopy cl h.vd b h.needsMap with
  | .error .dead => (s, .error (cCBDEAD, ctrBind h.ctr))
  | .error (.poison _) => (s, .error (cUE, 1))
  | .ok (cp, fresh) =>
    let s := if fresh then s.putCopy cl cp else s
    if h.op = .cpyq then (s, .ok { s.planQuant h cp.cw x sb db with poison := bad, cbs := some cp.key })
    else
      let bs := s.readBlocks x sb (shpSstr h.shp) (ctrHoff h.ctr) (shpRows h.shp) (shpLen h.shp) b.w
      match checkBlocks (if h.op = .cpym then { b with mode := true } else b) cp.map bs with
      | none => (s, .error (cCBSTALE, ctrBind h.ctr))
      | some ok =>
        let p := if h.op = .cpyd then planDequant h cp.cw ok db else planMap h ok db
        (s, .ok { p with poison := bad, cbs := some cp.key })

/-- The pieces of runs that lie in one aligned 4-byte word each (07 R133). -/
def wordPieces (runs : List (Nat × List (Byte × Bool))) : List (Nat × List (Byte × Bool)) :=
  runs.flatMap fun r => ((List.range ((r.1 + r.2.length + 3) / 4 - r.1 / 4)).map fun i =>
    let lo := Max.max r.1 (4 * (r.1 / 4 + i))
    let hi := Min.min (r.1 + r.2.length) (4 * (r.1 / 4 + i) + 4)
    (lo, (r.2.drop (lo - r.1)).take (hi - lo)))

/-- The pieces in the order in which a copy may write them one by one: that of its plan, or by ascending words in host-TSO pages (07 R154). -/
def CopyPlan.pieces (p : CopyPlan) (tso : Bool) : List (Nat × List (Byte × Bool)) :=
  let ps := wordPieces p.runs
  if tso then sortBy (fun a b => decide (a.1 / 4 ≤ b.1 / 4)) ps else ps

/-- The pieces of a plan that have not been written. -/
def CopyPlan.left (p : CopyPlan) (tso : Bool) (done : List Nat) : List (Nat × List (Byte × Bool)) :=
  if done.isEmpty then p.runs
  else ((List.range (p.pieces tso).length).zip (p.pieces tso)).filterMap fun q => if done.contains q.1 then none else some q.2

/-- Whether a side lies in a peer's memory. -/
def SideAt.isPeer : SideAt → Bool
  | .handle h | .broken h _ => h.kind == .peer
  | .slice _ => false

/-- What a copy writes, and the first poisoned source address; with the state after a refill of its CBS copy, or the cause that stops it. -/
def State.planAny (s : State) (k : Nat) (h : Chan) (src : Option (SideAt × Nat)) (db : Nat) : State × Except (Nat × Nat) CopyPlan :=
  if h.op.coded then
    match src with
    | some (x, sb) => s.planCopy k h x sb db
    | none => (s, .ok ⟨[], [], none, none⟩)
  else (s, .ok ⟨s.plainRuns h src db, [], match src with
    | some (x, b) => s.sidePoison x (sideRuns h.op h.binding h.ctr h.shp true b)
    | none => none, none⟩)

/-- Perform the data movement of a copy, or the rest of it. What goes to a peer has left as requests; one that a port has lost is reported
as poison (01 R18). -/
def State.moveCopy (s : State) (k : Nat) (h : Chan) : State × Outcome :=
  match s.chanDst k h, s.chanSrc h with
  | none, _ => (s, .fine)
  | some (dx, db), src =>
    match h.plan with
    | some p =>
      if dx.isPeer then (s, ⟨p.recs, p.poison <|> h.lost.head?.map fun r => peerKey 0 0 r.1, none⟩)
      else (s.draw.writeRuns dx (p.left dx.tso h.done), ⟨p.recs, p.poison, none⟩)
    | none =>
      if h.op.coded then
        match src with
        | none => (s, .fine)
        | some (x, sb) =>
          match s.planCopy k h x sb db with
          | (s, .error e) => (s, ⟨[], none, some e⟩)
          | (s, .ok p) => (s.draw.writeRuns dx p.runs, ⟨p.recs, p.poison, none⟩)
      else
        let bad : Option Nat := match src with
          | some (x, b) => s.sidePoison x (sideRuns h.op h.binding h.ctr h.shp true b)
          | none => none
        (s.moveBytes h src dx db, ⟨[], bad, none⟩)

/-- Whether a run of bytes may be written before its copy completes: it is clean, and so is where it goes. -/
def State.cleanRun (s : State) (dx : SideAt) (r : Nat × List (Byte × Bool)) : Bool :=
  (r.2.all fun b => !b.2) && (chunks r.1 r.2.length).all fun c =>
    match dx.locate c.1 with
    | .dev pa => !s.poisoned pa
    | _ => true

/-- An operation that is not complete writes a run of a side within one 16-byte block: a fetch sees the block as it was (07 R133, R155). -/
def State.sidePart (s : State) (k ord : Nat) (dx : SideAt) (r : Nat × List (Byte × Bool)) : State :=
  match dx.locate r.1 with
  | .dev pa =>
    let s := (List.range r.2.length).foldl (fun s i => s.tear k ord (pa + i)) s
    { s.sideWrite dx r.1 r.2 with torn := s.torn }
  | _ => s.sideWrite dx r.1 r.2

/-- Change the channel of a copy. -/
def Core.updChan (c : Core) (ord : Nat) (f : Chan → Chan) : Core :=
  { c with chans := c.chans.map fun g => if g.ord = ord then f g else g }

/-- One word of a copy is written before the copy completes, if it exists, has not been written and is clean; a copy to a host-TSO page
writes in ascending order (R154). -/
def State.moveWord (k ord : Nat) (dx : SideAt) (total : Nat) (get : State → Nat → Nat × List (Byte × Bool)) (s : State) (i : Nat) : State :=
  match (s.coreAt k).chans.find? fun g => g.ord == ord with
  | none => s
  | some g =>
    let r := get s i
    if decide (total ≤ i) || g.done.contains i || !s.cleanRun dx r || (dx.tso && i != g.done.length) then s
    else (s.sidePart k ord dx r).updCore k fun c => c.updChan ord fun g => { g with done := g.done ++ [i] }

/-- The words of a plan are pieces of its runs. -/
def State.movePlanned (s : State) (k : Nat) (h : Chan) (dx : SideAt) (p : CopyPlan) (is : List Nat) : State :=
  let ps := p.pieces dx.tso
  is.foldl (State.moveWord k h.ord dx ps.length fun _ i => ps.getD i (0, [])) s

/-- A copy writes some of its words before it completes (07 R133, R148): n of them from number lo on, each as it is read now; those of a
codebook copy as its blocks were when it began to write. What goes to a peer has left already. -/
def State.moveSome (s : State) (k : Nat) (h : Chan) (lo n : Nat) : State :=
  let is := (List.range n).map (lo + ·)
  let (s, h) := (s.orderEngine k h.wins h.plain).beginCopy k h
  match s.chanDst k h, s.chanSrc h with
  | none, _ => s
  | some (dx, db), src =>
    if dx.isPeer then s
    else match h.plan with
      | some p => s.movePlanned k h dx p is
      | none =>
        if h.op.coded then
          match src with
          | none => s
          | some (x, sb) =>
            match s.planCopy k h x sb db with
            | (_, .error _) => s
            | (s, .ok p) => (s.draw.updCore k fun c => c.updChan h.ord fun g => { g with plan := some p }).movePlanned k h dx p is
        else
          let ws := h.wordOrder dx.tso
          is.foldl (State.moveWord k h.ord dx ws.length
            fun s i => (db + (h.wordAt (ws.getD i 0)).2, s.wordRead h src db (ws.getD i 0))) s.draw

/-! ## Completion of a copy (R124, R314, R315) -/

/-- The counter of a channel. -/
def Chan.counter (h : Chan) : BitVec 16 := h.ctr.setWidth 16

/-- Complete a copy: its data are moved, a filled slot counted, its records and reports made, its counter decremented unless a
CBSTALE or CBDEAD stopped it, and its channel retires. -/
def State.completeCopy (s : State) (k : Nat) (h : Chan) : State :=
  let (s, h) := (s.orderEngine k h.wins h.plain).beginCopy k h
  let blks := match s.chanSrc h with
    | some (x, b) => x.blocks (sideRuns h.op h.binding h.ctr h.shp true b)
    | none => []
  let (s, o) := (s.settleRead blks).moveCopy k h
  let s := (s.mend k h.ord).updCore k fun c =>
    let c := { c with chans := c.chans.filter fun g => g.ord != h.ord }
    match h.slot with
    | some i =>
      let n : CbReg := Fin.ofNat 16 (h.dst.toNat % 16)
      { c with regs := { c.regs with cb := c.regs.cb.set n (c.regs.cb[n].complete i) } }
    | none => c
  let s := s.recordTo k h.task (recsOf h.bund 3 o.recs)
  let s := match o.stop with
    | some (cause, sub) => s.report k h.task cause sub h.bund
    | none => s
  let s := match o.poison with
    | some pa => s.report k h.task (s.poisonCause pa) 1 h.bund
    | none => s
  let keep : Bool := match o.stop with
    | some (cause, _) => cause != cUE
    | none => false
  if keep || !h.named then s else s.ctrDec h.vd h.gen h.counter h.bund

/-! ## Copies with a peer (01 R18, log entry 35) -/

/-- A request of core k to a peer's memory waits for a port of the core's die, in the request channel. The payload is the model's (DESIGN
CHOICE, log entry 68): the bytes, the chip, the handle, the offset, the length. -/
def State.askPeer (s : State) (k ord chip hid : Nat) (op : TxOp) (off n : Nat) (bs : List Byte) : State :=
  let port : Fin 24 := Fin.ofNat 24 (6 * dieOf k + (Config.portOf chip hid (off / 64)).val)
  s.transmit port ⟨0, bs ++ bytesOf 2 chip ++ bytesOf 4 hid ++ bytesOf 4 off ++ bytesOf 1 n, op, k, ord⟩

/-- The reads of a copy's source at a peer leave, one for each block of a run. -/
def State.askReads (s : State) (k : Nat) (h : Chan) (x : SideAt) (b : Nat) : State × Nat :=
  ((sideRuns h.op h.binding h.ctr h.shp true b).flatMap fun r => chunks r.1 r.2).foldl (fun p c =>
    match x.locate c.1 with
    | .peer chip hid off => (p.1.askPeer k h.ord chip hid (.read off c.2) off c.2 [], p.2 + 1)
    | _ => p) (s, 0)

/-- What a copy writes to a peer leaves, block by block; a block with poison does not (09 R187). -/
def State.askWrites (s : State) (k : Nat) (h : Chan) (dx : SideAt) (runs : List (Nat × List (Byte × Bool))) : State × Nat :=
  runs.foldl (fun p r => (chunks r.1 r.2.length).foldl (fun p c =>
    let part := (r.2.drop (c.1 - r.1)).take c.2
    match dx.locate c.1 with
    | .peer chip hid off =>
      if part.any (·.2) then p
      else
        let bs := part.map (·.1)
        (p.1.askPeer k h.ord chip hid (.write chip hid off bs) off c.2 bs, p.2 + 1)
    | _ => p) p) (s, 0)

/-- What comes after the answers to a copy's reads. -/
def State.afterReads (s : State) (k : Nat) (h : Chan) : PeerStage := match s.chanDst k h with
  | some (dx, _) => if dx.isPeer then .write else .idle
  | none => .idle

/-- A copy of core k that nothing holds sends its requests to a peer: first its reads, then, as they are answered, its writes. One that a
cause stops completes with it. -/
def State.sendPeer (s : State) (k : Nat) (h : Chan) : State :=
  let (s, h) := (s.orderEngine k h.wins h.plain).beginCopy k h
  let stage (s : State) (p : PeerStage) (q : Option CopyPlan) : State :=
    s.updCore k fun c => c.updChan h.ord fun g => { g with peer := p, plan := g.plan <|> q }
  match h.peer, s.chanSrc h, s.chanDst k h with
  | .read, some (x, b), _ =>
    let next := s.afterReads k h
    let (s, n) := s.askReads k h x b
    stage s (if n = 0 then next else .reading n) none
  | .write, src, some (dx, db) =>
    match s.planAny k h src db with
    | (s, .error _) => s.completeCopy k h
    | (s, .ok p) =>
      let (s, n) := s.draw.askWrites k h dx p.runs
      stage s (if n = 0 then .idle else .writing n) (some p)
  | _, _, _ => stage s .idle none

/-- Whether a copy has requests to a peer to send, and may. -/
def State.asksPeer (s : State) (k : Nat) (h : Chan) : Bool := (h.peer == .read || h.peer == .write) && s.copyFree k h

/-- A request of a copy has reached its switch, or, with the range of it, is lost (01 R18). -/
def State.peerAnswer (s : State) (k ord : Nat) (lost : Option (Nat × Nat)) : State :=
  match (s.coreAt k).chans.find? fun g => g.ord == ord with
  | none => s
  | some h =>
    let next : PeerStage := match h.peer with
      | .reading (n + 2) => .reading (n + 1)
      | .reading _ => s.afterReads k h
      | .writing (n + 2) => .writing (n + 1)
      | _ => .idle
    s.updCore k fun c => c.updChan ord fun g => { g with peer := next, lost := g.lost ++ lost.toList }

/-! ## The matrix array -/

/-- FP32 value of a lane. -/
def f32 (x : Lane) : FVal := fdec fmtF32 x.toNat

/-- Element (m, n) of a tile. -/
def Tile.at (t : Tile) (m n : Nat) : Lane := t[Fin.ofNat 1024 (32 * m + n)]

/-- A tile from its elements. -/
def Tile.make (f : Nat → Nat → Lane) : Tile := Vector.ofFn fun i => f (i.val / 32) (i.val % 32)

/-- The canonical NaN of FP32. -/
def nan32 : Lane := 0x7FC00000

/-- AC := Round(AC + S). -/
def accAdd (acc : Lane) (v : FVal) : Lane := BitVec.ofNat 32 (fround fmtF32 ((f32 acc).add v))

/-- The formats of MMD's operands A and B (Table 14-3). -/
def mmdFormats : MmdFmt → Fmt × Fmt
  | .bf16 => (fmtBf16, fmtBf16)
  | .f16 => (fmtF16, fmtF16)
  | .e4e4 => (fmtE4m3, fmtE4m3)
  | .e4e5 => (fmtE4m3, fmtE5m2)
  | .e5e4 => (fmtE5m2, fmtE4m3)
  | .e5e5 => (fmtE5m2, fmtE5m2)
  | .mx4 => (fmtE2m1, fmtE2m1)

/-- Bytes of an element. -/
def mmdSize : MmdFmt → Nat
  | .bf16 | .f16 => 2
  | _ => 1

/-- Products of a step (R176). -/
def mmdStep : MmdFmt → Nat
  | .bf16 | .f16 => 8
  | .mx4 => 32
  | _ => 16

/-- Bytes of an operand. -/
def mmdBytes : MmdFmt → Nat
  | .bf16 | .f16 => 2048
  | .mx4 => 544
  | _ => 1024

/-- The format tag (Table 14-3). -/
def mmdTag : MmdFmt → BitVec 4
  | .bf16 => 1
  | .f16 => 2
  | .mx4 => 4
  | _ => 3

/-- The exact sum of a step of products, K from k0 (R176). -/
def stepSum (fa fb : Fmt) (sz : Nat) (a b : List Byte) (m n k0 cnt : Nat) : FVal :=
  match (List.range cnt).map fun i =>
    (fdec fa (fieldAt a (sz * (32 * m + k0 + i)) sz)).mul (fdec fb (fieldAt b (sz * (32 * n + k0 + i)) sz)) with
  | [] => FVal.zero
  | x :: r => r.foldl FVal.add x

/-- An E2M1 element in units of one half. -/
def half (x : Nat) : Int :=
  let m : Int := (if x % 8 < 2 then x % 8 else if x % 8 < 4 then x % 8 else if x % 8 = 4 then 4 else if x % 8 = 5 then 6
    else if x % 8 = 6 then 8 else 12 : Nat)
  if x / 8 % 2 = 1 then -m else m

/-- E2M1 element i of an MX block whose elements begin at byte o. -/
def mx4At (bs : List Byte) (o i : Nat) : Nat := bits ((bs.getD (o + i / 2) 0).toNat) (4 * (i % 2)) 4

/-- The value of an MXFP4 step (R177), rounded where it leaves the range. -/
def mxStep (a b : List Byte) (m n : Nat) : Conv :=
  let xa := (a.getD (512 + m) 0).toNat
  let xb := (b.getD (512 + n) 0).toNat
  if xa = 0xFF ∨ xb = 0xFF then ⟨0x7FC00000, false, false, false, true⟩
  else
    let s : Int := (List.range 32).foldl (fun acc i => acc + half (mx4At a (16 * m) i) * half (mx4At b (16 * n) i)) 0
    fconv fmtF32 false ((FVal.ofInt s).scale ((xa : Int) + xb - 256))

/-- Rows of an MMD operand that touch poison. -/
def State.mmdPoison (s : State) (pa : Nat) (f : MmdFmt) (m : Nat) : Bool :=
  match f with
  | .mx4 => s.poisonedRange (pa + 16 * m) 16 || s.poisoned (pa + 512 + m)
  | _ => s.poisonedRange (pa + 32 * (mmdSize f) * m) (32 * (mmdSize f))

/-- The result of an array command on a tile: tile and counts of its records. -/
structure TileOut where
  tile : Tile
  recs : List (Nat × Nat)
deriving DecidableEq, Repr

/-- Count the elements of a tile that satisfy a test. -/
def countTile (f : Nat → Nat → Bool) : Nat :=
  (List.range 32).foldl (fun a m => (List.range 32).foldl (fun a n => if f m n then a + 1 else a) a) 0

/-- The NaN record of a tile: its NaN elements that poison did not make. -/
def nanCount (t : Tile) (pois : Nat → Nat → Bool) : Nat := countTile fun m n => (f32 (t.at m n)).isNan && !pois m n

/-- MMD (R321). -/
def State.mmdTile (s : State) (t : Tile) (pa pb : Nat) (f : MmdFmt) : TileOut :=
  let a := s.read pa (mmdBytes f)
  let b := s.read pb (mmdBytes f)
  let (fa, fb) := (mmdFormats f)
  let rows := (List.range 32).map fun m => s.mmdPoison pa f m
  let cols := (List.range 32).map fun n => s.mmdPoison pb f n
  let pois (m n : Nat) : Bool := rows.getD m false || cols.getD n false
  match f with
  | .mx4 =>
    let st : List (List Conv) := (List.range 32).map fun m => (List.range 32).map fun n => mxStep a b m n
    let at' (m n : Nat) : Conv := (st.getD m []).getD n ⟨0, false, false, false, false⟩
    let r := Tile.make fun m n => if pois m n then nan32 else accAdd (t.at m n) (fdec fmtF32 (at' m n).bits)
    ⟨r, [(1, nanCount r pois), (3, countTile fun m n => !pois m n && (at' m n).ovf),
         (4, countTile fun m n => !pois m n && (at' m n).under)]⟩
  | _ =>
    let r := Tile.make fun m n =>
      if pois m n then nan32
      else (List.range (32 / (mmdStep f))).foldl (fun acc st =>
        accAdd acc (stepSum fa fb (mmdSize f) a b m n (st * (mmdStep f)) (mmdStep f))) (t.at m n)
    ⟨r, [(1, nanCount r pois)]⟩

/-- NB of TBLD: MXINT8 blocks per column. -/
def tbldBlocks (g v : Nat) : Nat := (g * v + 31) / 32

/-- A table entry (R173): from codeword k, activations at byte `o` and a scale. -/
def tableEntry (b : Binding) (cw act : List Byte) (k o x : Nat) : Conv :=
  if x = 0xFF then ⟨0x7FC00000, false, false, false, true⟩
  else
    let sum : Int := (List.range b.v).foldl (fun acc j => acc + b.code cw k j * sgn 8 (act.getD (o + j) 0).toNat) 0
    fconv fmtF32 false ((FVal.ofInt sum).scale ((x : Int) + b.scale.toNat - (260 + b.f : Nat)))

/-- TBLD (R322): the tables of G groups in the PPT. -/
def State.tbld (s : State) (cl : Nat) (b : Binding) (cw : List Byte) (pa : Nat) (desc : Word) : State × List (Nat × Nat) :=
  let g := bits desc.toNat 0 4 + 1
  let base := pptBase cl + bits desc.toNat 4 4 * 32768
  let nb := tbldBlocks g b.v
  let act := s.read pa (1056 * nb)
  let cells : List (Nat × Conv × Bool) := (List.range g).flatMap fun i => (List.range b.kcb).flatMap fun k =>
    (List.range 32).map fun n =>
      let o := 32 * nb * n + i * b.v
      let so := 1024 * nb + nb * n + i * b.v / 32
      let p := s.poisonedRange (pa + o) b.v || s.poisoned (pa + so)
      let e : Conv := if p then ⟨0x7FC00000, false, false, false, true⟩ else tableEntry b cw act k o (act.getD so 0).toNat
      (base + 4 * (b.kcb * 32 * i + 32 * k + n), e, p)
  let cnt (f : Conv → Bool) : Nat := (cells.filter fun c => !c.2.2 && f c.2.1).length
  (cells.foldl (fun s c => s.write c.1 (bytesOf 4 c.2.1.bits)) s, [(1, cnt (·.nan)), (3, cnt (·.ovf)), (4, cnt (·.under))])

/-- A row of an MMT operand as the command sees it: indices, exponent, poison, translated. -/
structure GRow where
  idx    : List Nat
  exp    : Nat
  poison : Bool
  moved  : Bool
deriving DecidableEq, Repr

/-- Read and check one row's block (R168, R323, R356); none for a stale stamp. -/
def State.gatherRow (s : State) (b : Binding) (map : Option (List Byte)) (blk hdr : Nat) : Option GRow :=
  if s.poisonedRange blk (4 * b.w) || s.poisonedRange hdr 3 then some ⟨[], 0, true, false⟩
  else
    let h := natOf (s.read hdr 3)
    (b.stampCheck map h (indices b.w (natOf (s.read blk (4 * b.w))))).map fun r => ⟨r.1, h / 65536, false, r.2⟩

/-- All rows, or none where one is stale. -/
def allRows : List (Option GRow) → Option (List GRow)
  | [] => some []
  | x :: r => match x, allRows r with
    | some a, some l => some (a :: l)
    | _, _ => none

/-- Row m's index field. -/
def blkAt (a : Nat) (desc : Word) (m : Nat) : Nat := a + 16 * bits desc.toNat 14 18 * m
/-- HOFF of the descriptor of R323. -/
def descHoff (desc : Word) : Int := sgn 32 (bits desc.toNat 32 32)
/-- The rows of an MMT operand; a row that `skip` names touches poison elsewhere, and its stamp is not checked (R356). -/
def State.gatherRows (s : State) (b : Binding) (map : Option (List Byte)) (a : Nat) (desc : Word) (off : Int)
    (skip : Nat → Bool := fun _ => false) : Option (List GRow) :=
  allRows ((List.range 32).map fun m =>
    let blk := shiftAddr (blkAt a desc m) off
    if skip m then some ⟨[], 0, true, false⟩ else s.gatherRow b map blk (shiftAddr blk (descHoff desc)))

/-- Whether the block of row m at an offset touches poison: its index field or its header. -/
def State.rowPoison (s : State) (b : Binding) (a : Nat) (desc : Word) (off : Int) (m : Nat) : Bool :=
  let blk := shiftAddr (blkAt a desc m) off
  s.poisonedRange blk (4 * b.w) || s.poisonedRange (shiftAddr blk (descHoff desc)) 3

/-- A table entry read from the PPT, scaled by a block exponent (R174). -/
def State.scaled (s : State) (cl : Nat) (b : Binding) (desc : Word) (g idx n e : Nat) : Conv :=
  let base := pptBase cl + bits desc.toNat 10 4 * 32768
  let p := fdec fmtF32 (natOf (s.read (base + 4 * (b.kcb * 32 * g + 32 * idx + n)) 4))
  if e = 0xFF then ⟨0x7FC00000, false, false, false, true⟩
  else fconv fmtF32 false (p.scale ((e : Int) - 127))

/-- Accumulate contributions in order, counting overflow and underflow. -/
def accFold (acc : Lane) (l : List Conv) : Lane × Nat × Nat :=
  l.foldl (fun st c => (accAdd st.1 (fdec fmtF32 c.bits), st.2.1 + (if c.ovf then 1 else 0), st.2.2 + (if c.under then 1 else 0)))
    (acc, 0, 0)

/-- A tile from a table of accumulations. -/
def tileOf (rows : List (List (Lane × Nat × Nat))) (pois : Nat → Bool) : TileOut :=
  let at' (m n : Nat) : Lane × Nat × Nat := (rows.getD m []).getD n (0, 0, 0)
  let r := Tile.make fun m n => (at' m n).1
  let sum (f : Nat × Nat → Nat) : Nat := rows.foldl (fun a row => row.foldl (fun a x => a + f x.2) a) 0
  ⟨r, [(1, nanCount r fun m _ => pois m), (3, sum (·.1)), (4, sum (·.2))]⟩

/-- MMT (R174, R323). -/
def State.mmtTile (s : State) (cl : Nat) (b : Binding) (t : Tile) (rs : List GRow) (desc : Word) : TileOut :=
  let g0 := bits desc.toNat 0 5
  let g := bits desc.toNat 5 5 + 1
  let row (m : Nat) : GRow := rs.getD m ⟨[], 0, true, false⟩
  tileOf ((List.range 32).map fun m => (List.range 32).map fun n =>
    if (row m).poison then (nan32, 0, 0)
    else accFold (t.at m n) ((List.range g).map fun i => s.scaled cl b desc i ((row m).idx.getD (g0 + i) 0) n (row m).exp))
    fun m => (row m).poison

/-- MMTD (R175, R324). -/
def State.mmtdTile (s : State) (cl : Nat) (b : Binding) (t : Tile) (new old : List GRow) (masks : List (Nat × Bool))
    (desc : Word) : TileOut :=
  let g0 := bits desc.toNat 0 5
  let g := bits desc.toNat 5 5 + 1
  let row (l : List GRow) (m : Nat) : GRow := l.getD m ⟨[], 0, true, false⟩
  let pois (m : Nat) : Bool := (row new m).poison || (row old m).poison || (masks.getD m (0, false)).2
  tileOf ((List.range 32).map fun m => (List.range 32).map fun n =>
    if pois m then (nan32, 0, 0)
    else accFold (t.at m n) (((List.range g).filter fun i => bits (masks.getD m (0, false)).1 (g0 + i) 1 == 1).map fun i =>
      let base := pptBase cl + bits desc.toNat 10 4 * 32768
      let side (r : GRow) : FVal :=
        if r.exp = 0xFF then .nan
        else (fdec fmtF32 (natOf (s.read (base + 4 * (b.kcb * 32 * i + 32 * r.idx.getD (g0 + i) 0 + n)) 4))).scale
          ((r.exp : Int) - 127)
      fconv fmtF32 false ((side (row new m)).add (side (row old m)).neg)))
    pois

/-! ## Operand ranges of an array command -/

/-- The physical ranges an array command reads: its operands. -/
def CmaOp.reads (b : Binding) : CmaOp → List (Nat × Nat)
  | .mmd _ a c f => [(a, (mmdBytes f)), (c, (mmdBytes f))]
  | .tbld a d => [(a, 1056 * tbldBlocks (bits d.toNat 0 4 + 1) b.v)]
  | .mmt _ a d => (List.range 32).flatMap fun m =>
      [(blkAt a d m, 4 * b.w), (shiftAddr (blkAt a d m) (descHoff d), 3)]
  | .mmtd _ a d e => (List.range 32).flatMap fun m =>
      let o : Int := sgn 32 (bits e.toNat 0 32)
      let k : Int := sgn 32 (bits e.toNat 32 32)
      [(blkAt a d m, 4 * b.w), (shiftAddr (blkAt a d m) (descHoff d), 3), (shiftAddr (blkAt a d m) o, 4 * b.w),
       (shiftAddr (shiftAddr (blkAt a d m) (descHoff d)) o, 3), (shiftAddr (blkAt a d m) k, 4)]
  | .accz _ => []
  | .accld _ a _ => [(a, 4096)]
  | .accst _ _ _ _ => []

/-- The physical ranges an array command writes. -/
def CmaOp.writes : CmaOp → List (Nat × Nat)
  | .accst _ a ty _ => [(a, 1024 * (ty.width / 8))]
  | _ => []

/-- The blocks of physical ranges. -/
def rangeBlocks (rs : List (Nat × Nat)) : List Nat :=
  rs.flatMap fun r => (List.range ((r.1 + r.2 + 63) / 64 - r.1 / 64)).map fun i => r.1 / 64 + i

/-- Whether the head of a CMA's queue may run. -/
def State.cmaReady (s : State) (m : CmaCmd) : Bool :=
  let b := m.bnd.getD Binding.none
  let f : Forked := ⟨m.ord, false, m.wins, m.plain, rangeBlocks (m.op.reads b), rangeBlocks m.op.writes⟩
  (s.coreAt m.core).lsu.all fun q => !holdsEngine q f

/-! ## Running an array command -/

/-- Write a tile of a core. -/
def Core.setTile (c : Core) (k : AcReg) (t : Tile) : Core := { c with regs := { c.regs with ac := c.regs.ac.set k t } }

/-- The newest TSTAT value of a tile, visible or not. -/
def Csrs.tstatLast (c : Csrs) (k : Fin 4) : Word := c.tstatNext.foldl (fun v p => if p.1 = k then p.2.1 else v) c.tstat[k]

/-- The drain of an ACCST completes (06 R129): its status becomes visible four core cycles on. -/
def Core.drain (c : Core) (k : AcReg) (nan inf sat unf : Bool) (tag : BitVec 4) : Core :=
  let old := bits (c.csr.tstatLast k).toNat 16 16
  let b (x : Bool) (n : Nat) : Nat := if x then n else 0
  let v := BitVec.ofNat 64 (b nan 1 + b inf 2 + b sat 4 + b unf 8 + tag.toNat * 16 + (old + 1) % 65536 * 65536)
  { c with csr := { c.csr with tstatNext := c.csr.tstatNext ++ [(k, v, c.csr.cycle + 3)] } }

/-- An element of a tile as ACCST converts it. -/
def accstConv (ty : VTy) (sat : Bool) (x : Lane) : Conv := match fmtOf ty with
  | some f => fconv f sat (f32 x)
  | none => iconv 32 true (f32 x)

/-- The bytes that an ACCST stores. -/
def accstBytes (t : Tile) (ty : VTy) (sat : Bool) : List Byte := t.toList.flatMap fun x => bytesOf (ty.width / 8) (accstConv ty sat x).bits

/-- ACCST (R325): the words that have not been written yet. -/
def State.runAccst (s : State) (m : CmaCmd) (k : AcReg) (a : Nat) (ty : VTy) (sat : Bool) : State × List (Nat × Nat) :=
  let t := (s.coreAt m.core).regs.ac[k]
  let cs := t.toList.map (accstConv ty sat)
  let isInf (c : Conv) : Bool := match fmtOf ty with
    | some f => (fdec f c.bits).isInf
    | none => false
  let cnt (f : Conv → Bool) : Nat := (cs.filter f).length
  let anyInf := (t.toList.any fun x => (f32 x).isInf) || cs.any isInf
  let bs := accstBytes t ty sat
  let s := if m.done.isEmpty then s.write a bs
    else ((List.range (bs.length / 4)).filter fun i => !m.done.contains i).foldl (fun s i => s.write (a + 4 * i) (sliceBytes bs (4 * i) 4)) s
  ((s.mend m.core m.ord).updCore m.core fun c =>
      c.drain k (cs.any (·.nan)) anyInf (cs.any (·.sat)) ((fmtOf ty).isSome && cs.any (·.under)) m.tag,
   [(1, cnt (·.nan)), (2, cnt (·.sat)), (3, cnt (·.ovf)), (4, cnt (·.under && (fmtOf ty).isSome))])

/-- The ACCST at the head of a cluster's queue writes some of its 4-byte words before it completes (07 R148): n of them from number lo on,
those that exist, are not written and go where nothing is poisoned. -/
def State.drainSome (s : State) (cl : Nat) (m : CmaCmd) (lo n : Nat) : State :=
  match m.op with
  | .accst k a ty sat =>
    let bs := accstBytes (s.coreAt m.core).regs.ac[k] ty sat
    ((List.range n).map (lo + ·)).foldl (fun s i =>
      match (s.clusterAt cl).cmds.head? with
      | none => s
      | some g =>
        if decide (bs.length / 4 ≤ i) || g.done.contains i || s.poisoned (a + 4 * i) then s
        else
          let s := s.storePart m.core m.ord ((List.range 4).map fun j => (a + 4 * i + j, bs.getD (4 * i + j) 0))
          s.updCluster cl fun c => { c with cmds := { g with done := g.done ++ [i] } :: c.cmds.drop 1 }) (s.orderEngine m.core m.wins m.plain)
  | _ => s

/-- ACCLD (R325): poisoned rows become NaN. -/
def State.accldTile (s : State) (a : Nat) : Tile :=
  let bs := s.read a 4096
  let rows := (List.range 32).map fun m => s.poisonedRange (a + 128 * m) 128
  Tile.make fun m n =>
    if rows.getD m false then nan32
    else
      let x := BitVec.ofNat 32 (fieldAt bs (4 * (32 * m + n)) 4)
      if (f32 x).isNan then nan32 else x

/-- The outcome of a command that needs a CBS copy (R317, R355); `map` says that it translates indices (19 R344). -/
def State.withCopy (s : State) (cl : Nat) (m : CmaCmd) (map : Bool) (f : State → Binding → CbsCopy → State × Outcome) :
    State × Outcome :=
  let b := m.bnd.getD Binding.none
  match s.getCopy cl m.vd b (map && b.needsMap) with
  | .error .dead => (s, ⟨[], none, some (cCBDEAD, m.bn)⟩)
  | .error (.poison _) => (s, ⟨[], none, some (cUE, 1)⟩)
  | .ok (cp, fresh) => f (if fresh then s.putCopy cl cp else s) b cp

/-- Run an array command: the new state and its outcome. -/
def State.runCma (s : State) (cl : Nat) (m : CmaCmd) : State × Outcome :=
  let tile (k : AcReg) : Tile := (s.coreAt m.core).regs.ac[k]
  let bad (rs : List (Nat × Nat)) : Option Nat := (rangeBlocks rs).findSome? fun b => if s.poisoned (64 * b) then some (64 * b) else none
  match m.op with
  | .mmd k a b f =>
    let o := s.mmdTile (tile k) a b f
    (s.updCore m.core fun c => c.setTile k o.tile, ⟨o.recs, bad (m.op.reads Binding.none), none⟩)
  | .tbld a d =>
    s.withCopy cl m false fun s b cp =>
      let (s, rs) := s.tbld cl b cp.cw a d
      (s, ⟨rs, bad (m.op.reads b), none⟩)
  | .mmt k a d =>
    s.withCopy cl m true fun s b cp =>
      match s.gatherRows b cp.map a d 0 with
      | none => (s, ⟨[], none, some (cCBSTALE, m.bn)⟩)
      | some rs =>
        let o := s.mmtTile cl b (tile k) rs d
        (s.updCore m.core fun c => c.setTile k o.tile,
         ⟨o.recs ++ [(6, (rs.filter (·.moved)).length)], bad (m.op.reads b), none⟩)
  | .mmtd k a d e =>
    s.withCopy cl m true fun s b cp =>
      let oldoff : Int := sgn 32 (bits e.toNat 0 32)
      let maskoff : Int := sgn 32 (bits e.toNat 32 32)
      let masks := (List.range 32).map fun r =>
        let p := shiftAddr (blkAt a d r) maskoff
        (natOf (s.read p 4), s.poisoned p)
      let skip (m : Nat) : Bool := (masks.getD m (0, false)).2 || s.rowPoison b a d 0 m || s.rowPoison b a d oldoff m
      match s.gatherRows b cp.map a d 0 skip, s.gatherRows b cp.map a d oldoff skip with
      | some new, some old =>
        let o := s.mmtdTile cl b (tile k) new old masks d
        (s.updCore m.core fun c => c.setTile k o.tile,
         ⟨o.recs ++ [(6, (new.filter (·.moved)).length + (old.filter (·.moved)).length)], bad (m.op.reads b), none⟩)
      | _, _ => (s, ⟨[], none, some (cCBSTALE, m.bn)⟩)
  | .accz k => (s.updCore m.core fun c => c.setTile k (Vector.replicate 1024 0), .fine)
  | .accld k a _ =>
    let t := s.accldTile a
    (s.updCore m.core fun c => c.setTile k t, ⟨[], bad (m.op.reads Binding.none), none⟩)
  | .accst k a ty sat =>
    let (s, rs) := s.runAccst m k a ty sat
    (s, ⟨rs, none, none⟩)

/-- DETAIL of an array command's records: the tile of an ACCST in bits [1:0] (R325), zero otherwise. -/
def CmaOp.detail : CmaOp → Nat
  | .accst k _ _ _ => k.val
  | _ => 0

/-! ## The lease (06 R125, 14 R319) -/

/-- Whether the holder's commands have all completed. -/
def Cluster.idleFor (c : Cluster) (k : Nat) : Bool := c.cmds.all fun m => m.core != k

/-- The next requester round robin after the last holder. -/
def Cluster.nextReq (c : Cluster) : Option Nat :=
  ((List.range 4).map fun i => (c.last % 4 + 1 + i) % 4).findSome? fun j => c.reqs.find? fun k => k % 4 == j

/-- End a core's lease or request. -/
def State.dropLease (s : State) (k : Nat) : State :=
  let s := s.updCluster (clusterOf k) fun c =>
    let c := { c with reqs := c.reqs.filter (· != k) }
    if c.holder = some k then
      if c.idleFor k then { c with holder := none, last := k, ending := false } else { c with ending := true }
    else c
  s.updCore k fun c => { c with lease := .none }

/-- Request the lease (R319). -/
def State.requestLease (s : State) (k : Nat) : State :=
  let c := s.coreAt k
  if c.lease = .none then
    (s.updCluster (clusterOf k) fun m => { m with reqs := if m.reqs.contains k then m.reqs else m.reqs ++ [k] }).updCore k
      fun c => { c with lease := .requested }
  else s

/-- The lease's bound is reached (R125). -/
def State.leaseOver (s : State) (m : Nat) : Bool :=
  let c := s.clusterAt m
  match c.holder with
  | some k => decide (64 ≤ c.turn) || decide (c.turnAt + 4096 ≤ (s.coreAt k).csr.cycle)
  | none => false

/-- Core k's lease is at its bound while another core waits: it passes at the next command boundary (R125). -/
def State.leasePassing (s : State) (k : Nat) : Bool :=
  let c := s.clusterAt (clusterOf k)
  c.holder == some k && s.leaseOver (clusterOf k) && c.reqs.any fun j => j != k

/-- Complete the head of a CMA's queue: its effects, records, report, counter; an ending lease ends with its last command. -/
def State.completeCma (s : State) (cl : Nat) (m : CmaCmd) (rest : List CmaCmd) : State :=
  let s := (s.orderEngine m.core m.wins m.plain).settleRead (rangeBlocks (m.op.reads (m.bnd.getD Binding.none)))
  let (s, o) := s.runCma cl m
  let s := s.updCluster cl fun c =>
    let c := { c with cmds := rest }
    match c.holder with
    | some k => if c.ending && c.idleFor k then { c with holder := none, last := k, ending := false } else c
    | none => c
  let s := s.recordTo m.core m.task (recsOf m.bund 3 o.recs fun _ => m.op.detail)
  let s := match o.stop with
    | some (cause, sub) => s.report m.core m.task cause sub m.bund
    | none => s
  let s := match o.poison with
    | some pa => s.report m.core m.task (s.poisonCause pa) 1 m.bund
    | none => s
  let keep : Bool := match o.stop with
    | some (cause, _) => cause != cUE
    | none => false
  match m.ctr with
  | some c => if keep then s else s.ctrDec m.vd m.gen c m.bund
  | none => s

end Sys2Proof.Machine
end

