-- ==== Sys2Proof/Machine/Copies.lean ====
section
/-! DEFINITION. The issue of a copy (13_isa_memory_sync_and_copy.md R311-R313, Table 13-6; 06 R122-R124, R117, R118): its
checks in order, its tags, the channel it takes; and the reissue of a held channel when its continuation is dispatched. -/

namespace Sys2Proof.Machine

/-- Row 1 of Table 13-6: a reserved bit, or a value Table 13-5 does not allow. -/
def CopyArgs.illegal (a : CopyArgs) : Bool :=
  let ty := bits a.ctr.toNat 20 4
  decide (1 < shpSkind a.shp) || shpDkind a.shp == 3
  || (shpDkind a.shp == 2 && (a.op.coded || a.dst.toNat / 16 != 0))
  || (a.op == .cpyf && (shpSkind a.shp != 0 || shpSstr a.shp != 0 || a.src.toNat / 2 ^ 32 != 0))
  || (if a.op.coded then
        !a.named || bits a.ctr.toNat 19 1 != 0 || bits a.ctr.toNat 24 8 != 0
        || (if a.op = .cpym then ty != 0 else !(decide (6 ≤ ty) && decide (ty ≤ 10)))
      else a.ctr.toNat / 2 ^ 16 != 0)

/-- Every run of a side, as (signed address or offset, length). -/
def CopyArgs.spans (a : CopyArgs) (b : Binding) (source : Bool) (base : Nat) : List (Int × Nat) :=
  sideSpans a.op b a.ctr a.shp source base

/-- Whether a side holds an index tensor. -/
def CopyArgs.indexSide (a : CopyArgs) (source : Bool) : Bool :=
  match a.op with
  | .cpyq => !source
  | .cpyd => source
  | .cpym => true
  | _ => false

/-- A side's register value. -/
def CopyArgs.side (a : CopyArgs) (source : Bool) : Word := if source then a.src else a.dst
/-- A side's kind; a fill has no source side. -/
def CopyArgs.kind (a : CopyArgs) (source : Bool) : Nat := if source then shpSkind a.shp else shpDkind a.shp
/-- The sides that exist: source first. -/
def CopyArgs.sides (a : CopyArgs) : List Bool := if a.op = .cpyf then [false] else [true, false]

/-- Row 3: the first row start of an index side that is not a multiple of 16. -/
def CopyArgs.misaligned (a : CopyArgs) : Option Nat :=
  a.sides.findSome? fun s =>
    if a.indexSide s && a.kind s != 2 then
      ((List.range (shpRows a.shp)).map fun r =>
        (a.side s).toNat + r * (if s then shpSstr a.shp else shpDstr a.shp)).find? fun x => x % 16 != 0
    else none

/-- Row 4: a slice side that does not lie in one slice of the VD. -/
def CopyArgs.badSlice (a : CopyArgs) (d : Vd) (b : Binding) : Option Nat :=
  a.sides.findSome? fun s =>
    if a.kind s != 0 then none
    else
      let c := ((a.side s).toNat - sramBase) / sliceSize
      let lo : Int := (sramBase + c * sliceSize : Nat)
      let ok := decide (sramBase ≤ (a.side s).toNat) && decide (c < d.ncore)
        && (a.spans b s (a.side s).toNat).all fun p => decide (lo ≤ p.1) && decide (p.1 + p.2 ≤ lo + sliceSize)
      if ok then none else some (a.side s).toNat

/-- Handle ID and offset of a handle side. -/
def hidOf (x : Word) : Nat := x.toNat / 2 ^ 32
def hoffOf (x : Word) : Nat := x.toNat % 2 ^ 32

/-- The handle pages a side touches, rising. -/
def CopyArgs.pages (a : CopyArgs) (b : Binding) (s : Bool) : List Nat :=
  (a.spans b s (hoffOf (a.side s))).foldl (fun acc p =>
    if p.2 = 0 then acc
    else (List.range ((p.1.toNat + p.2 - 1) / 65536 + 1 - p.1.toNat / 65536)).foldl
      (fun acc i => insertNat (p.1.toNat / 65536 + i) acc) acc) []

/-- Whether a handle page lies in a window that a request past its re-key point holds: a copy that names it waits at issue (04 R73). -/
def State.pageFrozen (s : State) (h : Handle) (off : Nat) : Bool :=
  match h.phys off with
  | some (_, some w) => s.frozenWin w
  | _ => false

/-- Row 5, step 1: the handle exists, its attribute and the offsets hold, its window pages are still held (R71, R122). -/
def State.badHandle (s : State) (v : Nat) (d : Vd) (a : CopyArgs) (b : Binding) (side : Bool) : Option Trap :=
  if a.kind side != 1 then none
  else
    let x := a.side side
    let spans := a.spans b side (hoffOf x)
    match lookup (hidOf x) d.handles with
    | none => some (mkTrap cACCESS 0 x.toNat)
    | some h =>
      if !(if side then h.rd else h.wr) then some (mkTrap cACCESS 0 x.toNat)
      else match spans.find? fun p => decide (p.1 < 0) || decide ((h.size : Int) < p.1 + p.2) || decide (h.size ≤ p.1.toNat) with
        | some p => some (mkTrap cACCESS 0 (hidOf x * 2 ^ 32 + wrap 32 p.1))
        | none =>
          if (a.pages b side).any fun i => s.pageFrozen h (i * 65536) then some waitTrap
          else match (a.pages b side).find? fun i => !s.pageHeld v h (i * 65536) with
            | some i => some (mkTrap cACCESS 0 (hidOf x * 2 ^ 32 + i * 65536))
            | none => none

/-- Row 5, step 2: a side over more than four handle pages. -/
def CopyArgs.badSpan (a : CopyArgs) (b : Binding) (side : Bool) : Option Trap :=
  if a.kind side = 1 ∧ 4 < (a.pages b side).length then
    some (mkTrap cCOPYSPAN (if side then 0 else 1) (a.side side).toNat)
  else none

/-- Row 5, step 3: the present bits, page by page, each read as a load of core k at its bundle reads it (R123): it waits where that load
would be held; the TLB entries the reads of the bitmap fill. -/
def State.absent (s : State) (k v : Nat) (d : Vd) (h : Handle) (hid : Nat) : List Nat → Except Trap (List TlbEntry)
  | [] => .ok []
  | i :: r =>
    let c := s.coreAt k
    let at' := h.pbmp.toNat + i / 8
    match s.xlate v d c.csr.mode c.tlb at' .rd with
    | .error t => .error (if t.code = 0 then t else { t with eval := BitVec.ofNat 64 at' })
    | .ok x =>
      if s.localHeldBy k [x.pa] x.win then .error waitTrap
      else if s.poisoned x.pa then .error (mkTrap cUE 0 at')
      else if (s.byteBy k x.pa).getLsbD (i % 8) then
        match s.absent k v d h hid r with
        | .ok l => .ok (match x.fill with | some e => if l.contains e then l else e :: l | none => l)
        | .error t => .error t
      else .error (mkTrap cHANDLEABSENT 0 (hid * 2 ^ 32 + i * 65536))

/-- Step 3 for both sides. -/
def State.absentSides (s : State) (k v : Nat) (d : Vd) (a : CopyArgs) (b : Binding) : List Bool → Except Trap (List TlbEntry)
  | [] => .ok []
  | side :: r =>
    if a.kind side != 1 then s.absentSides k v d a b r
    else match lookup (hidOf (a.side side)) d.handles with
      | none => s.absentSides k v d a b r
      | some h =>
        match s.absent k v d h (hidOf (a.side side)) (a.pages b side) with
        | .error t => .error t
        | .ok l =>
          match s.absentSides k v d a b r with
          | .ok m => .ok (l ++ m.filter fun e => !l.contains e)
          | .error t => .error t

/-- Row 6: a buffer that is disabled or too small. -/
def CopyArgs.badBuffer (a : CopyArgs) (c : Core) : Option Trap :=
  if shpDkind a.shp = 2 then
    let k := a.dst.toNat % 16
    let b := c.regs.cb[Fin.ofNat 16 k]
    if b.nslot = 0 ∨ b.slotsz < (shpRows a.shp - 1) * shpDstr a.shp + 4 * shpLen a.shp then
      some (mkTrap cAGBOUNDS (0x10 + k) 0)
    else none
  else none

/-- The checks of Table 13-6 for core k, in order: the TLB entries they fill, or the trap. `word` is the slot's word. -/
def State.copyCheck (s : State) (k v : Nat) (d : Vd) (a : CopyArgs) (word : Nat) : Except Trap (List TlbEntry) :=
  let c := s.coreAt k
  let n : BReg := Fin.ofNat 8 (ctrBind a.ctr)
  let b := if a.op.coded then c.regs.b[n] else Binding.none
  let early : Option Trap :=
    (if a.illegal then some (mkTrap cILLEGAL 4 word) else none)
    <|> (if a.op.coded && !b.valid then some (mkTrap cCBDEAD n.val 0) else none)
    <|> (a.misaligned.map fun x => mkTrap cMISALIGN 0 x)
    <|> ((a.badSlice d b).map fun x => mkTrap cACCESS 0 x)
    <|> (a.sides.findSome? fun side => s.badHandle v d a b side)
    <|> (a.sides.findSome? fun side => a.badSpan b side)
  match early with
  | some t => .error t
  | none =>
    match s.absentSides k v d a b a.sides with
    | .error t => .error t
    | .ok l =>
      match a.badBuffer c with
      | some t => .error t
      | none =>
        if a.named && !d.ctrOk (a.ctr.toNat % 65536) then .error (mkTrap cCTRBAD 0 (a.ctr.toNat % 65536)) else .ok l

/-- The fence tags of a copy (07 R142): kind 0 handles by the virtual address they reach, kinds 1 and 2 in handle form, a
buffer by all its slots. -/
def State.copyTags (s : State) (k : Nat) (d : Vd) (a : CopyArgs) (b : Binding) : BitVec 8 :=
  let c := s.coreAt k
  a.sides.foldl (fun t side =>
    let x := a.side side
    let tag : BitVec 8 :=
      match a.kind side with
      | 0 => (a.spans b side x.toNat).foldl (fun t p => t ||| c.tagsOf p.1.toNat p.2) 0
      | 1 =>
        match lookup (hidOf x) d.handles with
        | none => 0
        | some h => (a.spans b side (hoffOf x)).foldl (fun t p =>
            t ||| (if h.kind = .device then c.tagsOf (h.target.toNat + p.1.toNat) p.2
                   else c.tagsBy fun r => r.matchesHandle (hidOf x) p.1.toNat p.2)) 0
      | _ =>
        let q := c.regs.cb[Fin.ofNat 16 (x.toNat % 16)]
        c.tagsOf q.base.toNat (q.nslot * q.slotsz)
    t ||| tag) 0

/-- A TLB entry enters core k's TLB after a miss (R121). -/
def State.fillOn (s : State) (k : Nat) (l : List TlbEntry) : State :=
  l.foldl (fun s e =>
    let s' := s.draw
    s'.updCore k fun c => { c.freeze (Config.freezeCycles s.fresh) with tlb := fillTlb s.fresh c.tlb e }) s

/-- The lowest free channel number. -/
def Core.freeChan (c : Core) : Fin 16 :=
  Fin.ofNat 16 (((List.range 16).find? fun i => c.chans.all fun h => h.id.val != i).getD 0)

/-- The bytes of present bitmaps that the checks of a copy have read. -/
def State.bitmapBytes (s : State) (k v : Nat) (d : Vd) (a : CopyArgs) (b : Binding) : List Nat :=
  let c := s.coreAt k
  a.sides.flatMap fun side =>
    if a.kind side != 1 then []
    else match lookup (hidOf (a.side side)) d.handles with
      | none => []
      | some h => (a.pages b side).filterMap fun i => match s.xlate v d c.csr.mode c.tlb (h.pbmp.toNat + i / 8) .rd with
        | .ok x => some x.pa
        | .error _ => none

/-- The TLB entries that reading those bytes fills. -/
def State.bitmapFills (s : State) (k v : Nat) (d : Vd) (a : CopyArgs) (b : Binding) : List TlbEntry :=
  let c := s.coreAt k
  (a.sides.flatMap fun side =>
    if a.kind side != 1 then []
    else match lookup (hidOf (a.side side)) d.handles with
      | none => []
      | some h => (a.pages b side).filterMap fun i => match s.xlate v d c.csr.mode c.tlb (h.pbmp.toNat + i / 8) .rd with
        | .ok x => x.fill
        | .error _ => none).eraseDups

/-- The windows that the sides of a copy name, none for a page outside windows. -/
def CopyArgs.domains (a : CopyArgs) (d : Vd) (b : Binding) : List (Option Nat) :=
  a.sides.flatMap fun side =>
    if a.kind side != 1 then [none]
    else match lookup (hidOf (a.side side)) d.handles with
      | none => [none]
      | some h => (a.pages b side).map fun i => (h.phys (i * 65536)).bind (·.2)

/-- The window that holds the entry of a binding, if any. -/
def State.entryWin (s : State) (v : Nat) (b : Binding) : Option Nat :=
  match s.vd? v with
  | none => none
  | some d => match s.xlateVd v (d.pedbase.toNat + 64 * b.entry.toNat) .rd with
    | .ok x => x.win
    | .error _ => none

/-- How far a copy has to go with a peer: its reads first, then its writes (01 R18). -/
def CopyArgs.peerStage (a : CopyArgs) (d : Vd) : PeerStage :=
  let peer (side : Bool) : Bool := a.kind side == 1 && (lookup (hidOf (a.side side)) d.handles).any fun h => h.kind == .peer
  if a.op != .cpyf && peer true then .read else if peer false then .write else .idle

/-- A copy that has passed its checks takes a channel of core k and forks (R124, R147). A copy into a buffer takes its slot when it starts to
move data, at once where nothing holds it and one is free (R117). -/
def State.startCopy (s : State) (k v : Nat) (d : Vd) (a : CopyArgs) : State :=
  let c := s.coreAt k
  let n : BReg := Fin.ofNat 8 (ctrBind a.ctr)
  let b := if a.op.coded then c.regs.b[n] else Binding.none
  let ws := a.domains d b ++ if a.op.coded then [s.entryWin v b] else []
  let h : Chan :=
    ⟨c.freeChan, c.serial, a.op, a.dst, a.src, a.shp, a.ctr, a.named, a.bund, if a.op.coded then some b else none, v, d.gen,
     shpDkind a.shp == 2, none, s.copyTags k d a b, c.taskId, c.serial, ws.filterMap id, ws.contains none, [], none, a.peerStage d, []⟩
  (s.setCore k { c with serial := c.serial + 1, chans := c.chans ++ [h] }).beginCopies k

/-- The copy that a channel holds, as its bundle named it. -/
def Chan.args (h : Chan) : CopyArgs := ⟨h.op, h.dst, h.src, h.shp, h.ctr, h.named, h.bund⟩

/-- A held channel as a frame holds it (09 Table 9-3). -/
def CopyArgs.heldBytes (a : CopyArgs) : List Byte :=
  bytesOf 8 a.dst.toNat ++ bytesOf 8 a.src.toNat ++ bytesOf 8 a.shp.toNat ++ bytesOf 8 a.ctr.toNat ++ bytesOf 8 a.bund.toNat
    ++ bytesOf 24 0

/-- The instruction in slot 3 of the bundle at a bundle address of a VD's code, if it is there. -/
def State.copyInstr (s : State) (v : Nat) (bund : Word) : Option Instr :=
  match (s.vd? v).bind fun d => d.code? (BitVec.ofNat 32 (bund.toNat / 2 ^ 32)) with
  | none => none
  | some o =>
    match s.readVd v (o.va + o.off + 16 * (bund.toNat % 2 ^ 22)) 16 with
    | none => none
    | some bs => match decodeBytes bs with
      | .slots is => (is.find? fun p => p.1 == 3).map (·.2)
      | .illegal _ _ _ _ => none

/-- A held channel read from a frame. Its opcode and whether it names a counter are not saved: the copy at its saved bundle address says
them, and where that is none, a fill is told by SKIND 0 with SRC[63:32] zero and a saved counter of 0 names none (log entry 21). -/
def State.heldArgs (s : State) (v : Nat) (b : List Byte) : CopyArgs :=
  let src := BitVec.ofNat 64 (fieldAt b 8 8)
  let shp := BitVec.ofNat 64 (fieldAt b 16 8)
  let ctr := BitVec.ofNat 64 (fieldAt b 24 8)
  let bund := BitVec.ofNat 64 (fieldAt b 32 8)
  let (op, named) : CopyOp × Bool := match s.copyInstr v bund with
    | some (.cpy _ _ _ _ t) => (.cpy, t != 0)
    | some (.cpyf _ _ _ _ t) => (.cpyf, t != 0)
    | _ => (if shpSkind shp = 0 ∧ src.toNat / 2 ^ 32 = 0 then .cpyf else .cpy, ctr != 0)
  ⟨op, BitVec.ofNat 64 (fieldAt b 0 8), src, shp, ctr, named, bund⟩

/-- The reissue of a held channel on core k (R118 step 3), a channel being free and its checks waiting for nothing: it is checked again; a
failed check is reported imprecisely and its counter decremented with nothing written. -/
def State.reissue (s : State) (k v : Nat) (d : Vd) (a : CopyArgs) : State :=
  match s.copyCheck k v d a 0 with
  | .ok l => (s.fillOn k l).startCopy k v d a
  | .error t =>
    let s := s.report k (s.coreAt k).taskId t.code t.sub a.bund
    if a.named then s.ctrDec v d.gen (a.ctr.setWidth 16) a.bund else s

/-- Whether core k can reissue a held channel now: a channel is free (R124) and its checks wait for nothing (R123, 04 R73). -/
def State.mayReissue (s : State) (k v : Nat) (d : Vd) (a : CopyArgs) : Bool :=
  decide ((s.coreAt k).chans.length < 16) && (match s.copyCheck k v d a 0 with
    | .ok _ => true
    | .error t => t.code != 0)

/-- The first of the held channels that core k has still to reissue is reissued, if it can be. -/
def State.reissueNext (s : State) (k : Nat) : Option State :=
  match (s.coreAt k).again, (s.coreAt k).task with
  | a :: r, some t =>
    match s.vd? t.vd with
    | some d => if s.mayReissue k t.vd d a then some ((s.updCore k fun c => { c with again := r }).reissue k t.vd d a) else none
    | none => none
  | _, _ => none

/-- The held channels are reissued in order as far as they can be; the rest wait, and with them the task's first bundle (R118). The fuel is
their number. -/
def State.reissueFuel (k : Nat) : Nat → State → State
  | 0, s => s
  | n + 1, s => match s.reissueNext k with
    | some s' => State.reissueFuel k n s'
    | none => s

end Sys2Proof.Machine
end

