-- ==== Sys2Proof/Machine/Context.lean ====
section
/-! DEFINITION. The context frame (09_traps_and_contexts.md R190-R195, R201, R335, Tables 9-3, 9-4): saving a task, restoring
it, the fresh start (05 R83, R84), and dispatch (05 R93, R198; 06 R112, R118; 14 R320). -/

namespace Sys2Proof.Machine

/-! ## Loop state (11 Table 11-6) -/

/-- Two steps as a word. -/
def Steps.pack (s : Steps) : Nat :=
  let one (x : Option (SReg × SReg)) : Nat := match x with
    | some (d, a) => d.val + 32 * a.val + 1024
    | .none => 0
  one s.s0 + 2048 * one s.s1

/-- Two steps from a word. -/
def Steps.unpack (w : Nat) : Steps :=
  let one (x : Nat) : Option (SReg × SReg) :=
    if bits x 10 1 = 1 then some (Fin.ofNat 32 (bits x 0 5), Fin.ofNat 32 (bits x 5 5)) else .none
  ⟨one w, one (w / 2048)⟩

/-- The 64 bytes of the loop state. -/
def LoopState.pack (l : LoopState) : List Byte :=
  let lev (j : Nat) : List Byte := match l.levels[j]? with
    | some x => bytesOf 4 (x.start % 2 ^ 22 + x.lenM1 % 1024 * 2 ^ 22) ++ bytesOf 4 x.count ++ bytesOf 4 x.steps.pack
    | .none => bytesOf 12 0
  lev 0 ++ lev 1 ++ lev 2 ++ lev 3 ++ bytesOf 4 l.armed.pack ++ bytesOf 1 l.levels.length ++ bytesOf 11 0

/-- The loop state from its bytes. -/
def LoopState.unpack (b : List Byte) : LoopState :=
  ⟨(List.range (Min.min 4 (fieldAt b 52 1 % 8))).map fun j =>
      ⟨bits (fieldAt b (12 * j) 4) 0 22, bits (fieldAt b (12 * j) 4) 22 10, fieldAt b (12 * j + 4) 4,
       Steps.unpack (fieldAt b (12 * j + 8) 4)⟩,
   Steps.unpack (fieldAt b 48 4)⟩

/-! ## Statistics records (06 Table 6-7) -/

/-- A record's 16 bytes. -/
def StqRec.pack (r : StqRec) : List Byte :=
  bytesOf 4 (r.bund.toNat + r.slot.val * 2 ^ 22 + r.kind.toNat * 2 ^ 24) ++ bytesOf 4 r.count.toNat ++ bytesOf 8 r.detail.toNat

/-- A record from its bytes. -/
def StqRec.unpack (b : List Byte) : StqRec :=
  let w := fieldAt b 0 4
  ⟨BitVec.ofNat 22 w, Fin.ofNat 4 (bits w 22 2), BitVec.ofNat 8 (bits w 24 8), BitVec.ofNat 32 (fieldAt b 4 4),
   BitVec.ofNat 64 (fieldAt b 8 8)⟩

/-! ## Shadow entries (Table 9-3) -/

/-- The latch pair a result of a slot enters (06 R107). -/
def latchPair (slot : Fin 4) : Fin 2 := if slot = 1 then 0 else 1

/-- DEST of a shadow entry; none for a result of latency 1, which is never owed across a boundary. -/
def Dest.code : Dest → Option Nat
  | .sreg r => some r.val
  | .queue k _ => some (0x1000 + k.val)
  | .flag r => some (0x2000 + r.val)
  | .mask r => some (0x3000 + r.val)
  | .next k => some (0x4000 + k.val)
  | .latch => some 0x5000
  | .port p5 _ _ => some (0x6000 + if p5 then 5 else 4)
  | _ => none

/-- A shadow entry's 144 bytes; a poisoned one keeps its load's address in its data (log entry 22). -/
def Owed.shadowBytes (e : Owed) (order : Nat) : List Byte :=
  let d : Nat := if e.poison then e.eval.toNat else (e.data.getD 0).toNat
  let (addr, pad) : Nat × Bool := match e.dest with
    | .port _ a p => (a.toNat, p)
    | _ => (0, false)
  bytesOf 128 d ++ bytesOf 2 ((e.dest.code).getD 0) ++ bytesOf 2 e.due ++ bytesOf 1 e.slot.val ++ bytesOf 1 order
    ++ bytesOf 1 ((if e.poison then 1 else 0) + if pad then 2 else 0) ++ bytesOf 1 0 ++ bytesOf 8 addr

/-- A shadow entry from its bytes; queue entries get their identity from `qid`. -/
def shadowOf (b : List Byte) (ord : Nat) (qid : Fin 16 → Nat) : Owed :=
  let w := fieldAt b 128 2
  let n := w % 256
  let slot : Fin 4 := Fin.ofNat 4 (fieldAt b 132 1)
  let fl := fieldAt b 134 1
  let kind := w / 4096
  let dest : Dest := match kind with
    | 0 => .sreg (Fin.ofNat 32 n)
    | 1 => .queue (Fin.ofNat 16 n) (qid (Fin.ofNat 16 n))
    | 2 => .flag (Fin.ofNat 16 n)
    | 3 => .mask (Fin.ofNat 4 n)
    | 4 => .next (Fin.ofNat 4 n)
    | 5 => .latch
    | _ => .port (n == 5) (BitVec.ofNat 64 (fieldAt b 136 8)) (bits fl 1 1 == 1)
  let v := vecOf (b.take 128)
  let p := fl % 2 == 1
  ⟨ord, fieldAt b 130 2, slot, dest, some (if p then 0 else v), false, 0, p, if p then v.setWidth 64 else 0,
   if kind = 1 || kind = 5 || kind = 6 then some (latchPair slot) else none, [], none⟩

/-! ## Saving -/

/-- What a save writes beside the registers: KIND, POISON, the live-state mask, PC and LIVE of the record, the loop state, the
latches and shadow entries of an urgent save, the held channels. -/
structure SaveArgs where
  kind    : Nat
  poison  : Nat
  mask    : Word
  pc      : Nat
  live    : Nat
  loops   : LoopState
  latches : Vector (Option Vec) 4
  shadow  : List Owed
  held    : List CopyArgs

/-- The areas of a save, as (offset in the frame, bytes): Tables 9-3 and 9-4. ACCMASK, ACCTAG and the tile area are left as
they stand (R335). -/
def saveAreas (c : Core) (rec : Cont) (a : SaveArgs) : List (Nat × List Byte) :=
  let m (k : Nat) : Bool := a.mask.getLsbD k
  let r := c.regs
  let sh := a.shadow.filter fun e => (e.dest.code).isSome
  let qst (k : Fin 16) : Nat :=
    if m (32 + k.val) then
      (r.q[k]).length + 8 * digits 1 (fun i => match r.q[k][i]? with
        | some e => if e.data.isSome then 1 else 0
        | none => 0) 4
    else 0
  let latv := digits 1 (fun i => if h : i < 4 then (if a.latches[i].isSome then 1 else 0) else 0) 4
  let when' (b : Bool) (l : List (Nat × List Byte)) : List (Nat × List Byte) := if b then l else []
  ((List.finRange 32).flatMap fun (k : Fin 32) => when' (k != 0 && m (k.val - 1)) [(0x80 + 8 * (k.val - 1), bytesOf 8 (r.s[k]).toNat)])
  ++ when' (m 31) [(0x180, bytesOf 2 (digits 1 (fun i => if h : i < 16 then (if i = 0 || r.f[i] then 1 else 0) else 0) 16)),
      (0x188, r.m.toList.flatMap fun x => bytesOf 4 x.toNat)]
  ++ [(0x1A0, r.n.toList.flatMap fun x => bytesOf 8 x.toNat)]
  ++ when' (m 59) [(0x1C0, a.loops.pack)]
  ++ ((List.finRange 8).flatMap fun (k : Fin 8) => when' (m (48 + k.val)) [(0x200 + 16 * k.val, bytesOf 16 (r.b[k]).pack)])
  ++ when' (m 56) [(0x280, r.fr.toList.flatMap fun x => bytesOf 8 x.lo.toNat ++ bytesOf 8 x.hi.toNat)]
  ++ when' (m 57) [(0x300, r.ag.toList.flatMap fun x => bytesOf 64 x.toNat)]
  ++ when' (m 58) [(0x480, r.cb.toList.flatMap fun x => x.pack)]
  ++ when' (!a.held.isEmpty) [(0x680, (a.held.take 16).flatMap CopyArgs.heldBytes)]
  ++ when' (m 60 && !r.stq.isEmpty) [(0xA80, r.stq.flatMap StqRec.pack)]
  ++ ((List.finRange 16).flatMap fun (k : Fin 16) => when' (m (32 + k.val) && !(r.q[k]).isEmpty)
      [(0xE80 + 0x200 * k.val, (r.q[k]).flatMap fun e => vecBytes (e.data.getD 0))])
  ++ when' (a.kind == 1) [(0x2E80, a.latches.toList.flatMap fun x => vecBytes (x.getD 0))]
  ++ when' (a.kind == 1 && !sh.isEmpty)
      [(0x3080, (List.range sh.length).flatMap fun i => match sh[i]? with
        | some e => e.shadowBytes i
        | none => [])]
  ++ [(0x40, bytesOf 1 a.kind ++ bytesOf 1 a.poison),
      (0x43, bytesOf 1 (Min.min 16 a.held.length) ++ bytesOf 1 (if a.kind = 1 then sh.length else 0)
        ++ bytesOf 1 (if a.kind = 1 then latv else 0)),
      (0x48, bytesOf 8 { c.csr with mode := false }.status.toNat ++ bytesOf 8 (a.mask.toNat % 2 ^ 61)
        ++ bytesOf 8 r.stqcnt.toNat ++ ((List.finRange 16).flatMap fun (k : Fin 16) => bytesOf 1 (qst k)) ++ bytesOf 16 0),
      (0, rec.toBytes)]

/-- The continuation record a save writes (05 R84, 14 R332). -/
def Task.record (t : Task) (k pc live : Nat) (code : BitVec 32) : Cont :=
  { t.cont with
    code := code
    pc := BitVec.ofNat 32 pc
    live := BitVec.ofNat 16 live
    vd := BitVec.ofNat 8 t.vd
    gen := t.gen
    flags := t.cont.flags ||| 2
    shep := shepOf (dieOf k) (k + 1) ((t.cont.shepCursor.map (· + 1)).getD 0) t.count t.tiles }

/-- POISON in the save header of a frame is set (R201, R202), `areas` being what is written to it: a header that is poisoned is written whole,
its other bytes as memory holds them (DESIGN CHOICE, log entry 70). -/
def State.markFrame (s : State) (v fr poison : Nat) (areas : List (Nat × List Byte)) : State :=
  let p : Byte := BitVec.ofNat 8 poison
  if s.poisonVd v (fr + 0x40) 64 then
    let old := (s.readVd v (fr + 0x40) 64).getD (bytesOf 64 0)
    let cells := areas.flatMap fun p => (List.range p.2.length).map fun i => (p.1 + i, p.2.getD i 0)
    s.writeVd v (fr + 0x40) ((List.range 64).map fun i =>
      if i = 1 then p else (lookup (0x40 + i) cells).getD (old.getD i 0))
  else s.writeVd v (fr + 0x41) [p]

/-- A suspended task keeps its name while its frame holds it; a continuation that ends, or starts afresh in the frame, drops it. -/
def Vd.keepTask (d : Vd) (frame id : Nat) : Vd := { d with tasks := put frame id d.tasks }
def Vd.dropTask (d : Vd) (frame : Nat) : Vd := { d with tasks := del frame d.tasks }

/-- Save core k's task in its frame: the record, and whether it was saved. An unmapped frame loses it (R84, R201); a save that
meets an uncorrectable error sets POISON to 1, posts class 3 code 16h and has the VD paused (R201); that of a double trap keeps POISON 2
(R202; DESIGN CHOICE, log entry 70). -/
def State.saveTask (s : State) (k : Nat) (t : Task) (a : SaveArgs) : State × Option Cont :=
  let c := s.unbindFlags (s.coreAt k)
  let rec' := t.record k a.pc a.live t.cont.code
  let fr := t.cont.frame.toNat
  let areas := saveAreas c rec' a
  if areas.all fun p => s.mappedVd t.vd (fr + p.1) p.2.length then
    let s := areas.foldl (fun s p => s.writeVd t.vd (fr + p.1) p.2) s
    let s := s.updVd t.vd fun d => d.keepTask fr t.id
    if areas.any fun p => s.poisonVd t.vd (fr + p.1) p.2.length then
      let s := s.markFrame t.vd fr (Max.max 1 a.poison) areas
      let s := s.raiseEvent t.vd 3 0x16 (bytesOf 8 fr)
      (s.updVd t.vd fun d => { d with life := d.life <|> some .firmware }, some rec')
    else (s, some rec')
  else (s.loseCont t.vd t.cont.frame, none)

/-! ## Restoring -/

/-- The registers a fresh start and a restore begin from: as a scrub leaves them, but for the accumulators and tags (05 R83) and
the core's barriers (13 R306). -/
def Regs.blank (r : Regs) : Regs := { Regs.scrubbed with ac := r.ac, tag := r.tag, bars := r.bars }

/-- The queues of a frame: entries in order, with fresh identities from `id0`. -/
def queueOf (b : List Byte) (k id0 : Nat) : List QEntry :=
  let st := fieldAt b (0x60 + k) 1
  (List.range (Min.min 4 (st % 8))).map fun i =>
    ⟨id0 + 4 * k + i, if bits st (3 + i) 1 = 1 then some (vecOf (sliceBytes b (0xE80 + 0x200 * k + 0x80 * i) 128)) else none⟩

/-- The entries of a queue that have not landed, in order. -/
def unlanded (q : List QEntry) : List Nat := (q.filter fun e => e.data.isNone).map (·.id)

/-- The shadow entries of a frame; the j-th entry of a queue takes the j-th of its unlanded reservations. -/
def shadowsOf (q : Vector (List QEntry) 16) (id0 : Nat) : Nat → List (List Byte) → List Owed → List Owed
  | _, [], acc => acc
  | i, b :: rest, acc =>
    let seen (k : Fin 16) : Nat := (acc.filter fun e => match e.dest with
      | .queue j _ => j == k
      | _ => false).length
    shadowsOf q id0 (i + 1) rest (acc ++ [shadowOf b (id0 + i) fun k => ((unlanded q[k])[seen k]?).getD 0])

/-- The ranges of a frame that a restore reads. -/
def restoreRanges (h : List Byte) : List (Nat × Nat) :=
  let mask := fieldAt h 0x50 8
  let m (k : Nat) : Bool := bits mask k 1 == 1
  let when' (b : Bool) (l : List (Nat × Nat)) : List (Nat × Nat) := if b then l else []
  let nstq := Min.min 64 (fieldAt h 0x58 8 % 128)
  [(0, 64), (0x40, 64), (0x1A0, 32)] ++ when' (mask % 2 ^ 31 != 0) [(0x80, 248)] ++ when' (m 31) [(0x180, 32)]
    ++ when' (m 59) [(0x1C0, 64)] ++ ((List.range 8).flatMap fun k => when' (m (48 + k)) [(0x200 + 16 * k, 16)])
    ++ when' (m 56) [(0x280, 128)] ++ when' (m 57) [(0x300, 384)] ++ when' (m 58) [(0x480, 512)]
    ++ when' (fieldAt h 0x43 1 != 0) [(0x680, 64 * Min.min 16 (fieldAt h 0x43 1))]
    ++ when' (m 60 && nstq != 0) [(0xA80, 16 * nstq)]
    ++ ((List.range 16).flatMap fun k => when' (m (32 + k) && fieldAt h (0x60 + k) 1 % 8 != 0)
        [(0xE80 + 0x200 * k, 0x80 * Min.min 4 (fieldAt h (0x60 + k) 1 % 8))])
    ++ when' (fieldAt h 0x40 1 == 1) ((0x2E80, 512) :: when' (fieldAt h 0x44 1 != 0) [(0x3080, 144 * Min.min 96 (fieldAt h 0x44 1))])

/-- The bytes of a frame, with zeros where they are not mapped. -/
def State.frameBytes (s : State) (v fr : Nat) (h : List Byte) : List Byte :=
  let n := if fieldAt h 0x40 1 = 1 then 0x3080 + 144 * Min.min 96 (fieldAt h 0x44 1) else 0x2E80
  (chunks fr n).flatMap fun p => match s.xlateVd v p.1 .rd with
    | .ok x => s.read x.pa p.2
    | .error _ => bytesOf p.2 0

/-- The registers of a restored context (R191). -/
def restoreRegs (r : Regs) (b : List Byte) (id0 : Nat) : Regs :=
  let mask := fieldAt b 0x50 8
  let m (k : Nat) : Bool := bits mask k 1 == 1
  let z := r.blank
  let stq := fieldAt b 0x58 8
  { z with
    s := Vector.ofFn fun k => if k.val != 0 && m (k.val - 1) then BitVec.ofNat 64 (fieldAt b (0x80 + 8 * (k.val - 1)) 8) else 0
    f := if m 31 then Vector.ofFn fun k => bits (fieldAt b 0x180 2) k.val 1 == 1 else z.f
    m := if m 31 then Vector.ofFn fun k => BitVec.ofNat 32 (fieldAt b (0x188 + 4 * k.val) 4) else z.m
    n := Vector.ofFn fun k => BitVec.ofNat 64 (fieldAt b (0x1A0 + 8 * k.val) 8)
    loops := if m 59 then LoopState.unpack (sliceBytes b 0x1C0 64) else z.loops
    b := Vector.ofFn fun k => if m (48 + k.val) then Binding.unpack (fieldAt b (0x200 + 16 * k.val) 16) else Binding.none
    fr := if m 56 then Vector.ofFn fun k => FenceRange.ofWords (BitVec.ofNat 64 (fieldAt b (0x280 + 16 * k.val) 8))
        (BitVec.ofNat 64 (fieldAt b (0x288 + 16 * k.val) 8)) else z.fr
    ag := if m 57 then Vector.ofFn fun k => agMasked (BitVec.ofNat 512 (fieldAt b (0x300 + 64 * k.val) 64)) else z.ag
    cb := if m 58 then Vector.ofFn fun k => CbBuf.unpack (sliceBytes b (0x480 + 32 * k.val) 32) else z.cb
    q := Vector.ofFn fun k => if m (32 + k.val) then queueOf b k.val id0 else []
    stq := if m 60 then (List.range (Min.min 64 (stq % 128))).map fun i => StqRec.unpack (sliceBytes b (0xA80 + 16 * i) 16) else []
    lost := if m 60 then BitVec.ofNat 16 (stq / 65536) else 0
    l := if fieldAt b 0x40 1 = 1 then Vector.ofFn fun k =>
        if bits (fieldAt b 0x45 1) k.val 1 = 1 then some (vecOf (sliceBytes b (0x2E80 + 128 * k.val) 128)) else none
      else z.l }

/-- EVEC as dispatch loads it (R182): a bundle address, or 0 where the block names no supervisor. -/
def State.loadEvec (s : State) (v : Nat) : Word :=
  match s.vd? v, s.readVd v (hbmBase + 0x1FF000) 8 with
  | some d, some b =>
    let h := BitVec.ofNat 32 (fieldAt b 0 4)
    let e := fieldAt b 4 4
    match d.code? h with
    | some o => if h != 0 && decide (e < o.nbund) then BitVec.ofNat 64 (h.toNat * 2 ^ 32 + e) else 0
    | none => 0
  | _, _ => 0

/-- The supervisor a bundle address names, if any (R182). -/
def State.supervisor (s : State) (v : Nat) (evec : Word) : Option (BitVec 32 × Nat) :=
  let h := BitVec.ofNat 32 (evec.toNat / 2 ^ 32)
  match (s.vd? v).bind fun d => d.code? h with
  | some o => if h != 0 && decide (evec.toNat % 2 ^ 22 < o.nbund) then some (h, evec.toNat % 2 ^ 22) else none
  | none => none

/-! ## Small progress of one core's operations -/

/-- The answer to a TNEXT is given to core k, if the Shepherd has one (05 R101): the owed result gets its data, a tile taken
leaves its queue and frees its slot. -/
def State.answerTnext (s : State) (k : Nat) : Option State :=
  let c := s.coreAt k
  let pending (e : Owed) : Bool := e.data.isNone && (match e.dest with
    | .next _ => true
    | _ => false)
  match (c.owed ++ c.shadow).find? pending, c.task with
  | some e, some t =>
    match (s.vd? t.vd).bind fun d => s.tnextFor d t.cont.shepCursor k with
    | none => none
    | some (w, tile) =>
      let c' := c.arrive e.ord (w.setWidth 1024) false
      match tile with
      | none => some (s.setCore k c')
      | some r =>
        let s := s.setCore k { c' with task := some { t with tiles := t.tiles + 1 } }
        some ((s.updVd t.vd fun d => { d with ready := d.ready.erase r }).settle t.vd)
  | _, _ => none

/-- The oldest request of core k that may be performed. -/
def State.nextRequest (s : State) (k : Nat) : Option Req := (s.coreAt k).lsu.find? fun r => s.canPerform k r

/-- The oldest copy of core k that has requests to a peer to send. -/
def State.nextAsk (s : State) (k : Nat) : Option Chan := (s.coreAt k).chans.find? fun h => s.asksPeer k h

/-- The oldest copy of core k that may move its data. -/
def State.nextCopy (s : State) (k : Nat) : Option Chan := (s.coreAt k).chans.find? fun h => s.copyReady k h

/-- The head of a cluster's command queue, if it may run. -/
def State.nextCma (s : State) (cl : Nat) : Option (CmaCmd × List CmaCmd) :=
  match (s.clusterAt cl).cmds with
  | [] => none
  | m :: rest => if s.cmaReady m then some (m, rest) else none

/-- The launch of a core whose TNEXT has no answer generates its next tile (05 R85, R101). -/
def State.feedTnext (s : State) (k : Nat) : Option State :=
  let c := s.coreAt k
  let pending : Bool := (c.owed ++ c.shadow).any fun e => e.data.isNone && (match e.dest with
    | .next _ => true
    | _ => false)
  match c.task with
  | some t => if pending then (s.nextTile t.vd).map (·.2) else none
  | none => none

/-- One operation that core k has under way is performed: a TNEXT answer, else the oldest request, else the requests of a copy to a peer, else
the oldest copy, else the head of its cluster's commands. -/
def State.progress (s : State) (k : Nat) : Option State :=
  (s.answerTnext k)
  <|> (s.feedTnext k)
  <|> ((s.nextRequest k).map fun r => s.performed k r)
  <|> ((s.nextAsk k).map fun h => s.sendPeer k h)
  <|> ((s.nextCopy k).map fun h => s.completeCopy k h)
  <|> (match s.nextCma (clusterOf k) with
       | some (m, rest) => some (s.completeCma (clusterOf k) m rest)
       | none => none)

/-- Operations of core k are performed until a condition holds, or none can be (the fuel bounds them). -/
def State.drainFuel (k : Nat) (done : State → Bool) : Nat → State → State
  | 0, s => s
  | n + 1, s =>
    if done s then s
    else match s.progress k with
      | some s' => State.drainFuel k done n s'
      | none => s

/-- The number of operations that could be drained. -/
def State.drainCount (s : State) (k : Nat) : Nat :=
  (s.coreAt k).lsu.length + 3 * (s.coreAt k).chans.length + (s.clusterAt (clusterOf k)).cmds.length
    + (s.coreAt k).owed.length + (s.coreAt k).shadow.length + 8

/-- Drain core k. -/
def State.drain (s : State) (k : Nat) (done : State → Bool) : State := State.drainFuel k done (s.drainCount k) s

/-! ## Dispatch -/

/-- A ready entry leaves its queue, its slot frees, and its latency is recorded (05 R95, R102). -/
def State.takeReady (s : State) (v : Nat) (r : Ready) : State :=
  let s := s.updVd v fun d =>
    let d := { d with ready := d.ready.erase r }
    if r.cont.cls ≤ 3 then d.sample (s.pkg.timeNs - r.since) else d
  s.settle v

/-- ACCOWN of every other core of the VD that names the dispatched context becomes invalid (R198). -/
def State.disownElsewhere (s : State) (v k ctx : Nat) : State :=
  match s.vd? v with
  | none => s
  | some d => d.cores.foldl (fun s j =>
      if j != k && (s.coreAt j).ownsCtx ctx then
        s.updCore j fun c => { c with csr := { c.csr with accown := c.csr.accown &&& 0x03FFFFFFFFFFFFFF } }
      else s) s

/-- A core that starts a task: nothing owed, no stop, the task's identity, EVEC, COMPAT (05 R83, 06 R112, 09 R182). -/
def Core.begin (c : Core) (t : Task) (pc : Nat) (evec : Word) (compat : Bool) : Core :=
  { c with
    owed := []
    shadow := []
    srbL := Vector.replicate 4 none
    setAside := LoopState.none
    lease := .none
    leaseAtTrap := .none
    grace := false
    reports := []
    task := some t
    code := t.cont.code
    pc := pc
    stop := none
    wait := none
    seen := []
    past := []
    lateStop := false
    empty := 0
    leavePc := 0
    again := []
    lastCtx := some (BitVec.ofNat 64 (t.cont.frame.toNat / 64))
    csr := { c.csr with mode := false, slend := false, evec := evec, compat := compat, cfrz := 0 } }

/-- Slice ends decided afresh for the task just dispatched (05 R100): a more urgent entry that waits on the die, spilled ones among them. -/
def State.reviewEnds (s : State) (v die : Nat) : State :=
  match s.vd? v with
  | none => s
  | some d =>
    let waiting := ((d.ready ++ d.ovf).filter fun r => r.die.val == die && !r.cont.launch).map fun r => r.cont.cls
    match waiting with
    | [] => s
    | x :: r => s.markEnds v die (r.foldl Min.min x)

/-- A continuation is discarded because of POISON in its frame (R201). -/
def State.discardPoisoned (s : State) (v : Nat) (frame : Word) : State :=
  (s.updVd v fun d => d.dropTask frame.toNat).raiseEvent v 3 0x16 (bytesOf 8 frame.toNat)

/-- A fresh start on core k (05 R83, 09 R194). -/
def State.freshStart (s : State) (v k : Nat) (c : Cont) (o : CodeObj) : State :=
  let fr := c.frame.toNat
  if s.mappedVd v (fr + 0x40) 64 then
    let s := s.writeVd v (fr + 0x40) (bytesOf 64 0)
    let g := ((s.vd? v).map (·.gen)).getD 0
    let s := { s with disp := s.disp + 1 }
    let x := s.coreAt k
    let s := s.updVd v fun d => d.dropTask fr
    let t : Task := ⟨c, v, g, s.disp, x.dieCyc, 0, 0, s.disp⟩
    let r := x.regs.blank
    let r := { r with
      s := ((r.s.set 1 c.wid).set 2 c.frame).set 3 c.arg
      n := Vector.replicate 4 0xFFFFFFFFFFFFFFFF }
    let x := { x.begin t c.pc.toNat (s.loadEvec v) o.compat with regs := r }
    s.setCore k { x with csr := { x.csr with ipTimer := false, ipIpi := false } }
  else s.loseCont v c.frame

/-- A resumed dispatch on core k (R191, R201): the state named by the frame, the held channels reissued. -/
def State.resume (s : State) (v k : Nat) (die : Fin 4) (c : Cont) (o : CodeObj) : State :=
  let fr := c.frame.toNat
  match s.readVd v fr 0x80 with
  | none => s.loseCont v c.frame
  | some h =>
    let hidden := s.poisonVd v (fr + 0x40) 64
    if !hidden && fieldAt h 0x41 1 != 0 then s.discardPoisoned v c.frame
    else if hidden || (restoreRanges h).any fun p => s.poisonVd v (fr + p.1) p.2 then
      let s := s.markFrame v fr 1 []
      let s := s.makeReady v die c none true
      let s := s.raiseEvent v 3 0x16 (bytesOf 8 fr)
      s.updVd v fun d => { d with life := d.life <|> some .firmware }
    else if !(restoreRanges h).all fun p => s.mappedVd v (fr + p.1) p.2 then s.loseCont v c.frame
    else
      let b := s.frameBytes v fr h
      let g := ((s.vd? v).map (·.gen)).getD 0
      let s := { s with disp := s.disp + 1 }
      let x := s.coreAt k
      let id := ((s.vd? v).bind fun d => lookup fr d.tasks).getD s.disp
      let t : Task := ⟨c, v, g, s.disp, x.dieCyc, c.shepCount, c.shepTiles, id⟩
      let r := restoreRegs x.regs b x.serial
      let urgent := fieldAt b 0x40 1 == 1
      let n := if urgent then Min.min 96 (fieldAt b 0x44 1) else 0
      let sh := shadowsOf r.q (x.serial + 64) 0 ((List.range n).map fun i => sliceBytes b (0x3080 + 144 * i) 144) []
      let st := fieldAt b 0x48 8
      let x := { x.begin t c.pc.toNat (s.loadEvec v) o.compat with regs := r }
      let x : Core := { x with
        serial := x.serial + 64 + n
        owed := sh.map fun e => { e with due := x.csr.cycle + e.due }
        grace := urgent
        csr := { x.csr with ipTimer := bits st 8 1 == 1, ipIpi := bits st 9 1 == 1 } }
      let held := (List.range (Min.min 16 (fieldAt b 0x43 1))).map fun i => s.heldArgs v (sliceBytes b (0x680 + 64 * i) 64)
      State.reissueFuel k held.length (s.setCore k { x with again := held })

/-- The record of a dispatch (05 R84): that of a suspended task is read again from its frame and must pass its checks; a poisoned one is
left to the restore. -/
def State.dispatchRecord (s : State) (v : Nat) (c : Cont) : Option Cont :=
  if c.live = 0xFFFF then some c
  else match s.readVd v c.frame.toNat 64 with
    | none => none
    | some b =>
      if s.poisonVd v c.frame.toNat 64 then some c
      else match s.recordCheck v (Cont.ofBytes b) false with
        | some _ => none
        | none => some (c.reread b)

/-- Dispatch a ready entry to core k of a die (05 R93, R83, R84; 09 R191, R194, R198, R201): the core starts with nothing of what its last
task has read or written left to be applied. -/
def State.dispatch (s : State) (v k : Nat) (r : Ready) : State :=
  let s := (s.takeReady v r).settleViews k
  match s.dispatchRecord v r.cont with
  | none => s.loseCont v r.cont.frame
  | some c =>
    match (s.vd? v).bind fun d => d.code? c.code with
    | none => s.loseCont v c.frame
    | some o =>
      let s := s.disownElsewhere v k (c.frame.toNat / 64)
      let s := if c.live = 0xFFFF then s.freshStart v k c o else s.resume v k r.die c o
      if (s.coreAt k).task.isSome then s.reviewEnds v (dieOf k) else s

end Sys2Proof.Machine
end

