-- ==== Sys2Proof/Machine/Operands.lean ====
section
/-! DEFINITION. The operand forms: address generators and ports (06 R108, 13 R293-R295), vector sources and destinations
(06 R106-R109, 10 R208, R209, 12 R257-R259), the queue, latch and port checks of a bundle (06 R106, R107; 17 R340), the words
an instruction was decoded from. -/

namespace Sys2Proof.Machine

/-! ## Address generators (13 Table 13-2) -/

/-- Bits [lo+n-1:lo] of a parameter set. -/
def agFld (g : AgSet) (lo n : Nat) : Nat := bits g.toNat lo n
/-- The same set with bits [lo+n-1:lo] replaced. -/
def agPut (g : AgSet) (lo n v : Nat) : AgSet :=
  BitVec.ofNat 512 (g.toNat - agFld g lo n * 2 ^ lo + v % 2 ^ n * 2 ^ lo)

def agBase (g : AgSet) : Nat := agFld g 0 64
def agImg (g : AgSet) : Bool := agFld g 64 1 == 1
def agLevels (g : AgSet) : Nat := agFld g 65 3
def agValid (g : AgSet) : Bool := agFld g 68 1 == 1
def agDone (g : AgSet) : Bool := agFld g 73 1 == 1
def agNb (g : AgSet) : Nat := agFld g 80 16
def agPad (g : AgSet) : Lane := BitVec.ofNat 32 (agFld g 96 32)
def agCnt (g : AgSet) (l : Nat) : Nat := agFld g (128 + 16 * l) 16
def agIdx (g : AgSet) (l : Nat) : Nat := agFld g (224 + 16 * l) 16
def agStr (g : AgSet) (l : Nat) : Int := sgn 32 (agFld g (320 + 32 * l) 32)
def agH (g : AgSet) : Nat := agFld g 448 16
def agW (g : AgSet) : Nat := agFld g 464 16
def agPadT (g : AgSet) : Nat := agFld g 480 8
def agPadL (g : AgSet) : Nat := agFld g 488 8
def agSy (g : AgSet) : Nat := agFld g 496 4
def agSx (g : AgSet) : Nat := agFld g 500 4
def agDy (g : AgSet) : Nat := agFld g 504 4
def agDx (g : AgSet) : Nat := agFld g 508 4

/-- What a port access at the current step is (R295): its address, whether it is padding, whether it sets OVR. -/
structure PortStep where
  addr : Int
  pad  : Bool
  ovf : Bool
deriving DecidableEq, Repr

/-- The access of the current step. -/
def agAccess (g : AgSet) : PortStep :=
  if agImg g then
    let x : Int := (agIdx g 2 * agSx g + agIdx g 0 * agDx g : Nat) - (agPadL g : Int)
    let y : Int := (agIdx g 3 * agSy g + agIdx g 1 * agDy g : Nat) - (agPadT g : Int)
    let n := agIdx g 4
    let a : Int := agBase g + agIdx g 5 * agStr g 3 + n * agStr g 2 + y * agStr g 1 + x * agStr g 0
    ⟨a, decide (x < 0) || decide ((agW g : Int) ≤ x) || decide (y < 0) || decide ((agH g : Int) ≤ y) || decide (agNb g ≤ n),
     decide (agNb g ≤ n)⟩
  else
    ⟨(List.range (agLevels g + 1)).foldl (fun a l => a + agIdx g l * agStr g l) (agBase g : Int), false, false⟩

/-- The step of R295 from level l on; the fuel is the number of levels. -/
def agStepFrom : Nat → Nat → AgSet → AgSet
  | 0, _, g => agPut g 73 1 1
  | n + 1, l, g =>
    if agIdx g l + 1 ≤ agCnt g l then agPut g (224 + 16 * l) 16 (agIdx g l + 1)
    else agStepFrom n (l + 1) (agPut g (224 + 16 * l) 16 0)

/-- One step of a generator. -/
def agStep (g : AgSet) : AgSet := agStepFrom (agLevels g + 1) 0 g

/-- OVR as an access leaves it. -/
def agTouch (g : AgSet) : AgSet := if (agAccess g).ovf then agPut g 72 1 1 else g

/-- Whether 128 bytes at a signed address lie in a core's own slice window. -/
def inOwnSlice (lo : Nat) (a : Int) (n : Nat) : Bool :=
  decide ((lo : Int) ≤ a) && decide (a + n ≤ (lo + sliceSize : Nat))

/-- Virtual base of the own slice of a core (06 R113). -/
def State.ownBase (s : State) : Nat :=
  sramBase + (((s.vdOf s.c).bind fun d => d.logicalCore s.cur).getD 0) * sliceSize

/-- Whether a range of virtual addresses lies in the own slice. -/
def State.isOwn (s : State) (va n : Nat) : Bool := decide (s.ownBase ≤ va) && decide (va + n ≤ s.ownBase + sliceSize)

/-- The number of a port's generator. -/
def portAg (k : Fin 4) : AgReg := ⟨k.val, by omega⟩

/-- The trap of a port access of a generator (R108, R295). -/
def State.portTrap (s : State) (g : AgReg) : Option Trap :=
  let a := s.c.regs.ag[g]
  if !agValid a || agDone a then some (mkTrap cAGBOUNDS g.val 0)
  else
    let p := agAccess a
    if !p.pad && !inOwnSlice s.ownBase p.addr 128 then some (mkTrap cAGBOUNDS g.val (wrap 64 p.addr)) else none

/-! ## Reading vector sources (12 R258) -/

/-- Physical bytes of an own-slice range. -/
def State.ownRange (s : State) (va n : Nat) : List Nat := (List.range n).map fun i => ownPhys s.cur (va + i)

/-- What a port read returns: PAD in every lane, or the 128 bytes at the address. -/
def State.portRead (s : State) (k : Fin 4) : Vec :=
  let g := s.c.regs.ag[portAg k]
  let p := agAccess g
  if p.pad then ofLanes fun _ => agPad g else vecOf (s.ownBytes (s.ownRange p.addr.toNat 128))

/-- Every element the low w bits of a scalar. -/
def spread1 (w : Nat) (x : Word) : Vec := ofElems w fun _ => x.toNat % 2 ^ w

/-- The value of a vector source; `w` is the element width a scalar source is spread at. -/
def State.readV (s : State) (w : Nat) : VSrc → Vec
  | .q k _ => match s.c.regs.q[k] with
    | e :: _ => e.data.getD 0
    | [] => 0
  | .l k => (s.c.regs.l[k]).getD 0
  | .p k _ => s.portRead k
  | .bc r => spread1 w (s.c.readS r)

/-- The address of a port source whose data are poisoned. -/
def State.srcPoison (s : State) : VSrc → Option Word
  | .p k _ =>
    let p := agAccess s.c.regs.ag[portAg k]
    if !p.pad && (s.ownRange p.addr.toNat 128).any fun a => s.poisoned a && (s.c.lsu.all fun q => !q.op.touched.contains a) then
      some (BitVec.ofInt 64 p.addr) else none
  | _ => none

/-- A port source whose bytes an earlier access of the core still holds back. -/
def State.srcHeld (s : State) : VSrc → Bool
  | .p k _ =>
    let p := agAccess s.c.regs.ag[portAg k]
    !p.pad && s.localHeld (s.ownRange p.addr.toNat 128)
  | _ => false

/-! ## The uses of a bundle (06 R106-R108, 17 R340) -/

/-- Whether a source is queue k. -/
def VSrc.isQ (k : Fin 16) : VSrc → Bool
  | .q j _ => j == k
  | _ => false
/-- Whether a source pops queue k. -/
def VSrc.pops (k : Fin 16) : VSrc → Bool
  | .q j pk => j == k && !pk
  | _ => false
/-- Whether a destination pushes queue k. -/
def VDst.pushes (k : Fin 16) : VDst → Bool
  | .q j => j == k
  | _ => false
/-- Whether a destination is write port P4 + i. -/
def VDst.isPort (g : AgReg) : VDst → Bool
  | .p4 => g.val == 4
  | .p5 => g.val == 5
  | _ => false

/-- Whether a use names a queue, as a source or as a destination. -/
def Use.names (u : Use) (k : Fin 16) : Bool := u.srcs.any (VSrc.isQ k) || (u.dst.map (VDst.pushes k)).getD false
/-- Whether a use accesses a generator. -/
def Use.ports (u : Use) (g : AgReg) : Bool :=
  (u.srcs.any fun x => match x with
    | .p k _ => portAg k == g
    | _ => false) || (u.dst.map (VDst.isPort g)).getD false
/-- Whether a use steps a generator. -/
def Use.steps (u : Use) (g : AgReg) : Bool :=
  (u.srcs.any fun x => match x with
    | .p k pk => portAg k == g && !pk
    | _ => false) || (u.dst.map (VDst.isPort g)).getD false

/-- The queue traps of a bundle on one queue (R106), on the lowest slot that names it (R340). -/
def queueTraps (us : List Use) (k : Fin 16) (q : List QEntry) : List Trap :=
  let reads := us.any fun u => u.srcs.any (VSrc.isQ k)
  let pops := if us.any fun u => u.srcs.any (VSrc.pops k) then 1 else 0
  let pushes := (us.filter fun u => (u.dst.map (VDst.pushes k)).getD false).length
  match us.find? fun u => u.names k with
  | none => []
  | some u =>
    let t (c : Nat) : Trap := ⟨c, k.val, u.slot, 0⟩
    (if reads then match q with
      | [] => [t cQUNF]
      | e :: _ => if e.data.isNone then [t cQEARLY] else []
     else [])
    ++ (if 4 < q.length - pops + pushes then [t cQOVF] else [])

/-- The latch and port traps of one use. -/
def State.useTraps (s : State) (u : Use) : List Trap :=
  (u.srcs.filterMap fun x => match x with
    | .l k => if (s.c.regs.l[k]).isNone then some ⟨cLATCHINV, k.val, u.slot, 0⟩ else none
    | .p k _ => (s.portTrap (portAg k)).map fun t => { t with slot := u.slot }
    | _ => none)
  ++ (match u.dst with
    | some .p4 => ((s.portTrap 4).map fun t => [{ t with slot := u.slot }]).getD []
    | some .p5 => ((s.portTrap 5).map fun t => [{ t with slot := u.slot }]).getD []
    | _ => [])

/-- Every queue, latch and port trap of a bundle. -/
def State.bundleTraps (s : State) (us : List Use) : List Trap :=
  ((List.finRange 16).flatMap fun (k : Fin 16) => queueTraps us k s.c.regs.q[k]) ++ us.flatMap s.useTraps

/-- One trap before another: lower code; among queue causes lower queue; then lower slot (R186, R340). -/
def Trap.before (a b : Trap) : Bool :=
  decide (a.code < b.code)
  || (a.code == b.code
      && (if decide (2 ≤ a.code) && decide (a.code ≤ 4) then
            decide (a.sub < b.sub) || (a.sub == b.sub && decide (a.slot.val < b.slot.val))
          else decide (a.slot.val < b.slot.val)))

/-- The trap a bundle reports. -/
def worst : List Trap → Option Trap
  | [] => none
  | t :: r => match worst r with
    | none => some t
    | some u => if u.before t then some u else some t

/-- Note a use, if it uses anything. -/
def State.noteUse (s : State) (u : Use) : State :=
  if u.srcs.isEmpty && u.dst.isNone then s else { s with iss := { s.iss with uses := s.iss.uses ++ [u] } }

/-- The landing entries that the port reads of a slot take: each one under COMPAT, as a timed load does (R111, R112). -/
def State.portLands (s : State) (srcs : List VSrc) : Nat :=
  if s.c.csr.compat then (srcs.filter fun x => match x with
    | .p _ _ => true
    | _ => false).length
  else 0

/-- Port reads that find too few landing entries free, beside those that the slot itself takes, stop the domain (R111). -/
def State.portWait (s : State) (srcs : List VSrc) (own : Nat) : Option Wait :=
  let n := s.portLands srcs
  if n ≠ 0 ∧ s.c.landingLimit < s.c.landingHeld + s.iss.lands + own + n then some .landing else none

/-- What the port reads of a bundle land: nothing, for their data are read at issue (12 R258); under COMPAT the landing at t + 4 of data
present after 6 die cycles stops the domain (R112; DEDUCED, log entry 71). -/
def Core.portLandings (c : Core) (us : List Use) : List Owed :=
  if c.csr.compat then us.flatMap fun u => u.srcs.filterMap fun x => match x with
    | .p _ _ => some ⟨c.serial, c.csr.cycle + 4, u.slot, .latch, some 0, true, c.dieCyc + 6, false, 0, none, [], none⟩
    | _ => none
  else []

/-- Whether an owed result is the landing of a port read, which no register or latch takes. -/
def Owed.ofPort (e : Owed) : Bool := e.dest == .latch && e.latch.isNone

/-- The acting core has read the bytes of its ports (07 R146). -/
def State.notePorts (s : State) (us : List Use) : State :=
  us.foldl (fun s u => u.srcs.foldl (fun s x => match x with
    | .p k _ =>
      let p := agAccess s.c.regs.ag[portAg k]
      if p.pad then s else s.noteLocal (s.ownRange p.addr.toNat 128) (s.c.tagsOf p.addr.toNat 128)
    | _ => s) s) s

/-- The pops and steps of a bundle (R106, R108): once per queue and generator; the landings of its port reads. -/
def Core.finishUses (c : Core) (us : List Use) : Core :=
  { c with
    owed := c.owed ++ c.portLandings us
    regs := { c.regs with
    q := Vector.ofFn fun k => if us.any fun u => u.srcs.any (VSrc.pops k) then (c.regs.q[k]).tail else c.regs.q[k]
    ag := Vector.ofFn fun g =>
      let a := c.regs.ag[g]
      if us.any fun u => u.ports g then
        let a' := agTouch a
        if us.any fun u => u.steps g then agStep a' else a'
      else a } }

/-! ## Vector results -/

/-- Owe a vector result of a slot to a destination (R103, R106-R108): a queue reserves an entry, a port forms its address now. -/
def Core.oweVec (c : Core) (lat : Nat) (slot : Fin 4) (d : VDst) (v : Option Vec) (timed : Bool := false)
    (present : Nat := 0) (poison : Bool := false) (eval : Word := 0) (recs : List StqRec := [])
    (cbs : Option Nat := none) : Core :=
  let id := c.serial
  let e (x : Dest) : Owed :=
    ⟨id, c.csr.cycle + lat, slot, x, v, timed, present, poison, eval, some (latchPair slot), recs, cbs⟩
  let port (p5 : Bool) (g : AgReg) : Owed :=
    let p := agAccess c.regs.ag[g]
    e (.port p5 (if p.pad then 0 else BitVec.ofInt 64 p.addr) p.pad)
  let c' := { c with serial := id + 1 }
  match d with
  | .q k => { c' with owed := c.owed ++ [e (.queue k id)],
                      regs := { c.regs with q := c.regs.q.set k (c.regs.q[k] ++ [⟨id, none⟩]) } }
  | .nwb _ => { c' with owed := c.owed ++ [e .latch] }
  | .p4 => { c' with owed := c.owed ++ [port false 4] }
  | .p5 => { c' with owed := c.owed ++ [port true 5] }

/-- Merge of R259: lanes whose mask bit is 0 carry source A. -/
def Regs.merge (r : Regs) (m : Merge) (a v : Vec) : Vec :=
  if m.men then
    let k := r.m[m.msk]
    ofLanes fun i => if k.getLsbD i then lane v i else lane a i
  else v

/-! ## The word of an instruction -/

/-- The slot word of an instruction that its operand values make illegal (Table 9-2: EVAL of ILLEGAL). -/
def wordOf (i : Instr) : Nat := ((encode i).map (·.word)).getD 0

/-- The bundle address of the acting core's bundle (09 R184). -/
def State.bundAddr (s : State) (pc : Nat) : Word := BitVec.ofNat 64 (s.c.code.toNat * 2 ^ 32 + pc % 2 ^ 22)

end Sys2Proof.Machine
end

