-- ==== Sys2Proof/Machine/Ops.lean ====
section
/-! DEFINITION. The named operations every meaning is written over: leaving a core (09 R190, R192, R202; 06 R118; 14 R331), taking
an exception and returning from one (09 R183, R186, R189; 16 R336), the issue of a slot (06 R103, R104, R106; 09 R186), the end
of a bundle (11 R243, R248, R251; 06 R130). -/

namespace Sys2Proof.Machine

/-- The outcome of a step. -/
abbrev Out := Host.Outcome State Fault Refusal

/-! ## Leaving a core -/

/-- Whether every result owed to a task has its data. -/
def Core.allData (c : Core) : Bool := (c.owed ++ c.shadow).all fun e => e.data.isSome

/-- Whether every copy that has taken a buffer slot is complete (06 R118 step 1). -/
def Core.settled (c : Core) : Bool := c.regs.cb.toList.all fun b => b.pheld == 0

/-- Whether every TNEXT has its answer. -/
def Core.tnextGiven (c : Core) : Bool := (c.owed ++ c.shadow).all fun e => match e.dest with
  | .next _ => e.data.isSome
  | _ => true

/-- Whether no other core's LSU holds an access of the task that core k runs (07 R151). -/
def State.taskPerformed (s : State) (k : Nat) : Bool :=
  ((s.cur, s.c) :: s.others).all fun p => p.1 == k || p.2.lsu.all fun q => q.task != (s.coreAt k).taskId

/-- Whether everything a leaving task waits for has come about (09 R190, R192; 14 R331; 06 R118; 07 R150, R151). A trap after a
bundle waits only for a late landing. -/
def State.leaveReady (s : State) (k : Nat) (l : Leaving) : Bool :=
  let c := s.coreAt k
  let quiet := (s.clusterAt (clusterOf k)).idleFor k && c.settled
  match l with
  | .task (.syscall _) | .task .brk | .task .isync => c.late.isNone
  | .task .exit => quiet && c.lsu.isEmpty && c.tnextGiven && s.taskPerformed k
  | .task (.suspend _) | .task (.nameOn _ _) => quiet && c.lsu.isEmpty && c.allData
  | .urgent (.stop .reset) => true
  | .urgent _ => quiet && c.allData

/-- The core has no task any more: reports that wait are posted (R187), the lease ends (06 R125), slice ends clear (05 R97),
bindings end (13 R296), latches and transposer are invalid (06 R107, 12 R284). -/
def State.leaveCore (s : State) (k : Nat) : State :=
  let c := s.coreAt k
  let s := match s.ownerOfCluster (clusterOf k) with
    | some v => c.reports.foldl (fun (s : State) (r : Report) => s.raiseEvent v 3 r.cause (bytesOf 8 r.bund.toNat)) s
    | none => s
  let s := s.dropLease k
  s.updCore k fun c => { c with
    owed := []
    shadow := []
    srbL := Vector.replicate 4 none
    setAside := LoopState.none
    leaseAtTrap := .none
    grace := false
    reports := []
    task := none
    code := 0
    pc := 0
    debug := c.debug || c.stop == some .debug
    stop := none
    wait := none
    lateStop := false
    empty := 0
    leavePc := 0
    again := []
    csr := { c.csr with mode := false, slend := false }
    regs := { c.regs with
      fbind := Vector.replicate 16 none
      l := Vector.replicate 4 none
      loops := LoopState.none
      tr := { c.regs.tr with rv := 0, rp := 0, cp := 0 } } }

/-- The copies held for a buffer slot are withdrawn (06 R118 step 2), with those of the frame that have not been reissued yet. -/
def State.withdrawHeld (s : State) (k : Nat) : State × List CopyArgs :=
  let c := s.coreAt k
  (s.setCore k { c with chans := c.chans.filter (fun h => !h.held), again := [] }, (c.chans.filter (·.held)).map Chan.args ++ c.again)

/-- The results due at the present boundary are written, those still without data or poisoned are held with DIST 0, the others
with their distance (09 R189). -/
def Core.toShadow (k : Nat) (c : Core) : Core × List Owed :=
  let now (e : Owed) : Bool := decide (e.due ≤ c.csr.cycle) && e.data.isSome && !e.poison
  let c' := (sortBy landOrder (c.owed.filter now)).foldl (Core.commit k) { c with owed := [] }
  let rest := c.owed.filter fun e => !now e && !e.ofPort
  (c'.appendRecs (rest.flatMap (·.recs)), rest.map fun e => { e with due := e.due - c.csr.cycle, recs := [] })

/-- An urgent stop or a double trap ends (09 R192, R202): at the next boundary, the empty cycles before it having passed, the task is saved with
KIND 1 as it stood in task mode, its continuation waits in its queue. A reset discards it (04 R80); a double trap is reported and the VD paused. -/
def State.finishUrgent (s : State) (k : Nat) (u : Urgent) : State :=
  let c := s.coreAt k
  match c.task with
  | none => s
  | some t =>
    if u = .stop .reset then
      (s.withdrawHeld k).1.leaveCore k
    else
      let sup := c.csr.mode
      let (c', sh) := if sup then (c, c.shadow) else c.passEmpty.toShadow k
      let s := s.setCore k c'
      let (s, held) := s.withdrawHeld k
      let poison : Nat := match u with
        | .double _ _ _ => 2
        | .stop _ => 0
      let c := s.coreAt k
      let (s, rec') := s.saveTask k t
        ⟨1, poison, 0x1FFFFFFFFFFFFFFF, if sup then c.trapPc else c.pc, 0xFFFE, if sup then c.setAside else c.regs.loops,
         if sup then c.srbL else c.regs.l, sh, held⟩
      let s := s.leaveCore k
      let s := match rec' with
        | some r => s.makeReady t.vd (Fin.ofNat 4 (dieOf k)) r none
        | none => s
      match u with
      | .double code eval bund =>
        let s := s.raiseEvent t.vd 3 (BitVec.ofNat 8 code) (bytesOf 8 eval.toNat ++ bytesOf 8 bund.toNat)
        s.updVd t.vd fun d => { d with life := d.life <|> some .firmware }
      | .stop .debug => s.updCore k fun c => { c with debug := true }
      | .stop _ => s

/-- An urgent stop ends the stop of core k's domain under way: its die cycles, of open number, are counted (06 R104). -/
def State.endStop (s : State) (k : Nat) : State :=
  if (s.coreAt k).frozen then
    s.draw.updCore k fun c => { c.freeze (Config.freezeCycles s.fresh) with lateStop := false }
  else s

/-- A core leaves its task for an urgent reason: copies that can take a slot do, what must finish first is drained; if it cannot be, the core
waits. -/
def State.leaveUrgent (s : State) (k : Nat) (u : Urgent) : State :=
  let s := ((s.endStop k).beginCopies k).drain k fun s => s.leaveReady k (.urgent u)
  if s.leaveReady k (.urgent u) then s.finishUrgent k u
  else s.updCore k fun c => { c with wait := some (.leave (.urgent u)) }

/-- An urgent stop of core k (R192): at once in task mode, after ERET or TEXIT in supervisor mode; a task that is leaving its core
already leaves it first, or takes its trap; one whose clock stands still stops when it runs again (02 R27). -/
def State.stopCore (s : State) (k : Nat) (why : StopReq) : State :=
  let c := s.coreAt k
  let later (s : State) : State := s.updCore k fun c => { c with stop := some why, debug := c.debug || c.stop == some .debug }
  if c.task.isNone then s.updCore k fun c => { c with debug := c.debug || why == .debug }
  else match c.wait with
    | some (.leave _) => if why = .reset then s.leaveUrgent k (.stop why) else later s
    | _ => if c.csr.mode || (s.stopped (dieOf k) && why != .reset) then later s else s.leaveUrgent k (.stop why)

/-- Nothing more happens to the bundle being issued. -/
def State.endIssue (s : State) : State := { s with iss := { Issue.none with ended := true } }

/-! ## Taking an exception and returning from one (09 R186, R189) -/

/-- CAUSE as entry writes it (Table 9-1). -/
def causeWord (code sub : Nat) (slot : Fin 4) (impr : Bool) : Word :=
  BitVec.ofNat 64 (code % 256 + (if impr then 256 else 0) + sub % 256 * 65536 + slot.val * 2 ^ 24)

/-- Trap entry proper (R189, R336, 14 R320): owed results are held, latches and loop state set aside, CAUSE, EPC and EVAL written,
supervisor mode entered; the first handler bundle issues at t + 4. -/
def Core.enter (k : Nat) (c : Core) (cause epc eval : Word) (pc : Nat) (code : BitVec 32) (entry : Nat) : Core :=
  let (c, sh) := c.toShadow k
  let c : Core := { c with
    shadow := sh
    srbL := c.regs.l
    setAside := c.regs.loops
    leaseAtTrap := c.lease
    trapPc := pc
    wait := none
    lateStop := false
    empty := 0
    code := code
    pc := entry
    regs := { c.regs with loops := LoopState.none }
    csr := { c.csr with mode := true, cause := cause, epc := epc, eval := eval } }
  c.pass 4

/-- TAKING AN EXCEPTION on the acting core: cause, subcode, slot, precision, EVAL; `pc` is the bundle EPC names, `raised` the
bundle that raised it. In supervisor mode, or without a supervisor, it is a double trap (R182, R183, R202). -/
def State.takeTrap (s : State) (t : Trap) (impr : Bool) (pc raised : Nat) : State :=
  let c := s.c
  match c.task with
  | none => s.endIssue
  | some k =>
    if c.csr.mode then (s.leaveUrgent s.cur (.double t.code t.eval (s.bundAddr raised))).endIssue
    else match s.supervisor k.vd c.csr.evec with
      | none =>
        let s' : State := { s with c := { c with pc := pc } }
        (s'.leaveUrgent s.cur (.double t.code t.eval 0)).endIssue
      | some (h, e) =>
        let s' : State :=
          { s with c := Core.enter s.cur c (causeWord t.code t.sub t.slot impr) (s.bundAddr pc) t.eval pc h e }
        s'.endIssue

/-- The bundle stops before its issue: no core cycle passes and the bundle reissues (Table 6-1). -/
def State.block (s : State) (w : Wait) : State :=
  let s : State := { s with c := { s.c with wait := some w } }
  s.endIssue

/-- A precise trap at the issue of the present bundle (R186), after the stop of a walk that ended in it (11 R237). A check that waits for a
window request or an earlier access stops the bundle instead (04 R73, 06 R123). -/
def State.precise (s : State) (t : Trap) : State :=
  if t.code = 0 then s.block .requests
  else (if s.iss.walk then s.freezeOpen else s).takeTrap t false s.c.pc s.c.pc

/-- RETURN FROM AN EXCEPTION (R189, R336), ERET having issued one cycle ago: task mode, latches and loop state restored, the
bundle at EPC issues at u = x + 4, each shadow entry due at u + DIST. A late landing stops it before that. -/
def Core.leaveSup (k : Nat) (c : Core) : Core :=
  let u := c.csr.cycle + 3
  let h := BitVec.ofNat 32 (c.csr.epc.toNat / 2 ^ 32)
  let c : Core := { c with
    owed := (c.shadow.map fun e => { e with due := u + e.due }) ++ c.owed
    shadow := []
    srbL := Vector.replicate 4 none
    setAside := LoopState.none
    leaseAtTrap := .none
    code := h
    pc := c.csr.epc.toNat % 2 ^ 22
    task := c.task.map fun t => { t with cont := { t.cont with code := h } }
    regs := { c.regs with l := c.srbL, loops := c.setAside }
    csr := { c.csr with mode := false } }
  if c.late.isSome then { c with empty := 3 } else c.spend k 3

/-! ## Suspending and retiring (09 R190, 14 R331) -/

/-- Core cycles and freezes pass until every owed result has landed (09 R190 step 2). -/
def Core.landAll (k : Nat) (c : Core) : Core :=
  let es := sortBy landOrder c.owed
  let c := es.foldl (fun c e =>
    let c := c.pass (e.due - c.csr.cycle)
    let n := e.present - c.dieCyc
    if n = 0 then c else c.awaitPresence n) c
  c.land k

/-- The stores that write ports still owe are performed at TEXIT (14 R331): they enter the LSU. -/
def Core.landPorts (k : Nat) (c : Core) : Core :=
  let port (e : Owed) : Bool := match e.dest with
    | .port _ _ _ => true
    | _ => false
  (sortBy landOrder ((c.owed ++ c.shadow).filter port)).foldl (Core.commit k)
    { c with owed := c.owed.filter (fun e => !port e), shadow := c.shadow.filter fun e => !port e }

/-- What a leaving task's core does before its accesses must have been performed: copies that can take a slot do (06 R118), and the results owed
land (09 R190 step 2), or the owed stores enter the LSU. -/
def State.leavePrep (s : State) (k : Nat) (l : Leaving) : State :=
  match l with
  | .task (.suspend _) | .task (.nameOn _ _) =>
    let s := s.beginCopies k
    if (s.coreAt k).allData then s.updCore k (Core.landAll k) else s
  | .task .exit => (s.beginCopies k).updCore k (Core.landPorts k)
  | _ => s

/-- A task retires (14 R331; 05 R87, R88; 09 R196; 06 R118 step 4). -/
def State.retire (s : State) (k : Nat) (bund : Word) : State :=
  let c := s.coreAt k
  match c.task with
  | none => s
  | some t =>
    let (s, held) := s.withdrawHeld k
    let s := s.updVd t.vd fun d => d.dropTask t.cont.frame.toNat
    let s := s.updCore k fun c =>
      if c.ownsCtx (t.cont.frame.toNat / 64) then
        { c with csr := { c.csr with accown := c.csr.accown &&& 0x03FFFFFFFFFFFFFF, accdirty := 0 } }
      else c
    let s := s.leaveCore k
    let s := held.foldl (fun s a =>
      let s := if a.named then s.ctrDec t.vd t.gen (a.ctr.setWidth 16) a.bund else s
      s.raiseEvent t.vd 3 0x13 (bytesOf 8 a.bund.toNat)) s
    let n := 1 + t.tiles
    let s := if t.cont.sig then
        (List.range n).foldl (fun s _ => s.ctrDec t.vd t.gen t.cont.dctr bund) s
      else s
    match t.cont.shepCursor with
    | some id => s.countTiles t.vd id n
    | none => s

/-- A task suspends under a live-state list (R190): its owed results land, its state is saved, and it waits in its queue or on a
counter. A poisoned result stops it with UE instead (11 R241). -/
def State.suspend (s : State) (live : Nat) (ctr : Option (BitVec 16)) : State :=
  let k := s.cur
  match s.c.task with
  | none => s
  | some t =>
    let s := { s with c := Core.landAll k s.c }
    match s.c.poisonedDue with
    | some e => s.takeTrap ⟨cUE, 0, e.slot, e.eval⟩ false s.c.pc s.c.pc
    | none =>
      let (s, held) := s.withdrawHeld k
      let mask := (((s.vd? t.vd).bind fun d => d.code? t.cont.code).map fun o => o.live.getD live 0).getD 0
      let t := (s.c.task).getD t
      let (s, rec') := s.saveTask k t
        ⟨0, 0, mask, s.c.pc, live, s.c.regs.loops, Vector.replicate 4 none, [], held⟩
      let s := s.leaveCore k
      match rec', ctr with
      | some r, some n => s.ctrName t.vd n.toNat { r with shep := r.shep }
      | some r, none => s.makeReady t.vd (Fin.ofNat 4 (dieOf k)) r none
      | none, _ => s

/-- What follows a bundle whose after-effect is ready (R186, R190; 14 R331): `raised` is the bundle that named it. -/
def State.finishTask (s : State) (a : After) (raised : Nat) : State :=
  match a with
  | .syscall imm => s.takeTrap ⟨cSYSCALL, 0, 0, imm.setWidth 64⟩ false s.c.pc raised
  | .brk => s.takeTrap ⟨cBREAK, 0, 0, 0⟩ false s.c.pc raised
  | .suspend live => (s.settleViews s.cur).suspend live none
  | .nameOn ctr live => (s.settleViews s.cur).suspend live (some ctr)
  | .exit => (s.settleViews s.cur).retire s.cur (s.bundAddr raised)
  | .isync => s

/-- Whether what a leaving core waits for is the boundary after its bundle: a late landing there stops the domain (06 Table 6-1). -/
def Leaving.followsBundle : Leaving → Bool
  | .task (.syscall _) | .task .brk | .task .isync => true
  | _ => false

/-- The stop of a late landing ends, the data having arrived: die cycles of open number have passed in it (06 R104, R110). -/
def State.endLate (s : State) : State :=
  if s.c.lateStop then ({ s with c := { s.c with lateStop := false } } : State).freezeOpen else s

/-- The acting core leaves its task, or traps, after a bundle: what must finish first is drained; if it cannot be, the core
waits. -/
def State.leaveTask (s : State) (a : After) (raised : Nat) : State :=
  let l : Leaving := .task a
  let s := match a with
    | .syscall _ | .brk | .isync => s
    | _ =>
      let go (s : State) : State := s.drain s.cur fun s => s.leaveReady s.cur l
      go ((go (s.leavePrep s.cur l)).leavePrep s.cur l)
  if s.leaveReady s.cur l then (s.finishTask a raised).endIssue
  else
    let s : State := { s with c := { s.c with wait := some (.leave l), leavePc := raised } }
    s.endIssue

/-- A core that waits to leave tries again. -/
def State.retryLeave (s : State) (l : Leaving) : State :=
  match l with
  | .urgent u => if s.leaveReady s.cur l then s.finishUrgent s.cur u else s
  | .task a =>
    let s' : State := { s with c := { s.c with wait := none } }
    if s.leaveReady s.cur l then s'.finishTask a s.c.leavePc else s

/-! ## Issuing a slot -/

/-- An unsatisfied wait stops the domain; each attempt counts in BUNDLES (11 R253). -/
def State.blockFlags (s : State) : State :=
  let s : State := { s with c := { s.c with
    wait := some (.flags (s.flagsOf s.c))
    csr := { s.c.csr with bundles := s.c.csr.bundles + 1 } } }
  s.endIssue

/-- What a slot's own checks find: traps, a stop it must wait in, how many requests and landing entries it takes (06 R111), whether a walk
ended in its trap, the bytes that they have read, and the fence that the bundle issues. -/
structure Found where
  traps : List Trap
  wait  : Option Wait
  mem   : Nat := 0
  land  : Nat := 0
  walk  : Bool := false
  block : Option (List Byte) := none
  fences : List Req := []

/-- Nothing found. -/
def Found.ok : Found := { traps := [], wait := none }
/-- A trap found. -/
def Found.trap (t : Trap) : Found := { traps := [t], wait := none }
/-- Traps found, a wait, and whether a walk ended in them. -/
def foundOf (ts : List Trap) (w : Option Wait) (walk : Bool := false) : Found := { traps := ts, wait := w, walk := walk }
/-- The trap of a failed check, if any. -/
def Found.ofOpt : Option Trap → Found
  | some t => .trap t
  | none => .ok

/-- Run a slot (06 R103, R106; 09 R186; 10 R205): nothing where its predicate reads 0. Alone in its bundle it is checked, together
with the queues, latches and ports it uses, and takes effect; in a bundle of several slots the phase says which part is done. -/
def State.runSlot (s : State) (slot : Fin 4) (p : FReg) (srcs : List VSrc) (dst : Option VDst) (chk : State → Found)
    (eff : State → State) : Out :=
  if !s.readF p then .next s
  else match s.iss.phase with
    | .waits => .next s
    | .effect => .next (eff s)
    | .checks =>
      let f := chk s
      .next { s with iss := { s.iss with
        uses := if srcs.isEmpty && dst.isNone then s.iss.uses else s.iss.uses ++ [⟨slot, srcs, dst⟩]
        traps := s.iss.traps ++ f.traps.map fun t => { t with slot := slot }
        blocked := s.iss.blocked <|> f.wait <|> s.portWait srcs f.land
        mems := s.iss.mems + f.mem
        lands := s.iss.lands + f.land + s.portLands srcs
        walk := s.iss.walk || f.walk
        block := s.iss.block <|> f.block
        fences := s.iss.fences ++ f.fences } }
    | .alone =>
      let s := s.noteUse ⟨slot, srcs, dst⟩
      let f := chk s
      let s : State := { s with iss := { s.iss with walk := f.walk, block := f.block } }
      match worst ((f.traps.map fun t => { t with slot := slot }) ++ s.bundleTraps s.iss.uses) with
      | some t => .next (s.precise t)
      | none =>
        match f.wait <|> s.portWait srcs f.land with
        | some w => .next (s.block w)
        | none => .next (eff s)

/-- The acting core binds flags. -/
def State.bindAll (s : State) (l : List (FReg × FlagBind)) : State :=
  { s with c := l.foldl (fun c b => c.bindF b.1 b.2) s.c }

/-- Run a slot that waits in its bundle (11 R253, 13 R296, 17 R341): its own checks and its condition come first; the flag that `bind` names
is bound at every attempt that does not trap, and reads as its event from that attempt on: for a WAITF in slot 0 too, the slots being
tried from slot 3 down. -/
def State.runWait (s : State) (slot : Fin 4) (p : FReg) (chk : State → Found) (cond : State → Bool)
    (bind : State → List (FReg × FlagBind)) (eff : State → State) : Out :=
  if !s.readF p then .next s
  else match s.iss.phase with
    | .waits =>
      let f := chk s
      if f.traps.isEmpty then
        .next { s with iss := { s.iss with unsat := s.iss.unsat || !cond (s.bindAll s.iss.binds), binds := s.iss.binds ++ bind s } }
      else .next s
    | .checks =>
      .next { s with iss := { s.iss with traps := s.iss.traps ++ (chk s).traps.map fun t => { t with slot := slot } } }
    | .effect => .next (eff s)
    | .alone =>
      match worst ((chk s).traps.map fun t => { t with slot := slot }) with
      | some t => .next (s.precise t)
      | none => if cond s then .next (eff (s.bindAll (bind s))) else .next (s.bindAll (bind s)).blockFlags

/-! ## The end of a bundle (11 R243, R248, R251; 06 R103, R130) -/

/-- The innermost loop level. -/
def LoopState.inner (l : LoopState) : Option LoopLevel := l.levels.getLast?

/-- The loop end of R248 for a bundle at index i: the core with its steps owed and its level counted, and the next bundle. -/
def Core.loopEnd (c : Core) (i : Nat) : Core × Nat :=
  match c.regs.loops.inner with
  | none => (c, i + 1)
  | some l =>
    if l.start + l.lenM1 != i then (c, i + 1)
    else
      let step (c' : Core) (x : Option (SReg × SReg)) : Core := match x with
        | some (d, a) => if d = 0 then c' else c'.owe 1 0 (.loopStep d) ((c.readS d + c.readS a).setWidth 1024)
        | none => c'
      let c' := step (step c l.steps.s0) l.steps.s1
      let outer := c.regs.loops.levels.dropLast
      if 1 < l.count then
        ({ c' with regs := { c'.regs with loops := { c.regs.loops with levels := outer ++ [{ l with count := l.count - 1 }] } } },
         l.start)
      else ({ c' with regs := { c'.regs with loops := { c.regs.loops with levels := outer } } }, i + 1)

/-- The slots have taken effect: queues pop and generators step, the loop end is processed, the cycle passes (with the empty
cycles of a taken branch or an ISYNC), each with the results due at its end, and what the bundle asked for afterwards happens. -/
def State.endBundle (s : State) : State :=
  if s.iss.ended then { s with iss := Issue.none }
  else
    let i := s.c.pc
    let u := s.iss
    let s := s.notePorts u.uses
    let c := s.c.finishUses u.uses
    let (c, nxt) := if u.jumped || u.broke || u.started then (c, u.next.getD (i + 1)) else c.loopEnd i
    let n := 1 + (if u.jumped || u.broke then 1 else 0) + (if u.after = some .isync then 2 else 0)
    let c : Core := { c with pc := nxt, wait := none, csr := { c.csr with bundles := c.csr.bundles + 1 } }
    let s := { s with c := c.spend s.cur n, iss := Issue.none }
    let s :=
      if u.eret then
        let s := { s with c := s.c.leaveSup s.cur }
        match s.c.stop with
        | some why => s.leaveUrgent s.cur (.stop why)
        | none => s
      else match u.after with
        | some a => s.leaveTask a i
        | none => s
    { s with iss := Issue.none }

end Sys2Proof.Machine
end

