-- ==== Sys2Proof/Machine/Flags.lean ====
section
/-! DEFINITION. The flag and mask computations: compares of scalars, lanes and floating values (11 R235, 12 R267), the flag
group (11 R236). -/

namespace Sys2Proof.Machine

/-- An integer compare of w-bit values; `.un` is no integer condition (11 R235). -/
def condInts (c : Cond) (w a b : Nat) : Bool :=
  let ua := a % 2 ^ w
  let ub := b % 2 ^ w
  match c with
  | .eq => ua == ub
  | .ne => ua != ub
  | .lt => decide (sgn w a < sgn w b)
  | .le => decide (sgn w a ≤ sgn w b)
  | .gt => decide (sgn w b < sgn w a)
  | .ge => decide (sgn w b ≤ sgn w a)
  | .ltn => decide (ua < ub)
  | .len => decide (ua ≤ ub)
  | .gtn => decide (ub < ua)
  | .gen => decide (ub ≤ ua)
  | .un => false

/-- A compare of floating values (12 R267): −0 equals +0; a NaN makes `.ne` and `.un` true and every other condition false. -/
def condFloats (c : Cond) (a b : FVal) : Bool :=
  if a.isNan || b.isNan then c == .ne || c == .un
  else match c with
    | .eq => !a.lt b && !b.lt a
    | .ne => a.lt b || b.lt a
    | .lt => a.lt b
    | .le => !b.lt a
    | .gt => b.lt a
    | .ge => !a.lt b
    | _ => false

/-- A scalar compare (11 R235). -/
def condWords (c : Cond) (a b : Word) : Bool := condInts c 64 a.toNat b.toNat

/-- VCMP's mask (12 R267): one bit per lane, lanes as FP32 when `flt`. -/
def laneMask (c : Cond) (flt : Bool) (a b : Vec) : Lane :=
  ofBits fun i =>
    let x := (lane a i).toNat
    let y := (lane b i).toNat
    if flt then condFloats c (fdec fmtF32 x) (fdec fmtF32 y) else condInts c 32 x y

/-- Whether the wait of WAITF is satisfied (11 R253): all of the listed flags, or any of them. -/
def waitSat (f : Vector Bool 16) (mask : BitVec 16) (any : Bool) : Bool :=
  if any then (List.finRange 16).any fun k => mask.getLsbD k.val && f[k]
  else (List.finRange 16).all fun k => !mask.getLsbD k.val || f[k]

end Sys2Proof.Machine
end

