-- ==== Sys2Proof/Machine/Control.lean ====
section
/-! DEFINITION. Slot 0: branches, loops, waits, CSRs and the statistics queue (11_isa_scalar_and_control.md R243-R256), and the
CSR writes that the table lists as steps of their own (06 R121, 09 Table 9-1). -/

namespace Sys2Proof.Machine

/-- A slot-0 instruction without results. -/
def State.plain (s : State) (p : FReg) (eff : State → State) : Out := s.runSlot 0 p [] none (fun _ => .ok) eff

/-- A taken branch to a bundle index (R243). -/
def State.jump (s : State) (target : Nat) : State := { s with iss := { s.iss with next := some target, jumped := true } }

/-- This bundle plus a signed offset (R244), a 22-bit index. -/
def offTarget (pc : Nat) (off : Int) : Nat := wrap 22 ((pc : Int) + off)

/-- The link of a call: the index of this bundle plus 1 in S31. -/
def State.link (s : State) : State := { s with c := s.c.oweS 1 0 31 (BitVec.ofNat 64 (s.c.pc + 1)) }

def execBr (p : FReg) (off : BitVec 22) (s : State) : Out := s.plain p fun s => s.jump (offTarget s.c.pc off.toInt)
def execBrf (p : FReg) (fa : FReg) (off : BitVec 18) (s : State) : Out :=
  s.plain p fun s => if s.readF fa then s.jump (offTarget s.c.pc off.toInt) else s
def execJr (p : FReg) (a : SReg) (s : State) : Out := s.plain p fun s => s.jump ((s.c.readS a).toNat % 2 ^ 22)
def execCall (p : FReg) (off : BitVec 22) (s : State) : Out :=
  s.plain p fun s => s.link.jump (offTarget s.c.pc off.toInt)
def execCallr (p : FReg) (a : SReg) (s : State) : Out := s.plain p fun s => s.link.jump ((s.c.readS a).toNat % 2 ^ 22)
def execRet (p : FReg) (s : State) : Out := s.plain p fun s => s.jump ((s.c.readS 31).toNat % 2 ^ 22)

/-! ## Loops (R246-R251) -/

/-- Push a level; a fifth pushes the outermost out (R247). -/
def LoopState.push (l : LoopState) (x : LoopLevel) : LoopState :=
  ⟨(if l.levels.length < 4 then l.levels else l.levels.tail) ++ [x], Steps.none⟩

/-- A loop start with count n (R247). -/
def State.startLoop (s : State) (n lenM1 : Nat) : State :=
  let l := s.c.regs.loops
  let i := s.c.pc
  let set (l : LoopState) : State := { s with c := { s.c with regs := { s.c.regs with loops := l } } }
  if n = 0 then (set { l with armed := Steps.none }).jump (i + lenM1 + 2)
  else
    let s' := set (l.push ⟨i + 1, lenM1, n, l.armed⟩)
    { s' with iss := { s'.iss with started := true } }

def execLoop (p : FReg) (cntm1 : BitVec 12) (lenm1 : BitVec 10) (s : State) : Out :=
  s.plain p fun s => s.startLoop (cntm1.toNat + 1) lenm1.toNat
def execLoops (p : FReg) (a : SReg) (lenm1 : BitVec 10) (s : State) : Out :=
  s.plain p fun s => s.startLoop (Min.min (s.c.readS a).toNat 0xFFFFFFFF) lenm1.toNat
def execLoopp (p : FReg) (a b : SReg) (lenm1 : BitVec 10) (s : State) : Out :=
  s.plain p fun s =>
    s.startLoop (Min.min (s.c.readS b - s.c.readS a).toInt.toNat 0xFFFFFFFF) lenm1.toNat

/-- The armed steps after an LSTEP (R249). -/
def Steps.arm (x : Steps) (d a : SReg) : Steps :=
  if d = 0 ∧ a = 0 then Steps.none
  else match x.s0, x.s1 with
    | some (d0, a0), some (d1, a1) =>
      if d0 = d then ⟨some (d, a), some (d1, a1)⟩
      else if d1 = d then ⟨some (d0, a0), some (d, a)⟩
      else ⟨some (d1, a1), some (d, a)⟩
    | some (d0, a0), .none => if d0 = d then ⟨some (d, a), .none⟩ else ⟨some (d0, a0), some (d, a)⟩
    | .none, some (d1, a1) => if d1 = d then ⟨.none, some (d, a)⟩ else ⟨some (d, a), some (d1, a1)⟩
    | .none, .none => ⟨some (d, a), .none⟩

def execLstep (p : FReg) (d a : SReg) (s : State) : Out :=
  s.plain p fun s => { s with c := { s.c with regs := { s.c.regs with
    loops := { s.c.regs.loops with armed := s.c.regs.loops.armed.arm d a } } } }

/-- R250. -/
def execLbrk (p : FReg) (s : State) : Out :=
  s.plain p fun s => match s.c.regs.loops.inner with
    | none => s
    | some l =>
      let loops := { s.c.regs.loops with levels := s.c.regs.loops.levels.dropLast }
      { s with
        c := { s.c with regs := { s.c.regs with loops := loops } }
        iss := { s.iss with next := some (l.start + l.lenM1 + 1), broke := true } }

/-! ## Waiting (R253) -/

def execWaitf (p : FReg) (mask : BitVec 16) (any : Bool) (s : State) : Out :=
  s.runWait 0 p (fun _ => .ok) (fun s => waitSat (s.flagsOf s.c) mask any) (fun _ => []) id

/-! ## CSRs (R255, 09 R181, 10 R219) -/

/-- The trap of a privileged form in task mode (R181). -/
def State.privTrap (s : State) : Option Trap := if s.c.csr.mode then none else some (mkTrap cPRIV 0 0)

/-- CSRs that task mode may not read (R181). -/
def Csr.hidden : Csr → Bool
  | .status | .cause | .epc | .eval | .evec | .scratch | .timecmp | .accown | .accdirty => true
  | _ => false

def execCrd (p : FReg) (d : SReg) (csr : Csr) (s : State) : Out :=
  s.runSlot 0 p [] none (fun s => .ofOpt (if Csr.hidden csr then s.privTrap else none))
    fun s => { s with c := s.c.oweS 1 0 d (s.csrValue s.cur s.c csr) }

/-- IPISEND (Table 9-1): IPI pends on logical core CORE of the VD; an index at or above NCORE is ignored. -/
def State.sendIpi (s : State) (v : Word) : State :=
  match (s.vdOf s.c).bind fun d => d.globalCore (v.toNat % 512) with
  | some k => s.updCore k fun c => { c with csr := { c.csr with ipIpi := true } }
  | none => s

/-- CWR: the register is written at the end of the issue cycle. -/
def execCwr (p : FReg) (d : SReg) (csr : Csr) (s : State) : Out :=
  s.runSlot 0 p [] none (fun s => .ofOpt (if csr = .stqcnt then none else s.privTrap))
    fun s =>
      if csr = .ipisend then s.sendIpi (s.c.readS d)
      else { s with c := s.c.owe 1 0 (.csr csr) ((s.c.readS d).setWidth 1024) }

/-- STQPOP (R256): the second half leaves the record, the first removes it; an empty queue gives 0. -/
def execStqpop (p : FReg) (d : SReg) (h : Bool) (s : State) : Out :=
  s.plain p fun s => match s.c.regs.stq with
    | [] => { s with c := s.c.oweS 1 0 d 0 }
    | r :: rest =>
      if h then { s with c := s.c.oweS 1 0 d r.detail }
      else { s with c := { s.c with regs := { s.c.regs with stq := rest } }.oweS 1 0 d (BitVec.ofNat 64 (fieldAt r.pack 0 8)) }

/-! ## CSR writes as steps (06 R121, 09 Table 9-1): what the supervisor's write of the value does -/

/-- A supervisor's write; in task mode it traps PRIV. -/
def State.supWrite (s : State) (f : State → State) : Out :=
  match s.privTrap with
  | some t => .next (s.precise t)
  | none => .next (f s)

def execTlbinv (v : Word) (s : State) : Out := s.supWrite fun s => { s with c := s.c.writeCsr .tlbinv v }
def execIpisend (v : Word) (s : State) : Out := s.supWrite fun s => s.sendIpi v
def execTimecmpWrite (v : Word) (s : State) : Out := s.supWrite fun s => { s with c := s.c.writeCsr .timecmp v }

end Sys2Proof.Machine
end

