-- ==== Sys2Proof/Machine/LoadStore.lean ====
section
/-! DEFINITION. Slot 0 and slot 1: loads, stores, gather and scatter, atomics, reductions, address generators, circular buffers,
barriers and fences (11_isa_scalar_and_control.md R237-R242; 13_isa_memory_sync_and_copy.md R286-R310; 06 R108-R118; 07 R134-R146). -/

namespace Sys2Proof.Machine

/-! ## Addresses and checks (11 Table 11-4, 13 Table 13-1) -/

/-- Bytes of an access size. -/
def Size.bytes : Size → Nat
  | .b1 => 1
  | .b2 => 2
  | .b4 => 4
  | .b8 => 8

/-- The scope of a timed load. -/
def scopeOf : Scope2 → Scope
  | .clu => .clu
  | .die => .die
  | .pkg => .pkg
  | .sys => .sys

/-- A base register plus a signed displacement in units. -/
def State.addrOf (s : State) (a : SReg) (disp : Int) (unit : Nat) : Nat :=
  (s.c.readS a + BitVec.ofInt 64 (disp * unit)).toNat

/-- The checks on one access of n bytes, in order: its alignment, the own slice where it is required, rows 3 to 5. -/
def State.access (s : State) (va n align : Nat) (own : Bool) (acc : AccKind) : Except Trap Xl :=
  if va % align != 0 then .error (mkTrap cMISALIGN 0 va)
  else if own && !s.isOwn va n then .error (mkTrap cACCESS 0 va)
  else s.xlateCore va acc

/-- The trap of an access, if it fails. -/
def State.accessTrap (s : State) (va n align : Nat) (own : Bool) (acc : AccKind) : Option Trap :=
  match s.access va n align own acc with
  | .ok _ => none
  | .error t => some t

/-- The first trap of a list of checks. -/
def firstTrap (l : List (Option Trap)) : Option Trap := l.findSome? id

/-- The limit of 1,024 outstanding requests is reached (06 R111). -/
def State.lsuFull (s : State) : Bool := decide (1024 ≤ s.c.outstanding + s.iss.mems)
/-- The landing buffer is full (06 R111, 09 R189). -/
def State.landFull (s : State) : Bool := decide (s.c.landingLimit ≤ s.c.landingHeld + s.iss.lands)

/-- Whether the checks of an access come to a translation that misses the TLB. -/
def State.accessWalks (s : State) (va align : Nat) : Bool := va % align == 0 && s.misses va

/-- A memory instruction that passes its checks: it waits while a limit is reached. A trap that a walk ended in comes after its stop. -/
def State.memFound (s : State) (t : Option Trap) (timed : Bool) (walk : Bool := false) : Found :=
  { traps := t.toList
    wait := if timed && s.landFull then some .landing else if s.lsuFull then some .requests else none
    mem := 1
    land := if timed then 1 else 0
    walk := t.isSome && walk }

/-- The fence tags of an access that touches several ranges. -/
def Core.tagsOver (c : Core) (l : List (Nat × Nat)) : BitVec 8 := l.foldl (fun t p => t ||| c.tagsOf p.1 p.2) 0

/-- The windows that a fence orders: those of which a register in address form that its mask names matches an address (07 R152). -/
def State.fenceWins (s : State) (mask : BitVec 8) : List Nat :=
  match s.vdOf s.c with
  | some d => (d.winmap.filter fun w => (mask &&& (s.c.tagsBy fun r => r.matchesVa w.base w.len)) != 0).map (·.win)
  | none => []

/-- The windows that a request orders besides that of its own bytes. -/
def State.winsOf (s : State) : ReqOp → List Nat
  | .fence mask _ => s.fenceWins mask
  | _ => []

/-- A request of the present bundle over virtual ranges, with the issue number `ord`. -/
def State.newReq (s : State) (ord : Nat) (op : ReqOp) (va : Nat) (ranges : List (Nat × Nat)) (sc : Scope) (acq rel : Bool)
    (win : Option Nat) : Req :=
  ⟨ord, op, BitVec.ofNat 64 va, sc, acq, rel, s.c.tagsOver ranges, win, s.bundAddr s.c.pc, s.c.taskId, s.c.csr.cycle,
   decide (1 < ranges.length) || ranges.any (fun p => decide (128 ≤ p.2)), false, s.winsOf op⟩

/-- A request enters the LSU. -/
def Core.addReq (c : Core) (r : Req) : Core := { c with lsu := c.lsu ++ [r] }

/-- Issue a request that owes nothing to a register. -/
def State.issueReq (s : State) (op : ReqOp) (va : Nat) (ranges : List (Nat × Nat)) (sc : Scope) (acq rel : Bool)
    (win : Option Nat) : State :=
  { s with c := (s.c.addReq (s.newReq s.c.serial op va ranges sc acq rel win)).bumpSerial }

/-- Owe a result that is no vector, with data that may come later (06 R103, R110). -/
def Core.oweTo (c : Core) (lat : Nat) (slot : Fin 4) (dest : Dest) (v : Option Vec) (timed : Bool) (present : Nat) (poison : Bool)
    (eval : Word) : Core :=
  { c with
    serial := c.serial + 1
    owed := c.owed ++ [⟨c.serial, c.csr.cycle + lat, slot, dest, v, timed, present, poison, eval, none, [], none⟩] }

/-- Where a load's result goes. -/
inductive LoadDst where
  | s (r : SReg)
  | v (d : VDst)
deriving DecidableEq, Repr

/-- Owe a load's result; it takes the next issue number. -/
def Core.oweLoad (c : Core) (lat : Nat) (d : LoadDst) (v : Option Vec) (timed : Bool) (present : Nat) (poison : Bool) (eval : Word) :
    Core :=
  match d with
  | .s r => c.oweTo lat 0 (.sreg r) v timed present poison eval
  | .v d => c.oweVec lat 1 d v timed present poison eval

/-- A timed load (06 R110): it takes a landing entry and a request. -/
def State.timedLoad (s : State) (lat : Nat) (d : LoadDst) (va n : Nat) (sgn acq : Bool) (sc : Scope) : State :=
  match s.xlateCore va .rd with
  | .error _ => s
  | .ok x =>
    let r := s.newReq s.c.serial (.load (byteRange x.pa n) sgn []) va [(va, n)] sc acq false x.win
    let s := s.afterXlate x
    { s with c := (s.c.oweLoad lat d none true 0 false (BitVec.ofNat 64 va)).addReq r }

/-- The latency of a local load: 6, or 4 under COMPAT (06 R110, R112). -/
def Core.localLat (c : Core) : Nat := if c.csr.compat then 4 else 6

/-- A local load of bytes of the own slice (06 R110, R112): read at issue as its core sees them, or through the LSU where an
earlier access or fence holds it; `lanes` are the virtual ranges, in the order of the result's bytes. One read at issue is complete then, and
counts as outstanding within its bundle only (DESIGN CHOICE, log entry 90). -/
def State.localLoad (s : State) (d : LoadDst) (va : Nat) (lanes : List (Nat × Nat)) (sgn : Bool) (stop : Nat) : State :=
  let bs := lanes.flatMap fun p => s.ownRange p.1 p.2
  let tags := s.c.tagsOver lanes
  let timed := s.c.csr.compat
  let present := if timed then s.c.dieCyc + 6 else 0
  let held := s.localHeld bs
  let c :=
    if held then
      (s.c.oweLoad s.c.localLat d none timed present false (BitVec.ofNat 64 va)).addReq
        (s.newReq s.c.serial (.load bs sgn []) va lanes .core false false none)
    else
      match (lanes.zip (lanes.map fun p => s.ownRange p.1 p.2)).find? fun q => q.2.any fun a => s.poisoned a with
      | some q => s.c.oweLoad s.c.localLat d (some 0) timed present true (BitVec.ofNat 64 q.1.1)
      | none => s.c.oweLoad s.c.localLat d (some (loadData (s.ownBytes bs) sgn)) timed present false (BitVec.ofNat 64 va)
  let s' : State := { s with c := { c with dieCyc := c.dieCyc + stop, csr := { c.csr with bankstall := c.csr.bankstall + stop } } }
  if held then s' else s'.noteLocal bs tags

/-- A store of cells, each a virtual byte with its value, within one translated unit whose first byte `va` lies at `pa`. -/
def cellsAt (va pa : Nat) (l : List (Nat × Byte)) : List Host.Cell := l.map fun p => (pa + (p.1 - va), p.2)

/-! ## Scalar loads and stores (11 R237-R242) -/

def execLds (p : FReg) (d a : SReg) (sz : Size) (sgn : Bool) (disp : BitVec 9) (s : State) : Out :=
  let n := Size.bytes sz
  s.runSlot 0 p [] none
    (fun s => s.memFound (s.accessTrap (s.addrOf a disp.toInt n) n n true .rd) s.c.csr.compat)
    fun s => s.localLoad (.s d) (s.addrOf a disp.toInt n) [(s.addrOf a disp.toInt n, n)] sgn 0

/-- LDT of n bytes (R239). -/
def State.ldt (s : State) (p : FReg) (d a : SReg) (n : Nat) (arr : BitVec 8) (sgn acq : Bool) (sc : Scope2) : Out :=
  s.runSlot 0 p [] none
    (fun s => s.memFound (s.accessTrap (s.c.readS a).toNat n n false .rd) true (s.accessWalks (s.c.readS a).toNat n))
    fun s => s.timedLoad arr.toNat (.s d) (s.c.readS a).toNat n sgn acq (scopeOf sc)

def execLdt8 (p : FReg) (d a : SReg) (arr : BitVec 8) (sgn acq : Bool) (sc : Scope2) (s : State) : Out :=
  s.ldt p d a 1 arr sgn acq sc
def execLdt16 (p : FReg) (d a : SReg) (arr : BitVec 8) (sgn acq : Bool) (sc : Scope2) (s : State) : Out :=
  s.ldt p d a 2 arr sgn acq sc
def execLdt32 (p : FReg) (d a : SReg) (arr : BitVec 8) (sgn acq : Bool) (sc : Scope2) (s : State) : Out :=
  s.ldt p d a 4 arr sgn acq sc
def execLdt64 (p : FReg) (d a : SReg) (arr : BitVec 8) (acq : Bool) (sc : Scope2) (s : State) : Out :=
  s.ldt p d a 8 arr false acq sc

/-- Issue a store of bytes from a virtual address on. -/
def State.storeAt (s : State) (va n : Nat) (cells : List (Nat × Byte)) (ranges : List (Nat × Nat)) (sc : Scope) (rel : Bool) : State :=
  if n = 0 then s
  else match s.xlateCore va .wr with
    | .error _ => s
    | .ok x => (s.afterXlate x).issueReq (.store (cellsAt va x.pa cells)) va ranges sc false rel x.win

/-- Bytes paired with their addresses. -/
def placed (va : Nat) (bs : List Byte) : List (Nat × Byte) := (List.range bs.length).map fun i => (va + i, bs.getD i 0)

def execSt (p : FReg) (t a : SReg) (sz : Size) (rel : Bool) (sc : Scope) (disp : BitVec 6) (s : State) : Out :=
  let n := Size.bytes sz
  s.runSlot 0 p [] none
    (fun s => s.memFound (s.accessTrap (s.addrOf a disp.toInt n) n n false .wr) false (s.accessWalks (s.addrOf a disp.toInt n) n))
    fun s =>
      let va := s.addrOf a disp.toInt n
      s.storeAt va n (placed va (bytesOf n (s.c.readS t).toNat)) [(va, n)] sc rel

/-! ## Atomics and reductions (13 R301-R305) -/

/-- Whether an ordering acquires. -/
def ordAcq : Ord → Bool
  | .acq | .acqrel => true
  | _ => false
/-- Whether an ordering releases. -/
def ordRel : Ord → Bool
  | .rel | .acqrel => true
  | _ => false

/-- Issue an atomic (R303): a landing entry, the result due at t + 8. -/
def State.atomic (s : State) (t : SReg) (va n : Nat) (op : Nat → ReqOp) (ord : Ord) (sc : Scope) : State :=
  match s.xlateCore va .wr with
  | .error _ => s
  | .ok x =>
    let r := s.newReq s.c.serial (op x.pa) va [(va, n)] sc (ordAcq ord) (ordRel ord) x.win
    let s := s.afterXlate x
    { s with c := (s.c.oweTo 8 0 (.sreg t) none true 0 false (BitVec.ofNat 64 va)).addReq r }

def execAmo (p : FReg) (t a : SReg) (op : AmoOp) (ord : Ord) (sc : Scope) (sz64 : Bool) (s : State) : Out :=
  let n := if sz64 then 8 else 4
  s.runSlot 0 p [] none
    (fun s => s.memFound (s.accessTrap (s.c.readS a).toNat n n false .wr) true (s.accessWalks (s.c.readS a).toNat n))
    fun s => s.atomic t (s.c.readS a).toNat n (fun pa => .amo pa n op (s.c.readS t)) ord sc

def execCas (p : FReg) (t a b : SReg) (ord : Ord) (sc : Scope) (sz64 : Bool) (s : State) : Out :=
  let n := if sz64 then 8 else 4
  s.runSlot 0 p [] none
    (fun s => s.memFound (s.accessTrap (s.c.readS a).toNat n n false .wr) true (s.accessWalks (s.c.readS a).toNat n))
    fun s => s.atomic t (s.c.readS a).toNat n (fun pa => .cas pa n (s.c.readS t) (s.c.readS b)) ord sc

def execRed (p : FReg) (a b : SReg) (op : RedOp) (ty : RedTy) (sc : Scope) (s : State) : Out :=
  let n := redBytes ty
  s.runSlot 0 p [] none
    (fun s => s.memFound (s.accessTrap (s.c.readS a).toNat n n false .wr) false (s.accessWalks (s.c.readS a).toNat n))
    fun s =>
      let va := (s.c.readS a).toNat
      match s.xlateCore va .wr with
      | .error _ => s
      | .ok x => (s.afterXlate x).issueReq (.red x.pa op ty (s.c.readS b)) va [(va, n)] sc false false x.win

/-- The own-slice address of the line that a contribution sends (R305). -/
def State.winLine (s : State) (b : Word) : Nat := s.ownBase + bits b.toNat 0 21

/-- The checks of a contribution (R305, 06 R123 steps 1 and 3): the TLB entries that reading the present bit fills, or the
trap. -/
def State.winCheck (s : State) (a b : Word) (word : Nat) : Except Trap (List TlbEntry) :=
  let off := a.toNat % 2 ^ 32
  let hid := a.toNat / 2 ^ 32
  let bad : Trap := mkTrap cACCESS 0 a.toNat
  if bits b.toNat 21 11 != 0 || bits b.toNat 44 4 != 0 then .error (mkTrap cILLEGAL 4 word)
  else if off % 64 != 0 then .error (mkTrap cMISALIGN 0 a.toNat)
  else if bits b.toNat 0 21 % 64 != 0 then .error (mkTrap cMISALIGN 0 (s.winLine b))
  else if sliceSize ≤ bits b.toNat 0 21 then .error (mkTrap cACCESS 0 (s.winLine b))
  else match s.c.task with
    | none => .error bad
    | some t =>
      match s.vd? t.vd with
      | none => .error bad
      | some d =>
        match lookup hid d.handles with
        | none => .error bad
        | some h =>
          if h.kind = .host || decide (h.size ≤ off) || !s.pageHeld t.vd h off then .error bad
          else s.absent s.cur t.vd d h hid [off / 65536]

/-- Whether a trap of a copy or a contribution is that of reading a present bit whose translation misses the TLB. -/
def State.bitWalks (s : State) (d : Vd) (hid : Nat) (pages : List Nat) (t : Trap) : Bool :=
  match lookup hid d.handles with
  | none => false
  | some h => s.misses t.eval.toNat && pages.any fun i => BitVec.ofNat 64 (h.pbmp.toNat + i / 8) == t.eval

/-- The fence tags of a contribution: its home as a copy side is tagged (07 R142), and the line it reads. -/
def State.winTags (s : State) (a b : Word) : BitVec 8 :=
  let off := a.toNat % 2 ^ 32
  let hid := a.toNat / 2 ^ 32
  s.c.tagsOf (s.winLine b) 64 ||| (match (s.vdOf s.c).bind fun d => lookup hid d.handles with
    | none => 0
    | some h => if h.kind = .device then s.c.tagsOf (h.target.toNat + off) 64 else s.c.tagsBy fun r => r.matchesHandle hid off 64)

def execRedWin (p : FReg) (a b : SReg) (s : State) : Out :=
  s.runSlot 0 p [] none
    (fun s => match s.winCheck (s.c.readS a) (s.c.readS b) (wordOf (.redWin p a b)) with
      | .ok _ => s.memFound none false
      | .error t => s.memFound (some t) false (match s.vdOf s.c with
        | some d => s.bitWalks d ((s.c.readS a).toNat / 2 ^ 32) [(s.c.readS a).toNat % 2 ^ 32 / 65536] t
        | none => false))
    fun s => match s.winCheck (s.c.readS a) (s.c.readS b) 0 with
      | .error _ => s
      | .ok l =>
        let va := s.c.readS a
        let vb := s.c.readS b
        let r : Req :=
          ⟨s.c.serial, .redWin va (s.ownRange (s.winLine vb) 64) (bits vb.toNat 32 12) (bits vb.toNat 48 16) false, va, .sys, false,
           false, s.winTags va vb, none, s.bundAddr s.c.pc, s.c.taskId, s.c.csr.cycle, false, false, []⟩
        let s := s.fillOn s.cur l
        { s with c := (s.c.addReq r).bumpSerial }

/-! ## Barriers (13 R306-R308) -/

/-- A barrier of a core; EXPECT 0 where it has not been initialised. -/
def Core.barrier (c : Core) (n : BarReg) : Barrier := (lookup n.val c.regs.bars).getD ⟨0, 0, false⟩

/-- Put a barrier. -/
def Core.setBarrier (c : Core) (n : BarReg) (b : Barrier) : Core := { c with regs := { c.regs with bars := put n.val b c.regs.bars } }

/-- BARBAD of a barrier (Table 9-2). -/
def barBad (n : BarReg) (bad : Bool) : Found := .ofOpt (if bad then some (mkTrap cBARBAD 0 n.val) else none)

def execBarinit (p : FReg) (n : BarReg) (a : SReg) (s : State) : Out :=
  s.runSlot 0 p [] none
    (fun s =>
      let v := (s.c.readS a).toNat
      barBad n (v == 0 || decide (4096 < v) || decide (v ≤ (s.c.barrier n).arrived)))
    fun s => { s with c := s.c.setBarrier n { s.c.barrier n with expect := (s.c.readS a).toNat % 8192 } }

/-- NCORE of the running task's VD. -/
def State.ncore (s : State) : Nat := ((s.vdOf s.c).map Vd.ncore).getD 0

def execBararr (p : FReg) (n : BarReg) (a : SReg) (s : State) : Out :=
  s.runSlot 0 p [] none
    (fun s => barBad n (decide (Min.min 512 s.ncore ≤ (s.c.readS a).toNat)))
    fun s => match (s.vdOf s.c).bind fun d => d.globalCore (s.c.readS a).toNat with
      | some k => s.issueReq (.bararr k n) 0 [] .pkg false true none
      | none => s

def execBarwait (p : FReg) (n : BarReg) (sense : Bool) (fb : FReg) (s : State) : Out :=
  s.runWait 0 p (fun s => barBad n ((s.c.barrier n).expect == 0)) (fun s => (s.c.barrier n).ph == sense)
    (fun _ => [(fb, .bar n sense)]) id

/-! ## Range fences (13 R309, R310; 07 R142-R145) -/

/-- Every access, copy and array command of the acting core in flight is counted by FRk (07 R145); so are its writes that some die has not
applied. -/
def State.loadFence (s : State) (k : FrReg) : State :=
  let m : BitVec 8 := BitVec.ofNat 8 (2 ^ k.val)
  let s : State := { s with
    late := s.late.map fun w => if w.core = s.cur then { w with tags := w.tags ||| m } else w
    c := { s.c with
      lsu := s.c.lsu.map fun r => { r with tags := r.tags ||| m }
      chans := s.c.chans.map fun h => { h with tags := h.tags ||| m } } }
  s.updCluster (clusterOf s.cur) fun c =>
    { c with cmds := c.cmds.map fun x => if x.core = s.cur then { x with tags := x.tags ||| m } else x }

def execFrset (p : FReg) (k : FrReg) (a b : SReg) (s : State) : Out :=
  s.plain p fun s =>
    let s := s.loadFence k
    { s with c := s.c.owe 1 0 (.fence k) (BitVec.ofNat 1024 ((s.c.readS a).toNat + (s.c.readS b).toNat * 2 ^ 64)) }

/-- Whether a fence covers a window that a request past its re-key point holds: it waits with the window's other traffic (07 R153; that
its ranges decide is DEDUCED, log entry 44). -/
def State.fenceFrozen (s : State) (mask : BitVec 8) : Bool := (s.fenceWins mask).any s.frozenWin

def execFence (p : FReg) (mask : BitVec 8) (kind : FenceKind) (sc : Scope) (s : State) : Out :=
  s.runSlot 0 p [] none
    (fun s => { traps := [], wait := if s.fenceFrozen mask then some .requests else none,
                fences := [s.newReq s.c.serial (.fence mask kind) 0 [] sc false false none] })
    fun s => s.issueReq (.fence mask kind) 0 [] sc false false none

/-! ## Vector loads and stores (13 R287-R290) -/

def execVld (p : FReg) (d : VDst) (a : SReg) (disp : BitVec 18) (s : State) : Out :=
  s.runSlot 1 p [] (some d)
    (fun s => s.memFound (s.accessTrap (s.addrOf a disp.toInt 128) 128 128 true .rd) s.c.csr.compat)
    fun s => s.localLoad (.v d) (s.addrOf a disp.toInt 128) [(s.addrOf a disp.toInt 128, 128)] false 0

def execVldt (p : FReg) (d : VDst) (a : SReg) (arr : BitVec 15) (acq : Bool) (sc : Scope2) (s : State) : Out :=
  s.runSlot 1 p [] (some d)
    (fun s => s.memFound (s.accessTrap (s.c.readS a).toNat 128 128 false .rd) true (s.accessWalks (s.c.readS a).toNat 128))
    fun s => s.timedLoad arr.toNat (.v d) (s.c.readS a).toNat 128 false acq (scopeOf sc)

/-- Whether a vector source can be read at all: its queue has landed, its latch is valid, its port does not trap (the bundle's own
checks report what fails). -/
def State.srcReady (s : State) : VSrc → Bool
  | .q k _ => match s.c.regs.q[k] with
    | e :: _ => e.data.isSome
    | [] => false
  | .l k => (s.c.regs.l[k]).isSome
  | .p k _ => (s.portTrap (portAg k)).isNone
  | .bc _ => true

/-- The checks of a memory instruction of slot 1 that reads vectors: none where a source cannot be read; a wait where a port's
bytes are held back; UE where they are poisoned (R290, DEDUCED, log entry 23); else its own. -/
def State.srcFound (s : State) (srcs : List VSrc) (own : State → Option Trap) (walk : Bool := false) : Found :=
  if !srcs.all s.srcReady then .ok
  else match srcs.findSome? s.srcPoison with
    | some a => s.memFound (firstTrap [own s, some (mkTrap cUE 0 a.toNat)]) false (walk && (own s).isSome)
    | none =>
      let f := s.memFound (own s) false walk
      if srcs.any s.srcHeld then { f with wait := some .requests } else f

/-- Whether a lane is stored. -/
def State.laneOn (s : State) (men : Bool) (msk : MReg) (i : Nat) : Bool := !men || (s.c.regs.m[msk]).getLsbD i

def execVst (p : FReg) (v : VSrc) (a : SReg) (sc : Scope) (rel men : Bool) (msk : MReg) (disp : BitVec 11) (s : State) : Out :=
  s.runSlot 1 p [v] none
    (fun s => s.srcFound [v] (fun s => s.accessTrap (s.addrOf a disp.toInt 128) 128 128 false .wr)
      (s.accessWalks (s.addrOf a disp.toInt 128) 128))
    fun s =>
      let va := s.addrOf a disp.toInt 128
      let x := vecBytes (s.readV 32 v)
      let on := (List.range 32).filter (s.laneOn men msk)
      s.storeAt va 128 ((placed va x).filter fun c => s.laneOn men msk ((c.1 - va) / 4)) (on.map fun i => (va + 4 * i, 4)) sc rel

/-! ## Gather and scatter (13 R291, 06 R115) -/

/-- The address of lane i. -/
def State.laneAddr (s : State) (a : SReg) (x : Vec) (i : Nat) : Nat := (s.c.readS a + (lane x i).signExtend 64).toNat

/-- The lowest failing lane decides (R286). -/
def State.lanesTrap (s : State) (a : SReg) (x : VSrc) (on : List Nat) (acc : AccKind) : Option Trap :=
  on.findSome? fun i => s.accessTrap (s.laneAddr a (s.readV 32 x) i) 4 4 true acc

/-- Die cycles that colliding lanes cost (06 R115): the largest number of distinct words on one bank, less 1. -/
def bankStop (words : List Nat) : Nat :=
  let ws := words.foldl (fun l w => insertNat w l) []
  (List.range 32).foldl (fun m b => Max.max m (ws.filter fun w => w % 32 == b).length) 0 - 1

/-- The words of lanes, as their number in the slice. -/
def State.laneWords (s : State) (vas : List Nat) : List Nat := vas.map fun va => (va - s.ownBase) / 4

def execVldx (p : FReg) (d : VDst) (a : SReg) (x : VSrc) (s : State) : Out :=
  s.runSlot 1 p [x] (some d)
    (fun s =>
      let f := s.srcFound [x] fun s => s.lanesTrap a x (List.range 32) .rd
      if s.c.csr.compat then { f with wait := if s.landFull then some .landing else f.wait, land := 1 } else f)
    fun s =>
      let vas := (List.range 32).map (s.laneAddr a (s.readV 32 x))
      s.localLoad (.v d) (vas.headD 0) (vas.map fun va => (va, 4)) false (bankStop (s.laneWords vas))

def execVstx (p : FReg) (v : VSrc) (a : SReg) (x : VSrc) (men : Bool) (msk : MReg) (s : State) : Out :=
  s.runSlot 1 p [v, x] none
    (fun s => s.srcFound [v, x] fun s => s.lanesTrap a x ((List.range 32).filter (s.laneOn men msk)) .wr)
    fun s =>
      let on := (List.range 32).filter (s.laneOn men msk)
      let val := s.readV 32 v
      let vas := on.map fun i => (s.laneAddr a (s.readV 32 x) i, lane val i)
      let cells : List Host.Cell := vas.flatMap fun p => (placed (ownPhys s.cur p.1) (bytesOf 4 p.2.toNat))
      let stop := bankStop (s.laneWords (vas.map (·.1)))
      let s := if on.isEmpty then s
        else s.issueReq (.store cells) ((vas.headD (0, 0)).1) (vas.map fun p => (p.1, 4)) .core false false none
      { s with c := { s.c with dieCyc := s.c.dieCyc + stop, csr := { s.c.csr with bankstall := s.c.csr.bankstall + stop } } }

/-! ## Storing an index block (13 R292) -/

/-- The checks of VSTQ, in order. -/
def State.vstqTrap (s : State) (v : VSrc) (a b : SReg) (n : BReg) : Option Trap :=
  let k := s.c.regs.b[n]
  let va := (s.c.readS a).toNat
  let vb := (s.c.readS b).toNat
  if !k.valid then some (mkTrap cCBDEAD n.val 0)
  else if bits (s.readV 32 v).toNat 512 16 != k.ver.toNat then some (mkTrap cCBSTALE n.val vb)
  else firstTrap [s.accessTrap va (4 * k.w) 16 true .wr, s.accessTrap vb 3 1 true .wr]

def execVstq (p : FReg) (v : VSrc) (a b : SReg) (n : BReg) (s : State) : Out :=
  s.runSlot 1 p [v] none (fun s => s.srcFound [v] fun s => s.vstqTrap v a b n)
    fun s =>
      let w := 4 * (s.c.regs.b[n]).w
      let bs := vecBytes (s.readV 32 v)
      let va := (s.c.readS a).toNat
      let vb := (s.c.readS b).toNat
      s.issueReq (.store (placed (ownPhys s.cur va) (sliceBytes bs 0 w) ++ placed (ownPhys s.cur vb) (sliceBytes bs 64 3))) va
        [(va, w), (vb, 3)] .core false false none

/-! ## Address generators (13 R293-R295) -/

/-- A byte as AGSET and CBSET read it (R294): a store of the core less than 8 cycles old may or may not be seen. -/
def State.setByte (s : State) (draw pa : Nat) : Byte :=
  let old : List Req := s.c.lsu.filter fun q => decide (q.cyc + 8 ≤ s.c.csr.cycle)
  if Config.recentStoreSeen draw then s.ownByte pa else ({ s with c := { s.c with lsu := old } } : State).ownByte pa

/-- Whether an outstanding store of the core less than 8 cycles old writes a byte of a block. -/
def State.recentIn (s : State) (bs : List Nat) : Bool :=
  s.c.lsu.any fun q => decide (s.c.csr.cycle < q.cyc + 8) && q.op.isStore && meets q.op.touched bs

/-- The block that AGSET or CBSET reads. -/
def State.setBlock (s : State) (va n : Nat) : List Byte :=
  (List.range n).map fun i => s.setByte (s.fresh + i) (ownPhys s.cur (va + i))

/-- The free values that reading the block took. -/
def State.afterSet (s : State) (va n : Nat) : State :=
  if s.recentIn (s.ownRange va n) then { s with fresh := s.fresh + n } else s

/-- Checks 1 and 2 of R294 and R298; a block that is poisoned or held back is read as any local word is. -/
def State.setTrap (s : State) (va n : Nat) : Option Trap :=
  if va % n / 2 != 0 then some (mkTrap cMISALIGN 0 va)
  else if !s.isOwn (va / 2 * 2) n then some (mkTrap cACCESS 0 va)
  else none

/-- The found checks of AGSET and CBSET: `load` checks the block that is loaded. -/
def State.setFound (s : State) (va n : Nat) (load : List Byte → Option Trap) : Found :=
  match s.setTrap va n with
  | some t => .trap t
  | none =>
    if va % 2 = 1 then s.memFound none false
    else
      let bs := s.ownRange va n
      if s.localHeld bs then { traps := [], wait := some .requests, mem := 1 }
      else if bs.any fun a => s.poisoned a then .trap (mkTrap cUE 0 va)
      else { s.memFound (load (s.setBlock va n)) false with block := some (s.setBlock va n) }

/-- The block that AGSET or CBSET of the bundle being issued has read and checked. -/
def State.checkedBlock (s : State) : Nat := natOf (s.iss.block.getD [])

/-- What reading the block of AGSET or CBSET leaves: the free values it took, and that its bytes have been read. -/
def State.afterBlock (s : State) (va n : Nat) : State := (s.afterSet va n).noteLocal (s.ownRange va n) (s.c.tagsOf va n)

/-- Strides in use (R294). -/
def agStrides (g : AgSet) : List Int := (List.range (if agImg g then 4 else Min.min 6 (agLevels g + 1))).map (agStr g)

/-- Checks 3 and 4 of R294 on a block with VALID = 1. -/
def agCheck (k : AgReg) (va : Nat) (g : AgSet) : Option Trap :=
  if !agValid g then none
  else if agBase g % 4 != 0 || (agStrides g).any fun x => x % 4 != 0 then some (mkTrap cMISALIGN 0 va)
  else if agFld g 69 3 != 0 || agFld g 74 6 != 0 || decide (5 < agLevels g)
      || (agImg g && (agLevels g != 5 || agH g == 0 || agW g == 0 || agNb g == 0 || agSx g == 0 || agSy g == 0))
      || (!agImg g && agNb g != 0) || (List.range 6).any fun l => decide (agCnt g l < agIdx g l) then
    some (mkTrap cAGBOUNDS k.val va)
  else none

/-- A local store of a state block, at .core. -/
def State.saveBlock (s : State) (va : Nat) (bs : List Byte) : State :=
  { s with c := (s.c.addReq (localStore s.cur s.c.serial va bs (s.c.tagsOf va bs.length) (s.bundAddr s.c.pc) s.c.taskId
      s.c.csr.cycle)).bumpSerial }

def execAgset (p : FReg) (g : AgReg) (a : SReg) (s : State) : Out :=
  s.runSlot 1 p [] none
    (fun s => s.setFound (s.c.readS a).toNat 64 fun bs => agCheck g (s.c.readS a).toNat (BitVec.ofNat 512 (natOf bs)))
    fun s =>
      let va := (s.c.readS a).toNat
      if va % 2 = 1 then s.saveBlock (va - 1) (bytesOf 64 (s.c.regs.ag[g]).toNat)
      else
        let v := s.checkedBlock
        let s := s.afterBlock va 64
        { s with c := s.c.owe 1 1 (.agen g) (BitVec.ofNat 1024 v) }

/-! ## Circular buffers (13 R297-R300; 06 R116, R117) -/

/-- Checks 3 and 4 of R298. -/
def State.cbCheck (s : State) (k : CbReg) (va : Nat) (bs : List Byte) : Option Trap :=
  let b := CbBuf.unpack bs
  if 0 < b.nslot ∧ b.base.toNat % 128 ≠ 0 then some (mkTrap cMISALIGN 0 va)
  else if decide (256 < b.nslot)
      || (if b.nslot = 0 then b.pidx != 0 || b.cidx != 0
          else b.slotsz % 128 != 0 || decide (b.slotsz < 128) || decide (65536 < b.slotsz)
            || !s.isOwn b.base.toNat (b.nslot * b.slotsz) || decide (b.nslot ≤ b.pidx) || decide (b.nslot ≤ b.cidx))
      || b.free + b.filled + b.pheld + b.cheld != b.nslot || b.pheld != 0 || (s.c.regs.cb[k]).pheld != 0
      || fieldAt bs 26 6 != 0 then
    some (mkTrap cAGBOUNDS (0x10 + k.val) va)
  else none

def execCbset (p : FReg) (k : CbReg) (a : SReg) (s : State) : Out :=
  s.runSlot 1 p [] none
    (fun s => s.setFound (s.c.readS a).toNat 32 fun bs => s.cbCheck k (s.c.readS a).toNat bs)
    fun s =>
      let va := (s.c.readS a).toNat
      if va % 2 = 1 then s.saveBlock (va - 1) (s.c.regs.cb[k]).pack
      else
        let v := s.checkedBlock
        let s := s.afterBlock va 32
        { s with c := s.c.owe 1 1 (.buf k) (BitVec.ofNat 1024 v) }

/-- AGBOUNDS of a buffer with EVAL 0. -/
def bufBad (k : CbReg) (bad : Bool) : Found := .ofOpt (if bad then some (mkTrap cAGBOUNDS (0x10 + k.val) 0) else none)

/-- Acquire the slot at CIDX. -/
def CbBuf.acquire (b : CbBuf) : CbBuf :=
  { b with filled := b.filled - 1, cheld := b.cheld + 1, cidx := (b.cidx + 1) % Max.max 1 b.nslot }

def execCbacq (p : FReg) (k : CbReg) (d : SReg) (fb : FReg) (s : State) : Out :=
  s.runWait 1 p (fun s => bufBad k ((s.c.regs.cb[k]).nslot == 0)) (fun s => (s.c.regs.cb[k]).filled != 0)
    (fun _ => [(fb, .buf k)])
    fun s =>
      let b := s.c.regs.cb[k]
      let c := s.c.oweS 1 1 d (b.base + BitVec.ofNat 64 (b.cidx * b.slotsz))
      { s with c := { c with regs := { c.regs with cb := c.regs.cb.set k b.acquire } } }

def execCbrel (p : FReg) (k : CbReg) (s : State) : Out :=
  s.runSlot 1 p [] none (fun s => bufBad k ((s.c.regs.cb[k]).cheld == 0))
    fun s =>
      let b := s.c.regs.cb[k]
      let c : Core := { s.c with regs := { s.c.regs with cb := s.c.regs.cb.set k { b with free := b.free + 1, cheld := b.cheld - 1 } } }
      ({ s with c := c.holdBack k c.serial } : State).beginCopies s.cur

end Sys2Proof.Machine
end

