-- ==== Sys2Proof/Machine/Vector.lean ====
section
/-! DEFINITION. Slot 2: the vector machine (12_isa_vector.md R257-R285). -/

namespace Sys2Proof.Machine

/-! ## Elements and records -/

/-- The number whose w-bit digits a list gives, the first lowest. -/
def packList (w : Nat) : List Nat → Nat
  | [] => 0
  | x :: r => x % 2 ^ w + 2 ^ w * packList w r

/-- A vector from a list of elements. -/
def ofList (w : Nat) (l : List Nat) : Vec := BitVec.ofNat 1024 (packList w l)

/-- The elements of a vector (R257). -/
def elems (w : Nat) (a : Vec) : List Nat := (List.range (1024 / w)).map (elem w a)

/-- The indices of a list at which a test holds. -/
def indicesOf (l : List Bool) : List Nat := (List.range l.length).filter fun i => l.getD i false

/-- The lanes in which elements of width w lie. -/
def lanesOf (w : Nat) (es : List Nat) : Nat := es.foldl (fun m e => m ||| 2 ^ (e * w / 32)) 0

/-- The record of a kind for the elements a test marked: kind 01h names their lanes (12 R262), DETAIL of the others is zero (06 R128). -/
def State.recFor (s : State) (kind w : Nat) (marks : List Bool) : List StqRec :=
  let es := indicesOf marks
  if es.isEmpty then []
  else [⟨BitVec.ofNat 22 s.c.pc, 2, BitVec.ofNat 8 kind, recCount es.length, if kind = 1 then BitVec.ofNat 64 (lanesOf w es) else 0⟩]

/-- A record with a count of its own, of a kind that names no lanes. -/
def State.recCounted (s : State) (kind n : Nat) : List StqRec :=
  if n = 0 then [] else [⟨BitVec.ofNat 22 s.c.pc, 2, BitVec.ofNat 8 kind, recCount n, 0⟩]

/-! ## Running a vector instruction -/

/-- Owe a result that is no vector with a poison mark and records: masks, scalars and transposer rows. -/
def Core.oweRes (c : Core) (lat : Nat) (dest : Dest) (v : Vec) (poison : Option Word) (recs : List StqRec) : Core :=
  { c with
    serial := c.serial + 1
    owed := c.owed ++ [⟨c.serial, c.csr.cycle + lat, 2, dest, some v, false, 0, poison.isSome, poison.getD 0, none,
      if poison.isSome then [] else recs, none⟩] }

/-- The check every slot-2 instruction makes of its ports: bytes an earlier access holds back are waited for. -/
def State.portFound (s : State) (srcs : List VSrc) : Found :=
  if srcs.all s.srcReady && srcs.any s.srcHeld then { Found.ok with wait := some .requests } else .ok

/-- The address of poison that a source of the instruction brings, if any: its result then lands as UE (R290, log entry 23). -/
def State.poisonOf (s : State) (srcs : List VSrc) : Option Word := srcs.findSome? s.srcPoison

/-- A slot-2 instruction that gives a vector: `f` computes it with its records, `a` is source A for the merge of R259, none for a
merge with zero. -/
def State.vec (s : State) (p : FReg) (m : Merge) (lat : Nat) (d : VDst) (srcs : List VSrc) (a : Option (State → Vec))
    (f : State → Vec × List StqRec) : Out :=
  s.runSlot 2 p srcs (some d) (fun s => s.portFound srcs) fun s =>
    let (v, rs) := f s
    let base : Vec := match a with
      | some g => g s
      | none => 0
    match s.poisonOf srcs with
    | some e => { s with c := s.c.oweVec lat 2 d (some 0) false 0 true e }
    | none => { s with c := s.c.oweVec lat 2 d (some (s.c.regs.merge m base v)) false 0 false 0 rs }

/-- One source, element by element, without records. -/
def State.vec1 (s : State) (p : FReg) (m : Merge) (lat w : Nat) (d : VDst) (a : VSrc) (f : Vec → Vec) : Out :=
  s.vec p m lat d [a] (some fun s => s.readV w a) fun s => (f (s.readV w a), [])

/-- Two sources without records. -/
def State.vec2 (s : State) (p : FReg) (m : Merge) (lat w : Nat) (d : VDst) (a b : VSrc) (f : Vec → Vec → Vec) : Out :=
  s.vec p m lat d [a, b] (some fun s => s.readV w a) fun s => (f (s.readV w a) (s.readV w b), [])

/-! ## Element-wise arithmetic (R263, R264) -/

/-- Element-wise on two vectors. -/
def map2 (w : Nat) (f : Nat → Nat → Nat) (a b : Vec) : Vec := ofList w (List.zipWith f (elems w a) (elems w b))

/-- A floating operation on two vectors with its NaN record (R262). -/
def State.flt2 (s : State) (f : Fmt) (op : FVal → FVal → FVal) (a b : Vec) : Vec × List StqRec :=
  let w := f.width
  let xs := (elems w a).map (fdec f)
  let ys := (elems w b).map (fdec f)
  let rs := List.zipWith op xs ys
  let nans := List.zipWith (fun (x : FVal × FVal) (r : FVal) => x.1.isNan || x.2.isNan || r.isNan) (xs.zip ys) rs
  (ofList w (rs.map (fround f)), s.recFor 1 w nans)

/-- VADD, VSUB, VMUL, VMIN, VMAX (R263, Table 12-1): an integer operation or a floating one. -/
def State.arith (s : State) (p : FReg) (m : Merge) (d : VDst) (a b : VSrc) (ty : VTy) (ilat : Nat)
    (iop : Nat → Nat → Nat) (fop : FVal → FVal → FVal) : Out :=
  let w := ty.width
  match fmtOf ty with
  | some f => s.vec p m 4 d [a, b] (some fun s => s.readV w a) fun s => s.flt2 f fop (s.readV w a) (s.readV w b)
  | none => s.vec2 p m ilat w d a b (map2 w iop)

/-- The smaller of two integers of a type. -/
def intMin (ty : VTy) (x y : Nat) : Nat :=
  if ty.signed then (if sgn ty.width y < sgn ty.width x then y else x) else (if y < x then y else x)
/-- The larger of two integers of a type. -/
def intMax (ty : VTy) (x y : Nat) : Nat :=
  if ty.signed then (if sgn ty.width x < sgn ty.width y then y else x) else (if x < y then y else x)

def execVadd (p : FReg) (m : Merge) (d : VDst) (a b : VSrc) (ty : VTy) (s : State) : Out :=
  s.arith p m d a b ty 2 (fun x y => x + y) FVal.add
def execVsub (p : FReg) (m : Merge) (d : VDst) (a b : VSrc) (ty : VTy) (s : State) : Out :=
  s.arith p m d a b ty 2 (fun x y => x + 2 ^ ty.width - y) fun x y => x.add y.neg
def execVmul (p : FReg) (m : Merge) (d : VDst) (a b : VSrc) (ty : VTy) (s : State) : Out :=
  s.arith p m d a b ty 3 (fun x y => x * y) FVal.mul
def execVmin (p : FReg) (m : Merge) (d : VDst) (a b : VSrc) (ty : VTy) (s : State) : Out :=
  s.arith p m d a b ty 2 (intMin ty) FVal.min
def execVmax (p : FReg) (m : Merge) (d : VDst) (a b : VSrc) (ty : VTy) (s : State) : Out :=
  s.arith p m d a b ty 2 (intMax ty) FVal.max

/-- VABS and VNEG: a floating type changes only its sign bit. -/
def execVabs (p : FReg) (m : Merge) (d : VDst) (a : VSrc) (ty : VTy) (s : State) : Out :=
  let w := ty.width
  let half := 2 ^ (w - 1)
  s.vec1 p m 2 w d a fun v => ofList w ((elems w v).map fun x =>
    if (fmtOf ty).isSome then x % half else if ty.signed && decide (half ≤ x) then 2 ^ w - x else x)
def execVneg (p : FReg) (m : Merge) (d : VDst) (a : VSrc) (ty : VTy) (s : State) : Out :=
  let w := ty.width
  let half := 2 ^ (w - 1)
  s.vec1 p m 2 w d a fun v => ofList w ((elems w v).map fun x =>
    if (fmtOf ty).isSome then (if half ≤ x then x - half else x + half) else 2 ^ w - x)

/-- VFMA and VFMS (R264): one rounding of A × B + C, C's sign changed for VFMS. -/
def State.fused (s : State) (p : FReg) (m : Merge) (d : VDst) (a b c : VSrc) (bf neg : Bool) : Out :=
  let f := if bf then fmtBf16 else fmtF32
  let w := f.width
  s.vec p m 4 d [a, b, c] (some fun s => s.readV w a) fun s =>
    let xs := (elems w (s.readV w a)).map (fdec f)
    let ys := (elems w (s.readV w b)).map (fdec f)
    let zs := (elems w (s.readV w c)).map (fdec f)
    let rs := List.zipWith (fun (xy : FVal × FVal) (z : FVal) => (xy.1.mul xy.2).add (if neg then z.neg else z)) (xs.zip ys) zs
    let ins := List.zipWith (fun (xy : FVal × FVal) (z : FVal) => xy.1.isNan || xy.2.isNan || z.isNan) (xs.zip ys) zs
    (ofList w (rs.map (fround f)), s.recFor 1 w (List.zipWith (fun (i : Bool) (r : FVal) => i || r.isNan) ins rs))

def execVfma (p : FReg) (m : Merge) (d : VDst) (a b c : VSrc) (bf : Bool) (s : State) : Out := s.fused p m d a b c bf false
def execVfms (p : FReg) (m : Merge) (d : VDst) (a b c : VSrc) (bf : Bool) (s : State) : Out := s.fused p m d a b c bf true

/-! ## Logic and shifts (R265, R266) -/

def execVand (p : FReg) (m : Merge) (d : VDst) (a b : VSrc) (s : State) : Out := s.vec2 p m 2 32 d a b fun x y => x &&& y
def execVor (p : FReg) (m : Merge) (d : VDst) (a b : VSrc) (s : State) : Out := s.vec2 p m 2 32 d a b fun x y => x ||| y
def execVxor (p : FReg) (m : Merge) (d : VDst) (a b : VSrc) (s : State) : Out := s.vec2 p m 2 32 d a b fun x y => x ^^^ y
def execVnot (p : FReg) (m : Merge) (d : VDst) (a : VSrc) (s : State) : Out := s.vec1 p m 2 32 d a fun x => ~~~x
def execVmov (p : FReg) (m : Merge) (d : VDst) (a : VSrc) (s : State) : Out := s.vec1 p m 2 32 d a fun x => x

def execVshl (p : FReg) (m : Merge) (d : VDst) (a b : VSrc) (ty : VTy) (s : State) : Out :=
  s.vec2 p m 2 ty.width d a b (map2 ty.width fun x y => x * 2 ^ (y % ty.width))
def execVshr (p : FReg) (m : Merge) (d : VDst) (a b : VSrc) (ty : VTy) (s : State) : Out :=
  s.vec2 p m 2 ty.width d a b (map2 ty.width fun x y => x / 2 ^ (y % ty.width))
def execVsra (p : FReg) (m : Merge) (d : VDst) (a b : VSrc) (ty : VTy) (s : State) : Out :=
  s.vec2 p m 2 ty.width d a b (map2 ty.width fun x y => wrap ty.width (sgn ty.width x / (2 ^ (y % ty.width) : Nat)))

/-! ## Compares, masks and selection (R267-R269) -/

/-- A slot-2 instruction that gives a mask from vectors. -/
def State.maskOf (s : State) (p : FReg) (md : MReg) (srcs : List VSrc) (f : State → Lane × List StqRec) : Out :=
  s.runSlot 2 p srcs none (fun s => s.portFound srcs) fun s =>
    let (v, rs) := f s
    { s with c := s.c.oweRes 2 (.mask md) (v.setWidth 1024) (s.poisonOf srcs) rs }

def execVcmp (p : FReg) (md : MReg) (a b : VSrc) (c : Cond) (ty : VTy) (s : State) : Out :=
  s.maskOf p md [a, b] fun s =>
    let x := s.readV 32 a
    let y := s.readV 32 b
    (laneMask c (ty == .f32) x y,
     if ty == .f32 then s.recFor 1 32 (List.zipWith (fun u v => (fdec fmtF32 u).isNan || (fdec fmtF32 v).isNan) (elems 32 x) (elems 32 y))
     else [])

/-- A mask instruction of latency 1. -/
def State.maskOp (s : State) (p : FReg) (d : MReg) (f : State → Lane) : Out :=
  s.runSlot 2 p [] none (fun _ => .ok) fun s => { s with c := s.c.oweM 1 2 d (f s) }

def execMset (p : FReg) (d : MReg) (a : SReg) (s : State) : Out := s.maskOp p d fun s => (s.c.readS a).setWidth 32
def execMand (p : FReg) (d x y : MReg) (s : State) : Out := s.maskOp p d fun s => s.c.regs.m[x] &&& s.c.regs.m[y]
def execMor (p : FReg) (d x y : MReg) (s : State) : Out := s.maskOp p d fun s => s.c.regs.m[x] ||| s.c.regs.m[y]
def execMnot (p : FReg) (d x : MReg) (s : State) : Out := s.maskOp p d fun s => ~~~s.c.regs.m[x]

/-- Two sources and a mask, on 32-bit lanes (R269). -/
def State.vec2m (s : State) (p : FReg) (m : Merge) (lat : Nat) (d : VDst) (a b : VSrc) (k : MReg)
    (f : Lane → List Nat → List Nat → List Nat) : Out :=
  s.vec p m lat d [a, b] (some fun s => s.readV 32 a) fun s =>
    (ofList 32 (f s.c.regs.m[k] (elems 32 (s.readV 32 a)) (elems 32 (s.readV 32 b))), [])

/-- VSEL. -/
def selLanes (m : Lane) (a b : List Nat) : List Nat :=
  (List.range 32).map fun i => if m.getLsbD i then a.getD i 0 else b.getD i 0
/-- VCOMPACT. -/
def compactLanes (m : Lane) (a b : List Nat) : List Nat :=
  let kept := ((List.range 32).filter fun i => m.getLsbD i).map fun i => a.getD i 0
  kept ++ b.drop kept.length
/-- VEXPAND. -/
def expandLanes (m : Lane) (a b : List Nat) : List Nat :=
  (List.range 32).map fun i =>
    if m.getLsbD i then a.getD ((List.range i).filter fun j => m.getLsbD j).length 0 else b.getD i 0

def execVsel (p : FReg) (m : Merge) (d : VDst) (a b : VSrc) (k : MReg) (s : State) : Out := s.vec2m p m 2 d a b k selLanes
def execVcompact (p : FReg) (m : Merge) (d : VDst) (a b : VSrc) (k : MReg) (s : State) : Out :=
  s.vec2m p m 3 d a b k compactLanes
def execVexpand (p : FReg) (m : Merge) (d : VDst) (a b : VSrc) (k : MReg) (s : State) : Out :=
  s.vec2m p m 3 d a b k expandLanes

/-! ## Moves between lanes (R270) -/

def execVbc (p : FReg) (m : Merge) (d : VDst) (a : VSrc) (k : Fin 64) (ty : VTy) (s : State) : Out :=
  s.vec1 p m 2 ty.width d a fun v => ofElems ty.width fun _ => elem ty.width v k.val
def execVrot (p : FReg) (m : Merge) (d : VDst) (a : VSrc) (k : Fin 64) (ty : VTy) (s : State) : Out :=
  let w := ty.width
  s.vec1 p m 3 w d a fun v => ofElems w fun e => elem w v ((e + k.val) % (1024 / w))
def execVperm (p : FReg) (m : Merge) (d : VDst) (a b : VSrc) (ty : VTy) (s : State) : Out :=
  let w := ty.width
  s.vec2 p m 3 w d a b fun x y => ofElems w fun e => elem w x (elem w y e % (1024 / w))
def execVshuf (p : FReg) (m : Merge) (d : VDst) (a b : VSrc) (ty : VTy) (s : State) : Out :=
  let w := ty.width
  s.vec2 p m 3 w d a b fun x y => ofElems w fun e => if e % 2 = 0 then elem w x (e / 2) else elem w y (e / 2)

/-! ## Reductions, scans, extraction (R271-R274) -/

/-- One combination of a reduction or scan on integers. -/
def intComb (op : VRedOp) (ty : VTy) (x y : Nat) : Nat :=
  match op with
  | .add => (x + y) % 2 ^ ty.width
  | .min => intMin ty x y
  | .max => intMax ty x y
  | .and => x &&& y
  | .or => x ||| y
  | .xor => x ^^^ y

/-- One combination on FP32 values, each rounded; the bitwise operations have no FP32 form. -/
def fltComb (op : VRedOp) (x y : FVal) : FVal :=
  match op with
  | .min => x.min y
  | .max => x.max y
  | _ => fdec fmtF32 (fround fmtF32 (x.add y))

/-- One combination by a type. -/
def comb (op : VRedOp) (ty : VTy) (x y : Nat) : Nat :=
  if ty == .f32 then fround fmtF32 (fltComb op (fdec fmtF32 x) (fdec fmtF32 y)) else intComb op ty x y

/-- One level of the tree: element 2i with element 2i + 1. -/
def combLevel (op : VRedOp) (ty : VTy) : List Nat → List Nat
  | x :: y :: r => comb op ty x y :: combLevel op ty r
  | r => r

/-- The tree; the fuel is the number of levels. -/
def combTree (op : VRedOp) (ty : VTy) : Nat → List Nat → Nat
  | 0, l => l.headD 0
  | n + 1, l => combTree op ty n (combLevel op ty l)

/-- NaN elements of a source and of a result of FP32 (R262). -/
def State.nanRec (s : State) (a v : Vec) : List StqRec :=
  s.recFor 1 32 (List.zipWith (fun x y => (fdec fmtF32 x).isNan || (fdec fmtF32 y).isNan) (elems 32 a) (elems 32 v))

def execVred (p : FReg) (m : Merge) (d : VDst) (a : VSrc) (op : VRedOp) (ty : VTy) (s : State) : Out :=
  let w := ty.width
  s.vec p m 6 d [a] (some fun s => s.readV w a) fun s =>
    let x := s.readV w a
    let v : Vec := BitVec.ofNat 1024 (combTree op ty 7 (elems w x))
    (v, if ty == .f32 then s.nanRec x v else [])

/-- The operation of a scan as that of a reduction. -/
def scanOp : VScanOp → VRedOp
  | .add => .add
  | .min => .min
  | .max => .max

/-- Identity(op, ty) (R272). -/
def scanId (op : VScanOp) (ty : VTy) : Nat :=
  let w := ty.width
  match op with
  | .add => 0
  | .min => if ty == .f32 then 0x7F800000 else if ty.signed then 2 ^ (w - 1) - 1 else 2 ^ w - 1
  | .max => if ty == .f32 then 0xFF800000 else if ty.signed then 2 ^ (w - 1) else 0

/-- The scan in ascending element order. -/
def scanList (f : Nat → Nat → Nat) (excl : Bool) : Nat → List Nat → List Nat
  | _, [] => []
  | acc, x :: r => (if excl then acc else f acc x) :: scanList f excl (f acc x) r

def execVscan (p : FReg) (m : Merge) (d : VDst) (a : VSrc) (op : VScanOp) (excl : Bool) (ty : VTy) (s : State) : Out :=
  let w := ty.width
  s.vec p m 6 d [a] (some fun s => s.readV w a) fun s =>
    let x := s.readV w a
    let v := ofList w (scanList (comb (scanOp op) ty) excl (scanId op ty) (elems w x))
    (v, if ty == .f32 then s.nanRec x v else [])

def execVext (p : FReg) (d : SReg) (a : VSrc) (k : Fin 64) (ty : VTy) (s : State) : Out :=
  s.runSlot 2 p [a] none (fun s => s.portFound [a]) fun s =>
    let x := elem ty.width (s.readV ty.width a) k.val
    let v : Word := if ty.signed then BitVec.ofInt 64 (sgn ty.width x) else BitVec.ofNat 64 x
    { s with c := s.c.oweRes 2 (.sreg d) (v.setWidth 1024) (s.poisonOf [a]) [] }

def execVpopc (p : FReg) (m : Merge) (d : VDst) (a : VSrc) (ty : VTy) (s : State) : Out :=
  s.vec1 p m 3 ty.width d a fun v => ofElems ty.width fun e => popCount ty.width (elem ty.width v e)
def execVclz (p : FReg) (m : Merge) (d : VDst) (a : VSrc) (ty : VTy) (s : State) : Out :=
  s.vec1 p m 3 ty.width d a fun v => ofElems ty.width fun e => leadZeros ty.width (elem ty.width v e)

/-! ## Transcendental functions (R275) -/

/-- A function of each FP32 lane with its NaN record. -/
def State.fun1 (s : State) (p : FReg) (m : Merge) (d : VDst) (a : VSrc) (f : FVal → FVal) : Out :=
  s.vec p m 8 d [a] (some fun s => s.readV 32 a) fun s =>
    let x := s.readV 32 a
    let v := ofList 32 ((elems 32 x).map fun e => fround fmtF32 (f (fdec fmtF32 e)))
    (v, s.nanRec x v)

def execVexp2 (p : FReg) (m : Merge) (d : VDst) (a : VSrc) (s : State) : Out := s.fun1 p m d a fexp2
def execVlog2 (p : FReg) (m : Merge) (d : VDst) (a : VSrc) (s : State) : Out := s.fun1 p m d a flog2
def execVrcp (p : FReg) (m : Merge) (d : VDst) (a : VSrc) (s : State) : Out := s.fun1 p m d a frcp
def execVrsq (p : FReg) (m : Merge) (d : VDst) (a : VSrc) (s : State) : Out := s.fun1 p m d a frsq

/-! ## Conversions (R276-R278) -/

/-- The value of an element of a type. -/
def valOf (ty : VTy) (x : Nat) : FVal :=
  match fmtOf ty with
  | some f => fdec f x
  | none => FVal.ofInt (if ty.signed then sgn ty.width x else (x : Int))

/-- Conversion to a type (08 R158). -/
def convTo (ty : VTy) (sat : Bool) (v : FVal) : Conv :=
  match fmtOf ty with
  | some f => fconv f sat v
  | none => iconv ty.width ty.signed v

/-- The records of a conversion (08 R158; 12 R262); that of NaNs names their destination lanes. -/
def State.convRecs (s : State) (w : Nat) (cs : List (Option Conv)) : List StqRec :=
  let mark (f : Conv → Bool) : List Bool := cs.map fun c => (c.map f).getD false
  s.recFor 1 w (mark (·.nan)) ++ s.recFor 2 w (mark (·.sat)) ++ s.recFor 3 w (mark (·.ovf)) ++ s.recFor 4 w (mark (·.under))

/-- The destination elements of VCVT: a conversion, or none where the destination is zero. -/
def cvtElems (a : Vec) (sat part : Bool) (ts td : VTy) : List (Option Conv) :=
  let ns := 1024 / ts.width
  let nd := 1024 / td.width
  let one (e : Nat) : Conv := convTo td sat (valOf ts (elem ts.width a e))
  let k := if part then 1 else 0
  (List.range nd).map fun e =>
    if nd ≤ ns then some (one (e + (if nd < ns then k * nd else 0)))
    else if k * ns ≤ e ∧ e < k * ns + ns then some (one (e - k * ns)) else none

def execVcvt (p : FReg) (m : Merge) (d : VDst) (a : VSrc) (sat part : Bool) (ts td : VTy) (s : State) : Out :=
  s.vec p m 4 d [a] (some fun s => s.readV ts.width a) fun s =>
    let cs := cvtElems (s.readV ts.width a) sat part ts td
    (ofList td.width (cs.map fun c => (c.map (·.bits)).getD 0), s.convRecs td.width cs)

/-- The bits of a sub-byte field. -/
def subWidth : VXSrc → Nat
  | .s4 | .n4 | .e2m1 => 4
  | .e2m3 | .e3m2 => 6

def execVxpand (p : FReg) (m : Merge) (d : VDst) (a : VSrc) (src : VXSrc) (hi : Bool) (s : State) : Out :=
  s.vec1 p m 3 8 d a fun v =>
    let w := subWidth src
    ofList 8 ((List.range 128).map fun j =>
      fround fmtE4m3 (subByte src (bits v.toNat (w * (j + if hi then 128 else 0)) w)))

/-- The scale and the elements that VMX packs (08 R159); for .n8, whose limit the spec does not name, either choice. -/
def vmxPack (ty : VTy) (vs : List FVal) : Nat × List Conv :=
  let four := ty == .mx4 || (ty == .n8 && Config.scaleOfMx4)
  let x := mxScale vs (if four then 2 else 0)
  (x, vs.map (if four then mxElem4 x else mxElem8 x))

def execVmx (p : FReg) (m : Merge) (d : VDst) (a b : VSrc) (ty : VTy) (s : State) : Out :=
  s.vec p m 6 d [a, b] (some fun s => s.readV 32 a) fun s =>
    let (x, cs) := vmxPack ty ((elems 32 (s.readV 32 a)).map (fdec fmtF32))
    let y := s.readV 32 b
    let bits' := cs.map (·.bits)
    let v : Vec := match ty with
      | .mx4 => (y >>> 128) ||| BitVec.ofNat 1024 (packList 4 bits' * 2 ^ 896)
      | .mxi8 => (y >>> 256) ||| BitVec.ofNat 1024 (packList 8 bits' * 2 ^ 768)
      | _ => (y >>> 8) ||| BitVec.ofNat 1024 (x * 2 ^ 1016)
    (v, s.convRecs 32 (cs.map some))

/-! ## Codebook instructions (R279-R283) -/

/-- The index field of a block image. -/
def imgField (w : Nat) (v : Vec) : Nat := v.toNat % 2 ^ (32 * w)
/-- The header of a block image. -/
def imgHdr (v : Vec) : Nat := bits v.toNat 512 24

/-- A block image. -/
def image (w : Nat) (is : List Nat) (hdr : Nat) : Vec := BitVec.ofNat 1024 (packIndices w is + hdr % 2 ^ 24 * 2 ^ 512)

/-- g0 of R280 and R281. -/
def firstGroup (b : Binding) (g : Nat) : Nat := g - g % (32 / b.v)

/-- The copy an instruction of slot 2 finds at issue. -/
def State.copyAt (s : State) (n : BReg) (map : Bool) : Except FillErr (CbsCopy × Bool) :=
  match s.c.task with
  | none => .error .dead
  | some t => s.getCopy (clusterOf s.cur) t.vd s.c.regs.b[n] (map && (s.c.regs.b[n]).needsMap)

/-- EVAL of VDQ's precise causes (R281): where a port read byte 64 of the image. -/
def State.imageAddr (s : State) : VSrc → Nat
  | .p k _ =>
    let q := agAccess s.c.regs.ag[portAg k]
    if q.pad then 0 else wrap 64 (q.addr + 64)
  | _ => 0

/-- The trap of a binding or of its copy. -/
def State.copyTrap (s : State) (n : BReg) (map : Bool) (eval : Nat) : Option Trap :=
  if !(s.c.regs.b[n]).valid then some (mkTrap cCBDEAD n.val eval)
  else match s.copyAt n map with
    | .ok _ => none
    | .error .dead => some (mkTrap cCBDEAD n.val eval)
    | .error (.poison e) => some (mkTrap cUE 0 e.toNat)

/-- The effect of having found a copy: a refill stops the domain for an open time (R283). -/
def State.afterCopy (s : State) (c : CbsCopy) (fresh : Bool) : State :=
  if fresh then
    let s := s.putCopy (clusterOf s.cur) c
    let s' := s.draw
    { s' with c := s.c.freeze (Config.freezeCycles s.fresh) }
  else s

/-- The finding of VQZ and VDQ: the binding and its copy, then the ports, whose held bytes are waited for, then the check of `more`. A refill
stops the domain also where a trap follows it (R283). -/
def State.codeFound (s : State) (srcs : List VSrc) (n : BReg) (map : Bool) (eval : Nat) (more : CbsCopy → Option Trap) : Found :=
  if !srcs.all s.srcReady then .ok
  else match s.copyTrap n map eval with
    | some t => foundOf [t] none (s.c.regs.b[n]).valid
    | none =>
      let f := s.portFound srcs
      if f.wait.isSome then f
      else match s.copyAt n map with
        | .error _ => f
        | .ok (c, fresh) => { f with traps := (more c).toList, walk := fresh && (more c).isSome }

/-- Owe the result of VQZ or VDQ. -/
def State.oweCoded (s : State) (lat : Nat) (d : VDst) (srcs : List VSrc) (v : Vec) (rs : List StqRec) (key : Nat) : State :=
  match s.poisonOf srcs with
  | some e => { s with c := s.c.oweVec lat 2 d (some 0) false 0 true e }
  | none => { s with c := s.c.oweVec lat 2 d (some v) false 0 false 0 rs (some key) }

def execVqz (p : FReg) (m : Merge) (d : VDst) (a b : VSrc) (n : BReg) (s : State) : Out :=
  s.runSlot 2 p [a, b] (some d) (fun s => s.codeFound [a, b] n false 0 fun _ => none) fun s =>
    match s.copyAt n false with
    | .error _ => s
    | .ok (c, fresh) =>
      let k := s.c.regs.b[n]
      let x := s.readV 32 a
      let y := s.readV 32 b
      let vals := (elems 32 x).map (fdec fmtF32)
      let e := k.encodeRun c.cw (fdec fmtF32 (elem 32 y 0)) vals
      let g0 := firstGroup k (elem 32 y 1 % 32)
      let v := image k.w (List.replicate g0 0 ++ e.idx) (e.exp * 65536 + k.ver.toNat)
      let amax := fdec fmtF32 (elem 32 y 0)
      let nans := (List.range 32).map fun i => (vals.getD i FVal.zero).isNan || (decide (i = 0) && amax.isNan)
      let rs := s.recFor 1 32 nans ++ s.recCounted 2 e.sats ++ s.recCounted 5 e.infs
      let v := s.c.regs.merge m x v
      (s.afterCopy c fresh).oweCoded 8 d [a, b] v rs c.key

/-- The indices of A's image as VDQ sees them; none where the stamp is stale. -/
def State.vdqView (s : State) (a : VSrc) (n : BReg) (c : CbsCopy) : Option (List Nat × Bool) :=
  let k := s.c.regs.b[n]
  let x := s.readV 32 a
  k.stampCheck c.map (imgHdr x) (indices k.w (imgField k.w x))

def execVdq (p : FReg) (m : Merge) (d : VDst) (a b : VSrc) (n : BReg) (s : State) : Out :=
  s.runSlot 2 p [a, b] (some d)
    (fun s => s.codeFound [a, b] n true (s.imageAddr a) fun c =>
      if (s.poisonOf [a, b]).isSome || (s.vdqView a n c).isSome then none else some (mkTrap cCBSTALE n.val (s.imageAddr a)))
    fun s =>
    match s.copyAt n true with
    | .error _ => s
    | .ok (c, fresh) =>
      let k := s.c.regs.b[n]
      let x := s.readV 32 a
      let (is, moved) := (s.vdqView a n c).getD ([], false)
      let g0 := firstGroup k (elem 32 (s.readV 32 b) 0 % 32)
      let be := imgHdr x / 65536
      let v := ofList 32 ((List.range 32).map fun j => fround fmtF32 (k.value c.cw be (is.getD (g0 + j / k.v) 0) (j % k.v)))
      let rs := (if be = 0xFF then s.recFor 1 32 (List.replicate 32 true) else []) ++ (if moved then s.recCounted 6 1 else [])
      let v := s.c.regs.merge m x v
      (s.afterCopy c fresh).oweCoded 6 d [a, b] v rs c.key

/-- Index width of VDIFF. -/
def diffWidth : VTy → Nat
  | .ix4 => 4
  | .ix8 => 8
  | _ => 12

def execVdiff (p : FReg) (md : MReg) (a b : VSrc) (ty : VTy) (s : State) : Out :=
  s.maskOf p md [a, b] fun s =>
    let w := diffWidth ty
    let x := s.readV 32 a
    let y := s.readV 32 b
    let hd := imgHdr x != imgHdr y
    (ofBits fun g => hd || indexAt w (imgField w x) g != indexAt w (imgField w y) g, [])

/-! ## The transposer (R284, R285) -/

/-- PRIV in supervisor mode (R284). -/
def State.taskOnly (s : State) : Option Trap := if s.c.csr.mode then some (mkTrap cPRIV 0 0) else none

def execVtrp (p : FReg) (a : VSrc) (rst : Bool) (s : State) : Out :=
  s.runSlot 2 p [a] none
    (fun s => { s.portFound [a] with traps := s.taskOnly.toList })
    fun s =>
      let t := s.c.regs.tr
      let t : Transposer := if rst then { t with rv := 0, rp := 0, cp := 0 } else t
      let c := s.c.oweRes 1 (.trow t.rp) (s.readV 32 a) (s.poisonOf [a]) []
      { s with c := { c with regs := { c.regs with
          tr := { t with rv := t.rv ||| BitVec.ofNat 32 (2 ^ t.rp.val), rp := t.rp + 1 } } } }

def execVtrc (p : FReg) (m : Merge) (d : VDst) (rst : Bool) (s : State) : Out :=
  s.runSlot 2 p [] (some d)
    (fun s => .ofOpt (match s.taskOnly with
      | some t => some t
      | none => if s.c.regs.tr.rv = 0xFFFFFFFF then none else some (mkTrap cLATCHINV 4 0)))
    fun s =>
      let t := s.c.regs.tr
      let cp : Fin 32 := if rst then 0 else t.cp
      let v := ofLanes fun i => lane t.rows[Fin.ofNat 32 i] cp.val
      let c := s.c.oweVec 2 2 d (some (s.c.regs.merge m 0 v))
      { s with c := { c with regs := { c.regs with tr := { t with cp := cp + 1 } } } }

end Sys2Proof.Machine
end

