-- ==== Sys2Proof/Machine/Matrix.lean ====
section
/-! DEFINITION. Slot 3: the lease, array commands, codebook commands and copies (14_isa_matrix_tasks_and_system.md R316-R327;
13_isa_memory_sync_and_copy.md R311-R315; 08 R164-R169, R179; 09 R196). -/

namespace Sys2Proof.Machine

/-! ## The lease (14 R319, R320) -/

def execLease (p : FReg) (s : State) : Out := s.runSlot 3 p [] none (fun _ => .ok) fun s => s.requestLease s.cur

/-- LFREE ends the lease or withdraws the request; in supervisor mode the state recorded at entry comes back, where a lease
granted since becomes a request again. -/
def execLfree (p : FReg) (s : State) : Out :=
  s.runSlot 3 p [] none (fun _ => .ok) fun s =>
    if s.c.csr.mode then
      (match s.c.leaseAtTrap with
       | .none => s.dropLease s.cur
       | .requested => if s.c.lease = .held then (s.dropLease s.cur).requestLease s.cur else s
       | .held => s)
    else
      let s := s.dropLease s.cur
      { s with c := { s.c with grace := false } }

/-! ## Checks on an array command (14 Table 14-1) -/

/-- A trap that a condition raises. -/
def trapIf (b : Bool) (t : Trap) : List Trap := if b then [t] else []

/-- The counter of a slot-3 command: field 0 names none (10 R209). -/
def State.ctrField (s : State) (t : SReg) : Option (BitVec 16) := if t = 0 then none else some ((s.c.readS t).setWidth 16)

/-- The checks of a counter register (14 Table 14-1, 05 R90). -/
def State.ctrTraps (s : State) (t : SReg) (word : Nat) : List Trap :=
  if t = 0 then []
  else
    let n := (s.c.readS t).toNat
    trapIf (n / 65536 != 0) (mkTrap cILLEGAL 4 word)
      ++ trapIf (!((s.vdOf s.c).map fun d => d.ctrOk (n % 65536)).getD false) (mkTrap cCTRBAD 0 (n % 65536))

/-- An operand of an array command: its address, the alignment stated for it, every byte range it takes, and whether HBM may hold
it and for which access. -/
structure Operand where
  va     : Nat
  align  : Nat
  ranges : List (Int × Nat)
  hbm    : Option AccKind

/-- Whether ranges lie wholly within the slice of a core of the issuing core's cluster that holds an address. -/
def State.inCluster (s : State) (va : Nat) (ranges : List (Int × Nat)) : Bool :=
  let c := (va - sramBase) / sliceSize
  let lo : Int := (sramBase + c * sliceSize : Nat)
  (((s.vdOf s.c).bind fun d => d.globalCore c).map fun g => clusterOf g == clusterOf s.cur).getD false
    && ranges.all fun r => decide (lo ≤ r.1) && decide (r.1 + r.2 ≤ lo + sliceSize)

/-- The checks of one operand. -/
def State.operandTraps (s : State) (o : Operand) : List Trap :=
  trapIf (o.va % o.align != 0) (mkTrap cMISALIGN 0 o.va)
    ++ (if sramBase ≤ o.va ∧ o.va < hbmBase then trapIf (!s.inCluster o.va o.ranges) (mkTrap cACCESS 0 o.va)
        else match o.hbm with
          | none => [mkTrap cACCESS 0 o.va]
          | some acc => match s.xlateCore o.va acc with
            | .ok _ => []
            | .error t => [t])

/-- What an array command names: its operands, its tile with the format it accumulates in, its binding, its counter register, and
whether its descriptors hold a value that is not allowed. -/
structure ArrayUse where
  ops    : List Operand
  tile   : Option AcReg
  fmt    : Option (BitVec 4)
  bind   : Option BReg
  ctr    : SReg
  bad    : Bool

/-- CTX of ACCOWN, or 0 (Table 9-2). -/
def Core.ownCtx (c : Core) : Nat := if c.csr.accown.getLsbD 58 then c.csr.accown.toNat % 2 ^ 58 else 0

/-- ACCFIRST (09 R196). -/
def State.firstTraps (s : State) (k : AcReg) : List Trap :=
  trapIf (!s.c.csr.mode && !s.c.ownsCtx s.c.ctxid.toNat) (mkTrap cACCFIRST k.val s.c.ownCtx)

/-- ACCFMT (08 R179). -/
def State.fmtTraps (s : State) (k : AcReg) (f : BitVec 4) : List Trap :=
  let tag := s.c.regs.tag[k]
  trapIf (tag != 0 && tag != f) (mkTrap cACCFMT k.val (tag.toNat + 16 * f.toNat))

/-- Every failing check of an array command. -/
def State.arrayTraps (s : State) (u : ArrayUse) (word : Nat) : List Trap :=
  trapIf u.bad (mkTrap cILLEGAL 4 word) ++ s.ctrTraps u.ctr word ++ u.ops.flatMap s.operandTraps
    ++ (match u.tile with
        | some k => s.firstTraps k ++ (match u.fmt with
          | some f => s.fmtTraps k f
          | none => [])
        | none => [])
    ++ trapIf (s.c.lease == .none && !s.c.grace) (mkTrap cNOLEASE 0 0)
    ++ (match u.bind with
        | some n => trapIf (!(s.c.regs.b[n]).valid) (mkTrap cCBDEAD n.val 0)
        | none => [])

/-- An operand in HBM as a check finds it: its physical address, its window, the TLB entry it fills. -/
def State.hbmOperand (s : State) (o : Operand) : Option (Nat × Option Nat × Option TlbEntry) :=
  if o.hbm.isNone ∨ (sramBase ≤ o.va ∧ o.va < hbmBase) then none
  else match s.xlateCore o.va (o.hbm.getD .rd) with
    | .ok x => some (x.pa, x.win, x.fill)
    | .error _ => none

/-- What the issue of an array command finds: nothing to check again after a lease wait (R316); a lease about to pass is waited for
(06 R125). -/
def State.arrayFound (s : State) (u : ArrayUse) (word : Nat) : Found :=
  if s.iss.granted then .ok
  else
    let ts := s.arrayTraps u word
    foundOf ts (if ts.isEmpty && (s.c.lease != .held || s.leasePassing s.cur) then some (.lease (u.ops.findSome? s.hbmOperand)) else none)
      (u.ops.any fun o => s.accessWalks o.va o.align && match s.xlateCore o.va (o.hbm.getD .rd) with
        | .ok _ => false
        | .error _ => o.hbm.isSome)

/-- The binding a command takes a snapshot of; the smallest shape where it names none or an invalid one. -/
def State.bindOr (s : State) (n : Option BReg) : Binding :=
  match n with
  | some n => if (s.c.regs.b[n]).valid then s.c.regs.b[n] else Binding.none
  | none => Binding.none

/-- Fence tags by the scratchpad addresses of an operand, or of a destination wherever it lies (07 R142). -/
def State.operandTags (s : State) (o : Operand) (dest : Bool) : BitVec 8 :=
  if dest || decide (o.va < hbmBase) then s.c.tagsOver (o.ranges.map fun r => (r.1.toNat, r.2)) else 0

/-- The translation of an operand: of the one that was checked before a lease wait, that check (R316). -/
def State.operandXl (s : State) (o : Operand) : Option Xl :=
  match s.iss.checked with
  | some x => some ⟨x.1, x.2.1, x.2.2⟩
  | none => match s.xlateCore o.va (o.hbm.getD .rd) with
    | .ok x => some x
    | .error _ => none

/-- The physical address of an operand, with the TLB entry it fills. -/
def State.operandAt (s : State) (o : Operand) : State × Nat :=
  match s.operandXl o with
  | some x => (s.afterXlate x, x.pa)
  | none => (s, 0)

/-- The window that holds an operand, if any. -/
def State.operandWin (s : State) (o : Operand) : Option Nat := (s.operandXl o).bind (·.win)

/-- The tag of a tile after a command (R179): the format accumulated in, the one set, or the tag as it stands. -/
inductive TagRule where
  | acc (f : BitVec 4)
  | set (f : BitVec 4)
  | keep
deriving DecidableEq, Repr

/-- A tile's tag and dirty bit at the issue of a command (08 R179, 09 R196). -/
def Core.tagTile (c : Core) (k : AcReg) (r : TagRule) : Core :=
  let c := match r with
    | .keep => c
    | .acc f | .set f => { c with regs := { c.regs with tag := c.regs.tag.set k f } }
  if r = .keep || c.csr.mode then c
  else { c with csr := { c.csr with accdirty := c.csr.accdirty ||| BitVec.ofNat 4 (2 ^ k.val) } }

/-- An array command that has passed its checks forks (R316, R317; 07 R147; 06 R125); `dom` is the window of its operand in HBM, if it lies
in one. -/
def State.pushCma (s : State) (op : CmaOp) (tile : Option (AcReg × TagRule)) (n : Option BReg) (t : SReg) (tags : BitVec 8)
    (dom : Option Nat := none) : State :=
  let c := match tile with
    | some (k, r) => s.c.tagTile k r
    | none => s.c
  let tag : BitVec 4 := match tile with
    | some (k, _) => c.regs.tag[k]
    | none => 0
  let v := (s.c.task.map (·.vd)).getD 0
  let m : CmaCmd :=
    ⟨s.cur, s.c.serial, op, n.map fun n => s.c.regs.b[n], s.ctrField t, s.bundAddr s.c.pc, v, ((s.vd? v).map (·.gen)).getD 0, tags,
     tag, (n.map (·.val)).getD 0, s.c.taskId, dom.toList ++ (n.bind fun n => s.entryWin v s.c.regs.b[n]).toList, dom.isNone, []⟩
  let s : State := { s with c := c.bumpSerial }
  s.updCluster (clusterOf s.cur) fun cl => { cl with cmds := cl.cmds ++ [m], turn := cl.turn + 1 }

/-- Run an array command in slot 3. -/
def State.array (s : State) (p : FReg) (word : Nat) (use : State → ArrayUse) (eff : State → State) : Out :=
  s.runSlot 3 p [] none (fun s => s.arrayFound (use s) word) eff

/-- A plain operand of n bytes. -/
def plainOp (va align n : Nat) : Operand := ⟨va, align, [((va : Int), n)], none⟩

/-! ## MMD, TBLD, MMT, MMTD (R321-R324) -/

/-- What MMD names. -/
def State.mmdUse (s : State) (c : AcReg) (a b t : SReg) (f : MmdFmt) : ArrayUse :=
  ⟨[plainOp (s.c.readS a).toNat 128 (mmdBytes f), plainOp (s.c.readS b).toNat 128 (mmdBytes f)], some c, some (mmdTag f), none, t,
   false⟩

def execMmd (p : FReg) (c : AcReg) (a b t : SReg) (f : MmdFmt) (s : State) : Out :=
  s.array p (wordOf (.mmd p c a b t f)) (fun s => s.mmdUse c a b t f) fun s =>
    let u := s.mmdUse c a b t f
    let tags := u.ops.foldl (fun m o => m ||| s.operandTags o false) 0
    let (s, pa) := s.operandAt (plainOp (s.c.readS a).toNat 128 (mmdBytes f))
    let (s, pb) := s.operandAt (plainOp (s.c.readS b).toNat 128 (mmdBytes f))
    s.pushCma (.mmd c pa pb f) (some (c, .acc (mmdTag f))) none t tags

/-- The table limit of R322 and R323: g groups from table base `pbase`. -/
def tableBad (b : Binding) (g pbase : Nat) : Bool :=
  decide (4096 < g * b.kcb) || decide (524288 < pbase * 32768 + g * b.kcb * 128)

/-- What TBLD names. -/
def State.tbldUse (s : State) (n : BReg) (a b t : SReg) : ArrayUse :=
  let k := s.bindOr (some n)
  let d := (s.c.readS b).toNat
  let g := bits d 0 4 + 1
  let va := (s.c.readS a).toNat
  ⟨[plainOp va 128 (1056 * tbldBlocks g k.v)], none, none, some n, t,
   d / 256 != 0 || tableBad k g (bits d 4 4) || (k.wide && d % 256 != 0)⟩

def execTbld (p : FReg) (n : BReg) (a b t : SReg) (s : State) : Out :=
  s.array p (wordOf (.tbld p n a b t)) (fun s => s.tbldUse n a b t) fun s =>
    let u := s.tbldUse n a b t
    let tags := u.ops.foldl (fun m o => m ||| s.operandTags o false) 0
    let (s, pa) := s.operandAt (plainOp (s.c.readS a).toNat 128 1)
    s.pushCma (.tbld pa (s.c.readS b)) none (some n) t tags

/-- The row blocks of an MMT operand: index fields, and headers at HOFF (R323). -/
def mmtRanges (b : Binding) (va : Nat) (d : Word) (off : Int) : List (Int × Nat) :=
  (List.range 32).flatMap fun m =>
    let blk : Int := (blkAt va d m : Int) + off
    [(blk, 4 * b.w), (blk + descHoff d, 3)]

/-- Whether the descriptor of R323 holds a value that is not allowed. -/
def descBad (b : Binding) (d : Word) : Bool :=
  let g := bits d.toNat 5 5 + 1
  decide (32 < bits d.toNat 0 5 + g) || bits d.toNat 14 18 == 0 || tableBad b g (bits d.toNat 10 4)

/-- What MMT names. -/
def State.mmtUse (s : State) (c : AcReg) (n : BReg) (a b t : SReg) : ArrayUse :=
  let k := s.bindOr (some n)
  let d := s.c.readS b
  let va := (s.c.readS a).toNat
  ⟨[⟨va, 16, mmtRanges k va d 0, none⟩], some c, some 5, some n, t, descBad k d⟩

def execMmt (p : FReg) (c : AcReg) (n : BReg) (a b t : SReg) (s : State) : Out :=
  s.array p (wordOf (.mmt p c n a b t)) (fun s => s.mmtUse c n a b t) fun s =>
    let u := s.mmtUse c n a b t
    let tags := u.ops.foldl (fun m o => m ||| s.operandTags o false) 0
    let (s, pa) := s.operandAt (plainOp (s.c.readS a).toNat 16 1)
    s.pushCma (.mmt c pa (s.c.readS b)) (some (c, .acc 5)) (some n) t tags

/-- What MMTD names: the new blocks, the old ones at OLDOFF, the changed masks at MASKOFF (R324). -/
def State.mmtdUse (s : State) (c : AcReg) (n : BReg) (a b t : SReg) : ArrayUse :=
  let k := s.bindOr (some n)
  let d := s.c.readS b
  let e := (s.c.readS (b + 1)).toNat
  let va := (s.c.readS a).toNat
  let mo : Int := sgn 32 (bits e 32 32)
  let masks : List (Int × Nat) := (List.range 32).map fun m => ((blkAt va d m : Int) + mo, 4)
  ⟨[⟨va, 16, mmtRanges k va d 0 ++ mmtRanges k va d (sgn 32 (bits e 0 32)) ++ masks, none⟩], some c, some 5, some n, t, descBad k d⟩

/-- The mask word of row 0 is not a multiple of 4 (R324). -/
def State.maskTraps (s : State) (a b : SReg) : List Trap :=
  let x : Int := (s.c.readS a).toNat + sgn 32 (bits (s.c.readS (b + 1)).toNat 32 32)
  trapIf (x % 4 != 0) (mkTrap cMISALIGN 0 (wrap 64 x))

def execMmtd (p : FReg) (c : AcReg) (n : BReg) (a b t : SReg) (s : State) : Out :=
  s.runSlot 3 p [] none
    (fun s =>
      let f := s.arrayFound (s.mmtdUse c n a b t) (wordOf (.mmtd p c n a b t))
      if s.iss.granted then f
      else match s.maskTraps a b with
        | [] => f
        | ts => { f with traps := f.traps ++ ts, wait := none })
    fun s =>
      let u := s.mmtdUse c n a b t
      let tags := u.ops.foldl (fun m o => m ||| s.operandTags o false) 0
      let (s, pa) := s.operandAt (plainOp (s.c.readS a).toNat 16 1)
      s.pushCma (.mmtd c pa (s.c.readS b) (s.c.readS (b + 1))) (some (c, .acc 5)) (some n) t tags

/-! ## Accumulator commands (R325) -/

def execAccz (p : FReg) (c : AcReg) (t : SReg) (s : State) : Out :=
  s.array p (wordOf (.accz p c t)) (fun _ => ⟨[], some c, none, none, t, false⟩) fun s =>
    s.pushCma (.accz c) (some (c, .set 0)) none t 0

/-- The operand of ACCLD. -/
def accldOp (va : Nat) : Operand := ⟨va, 4096, [((va : Int), 4096)], some .rd⟩

def execAccld (p : FReg) (c : AcReg) (a : SReg) (tg : Fin 16) (t : SReg) (s : State) : Out :=
  s.array p (wordOf (.accld p c a tg t)) (fun s => ⟨[accldOp (s.c.readS a).toNat], some c, none, none, t, false⟩) fun s =>
    let o := accldOp (s.c.readS a).toNat
    let tags := s.operandTags o false
    let (s, pa) := s.operandAt o
    s.pushCma (.accld c pa tg) (some (c, .set (BitVec.ofNat 4 tg.val))) none t tags (s.operandWin o)

/-- The destination of ACCST. -/
def accstOp (va : Nat) (ty : VTy) : Operand :=
  let n := 1024 * (ty.width / 8)
  ⟨va, n, [((va : Int), n)], some .wr⟩

def execAccst (p : FReg) (c : AcReg) (a : SReg) (ty : VTy) (sat : Bool) (t : SReg) (s : State) : Out :=
  s.array p (wordOf (.accst p c a ty sat t)) (fun s => ⟨[accstOp (s.c.readS a).toNat ty], some c, none, none, t, false⟩) fun s =>
    let o := accstOp (s.c.readS a).toNat ty
    let tags := s.operandTags o true
    let (s, pa) := s.operandAt o
    s.pushCma (.accst c pa ty sat) (some (c, .keep)) none t tags (s.operandWin o)

/-! ## Codebook commands (R326, R327; 08 R164-R169) -/

/-- The address of a Pedigree entry (R326). -/
def State.entryVa (s : State) (e : Nat) : Nat := ((((s.vdOf s.c).map (·.pedbase)).getD 0) + BitVec.ofNat 64 (64 * e)).toNat

/-- Whether an entry lies beyond PEDN. -/
def State.entryBad (s : State) (e : Nat) : Bool := decide (((s.vdOf s.c).map (·.pedn)).getD 0 ≤ e)

/-- Whether the acquiring atomic of the present bundle on 8 bytes must wait for earlier accesses of the core, or for the fence of its
bundle (13 R310). -/
def State.atomicHeld (s : State) (va : Nat) (x : Xl) : Bool :=
  let r := s.newReq s.c.serial (.bindcnt x.pa 0) va [(va, 8)] .sys true false x.win
  (s.c.lsu.any fun q => holdsReq q r) || s.iss.fences.any fun q => holdsReq q r && !s.canPerform s.cur q

/-- The entry CBBIND finds, if it may bind it (R326 step 1, 08 R165). -/
def PedEntry.bindable (e : PedEntry) (v : Word) : Bool :=
  e.ok && e.cbid == bits v.toNat 16 16 && e.ver == bits v.toNat 32 16 && e.state == 1 && decide (e.bindcnt < 0xFFFFFF)

/-- The trap of releasing an old binding (R326 step 2, R327): its entry is translated as a store to it would be. -/
def State.freeTrap (s : State) (b : Binding) : Option Trap :=
  if !b.valid then none
  else match s.xlateCore (s.entryVa b.entry.toNat + 8) .wr with
    | .error f => some (if f.code = 0 then f else { f with eval := BitVec.ofNat 64 (s.entryVa b.entry.toNat) })
    | .ok _ => none

/-- What CBBIND finds at issue: ILLEGAL, the entry's place, the counter, the atomic's own outcome, then that of releasing the old
binding. The atomic takes room in the LSU (06 R111), which the release takes after it. The domain stops until the atomic returns, also
where it ends in a trap. -/
def State.bindFound (s : State) (n : BReg) (v : Word) (t : SReg) (word : Nat) : Found :=
  let e := bits v.toNat 0 16
  let va := s.entryVa e
  let ctr := s.ctrTraps t word
  let early := trapIf (bits v.toNat 48 16 != 0) (mkTrap cILLEGAL 4 word) ++ trapIf (s.entryBad e) (mkTrap cACCESS 0 va)
  if !early.isEmpty then foundOf (early ++ ctr) none
  else match s.xlateCore (va + 8) .wr with
    | .error f => foundOf (f :: ctr) none (s.misses (va + 8))
    | .ok x =>
      if !ctr.isEmpty then foundOf ctr none
      else if s.atomicHeld (va + 8) x || s.lsuFull then foundOf [] (some .requests)
      else if s.poisoned x.pa then foundOf [mkTrap cUE 0 va] none true
      else if (PedEntry.ofBytes (s.read (x.pa - 8) 64)).bindable v then
        s.memFound (s.freeTrap s.c.regs.b[n]) false true
      else foundOf [mkTrap cCBDEAD n.val 0] none true

/-- CBFREE of the acting core's binding n, its entry at x (R327). -/
def State.releaseBind (s : State) (va : Nat) (x : Xl) : State :=
  (s.afterXlate x).issueReq (.bindcnt x.pa (BitVec.ofNat 64 va)) va [(va, 8)] .sys false true x.win

/-- A fill begins in the acting core's cluster (R326 step 4, R327). -/
def State.startFill (s : State) (f : Fill) : State :=
  s.updCluster (clusterOf s.cur) fun c => { c with fills := c.fills ++ [f] }

def execCbbind (p : FReg) (n : BReg) (a : SReg) (mode : Bool) (t : SReg) (s : State) : Out :=
  s.runSlot 3 p [] none (fun s => s.bindFound n (s.c.readS a) t (wordOf (.cbbind p n a mode t))) fun s =>
    let v := s.c.readS a
    let i := bits v.toNat 0 16
    let va := s.entryVa i + 8
    match s.xlateCore va .wr with
    | .error _ => s
    | .ok x =>
      let e := PedEntry.ofBytes (s.read (x.pa - 8) 64)
      let ctr := s.ctrField t
      let old := s.c.regs.b[n]
      let ova := s.entryVa old.entry.toNat + 8
      let freed := if old.valid then some (s.xlateCore ova .wr) else none
      let b := e.binding i mode
      let vd := (s.c.task.map (·.vd)).getD 0
      -- the domain stops for an open time until the atomic returns
      let s' := (s.afterXlate x).draw
      let s : State := { s' with c := s'.c.freeze (Config.freezeCycles s.fresh) }
      let s := (s.orderWrite s.cur false x.win).noteRead s.cur (byteRange x.pa 8) 0 x.win (some .sys)
      let s := s.write x.pa (bytesOf 8 (natOf (s.read x.pa 8) + 256))
      let s := match freed with
        | some (.ok y) => s.releaseBind ova y
        | _ => s
      let s : State := { s with c := s.c.owe 1 3 (.bind n) (BitVec.ofNat 1024 b.pack) }
      s.startFill ⟨s.cur, x.pa - 8, false, n, b, b.needsMap, ctr, vd, ((s.vd? vd).map (·.gen)).getD 0, s.bundAddr s.c.pc⟩

def execCbfree (p : FReg) (n : BReg) (s : State) : Out :=
  s.runSlot 3 p [] none
    (fun s =>
      let b := s.c.regs.b[n]
      if !b.valid then .ok else s.memFound (s.freeTrap b) false (s.misses (s.entryVa b.entry.toNat + 8)))
    fun s =>
      let b := s.c.regs.b[n]
      let va := s.entryVa b.entry.toNat + 8
      if !b.valid then s
      else match s.xlateCore va .wr with
        | .error _ => s
        | .ok x =>
          let s := s.releaseBind va x
          { s with c := s.c.owe 1 3 (.bind n) 0 }

def execCbinv (p : FReg) (a t : SReg) (s : State) : Out :=
  s.runSlot 3 p [] none
    (fun s =>
      let v := (s.c.readS a).toNat
      let word := wordOf (.cbinv p a t)
      let va := s.entryVa (v % 65536)
      let ts := trapIf (v / 65536 != 0) (mkTrap cILLEGAL 4 word) ++ s.ctrTraps t word
      if s.entryBad (v % 65536) then foundOf (ts ++ [mkTrap cACCESS 0 va]) none
      else match s.xlateCore va .rd with
        | .ok _ => foundOf ts none
        | .error f => foundOf (ts ++ [f]) none (s.misses va))
    fun s =>
      let va := s.entryVa ((s.c.readS a).toNat % 65536)
      match s.xlateCore va .rd with
      | .error _ => s
      | .ok x =>
        let v := (s.c.task.map (·.vd)).getD 0
        let i : CbInv := ⟨s.cur, s.c.serial, x.pa, s.ctrField t, v, ((s.vd? v).map (·.gen)).getD 0, s.bundAddr s.c.pc⟩
        let s := s.afterXlate x
        { s with c := s.c.bumpSerial, cbinvs := s.cbinvs ++ [i] }

def execCbpre (p : FReg) (a : SReg) (s : State) : Out :=
  s.runSlot 3 p [] none
    (fun s =>
      let v := (s.c.readS a).toNat
      let e := bits v 0 16
      foundOf (trapIf (bits v 48 16 != 0) (mkTrap cILLEGAL 4 (wordOf (.cbpre p a)))
        ++ trapIf (s.entryBad e) (mkTrap cACCESS 0 (s.entryVa e))) none)
    fun s =>
      let v := (s.c.readS a).toNat
      let i := bits v 0 16
      match s.xlateCore (s.entryVa i) .rd with
      | .error _ => s
      | .ok x =>
        let b : Binding := { Binding.none with
          entry := BitVec.ofNat 16 i, cbid := BitVec.ofNat 16 (bits v 16 16), ver := BitVec.ofNat 16 (bits v 32 16) }
        let vd := (s.c.task.map (·.vd)).getD 0
        (s.afterXlate x).startFill ⟨s.cur, x.pa, true, 0, b, false, none, vd, ((s.vd? vd).map (·.gen)).getD 0, s.bundAddr s.c.pc⟩

/-- A fill ends (R167, R326 step 4, R327): a copy, or none; a CBBIND's counter is decremented either way. -/
def State.endFill (s : State) (cl : Nat) (f : Fill) (rest : List Fill) : State :=
  let e := PedEntry.ofBytes (s.read f.pa 64)
  let b := if f.pre then e.binding f.bnd.entry.toNat false else f.bnd
  let wanted := e.cbid == f.bnd.cbid.toNat && e.ver == f.bnd.ver.toNat
  let s := s.updCluster cl fun c => { c with fills := rest }
  let s := if wanted then
      match s.fillAt f.vd f.pa b f.map with
      | .ok c => s.putCopy cl c
      | .error _ => s
    else s
  match f.ctr with
  | some c => s.ctrDec f.vd f.gen c f.bund
  | none => s

/-! ## Copies (13 R311-R315) -/

/-- A copy as its slot names it. -/
def State.copyArgs (s : State) (op : CopyOp) (d src h t : SReg) : CopyArgs :=
  ⟨op, s.c.readS d, s.c.readS src, s.c.readS h, if t = 0 then 0 else s.c.readS t,
   t != 0, s.bundAddr s.c.pc⟩

/-- The binding that a copy names. -/
def State.copyBinding (s : State) (a : CopyArgs) : Binding :=
  if a.op.coded then s.c.regs.b[(Fin.ofNat 8 (ctrBind a.ctr) : BReg)] else Binding.none

/-- A copy issues (R312): it waits for a channel, is checked, forks. What the earlier slots of its bundle have issued since does not hold the
reads of its checks. -/
def State.copy (s : State) (p : FReg) (op : CopyOp) (d src h t : SReg) (word : Nat) : Out :=
  s.runSlot 3 p [] none
    (fun s =>
      if 16 ≤ s.c.chans.length then foundOf [] (some .channels)
      else match s.c.task with
        | none => .ok
        | some k => match s.vd? k.vd with
          | none => .ok
          | some v =>
            let a := s.copyArgs op d src h t
            match s.copyCheck s.cur k.vd v a word with
            | .ok _ => .ok
            | .error e => foundOf [e] none (a.sides.any fun side =>
                s.bitWalks v (hidOf (a.side side)) (a.pages (s.copyBinding a) side) e))
    fun s => match s.c.task with
      | none => s
      | some k => match s.vd? k.vd with
        | none => s
        | some v =>
          let a := s.copyArgs op d src h t
          let bits := s.bitmapBytes s.cur k.vd v a (s.copyBinding a)
          let l := match s.copyCheck s.cur k.vd v a word with
            | .ok l => l
            | .error _ => s.bitmapFills s.cur k.vd v a (s.copyBinding a)
          (((s.noteLocal bits 0).fillOn s.cur l)).startCopy s.cur k.vd v a

def execCpy (p : FReg) (d src h t : SReg) (s : State) : Out := s.copy p .cpy d src h t (wordOf (.cpy p d src h t))
def execCpyq (p : FReg) (d src h t : SReg) (s : State) : Out := s.copy p .cpyq d src h t (wordOf (.cpyq p d src h t))
def execCpyd (p : FReg) (d src h t : SReg) (s : State) : Out := s.copy p .cpyd d src h t (wordOf (.cpyd p d src h t))
def execCpym (p : FReg) (d src h t : SReg) (s : State) : Out := s.copy p .cpym d src h t (wordOf (.cpym p d src h t))
def execCpyf (p : FReg) (d src h t : SReg) (s : State) : Out := s.copy p .cpyf d src h t (wordOf (.cpyf p d src h t))

end Sys2Proof.Machine
end

