-- ==== Sys2Proof/Machine/Tasks.lean ====
section
/-! DEFINITION. Slot 0: tasks and system (14_isa_matrix_tasks_and_system.md R328-R335, 17 R341; 05 R88-R101; 09 R183, R186, R189),
and the words that are no instruction (10 R203, R220, R221). -/

namespace Sys2Proof.Machine

/-! ## Counters named by a task -/

/-- The acting core's VD number; 64 where no task runs. -/
def State.actVd (s : State) : Nat := (s.c.task.map (·.vd)).getD 64

/-- The generation of the acting core's VD. -/
def State.actGen (s : State) : BitVec 16 := ((s.vdOf s.c).map (·.gen)).getD 0

/-- COUNT of a counter of the acting core's VD. -/
def State.actCount (s : State) (ctr : Nat) : Int := ((s.vdOf s.c).map fun d => (d.ctr ctr).count).getD 0

/-- Whether a counter is allocated to the acting core's VD (05 R90). -/
def State.actCtrOk (s : State) (ctr : Nat) : Bool := ((s.vdOf s.c).map fun d => d.ctrOk ctr).getD false

/-- Whether a core that has yielded on a counter still waits to leave. -/
def Core.yieldsOn (c : Core) (v ctr : Nat) : Bool :=
  (c.task.map (·.vd)) == some v && (match c.wait with
    | some (.leave (.task (.nameOn n _))) => n.toNat == ctr
    | _ => false)

/-- Whether a counter already has a name (05 R90). -/
def State.ctrNamed (s : State) (ctr : Nat) : Bool :=
  match s.vdOf s.c with
  | none => false
  | some d => (d.ctr ctr).named.isSome || d.cores.any fun k => (s.coreAt k).yieldsOn s.actVd ctr

/-- CTRBAD of a counter operation: not allocated, an ADD out of range, a NAME on a counter that has a name once the ADD before it is
applied, which readies that name where it leaves COUNT 0 (05 R88, R90; 14 R330). -/
def State.ctrBad (s : State) (ctr : Nat) (add : Int) (name : Bool) : List Trap :=
  let n := s.actCount ctr + add
  trapIf (!s.actCtrOk ctr || !ctrFits add || !ctrFits n || (name && n != 0 && s.ctrNamed ctr)) (mkTrap cCTRBAD 0 ctr)

/-- The wait of an operation that is a release at .pkg (05 R89). -/
def State.releaseWait (s : State) : Option Wait := if s.c.lsu.any fun q => q.op.counts then some .requests else none

/-- The stop of open length until the Shepherd has applied an operation (06 Table 6-1). -/
def State.askShepherd (s : State) : State := s.freezeOpen

/-- The release that an operation on a counter carries (05 R89): what the core has written or read is applied everywhere. -/
def State.releasePkg (s : State) : State := s.settleViews s.cur

/-- The first failing list of checks that are made one after another. -/
def firstOf : List (List Trap) → List Trap
  | [] => []
  | l :: r => if l.isEmpty then firstOf r else l

/-! ## TSPAWN (R330) -/

/-- The fields of S(B): counter, n, CV. -/
def spawnCtr (b : Word) : Nat := bits b.toNat 0 16
def spawnN (b : Word) : Int := sgn 32 (bits b.toNat 16 32)
def spawnCv (b : Word) : Bool := b.getLsbD 63

/-- The record a TSPAWN copies, with the core's VD and GEN. -/
def State.spawnRec (s : State) (pa : Nat) : Cont :=
  { Cont.ofBytes (s.read pa 64) with vd := BitVec.ofNat 8 s.actVd, gen := s.actGen }

/-- The checks of TSPAWN in order: its words, the record's address, the release, the record, the counter. -/
def State.spawnFound (s : State) (va b : Word) (wait : Bool) (word : Nat) : Found :=
  let early := firstOf [
    trapIf (bits b.toNat 48 15 != 0 || (wait && !spawnCv b)) (mkTrap cILLEGAL 4 word),
    trapIf (va.toNat % 64 != 0) (mkTrap cMISALIGN 0 va.toNat)]
  if !early.isEmpty then foundOf early none
  else match s.xlateCore va.toNat .rd with
    | .error t => foundOf [t] none (s.misses va.toNat)
    | .ok x =>
      match s.releaseWait with
      | some w => foundOf [] (some w)
      | none => foundOf (firstOf [
          trapIf (s.poisoned x.pa) (mkTrap cUE 0 va.toNat),
          trapIf (s.recordCheck s.actVd (s.spawnRec x.pa) true).isSome (mkTrap cACCESS 0 va.toNat),
          if spawnCv b then s.ctrBad (spawnCtr b) (spawnN b) wait else []]) none

/-- The effect of TSPAWN on a core whose checks have passed. -/
def State.spawn (s : State) (va b : Word) (wait : Bool) : State :=
  match s.xlateCore va.toNat .rd with
  | .error _ => s
  | .ok x =>
    let k := s.spawnRec x.pa
    let v := s.actVd
    let die : Fin 4 := Fin.ofNat 4 (dieOf s.cur)
    let gen := s.actGen
    let bund := s.bundAddr s.c.pc
    let s := (s.releasePkg.afterXlate x).askShepherd
    let s := if spawnCv b then s.ctrAdd v gen (spawnCtr b) (spawnN b) bund else s
    if wait then s.ctrName v (spawnCtr b) (k.onDie die) else s.makeReady v die k none

def execTspawn (p : FReg) (a b : SReg) (s : State) : Out :=
  s.runSlot 0 p [] none (fun s => s.spawnFound (s.c.readS a) (s.c.readS b) false (wordOf (.tspawn p a b)))
    fun s => s.spawn (s.c.readS a) (s.c.readS b) false
def execTspawnWait (p : FReg) (a b : SReg) (s : State) : Out :=
  s.runSlot 0 p [] none (fun s => s.spawnFound (s.c.readS a) (s.c.readS b) true (wordOf (.tspawnWait p a b)))
    fun s => s.spawn (s.c.readS a) (s.c.readS b) true

/-! ## TDEP (R328) -/

/-- A counter register's upper bits must be zero. -/
def ctrWord (x : Word) (word : Nat) : List Trap := trapIf (x.toNat / 65536 != 0) (mkTrap cILLEGAL 4 word)

/-- The checks of TDEP. -/
def State.depFound (s : State) (x : Word) (n : Int) (word : Nat) : Found :=
  let early := ctrWord x word
  if !early.isEmpty then foundOf early none
  else match s.releaseWait with
    | some w => foundOf [] (some w)
    | none => foundOf (s.ctrBad x.toNat n false) none

/-- The effect of TDEP. -/
def State.dep (s : State) (x : Word) (n : Int) : State :=
  s.releasePkg.askShepherd.ctrAdd s.actVd s.actGen (x.toNat % 65536) n (s.bundAddr s.c.pc)

def execTdep (p : FReg) (a b : SReg) (s : State) : Out :=
  s.runSlot 0 p [] none (fun s => s.depFound (s.c.readS a) (s.c.readS b).toInt (wordOf (.tdep p a b)))
    fun s => s.dep (s.c.readS a) (s.c.readS b).toInt
def execTdepDec (p : FReg) (a : SReg) (s : State) : Out :=
  s.runSlot 0 p [] none (fun s => s.depFound (s.c.readS a) (-1) (wordOf (.tdepDec p a))) fun s => s.dep (s.c.readS a) (-1)

/-! ## CWAIT (R329), TSUSP, SAFEPT, TEXIT (R331), TNEXT (R332) -/

def execCwait (p : FReg) (a : SReg) (fb : FReg) (s : State) : Out :=
  s.runWait 0 p
    (fun s => foundOf (firstOf [ctrWord (s.c.readS a) (wordOf (.cwait p a fb)), s.ctrBad (s.c.readS a).toNat 0 false]) none)
    (fun s => s.actCount (s.c.readS a).toNat == 0)
    (fun s =>
      let n := (s.c.readS a).toNat
      [(fb, .ctr (n / 16384) (n % 16384))]) id

/-- PRIV of a form that supervisor mode may not issue (09 R183). -/
def State.supTrap (s : State) : List Trap := trapIf s.c.csr.mode (mkTrap cPRIV 0 0)

/-- LIVEN of the code object that the acting core runs. -/
def State.liven (s : State) : Nat := (((s.vdOf s.c).bind fun d => d.code? s.c.code).map fun o => o.live.length).getD 0

/-- ILLEGAL of a LIVE at or above LIVEN (R331). -/
def State.liveTrap (s : State) (live : BitVec 12) (word : Nat) : List Trap :=
  trapIf (decide (s.liven ≤ live.toNat)) (mkTrap cILLEGAL 4 word)

/-- LIVE of an instruction that names a live-state list. -/
def liveOf : Instr → Option Nat
  | .cwaitYield _ _ live | .tsusp _ live | .safept _ live => some live.toNat
  | _ => none

/-- A bundle of an object with n live-state lists: a LIVE at or above n is a value that the entry does not accept, so the word, of slot 0, is
illegal whatever its predicate (10 R221 case 3; R329, R331). -/
def boundLive (n : Nat) (b : Bundle) : Bundle :=
  let bad (is : List (Fin 4 × Instr)) : Option (Fin 4 × Instr) := is.find? fun p => (liveOf p.2).any fun l => decide (n ≤ l)
  match b with
  | .slots is => match bad is with
    | some (k, i) => .illegal k .value (BitVec.ofNat 32 (wordOf i)) []
    | none => b
  | .illegal _ _ _ below => match bad below with
    | some (k, i) => .illegal k .value (BitVec.ofNat 32 (wordOf i)) []
    | none => b

/-- Ask for something to happen after the bundle. -/
def State.setAfter (s : State) (a : After) : State := { s with iss := { s.iss with after := some a } }

def execCwaitYield (p : FReg) (a : SReg) (live : BitVec 12) (s : State) : Out :=
  s.runSlot 0 p [] none
    (fun s =>
      let word := wordOf (.cwaitYield p a live)
      foundOf (s.supTrap ++ ctrWord (s.c.readS a) word ++ s.liveTrap live word
        ++ (if (s.c.readS a).toNat < 65536 then s.ctrBad (s.c.readS a).toNat 0 true else [])) none)
    fun s =>
      let n := (s.c.readS a).toNat
      let zero := s.actCount n == 0
      let s := s.askShepherd
      if zero then s else s.setAfter (.nameOn (BitVec.ofNat 16 n) live.toNat)

def execTsusp (p : FReg) (live : BitVec 12) (s : State) : Out :=
  s.runSlot 0 p [] none (fun s => foundOf (s.supTrap ++ s.liveTrap live (wordOf (.tsusp p live))) none)
    fun s => s.setAfter (.suspend live.toNat)

/-- A SAFEPT without a pending slice end has no effect (05 R97). -/
def execSafept (p : FReg) (live : BitVec 12) (s : State) : Out :=
  s.runSlot 0 p [] none (fun s => foundOf (s.supTrap ++ s.liveTrap live (wordOf (.safept p live))) none)
    fun s => if s.c.csr.slend then s.setAfter (.suspend live.toNat) else s

/-- CTRBAD of a TEXIT whose DCTR lies beyond the allocation (05 R90). -/
def State.exitTrap (s : State) : List Trap :=
  match s.c.task with
  | some t => if t.cont.sig then trapIf (!s.actCtrOk t.cont.dctr.toNat) (mkTrap cCTRBAD 0 t.cont.dctr.toNat) else []
  | none => []

def execTexit (p : FReg) (s : State) : Out := s.runSlot 0 p [] none (fun s => foundOf s.exitTrap none) fun s => s.setAfter .exit

/-- TNEXT answers asked for and not yet landed. -/
def Core.nextOwed (c : Core) : Nat := ((c.owed ++ c.shadow).filter fun e => match e.dest with
  | .next _ => true
  | _ => false).length

def execTnext (p : FReg) (s : State) : Out :=
  s.runSlot 0 p [] none (fun s => foundOf s.supTrap none) fun s =>
    let c := ((s.c.task.map (·.count)).getD 0) + s.c.nextOwed
    { s with c := s.c.oweTo 8 0 (.next (Fin.ofNat 4 c)) none false 0 false 0 }

/-! ## TRAP, EBRK, ERET, ISYNC, IINV (R333, R334; 09 R186, R189) -/

def execTrap (p : FReg) (imm : BitVec 16) (s : State) : Out := s.plain p fun s => s.setAfter (.syscall imm)
def execEbrk (p : FReg) (s : State) : Out := s.plain p fun s => s.setAfter .brk

def execEret (p : FReg) (s : State) : Out :=
  s.runSlot 0 p [] none (fun s => .ofOpt s.privTrap) fun s => { s with iss := { s.iss with eret := true } }

/-- ISYNC discards every bundle fetched before it: lines invalidated earlier are gone from the next fetch on. -/
def execIsync (p : FReg) (s : State) : Out :=
  s.plain p fun s =>
    let s : State := { s with c := { s.c with icache := { s.c.icache with stale := [] } } }
    s.setAfter .isync

/-- Whether IINV of S(A), S(B) covers a line of 64 bytes. -/
def iinvHits (a n line : Nat) : Bool :=
  n == 2 ^ 64 - 1 || (decide (n ≠ 0) && decide (line < a + n) && decide (a / 64 * 64 ≤ line))

/-- IINV: the lines of the range leave the instruction cache; a fetch before the next ISYNC may still see them (07 R155). -/
def Core.invalidate (c : Core) (a n : Nat) : Core :=
  let hit (l : Nat × List Byte) : Bool := iinvHits a n l.1
  { c with icache := ⟨c.icache.lines.filter fun l => !hit l, c.icache.stale ++ c.icache.lines.filter hit⟩ }

def execIinv (p : FReg) (a b : SReg) (s : State) : Out :=
  s.plain p fun s => { s with c := s.c.invalidate (s.c.readS a).toNat (s.c.readS b).toNat }

/-! ## Words that are no instruction -/

/-- SUB of ILLEGAL (Table 9-2). -/
def IllegalSub.code : IllegalSub → Nat
  | .opcode => 1
  | .reserved => 2
  | .twice => 3
  | .value => 4

def execIllegalSlotWord (slot : Fin 4) (why : IllegalSub) (word : BitVec 32) (s : State) : Out :=
  .next (s.precise ⟨cILLEGAL, IllegalSub.code why, slot, word.setWidth 64⟩)

end Sys2Proof.Machine
end

