-- ==== Sys2Proof/Machine/Events.lean ====
section
/-! DEFINITION. What the package does beside issuing bundles: data that arrive, engines that complete, the lease, barriers, page
walks (06 R110, R120-R125; 08 R167-R169; 13 R306-R308; 14 R318), the Shepherd's own steps (05 R85, R88, R93, R98, R101, R102),
interrupts, imprecise reports and debug halts (09 R187, R188, R192). -/

namespace Sys2Proof.Machine

/-- An event whose occasion may not exist. -/
def orFault (o : Option State) : Out :=
  match o with
  | some s => .next s
  | none => .fault .noSuchEvent

/-- An event that happens on a condition. -/
def onlyIf (b : Bool) (s : State) : Out := if b then .next s else .fault .noSuchEvent

/-! ## Requests and engines -/

/-- The request of a core with an issue number, if it may be performed now: the clocks of its die run (02 R27). -/
def State.performable (s : State) (core seq : Nat) (p : ReqOp → Bool) : Option Req :=
  if s.stopped (dieOf core) then none
  else ((s.coreAt core).request seq).bind fun r => if p r.op && s.canPerform core r then some r else none

/-- LOAD_DATA_ARRIVAL (06 R110, 11 R241): the data of a load or atomic. -/
def execLoadDataArrival (core seq : Nat) (s : State) : Out :=
  orFault ((s.performable core seq ReqOp.reads).map (s.performed core))

/-- A store, reduction, fence or arrival that is performed (07 R134). -/
def execRequestCompletion (core seq : Nat) (s : State) : Out :=
  orFault ((s.performable core seq fun o => !o.reads).map (s.performed core))

/-- COPY_COMPLETION (06 R124); its channel stands still while the clocks of its die are stopped (02 R27). -/
def execCopyCompletion (core chan : Nat) (s : State) : Out :=
  orFault (if s.stopped (dieOf core) then none
    else ((s.coreAt core).chans.find? fun h => h.id.val == chan && s.copyReady core h).map (s.completeCopy core))

/-- Whether the clocks of a cluster's die run (02 R27, R28): its CMA, its CBS and its lease stand still otherwise. -/
def State.clocked (s : State) (cluster : Nat) : Bool := !s.stopped (cluster / 32)

/-- ARRAY_COMMAND_COMPLETION (14 R317, R318). -/
def execArrayCommandCompletion (cluster : Nat) (s : State) : Out :=
  orFault ((if s.clocked cluster then s.nextCma cluster else none).map fun m => s.completeCma cluster m.1 m.2)

/-- CBS_REFILL (08 R167): the oldest fill that a core has under way for a binding. -/
def execCbsRefill (core : Nat) (b : BReg) (s : State) : Out :=
  let fills := if s.clocked (clusterOf core) then (s.clusterAt (clusterOf core)).fills else []
  orFault ((fills.find? fun f => f.core == core && f.bn == b).map fun f => s.endFill (clusterOf core) f (fills.erase f))

/-- A CBS evicts a copy that no executing command uses (08 R167). -/
def execCbsEviction (cluster key : Nat) (gen : BitVec 32) (s : State) : Out :=
  let hit (c : CbsCopy) : Bool := c.key == key && c.gen == gen
  onlyIf ((s.clusterAt cluster).cbs.any hit && !s.copyInUse cluster key) (s.updCluster cluster fun c => { c with cbs := c.cbs.filter fun x => !hit x })

/-- Whether an earlier access of its core holds a CBINV (08 R169, 07 R147). -/
def holdsInv (q : Req) (ord : Nat) : Bool :=
  decide (q.ord < ord) && (match q.op with
    | .load _ _ _ => q.acq
    | .bararr _ _ => false
    | _ => true)

/-- Whether a CBINV may complete. -/
def State.invReady (s : State) (i : CbInv) : Bool :=
  ((s.coreAt i.core).lsu.all fun q => !holdsInv q i.ord) && !s.c.usesCopy i.key && s.others.all fun p => !p.2.usesCopy i.key

/-- CBINV_COMPLETION (08 R169). -/
def execCbinvCompletion (k : Nat) (s : State) : Out :=
  orFault (s.cbinvs[k]?.bind fun i =>
    if s.invReady i then
      let s : State := { s.dropCopies i.key with cbinvs := s.cbinvs.eraseIdx k }
      some (match i.ctr with
        | some c => s.ctrDec i.vd i.gen c i.bund
        | none => s)
    else none)

/-! ## Lease and barriers -/

/-- The core that a lease passes to now (06 R125), if any: the lease is free, or its bound is reached, another core waits and the
holder's commands are complete; the die's clocks run. -/
def State.leaseTo (s : State) (m : Nat) : Option Nat :=
  let c := s.clusterAt m
  if !s.clocked m then none else
  match c.holder with
  | none => c.nextReq
  | some h => if s.leaseOver m && c.idleFor h && !c.ending then { c with last := h }.nextReq else none

/-- LEASE_GRANT (06 R125, 14 R319): a former holder keeps its request. -/
def execLeaseGrant (cluster : Nat) (s : State) : Out :=
  orFault ((s.leaseTo cluster).map fun k =>
    let old := (s.clusterAt cluster).holder
    let at' := (s.coreAt k).csr.cycle
    let s := s.updCluster cluster fun c =>
      let rest := c.reqs.filter (· != k)
      { c with
        holder := some k
        reqs := match old with
          | some h => rest ++ [h]
          | none => rest
        last := old.getD c.last
        turn := 0
        turnAt := at'
        ending := false }
    let s := match old with
      | some h => s.updCore h fun c => { c with lease := .requested }
      | none => s
    s.updCore k fun c => { c with lease := .held })

/-- A barrier after one arrival; none where ARRIVED would pass 4,095 (13 R306). -/
def Barrier.arrive (b : Barrier) : Option Barrier :=
  if b.expect ≠ 0 ∧ b.arrived + 1 = b.expect then some { b with arrived := 0, ph := !b.ph }
  else if 4095 ≤ b.arrived then none
  else some { b with arrived := b.arrived + 1 }

/-- Whether a waiting arrival may be counted now: it is the first at its barrier, whose core's clock runs (02 R28). -/
def State.arrivalDue (s : State) (k : Nat) (a : Nat × BarReg) : Bool := !(s.arrivals.take k).contains a && !s.stopped (dieOf a.1)

/-- BARRIER_ARRIVAL (13 R306): the k-th waiting arrival, the first at its barrier. -/
def execBarrierArrival (k : Nat) (s : State) : Out :=
  orFault (s.arrivals[k]?.bind fun a =>
    if !s.arrivalDue k a then none
    else
      let s : State := { s with arrivals := s.arrivals.eraseIdx k }
      some (match ((s.coreAt a.1).barrier a.2).arrive with
        | some b => s.updCore a.1 fun c => c.setBarrier a.2 b
        | none => match s.ownerOfCluster (clusterOf a.1) with
          | some v => s.raiseEvent v 3 0x15 (bytesOf 8 a.2.val)
          | none => s))

/-! ## Page walks -/

/-- PAGE_WALK (06 R120, R121) on the acting core: the translation enters the TLB, or the walk ends in its trap; either way it has stopped
the domain. -/
def execPageWalk (va : Word) (acc : AccKind) (s : State) : Out :=
  let a := va.toNat
  match s.vdOf s.c with
  | none => .fault .noSuchEvent
  | some d =>
    if !s.misses a || ((d.winAt a).any fun w => s.frozenWin w.win) then .fault .noSuchEvent
    else match s.xlateCore a acc with
      | .ok x => .next (s.afterXlate x)
      | .error t => .next (({ s with iss := { s.iss with walk := true } } : State).precise t)

/-! ## The Shepherd -/

/-- TILE_GENERATE (05 R85, R95, R354): the cursor that a free slot goes to. -/
def execTileGenerate (vd cursor : Nat) (s : State) : Out :=
  orFault ((s.nextTile vd).bind fun x => if x.1 = cursor then some x.2 else none)

/-- SHEPHERD_DISPATCH (05 R93). -/
def execShepherdDispatch (die : Fin 4) (s : State) : Out :=
  orFault ((s.dispatchChoice die).map fun x =>
    let s : State := { s with pkg := { s.pkg with shep := s.pkg.shep.set die x.2.2.2 } }
    s.dispatch x.1 x.2.2.1 x.2.1)

/-- A NAME that arrives (05 R88, R90, R91): a stale one is discarded; one beyond the allocation, or at a counter that has a name,
leaves the counter unchanged. It waits while the clocks of the Shepherd's die are stopped (02 R28). -/
def State.ctrNameArrives (s : State) (v : Nat) (gen : BitVec 16) (ctr : Nat) (k : Cont) : State :=
  match s.vd? v with
  | none => s
  | some d =>
    if s.parks ctr then s.park v gen ctr (.name k.toBytes) 0
    else if gen != d.gen || !d.ctrOk ctr || (d.ctr ctr).named.isSome then s else s.ctrName v ctr k

/-- COUNTER_OPERATION (05 R88): an operation that arrives at its counter's Shepherd. -/
def execCounterOperation (vd : Nat) (gen ctr : BitVec 16) (op : CtrOp) (bund : Word) (s : State) : Out :=
  match s.vd? vd, op with
  | none, _ => .fault .noSuchEvent
  | some _, .dec => .next (s.ctrDec vd gen ctr bund)
  | some _, .add n => onlyIf (ctrFits n) (s.ctrAdd vd gen ctr.toNat n bund)
  | some _, .name r => onlyIf (r.length == 64) (s.ctrNameArrives vd gen ctr.toNat (Cont.ofBytes r))

/-- Whether a core's task has run its quantum while a task of its class is ready on its die, spilled or not (05 R98). -/
def State.quantumDue (s : State) (k : Nat) : Bool :=
  let c := s.coreAt k
  match c.task with
  | none => false
  | some t => !s.stopped (dieOf k) && !c.csr.slend && decide (t.since + 262144 ≤ c.dieCyc)
      && (((s.vd? t.vd).map fun d => (d.ready ++ d.ovf).any fun r =>
        r.die.val == dieOf k && r.cont.cls == t.cont.cls && !r.cont.launch)).getD false

/-- QUANTUM_EXPIRY (05 R98). -/
def execQuantumExpiry (core : Nat) (s : State) : Out := onlyIf (s.quantumDue core) (s.updCore core Core.sliceEnd)

/-- The fewest samples at which a window is evaluated (05 R102). -/
def qosLeast (p : Nat) : Nat := if p = 0 then 2 else if p = 1 then 10 else if p = 2 then 100 else 1000

/-- The rank of the percentile sample among n: the least that covers the percentile (DEDUCED, log entry 24). -/
def qosRank (p n : Nat) : Nat :=
  let m := if p = 0 then 500 else if p = 1 then 900 else if p = 2 then 990 else 999
  (n * m + 999) / 1000

/-- The bin of the sample of a rank. -/
def qosFind (rank : Nat) : Nat → List (Nat × Nat) → Nat
  | _, [] => 63
  | seen, (k, n) :: r => if rank ≤ seen + n then k else qosFind rank (seen + n) r

/-- The upper edge 64 × 2^(k/4) of a bin as the payload states it; open where it is no whole number or the bin has none. -/
def qosEstimate (k : Nat) : Nat := if k % 4 = 0 ∧ k < 63 then 64 * 2 ^ (k / 4) else Config.qosEdge k

/-- Whether a bin's upper edge exceeds a bound, compared in fourth powers. -/
def qosExceeds (k bound : Nat) : Bool :=
  if k < 63 then decide (bound ^ 4 < 64 ^ 4 * 2 ^ k) else decide (bound < Config.qosEdge k)

/-- QOS_WINDOW_END (05 R102). -/
def execQosWindowEnd (vd : Nat) (s : State) : Out :=
  match s.vd? vd with
  | none => .fault .noSuchEvent
  | some d =>
    if d.qosns = 0 then .fault .noSuchEvent
    else
      let n := d.hist.foldl (fun a p => a + p.2) 0
      let k := qosFind (qosRank d.qosp n) 0 d.hist
      let s' := s.updVd vd fun d => { d with hist := [] }
      .next (if qosLeast d.qosp ≤ n && qosExceeds k d.qosns then
          s'.raiseEvent vd 5 (Config.eventCode s'.fresh) (bytesOf 8 (qosEstimate k) ++ bytesOf 4 n ++ bytesOf 1 d.qosp)
        else s')

/-- TNEXT_ANSWER (05 R101). -/
def execTnextAnswer (core : Nat) (s : State) : Out := orFault (if s.stopped (dieOf core) then none else s.answerTnext core)

/-! ## Reports, interrupts and stops of the acting core (09 R187, R188, R192) -/

/-- Whether the domain of a core stands before the issue of a bundle or in an unsatisfied wait, not in another stop, which only an urgent stop
ends (06 R104, 11 R254). -/
def Core.interruptible (c : Core) : Bool := match c.wait with
  | none | some (.flags _) => true
  | _ => false

/-- Whether the acting core stands at a boundary of task mode: nothing due lacks its data, no empty cycle is left, no held channel is to be
reissued first (06 R118), and its clock runs (02 R27). -/
def State.atBoundary (s : State) : Bool :=
  s.c.task.isSome && !s.c.csr.mode && s.c.late.isNone && s.c.empty == 0 && s.c.again.isEmpty && s.c.interruptible
    && !s.stopped (dieOf s.cur)

/-- IMPRECISE_REPORT: the oldest report is taken with IMPR set. -/
def execImpreciseReport (s : State) : Out :=
  match s.c.reports, s.atBoundary with
  | r :: rest, true =>
    let s : State := { s with c := { s.c with reports := rest } }
    .next (s.takeTrap ⟨r.cause.toNat, r.sub.toNat, r.slot, r.bund⟩ true s.c.pc s.c.pc)
  | _, _ => .fault .noSuchEvent

/-- TIMER_INTERRUPT: EVAL holds CYCLE (Table 9-2). -/
def execTimerInterrupt (s : State) : Out :=
  onlyIf (s.atBoundary && s.c.reports.isEmpty && s.c.csr.ipTimer)
    (s.takeTrap ⟨cTIMER, 0, 0, BitVec.ofNat 64 s.c.csr.cycle⟩ false s.c.pc s.c.pc)

/-- IPI_INTERRUPT. -/
def execIpiInterrupt (s : State) : Out :=
  onlyIf (s.atBoundary && s.c.reports.isEmpty && !s.c.csr.ipTimer && s.c.csr.ipIpi)
    (s.takeTrap ⟨cIPI, 0, 0, 0⟩ false s.c.pc s.c.pc)

/-- DEBUG_HALT (09 R192). -/
def execDebugHalt (s : State) : Out := .next ((s.stopCore s.cur .debug).endIssue)

end Sys2Proof.Machine
end

