-- ==== Sys2Proof/Machine/Objects.lean ====
section
/-! DEFINITION. The layout of a code object (03_host_interface.md Table 3-8, R43, R353). -/

namespace Sys2Proof.Machine

/-- A little-endian field of an object. -/
def objNum (o : List Byte) (off n : Nat) : Nat := fieldAt o off n
def objProfile (o : List Byte) : Nat := objNum o 6 1
def objFlags (o : List Byte) : Nat := objNum o 7 1
def objNbund (o : List Byte) : Nat := objNum o 8 4
def objCodeOff (o : List Byte) : Nat := objNum o 0xC 4
def objNcore (o : List Byte) : Nat := objNum o 0x30 2
def objHash (o : List Byte) : BitVec 384 := BitVec.ofNat 384 (objNum o 0x40 48)

/-- CFLAGS.COMPAT of a profile-4 object. -/
def objCompat (o : List Byte) : Bool := objProfile o == 4 && bits (objFlags o) 0 1 == 1

/-- The entries of a table whose offset and count stand at a header offset. -/
def objTable (o : List Byte) (h : Nat) : List Nat := (List.range (objNum o (h + 4) 4)).map fun i => objNum o (objNum o h 4 + 8 * i) 8
def objSafe (o : List Byte) : List Nat := objTable o 0x10
def objLive (o : List Byte) : List Nat := objTable o 0x18
def objRel (o : List Byte) : List Nat := objTable o 0x20
def objTgt (o : List Byte) : List Nat := objTable o 0x28

/-- Bundle i. -/
def objBundle (o : List Byte) (i : Nat) : Bundle := decodeBytes (sliceBytes o (objCodeOff o + 16 * i) 16)

/-- The object with its HASH field zero. -/
def objUnhashed (o : List Byte) : List Byte := o.take 0x40 ++ List.replicate 48 0 ++ o.drop 0x70

/-- The instruction in slot 0 of a bundle. -/
def slot0Of : Bundle → Option Instr
  | .slots ((0, i) :: _) => some i
  | _ => none

/-- The bundles after the calls of an object, where a RET may lead that no call of the path explains. -/
def returnPoints (code : List Bundle) : List Nat :=
  (List.range code.length).filterMap fun i => match (code[i]?).bind slot0Of with
    | some (.call _ _) | some (.callr _ _) => some (i + 1)
    | _ => none

/-- Replace bits [pos+wid-1:pos] of a number. -/
def putBits (x pos wid v : Nat) : Nat := x - bits x pos wid * 2 ^ pos + v % 2 ^ wid * 2 ^ pos

end Sys2Proof.Machine
end

