-- ==== Sys2Proof/Machine/Rewriter.lean ====
section
/-! DEFINITION. The rewriter (17_program_latency_rewrite.md R337, R338): a profile-4 object is rescheduled to profile 6 by keeping,
hoisting or inserting around its local loads. R337 compares all runs of two objects. The rewriter decides it by following both along
every path from the start of every block and from every safe point: each instruction sees the same sources in both (DEDUCED, log 28). -/

namespace Sys2Proof

/-! ## What an instruction reads and writes -/

/-- A scalar source; S0 is a constant. -/
def rdS (l : List SReg) : List DestName := l.flatMap sDest
/-- A flag source; F0 is a constant. -/
def rdF (l : List FReg) : List DestName := l.flatMap fDest
/-- The mask a header lends. -/
def rdM (m : Merge) : List DestName := if m.men then [.m m.msk] else []

/-- The vector sources of an instruction. -/
def Instr.vSrcs : Instr → List VSrc
  | .vst _ a _ _ _ _ _ _ => [a]
  | .vldx _ _ _ x => [x]
  | .vstx _ a _ x _ _ => [a, x]
  | .vstq _ a _ _ _ => [a]
  | .vadd _ _ _ a b _ | .vsub _ _ _ a b _ | .vmul _ _ _ a b _ | .vmin _ _ _ a b _ | .vmax _ _ _ a b _ => [a, b]
  | .vfma _ _ _ a b c _ | .vfms _ _ _ a b c _ => [a, b, c]
  | .vabs _ _ _ a _ | .vneg _ _ _ a _ | .vpopc _ _ _ a _ | .vclz _ _ _ a _ => [a]
  | .vand _ _ _ a b | .vor _ _ _ a b | .vxor _ _ _ a b => [a, b]
  | .vnot _ _ _ a | .vmov _ _ _ a | .vexp2 _ _ _ a | .vlog2 _ _ _ a | .vrcp _ _ _ a | .vrsq _ _ _ a => [a]
  | .vshl _ _ _ a b _ | .vshr _ _ _ a b _ | .vsra _ _ _ a b _ | .vperm _ _ _ a b _ | .vshuf _ _ _ a b _
  | .vmx _ _ _ a b _ => [a, b]
  | .vcmp _ _ a b _ _ | .vdiff _ _ a b _ => [a, b]
  | .vsel _ _ _ a b _ | .vcompact _ _ _ a b _ | .vexpand _ _ _ a b _ | .vqz _ _ _ a b _ | .vdq _ _ _ a b _ => [a, b]
  | .vbc _ _ _ a _ _ | .vrot _ _ _ a _ _ => [a]
  | .vred _ _ _ a _ _ => [a]
  | .vscan _ _ _ a _ _ _ => [a]
  | .vext _ _ a _ _ => [a]
  | .vcvt _ _ _ a _ _ _ _ => [a]
  | .vxpand _ _ _ a _ _ => [a]
  | .vtrp _ a _ => [a]
  | _ => []

/-- The vector destination of an instruction. -/
def Instr.vDst : Instr → Option VDst
  | .vld _ d _ _ | .vldx _ d _ _ => some d
  | .vldt _ d _ _ _ _ => some d
  | .vadd _ _ d _ _ _ | .vsub _ _ d _ _ _ | .vmul _ _ d _ _ _ | .vmin _ _ d _ _ _ | .vmax _ _ d _ _ _
  | .vshl _ _ d _ _ _ | .vshr _ _ d _ _ _ | .vsra _ _ d _ _ _ | .vperm _ _ d _ _ _ | .vshuf _ _ d _ _ _
  | .vmx _ _ d _ _ _ => some d
  | .vfma _ _ d _ _ _ _ | .vfms _ _ d _ _ _ _ => some d
  | .vabs _ _ d _ _ | .vneg _ _ d _ _ | .vpopc _ _ d _ _ | .vclz _ _ d _ _ => some d
  | .vand _ _ d _ _ | .vor _ _ d _ _ | .vxor _ _ d _ _ => some d
  | .vnot _ _ d _ | .vmov _ _ d _ | .vexp2 _ _ d _ | .vlog2 _ _ d _ | .vrcp _ _ d _ | .vrsq _ _ d _ => some d
  | .vsel _ _ d _ _ _ | .vcompact _ _ d _ _ _ | .vexpand _ _ d _ _ _ | .vqz _ _ d _ _ _ | .vdq _ _ d _ _ _ => some d
  | .vbc _ _ d _ _ _ | .vrot _ _ d _ _ _ => some d
  | .vred _ _ d _ _ _ => some d
  | .vscan _ _ d _ _ _ _ => some d
  | .vcvt _ _ d _ _ _ _ _ => some d
  | .vxpand _ _ d _ _ _ => some d
  | .vtrc _ _ d _ => some d
  | _ => none

/-- The predicate flag, and the scalar, flag and mask registers an instruction reads at its issue. The steps of LSTEP act at the
loop's end, which ends a block (11 R249). -/
def Instr.regReads : Instr → List DestName
  | .add p _ a b | .sub p _ a b | .mul p _ a b | .mulh p _ a b | .mulhn p _ a b | .div p _ a b | .divn p _ a b
  | .rem p _ a b | .remn p _ a b | .and p _ a b | .or p _ a b | .xor p _ a b | .shl p _ a b | .shr p _ a b
  | .sra p _ a b | .min p _ a b | .max p _ a b | .minn p _ a b | .maxn p _ a b => rdF [p] ++ rdS [a, b]
  | .clz p _ a | .ctz p _ a | .popc p _ a => rdF [p] ++ rdS [a]
  | .addx p _ a b _ => rdF [p] ++ rdS [a, b]
  | .sel p _ a b f => rdF [p, f] ++ rdS [a, b]
  | .addi p _ a _ | .andi p _ a _ | .ori p _ a _ | .xori p _ a _ => rdF [p] ++ rdS [a]
  | .shli p _ a _ | .shri p _ a _ | .srai p _ a _ => rdF [p] ++ rdS [a]
  | .exts p _ a _ _ | .extz p _ a _ _ => rdF [p] ++ rdS [a]
  | .lih p d _ => rdF [p] ++ rdS [d]
  | .cmp p _ a b _ => rdF [p] ++ rdS [a, b]
  | .cmpi p _ a _ _ => rdF [p] ++ rdS [a]
  | .fand p _ a b | .forr p _ a b => rdF [p, a, b]
  | .fnot p _ a => rdF [p, a]
  | .lds p _ a _ _ _ => rdF [p] ++ rdS [a]
  | .ldt8 p _ a _ _ _ _ | .ldt16 p _ a _ _ _ _ | .ldt32 p _ a _ _ _ _ => rdF [p] ++ rdS [a]
  | .ldt64 p _ a _ _ _ => rdF [p] ++ rdS [a]
  | .st p t a _ _ _ _ => rdF [p] ++ rdS [t, a]
  | .brf p f _ => rdF [p, f]
  | .jr p a | .callr p a => rdF [p] ++ rdS [a]
  | .ret p => rdF [p] ++ rdS [31]
  | .loops p a _ => rdF [p] ++ rdS [a]
  | .loopp p a b _ => rdF [p] ++ rdS [a, b]
  | .waitf p mask _ => rdF (p :: (List.finRange 16).filter fun k => mask.getLsbD k.val)
  | .cwr p d _ => rdF [p] ++ rdS [d]
  | .amo p t a _ _ _ _ => rdF [p] ++ rdS [t, a]
  | .cas p t a b _ _ _ => rdF [p] ++ rdS [t, a, b]
  | .red p a b _ _ _ => rdF [p] ++ rdS [a, b]
  | .redWin p a b => rdF [p] ++ rdS [a, b]
  | .barinit p _ a | .bararr p _ a => rdF [p] ++ rdS [a]
  | .frset p _ a b => rdF [p] ++ rdS [a, b]
  | .tspawn p a b | .tspawnWait p a b | .tdep p a b => rdF [p] ++ rdS [a, b]
  | .tdepDec p a => rdF [p] ++ rdS [a]
  | .cwait p a _ => rdF [p] ++ rdS [a]
  | .cwaitYield p a _ => rdF [p] ++ rdS [a]
  | .iinv p a b => rdF [p] ++ rdS [a, b]
  | .br p _ | .call p _ | .loop p _ _ | .lbrk p | .lstep p _ _ | .crd p _ _ | .stqpop p _ _ | .li p _ _ | .fset p _ | .fclr p _
  | .barwait p _ _ _ | .fence p _ _ _ | .tsusp p _ | .texit p | .tnext p | .safept p _ | .trap p _ | .eret p | .ebrk p
  | .isync p => rdF [p]
  | .vld p _ a _ => rdF [p] ++ rdS [a]
  | .vldt p _ a _ _ _ => rdF [p] ++ rdS [a]
  | .vst p _ a _ _ men k _ => rdF [p] ++ rdS [a] ++ rdM ⟨men, k⟩
  | .vldx p _ a _ => rdF [p] ++ rdS [a]
  | .vstx p _ a _ men k => rdF [p] ++ rdS [a] ++ rdM ⟨men, k⟩
  | .vstq p _ a b _ => rdF [p] ++ rdS [a, b]
  | .agset p _ a | .cbset p _ a => rdF [p] ++ rdS [a]
  | .cbacq p _ _ _ | .cbrel p _ => rdF [p]
  | .vadd p m _ _ _ _ | .vsub p m _ _ _ _ | .vmul p m _ _ _ _ | .vmin p m _ _ _ _ | .vmax p m _ _ _ _
  | .vshl p m _ _ _ _ | .vshr p m _ _ _ _ | .vsra p m _ _ _ _ | .vperm p m _ _ _ _ | .vshuf p m _ _ _ _
  | .vmx p m _ _ _ _ => rdF [p] ++ rdM m
  | .vfma p m _ _ _ _ _ | .vfms p m _ _ _ _ _ => rdF [p] ++ rdM m
  | .vabs p m _ _ _ | .vneg p m _ _ _ | .vpopc p m _ _ _ | .vclz p m _ _ _ => rdF [p] ++ rdM m
  | .vand p m _ _ _ | .vor p m _ _ _ | .vxor p m _ _ _ => rdF [p] ++ rdM m
  | .vnot p m _ _ | .vmov p m _ _ | .vexp2 p m _ _ | .vlog2 p m _ _ | .vrcp p m _ _ | .vrsq p m _ _ => rdF [p] ++ rdM m
  | .vsel p m _ _ _ k | .vcompact p m _ _ _ k | .vexpand p m _ _ _ k => rdF [p] ++ rdM m ++ [.m k]
  | .vqz p m _ _ _ _ | .vdq p m _ _ _ _ => rdF [p] ++ rdM m
  | .vbc p m _ _ _ _ | .vrot p m _ _ _ _ => rdF [p] ++ rdM m
  | .vred p m _ _ _ _ => rdF [p] ++ rdM m
  | .vscan p m _ _ _ _ _ => rdF [p] ++ rdM m
  | .vcvt p m _ _ _ _ _ _ => rdF [p] ++ rdM m
  | .vxpand p m _ _ _ _ => rdF [p] ++ rdM m
  | .vtrc p m _ _ => rdF [p] ++ rdM m
  | .vext p _ _ _ _ | .vtrp p _ _ => rdF [p]
  | .vcmp p _ _ _ _ _ => rdF [p]
  | .vdiff p _ _ _ _ => rdF [p]
  | .mset p _ a => rdF [p] ++ rdS [a]
  | .mand p _ x y | .mor p _ x y => rdF [p] ++ [.m x, .m y]
  | .mnot p _ x => rdF [p] ++ [.m x]
  | .lease p | .lfree p | .cbfree p _ => rdF [p]
  | .mmd p _ a b t _ | .tbld p _ a b t | .mmt p _ _ a b t => rdF [p] ++ rdS [a, b, t]
  | .mmtd p _ _ a b t => rdF [p] ++ rdS [a, b, t, b + 1]
  | .accz p _ t => rdF [p] ++ rdS [t]
  | .accld p _ a _ t => rdF [p] ++ rdS [a, t]
  | .accst p _ a _ _ t => rdF [p] ++ rdS [a, t]
  | .cbbind p _ a _ t => rdF [p] ++ rdS [a, t]
  | .cbinv p a t => rdF [p] ++ rdS [a, t]
  | .cbpre p a => rdF [p] ++ rdS [a]
  | .cpy p d a h t | .cpyq p d a h t | .cpyd p d a h t | .cpym p d a h t | .cpyf p d a h t => rdF [p] ++ rdS [d, a, h, t]
  | _ => []

/-- A register a broadcast source names. -/
def VSrc.regRead : VSrc → List DestName
  | .bc r => sDest r
  | _ => []

/-- Every register an instruction reads. -/
def Instr.allReads (i : Instr) : List DestName := i.regReads ++ i.vSrcs.flatMap VSrc.regRead

/-- Whether a load is local (11 R238; 13 R286, R291). -/
def Instr.isLocal : Instr → Bool
  | .lds .. | .vld .. | .vldx .. => true
  | _ => false

/-- The latency of a result (Tables 11-1, 12-1; 13 R286, R303; 14 R332); `lp` is that of a local load. -/
def Instr.latency (lp : Nat) : Instr → Nat
  | .lds .. | .vld .. | .vldx .. => lp
  | .ldt8 _ _ _ arr _ _ _ | .ldt16 _ _ _ arr _ _ _ | .ldt32 _ _ _ arr _ _ _ => arr.toNat
  | .ldt64 _ _ _ arr _ _ => arr.toNat
  | .vldt _ _ _ arr _ _ => arr.toNat
  | .mul .. | .mulh .. | .mulhn .. => 3
  | .div .. | .divn .. | .rem .. | .remn .. | .amo .. | .cas .. | .tnext .. => 8
  | .vadd _ _ _ _ _ ty | .vsub _ _ _ _ _ ty | .vmin _ _ _ _ _ ty | .vmax _ _ _ _ _ ty => if (Machine.fmtOf ty).isSome then 4 else 2
  | .vmul _ _ _ _ _ ty => if (Machine.fmtOf ty).isSome then 4 else 3
  | .vfma .. | .vfms .. | .vcvt .. => 4
  | .vpopc .. | .vclz .. | .vrot .. | .vperm .. | .vshuf .. | .vcompact .. | .vexpand .. | .vxpand .. => 3
  | .vred .. | .vscan .. | .vmx .. | .vdq .. => 6
  | .vexp2 .. | .vlog2 .. | .vrcp .. | .vrsq .. | .vqz .. => 8
  | .vand .. | .vor .. | .vxor .. | .vnot .. | .vmov .. | .vsel .. | .vbc .. | .vabs .. | .vneg .. | .vshl .. | .vshr .. | .vsra ..
  | .vtrc .. | .vcmp .. | .vdiff .. | .vext .. => 2
  | _ => 1

/-- Whether an instruction keeps a load from being hoisted over its bundle (R338, last point). -/
def Instr.barsHoist : Instr → Bool
  | .st .. | .vst .. | .vstx .. | .vstq .. | .amo .. | .cas .. | .red .. | .redWin .. | .fence .. | .frset .. | .agset .. | .cbset ..
  | .cbacq .. | .cbrel .. | .barinit .. | .bararr .. | .barwait .. | .waitf .. | .cwait .. | .tsusp .. | .safept .. | .cwaitYield ..
  | .texit .. | .trap .. | .ebrk .. => true
  | i => match i.vDst with
    | some .p4 | some .p5 => true
    | _ => false

/-- Whether an instruction accesses memory, or orders accesses: a store that a port has made before it comes before it. -/
def Instr.memory : Instr → Bool
  | .lds .. | .ldt8 .. | .ldt16 .. | .ldt32 .. | .ldt64 .. | .st .. | .amo .. | .cas .. | .red .. | .redWin .. | .bararr .. | .fence ..
  | .frset .. | .tspawn .. | .tspawnWait .. | .tdep .. | .tdepDec .. | .vld .. | .vldt .. | .vst .. | .vldx .. | .vstx .. | .vstq ..
  | .agset .. | .cbset .. | .cbrel .. | .mmd .. | .tbld .. | .mmt .. | .mmtd .. | .accld .. | .accst .. | .cbbind .. | .cbfree ..
  | .cbinv .. | .cbpre .. | .cpy .. | .cpyq .. | .cpyd .. | .cpym .. | .cpyf .. => true
  | _ => false

/-- Whether an instruction reads, writes, pushes or pops a load's destination. -/
def Instr.touches (i : Instr) : Instr → Bool
  | .lds _ d _ _ _ _ => (i.allReads ++ i.dests).any (· ∈ sDest d)
  | .vld _ d _ _ => match d with
    | .q k => i.vSrcs.any (Machine.VSrc.isQ k) || i.vDst == some (.q k)
    | .nwb _ => false
    | d => i.vDst == some d
  | _ => true

/-- The address register and the predicate flag of a load. -/
def Instr.loadRegs : Instr → List DestName
  | .lds p _ a _ _ _ => sDest a ++ fDest p
  | .vld p _ a _ => sDest a ++ fDest p
  | _ => []

end Sys2Proof

namespace Sys2Proof.Machine

/-! ## Following both runs (R337) -/

/-- A row of the object under the rewriter: its words, where its bundle stood, and where the word of each slot stood. -/
structure Row where
  words : List Nat
  home  : Option Nat
  ids   : List (Option Nat)
deriving DecidableEq, Repr

/-- A word's first place: its bundle and slot as one number. -/
def wordId (b k : Nat) : Nat := 4 * b + k

/-- The object as submitted. -/
def rowsOf (o : List Byte) : List Row :=
  (List.range (objNbund o)).map fun i =>
    ⟨(List.range 4).map fun k => objNum o (objCodeOff o + 16 * i + 4 * k) 4, some i, (List.range 4).map fun k => some (wordId i k)⟩

/-- The bundle of a row. -/
def Row.bundle (r : Row) : Bundle := decodeWords (r.words.getD 0 0) (r.words.getD 1 0) (r.words.getD 2 0) (r.words.getD 3 0)
/-- The instructions of a row by slot. -/
def Row.instrs (r : Row) : List (Fin 4 × Instr) :=
  match r.bundle with
  | .slots is => is
  | .illegal _ _ _ _ => []
/-- Where the word of a slot stood. -/
def Row.id (r : Row) (k : Fin 4) : Nat := (r.ids.getD k.val none).getD 0
/-- The predicate flag of a slot (10 R205). -/
def Row.pred (r : Row) (k : Fin 4) : FReg := Fin.ofNat 16 (bits (r.words.getD k.val 0) 22 4)

/-- A value as both runs name it: one that is the same in both since before, what a word wrote so many blocks ago, or one that differs
for good. -/
inductive Sym where
  | same
  | was (id age : Nat)
  | lost (new : Bool)
deriving DecidableEq, Repr

/-- A block later. -/
def Sym.older : Sym → Sym
  | .was id n => .was id (n + 1)
  | t => t

/-- What a write goes to: a register, a latch pair by its slot, or memory, by a write port. -/
inductive Goes where
  | reg (d : DestName)
  | pair (slot : Nat)
  | mem
deriving DecidableEq, Repr

/-- A write, the core cycle from which it is seen, and its value. -/
structure Sent where
  dest : Goes
  at'  : Nat
  by'  : Sym
deriving DecidableEq, Repr

/-- An entry of a queue, the core cycle from which it has landed, and its value. -/
structure Entry where
  queue : Fin 16
  at'   : Nat
  by'   : Sym
deriving DecidableEq, Repr

/-- A run between two bundles, with times counted from now: what registers that may differ from the other run show, the latch pairs and the
stores that ports have made, newest first; the results owed, in issue order; the queue entries, oldest first. -/
structure Half where
  shows : List (Goes × List Sym)
  owed  : List Sent
  queue : List Entry
deriving DecidableEq, Repr

/-- A task's entry: nothing owed, no entry, the latches invalid. -/
def Half.fresh : Half := ⟨[], [], []⟩

/-- What an instruction saw: the values its predicate and sources stand for, and whether each was there; whether the queue it pushes holds
more than 4 entries. -/
structure Saw where
  id    : Nat
  what  : Instr
  srcs  : List (Option Sym × Bool)
  full  : Bool
deriving DecidableEq, Repr

/-- Whether an instruction raised QUNF, QEARLY, LATCHINV or QOVF (06 R106, R107). -/
def Saw.traps (x : Saw) : Bool := x.srcs.any (!·.2) || x.full

/-- A block under way: where it began, its writes in issue order, the queue entries, what its instructions saw, and the run as a
suspension at a safe point leaves it, by bundle. -/
structure Track where
  base  : Half
  sent  : List Sent
  queue : List Entry
  seen  : List Saw
  stops : List (Nat × Half)
deriving DecidableEq, Repr

/-- The beginning of a block. -/
def Track.start (h : Half) : Track := ⟨h, h.owed, h.queue, [], []⟩

/-- The values that have landed at a place by a cycle, newest first. -/
def Track.landed (t : Track) (g : Goes) (c : Nat) : List Sym :=
  (((t.sent.filter fun x => x.dest == g && decide (x.at' ≤ c)).foldl
    (fun acc x => acc.takeWhile (fun y => decide (x.at' < y.at')) ++ x :: acc.dropWhile fun y => decide (x.at' < y.at')) []).map (·.by'))
    ++ (t.base.shows.lookup g).getD []

/-- What a register shows. -/
def Track.sees (t : Track) (c : Nat) (d : DestName) : Option Sym × Bool := (some ((t.landed (.reg d) c).headD .same), true)

/-- What an access of memory sees of the stores that ports make: those made by its issue, in their order; a TEXIT those still owed too, for
they are made then (14 R331). -/
def Track.seesMem (t : Track) (c : Nat) (i : Instr) : List (Option Sym × Bool) :=
  let by' (c : Nat) : List (Option Sym × Bool) := (t.landed .mem c).map fun x => (some x, true)
  match i with
  | .texit _ => by' ((t.sent.map (·.at')).foldl Max.max c)
  | i => if i.memory then by' c else []

/-- What a vector source sees: the head of its queue, if any, and whether it has landed; or the value of a latch, if valid. -/
def Track.seesV (t : Track) (c : Nat) : VSrc → List (Option Sym × Bool)
  | .q k _ => match t.queue.find? fun e => e.queue == k with
    | some e => [(some e.by', decide (e.at' ≤ c))]
    | none => [(none, false)]
  | .l k => match (t.landed (.pair (1 + k.val / 2)) c)[k.val % 2]? with
    | some x => [(some x, true)]
    | none => [(none, false)]
  | _ => []

/-- The queues a bundle pops. -/
def popsOf (is : List (Fin 4 × Instr)) : List (Fin 16) :=
  (List.finRange 16).filter fun k => is.any fun x => x.2.vSrcs.any (VSrc.pops k)

/-- A queue loses its head. -/
def popEntry (k : Fin 16) (q : List Entry) : List Entry :=
  match q.findIdx? fun e => e.queue == k with
  | some i => q.eraseIdx i
  | none => q

/-- The places that a run's values or results name. -/
def Track.places (t : Track) : List Goes := (t.base.shows.map (·.1) ++ t.sent.map (·.dest)).eraseDups

/-- What a place shows from a cycle on: a register its newest value, a latch pair its two newest, memory every store. -/
def Track.shown (t : Track) (c : Nat) : Goes → List Sym
  | .reg d => (t.landed (.reg d) c).take 1
  | .pair k => (t.landed (.pair k) c).take 2
  | .mem => t.landed .mem c

/-- The run at the end of a block of so many cycles. -/
def Track.stop (t : Track) (c : Nat) : Half :=
  { shows := t.places.filterMap fun g => match t.shown c g with
      | [] => none
      | l => some (g, l.map Sym.older)
    owed := (t.sent.filter fun x => decide (c < x.at')).map fun x => { x with at' := x.at' - c, by' := x.by'.older }
    queue := t.queue.map fun e => { e with at' := e.at' - c, by' := e.by'.older } }

/-- The run after a suspension under a live-state list: every result has landed, the latches are invalid, and the registers and queues that
the list leaves out are the same in any run (09 R190, R191). -/
def Track.suspended (t : Track) (mask : Nat) : Half :=
  let last := (t.sent.map (·.at')).foldl Max.max 0
  let listed : Goes → Bool
    | .reg (.s r) => bits mask (r.val - 1) 1 == 1
    | .reg (.f _) | .reg (.m _) => bits mask 31 1 == 1
    | .reg _ | .mem => true
    | .pair _ => false
  { shows := (t.places.filter listed).filterMap fun g => match t.shown last g with
      | [] => none
      | l => some (g, l)
    owed := []
    queue := (t.queue.filter fun e => bits mask (32 + e.queue.val) 1 == 1).map fun e => { e with at' := 0 } }

/-- The live-state list of a safe point that lets its task be suspended. -/
def safeList : Instr → Option Nat
  | .safept _ l | .tsusp _ l | .cwaitYield _ _ l => some l.toNat
  | _ => none

/-- What a following of a block rests on: which words execute, when a local load lands, the registers that a loop's end reads there, and
the live-state lists. -/
structure Follow where
  runs  : Nat → Bool
  lands : Nat → Nat → Nat
  steps : Nat → List SReg
  lives : List Nat

/-- Follow one bundle issued at core cycle c. -/
def Track.bundle (f : Follow) (t : Track) (r : Row) (c : Nat) : Track :=
  let is := r.instrs.filter fun x => f.runs (r.id x.1)
  let pred (k : Fin 4) : List (Option Sym × Bool) := if r.pred k = 0 then [] else [t.sees c (.f (r.pred k))]
  let reads := r.instrs.map fun x =>
    (r.id x.1, x.2, pred x.1 ++ if f.runs (r.id x.1) then x.2.allReads.map (t.sees c) ++ x.2.vSrcs.flatMap (t.seesV c) ++ t.seesMem c x.2 else [])
  let ends := match r.home with
    | some b => [(wordId b 0, Instr.nop, (f.steps b).map fun d => t.sees c (.s d))]
    | none => []
  let t1 := { t with queue := (popsOf is).foldl (fun q k => popEntry k q) t.queue }
  let t2 := is.foldl (fun (t : Track) x =>
    let id := r.id x.1
    let at' := if x.2.isLocal then f.lands id c else c + x.2.latency 6
    let regs := x.2.dests.map fun d => (⟨.reg d, at', .was id 0⟩ : Sent)
    match x.2.vDst with
    | some d =>
      { t with
        sent := t.sent ++ regs ++ [⟨.pair x.1.val, at', .was id 0⟩] ++ (match d with
          | .p4 | .p5 => [⟨.mem, at', .was id 0⟩]
          | _ => [])
        queue := match d with
          | .q k => t.queue ++ [⟨k, at', .was id 0⟩]
          | _ => t.queue }
    | none => { t with sent := t.sent ++ regs }) t1
  let saws := (reads ++ ends).map fun x => (⟨x.1, x.2.1, x.2.2, match x.2.1.vDst with
    | some (.q k) => f.runs x.1 && decide (4 < (t2.queue.filter fun e => e.queue == k).length)
    | _ => false⟩ : Saw)
  let t3 := { t2 with seen := t2.seen ++ saws }
  match r.home, r.instrs.findSome? fun x => safeList x.2 with
  | some b, some l => { t3 with stops := t3.stops ++ [(b, t3.suspended (f.lives.getD l 0))] }
  | _, _ => t3

/-- The core cycles a bundle takes, an ISYNC with its two empty ones (14 R334). -/
def Row.cycles (r : Row) : Nat := if r.instrs.any (fun x => match x.2 with
    | .isync _ => true
    | _ => false) then 3 else 1

/-- The cycle at which each row of a block issues, and the cycle after the last. -/
def starts : Nat → List Row → List Nat
  | c, [] => [c]
  | c, r :: rest => c :: starts (c + r.cycles) rest

/-- Follow the rows of a block. -/
def follow (f : Follow) (h : Half) (rows : List Row) : Track := (rows.zip (starts 0 rows)).foldl (fun t x => t.bundle f x.1 x.2) (Track.start h)

/-- A list in the order of a key; entries of one key keep their order. -/
def orderBy {α : Type} (key : α → Nat) (l : List α) : List α :=
  l.foldl (fun acc x => acc.takeWhile (fun y => decide (key y ≤ key x)) ++ x :: acc.dropWhile fun y => decide (key y ≤ key x)) []

/-! ### What both runs have in common -/

/-- Two lists of values as the runs may forget their names: equal values are the same, values that differ with nothing owed to their place
differ for good. -/
def matchSyms (owed : Bool) : List Sym → List Sym → List Sym × List Sym
  | x :: l, y :: m =>
    let r := matchSyms owed l m
    if x = y then (.same :: r.1, .same :: r.2) else if owed then (x :: r.1, y :: r.2) else (.lost false :: r.1, .lost true :: r.2)
  | l, m => if owed then (l, m) else (l.map fun _ => .lost false, m.map fun _ => .lost true)

/-- Two lists without what both begin with. -/
def dropCommon : List Sym → List Sym → List Sym × List Sym
  | x :: l, y :: m => if x = y then dropCommon l m else (x :: l, y :: m)
  | l, m => (l, m)

/-- The stores of ports, newest first, without the oldest that are the same in both runs. -/
def matchMem (owed : Bool) (l m : List Sym) : List Sym × List Sym :=
  let p := dropCommon l.reverse m.reverse
  if owed then (p.1.reverse, p.2.reverse) else (p.1.map fun _ => .lost false, p.2.map fun _ => .lost true)

/-- Both runs with the names forgotten that no longer matter; none where their queues hold different numbers of entries. -/
def matchHalves (a b : Half) : Option (Half × Half) :=
  let places := ((a.shows ++ b.shows).map (·.1)).eraseDups
  let owed (g : Goes) : Bool := (a.owed ++ b.owed).any fun x => x.dest == g
  let val (h : Half) (g : Goes) : List Sym := match g, h.shows.lookup g with
    | _, some l => l
    | .reg _, none => [.same]
    | _, none => []
  let pairs := places.map fun g => (g, (if g = .mem then matchMem else matchSyms) (owed g) (val a g) (val b g))
  let keep (f : List Sym × List Sym → List Sym) : List (Goes × List Sym) := pairs.filterMap fun p =>
    match p.1 with
    | .reg _ => if p.2.1 = [.same] ∧ p.2.2 = [.same] then none else some (p.1, f p.2)
    | _ => if (f p.2).isEmpty then none else some (p.1, f p.2)
  let qa := orderBy (fun (e : Entry) => e.queue.val) a.queue
  let qb := orderBy (fun (e : Entry) => e.queue.val) b.queue
  if qa.map (·.queue) != qb.map (·.queue) then none
  else
    let both := (qa.zip qb).map fun p =>
      let m := matchSyms (decide (0 < p.1.at') || decide (0 < p.2.at')) [p.1.by'] [p.2.by']
      (({ p.1 with by' := m.1.headD .same } : Entry), ({ p.2 with by' := m.2.headD .same } : Entry))
    some (⟨keep (·.1), a.owed, both.map (·.1)⟩, ⟨keep (·.2), b.owed, both.map (·.2)⟩)

/-- Whether two runs agree in everything that is left of them. -/
def agree (a b : Half) : Bool := (matchHalves a b).any fun p => p.1.shows.isEmpty && p.1.queue.all fun e => e.by' == .same

/-! ## Blocks -/

/-- The bundles that begin a block (R338): the first, branch targets, a loop body's first bundle, the bundle after its last, and
the bundle after a branch, LBRK or loop start. -/
def leaders (o : List Byte) : List Nat :=
  0 :: objTgt o ++ (List.range (objNbund o)).flatMap fun i => match slot0Of (objBundle o i) with
    | some (.br _ off) | some (.call _ off) => [offTarget i off.toInt, i + 1]
    | some (.brf _ _ off) => [offTarget i off.toInt, i + 1]
    | some (.jr ..) | some (.callr ..) | some (.ret ..) | some (.lbrk ..) => [i + 1]
    | some (.loop _ _ len) | some (.loops _ _ len) | some (.loopp _ _ _ len) => [i + 1, i + len.toNat + 2]
    | _ => []

/-- Whether a row begins a block. -/
def leads (ls : List Nat) (r : Row) : Bool := match r.home with
  | some b => ls.contains b
  | none => false

/-- The first row of the block of a row. -/
def blockStart (ls : List Nat) (rows : List Row) (i : Nat) : Nat :=
  (((List.range (i + 1)).reverse).find? fun j => (rows[j]?).any (leads ls)).getD 0

/-- The row after the block of a row. -/
def blockStop (ls : List Nat) (rows : List Row) (i : Nat) : Nat :=
  ((List.range rows.length).find? fun j => decide (i < j) && (rows[j]?).any (leads ls)).getD rows.length

/-- The first and last bundles of an object's loops. -/
def loopSpans (code : List Bundle) : List (Nat × Nat) :=
  (List.range code.length).filterMap fun i => match (code[i]?).bind slot0Of with
    | some (.loop _ _ len) | some (.loops _ _ len) | some (.loopp _ _ _ len) => some (i + 1, i + 1 + len.toNat)
    | _ => none

/-- Where the bundle after bundle b stands: behind it, or at the start of a loop that it ends. -/
def fallsTo (code : List Bundle) (b : Nat) : List (Nat × Nat) :=
  (b + 1, 0) :: ((loopSpans code).filter fun l => l.2 == b).map fun l => (l.1, 0)

/-- Where bundle b may lead, with the empty cycles on the way (11 R243-R251). A return from a handler leads nowhere the object knows. -/
def flowNext (code : List Bundle) (tgts : List Nat) (b : Nat) : List (Nat × Nat) :=
  let spans := loopSpans code
  let fall := fallsTo code b
  let orFall (p : FReg) (l : List (Nat × Nat)) : List (Nat × Nat) := if p = 0 then l else l ++ fall
  match (code[b]?).bind slot0Of with
  | some (.br p off) | some (.call p off) => orFall p [(offTarget b off.toInt, 1)]
  | some (.brf _ _ off) => (offTarget b off.toInt, 1) :: fall
  | some (.jr p _) | some (.callr p _) => orFall p (tgts.map fun t => (t, 1))
  | some (.ret p) => orFall p ((returnPoints code).map fun t => (t, 1))
  | some (.loops _ _ len) | some (.loopp _ _ _ len) => (b + len.toNat + 2, 0) :: fall
  | some (.lbrk p) => orFall p ((spans.filter fun l => decide (l.1 ≤ b ∧ b ≤ l.2)).map fun l => (l.2 + 1, 1))
  | some (.texit p) | some (.tsusp p _) | some (.eret p) => orFall p []
  | _ => fall

/-- Whether a row ends the task, or its stay on the core, whatever its flags. -/
def Row.ends (r : Row) : Bool := r.instrs.any fun x => r.pred x.1 == 0 && match x.2 with
  | .texit _ | .tsusp _ _ | .eret _ => true
  | _ => false

/-- Rows up to one that ends the task. -/
def untilEnd : List Row → List Row
  | [] => []
  | r :: l => if r.ends then [r] else r :: untilEnd l

/-- The rows from one to the end of its block, or of the task. -/
def rowsFrom (ls : List Nat) (rows : List Row) (i : Nat) : List Row := untilEnd ((rows.take (blockStop ls rows i)).drop i)

/-! ## R337 for an object -/

/-- Both objects as the rewriter compares them: the blocks, the code as submitted with its targets and lists, the registers that LSTEPs
name, the rows of both, and the loads that have been treated. A load still to be treated lands where it lands in the submitted object. -/
structure Compare where
  ls    : List Nat
  code  : List Bundle
  tgts  : List Nat
  lives : List Nat
  steps : List SReg
  old   : List Row
  new   : List Row
  done  : List Nat

/-- A point of the comparison: a bundle that a task may come to, or the place after a bundle with a safe point in the midst of a block, and
both runs. -/
structure Visit where
  home  : Nat
  after : Bool
  a     : Half
  b     : Half
deriving DecidableEq, Repr

/-- The rows from a point on. -/
def Visit.rows (v : Visit) (ls : List Nat) (rows : List Row) : List Row :=
  match rows.findIdx? fun r => r.home == some v.home with
  | some i => rowsFrom ls rows (if v.after then i + 1 else i)
  | none => []

/-- The first cycle at which a row of the other object stands that issues no earlier than a cycle of this one. -/
def carried (old new : List Row) (c : Nat) : Nat :=
  let so := starts 0 old
  let sn := starts 0 new
  match (List.range old.length).find? fun j => decide (c ≤ so.getD j 0) with
  | some j => sn.getD ((new.findIdx? fun r => r.home == (old.getD j ⟨[], none, []⟩).home).getD 0) 0
  | none => sn.getLastD 0 + (c - so.getLastD 0)

/-- The registers that the end of a loop at a bundle reads. -/
def Compare.stepsAt (x : Compare) (b : Nat) : List SReg := if (loopSpans x.code).any fun l => l.2 == b then x.steps else []

/-- The two followings of a block for an assignment of its predicates. -/
def Compare.tracks (x : Compare) (v : Visit) (runs : Nat → Bool) : Track × Track :=
  let old := v.rows x.ls x.old
  let new := v.rows x.ls x.new
  let so := starts 0 old
  let later (id : Nat) : Nat := carried old new ((match old.findIdx? fun r => r.home == some (id / 4) with
    | some j => so.getD j 0
    | none => 0) + 4)
  (follow ⟨runs, fun _ c => c + 4, x.stepsAt, x.lives⟩ v.a old,
   follow ⟨runs, fun id c => if x.done.contains id then c + 6 else later id, x.stepsAt, x.lives⟩ v.b new)

/-- The values of flags that govern the predicated words of a block, each once, with the words that each governs. -/
def predGroups (t : Track) (rows : List Row) : List (FReg × List (Option Sym × Bool) × List Nat) :=
  rows.foldl (fun acc r => r.instrs.foldl (fun acc x =>
    let p := r.pred x.1
    if p = 0 then acc
    else
      let id := r.id x.1
      let seen := ((t.seen.find? fun w => w.id == id).map fun w => w.srcs.take 1).getD []
      if acc.any fun g => g.1 == p && g.2.1 == seen then
        acc.map fun g => if g.1 == p && g.2.1 == seen then (g.1, g.2.1, id :: g.2.2) else g
      else acc ++ [(p, seen, [id])]) acc) []

/-- Whether a bundle is the last of its block. -/
def Compare.closes (x : Compare) (b : Nat) : Bool := x.ls.contains (b + 1) || decide (x.code.length ≤ b + 1)

/-- The points that a block leads to for one assignment of its predicates; none where the runs part in it. -/
def Compare.visitWith (x : Compare) (v : Visit) (runs : Nat → Bool) : Option (List Visit) :=
  let (ta, tb) := x.tracks v runs
  let sa := orderBy (fun (w : Saw) => w.id) ta.seen
  if sa != orderBy (fun (w : Saw) => w.id) tb.seen then none
  else if (ta.stops.map (·.1)) != tb.stops.map (·.1) || (ta.stops.zip tb.stops).any fun p => !agree p.1.2 p.2.2 then none
  else
    let again := ta.stops.flatMap fun p =>
      let h : Half := ⟨[], [], p.2.queue.map fun e => { e with by' := .same }⟩
      if x.closes p.1 then (fallsTo x.code p.1).map fun q => (⟨q.1, false, h, h⟩ : Visit) else [⟨p.1, true, h, h⟩]
    let old := v.rows x.ls x.old
    if sa.any Saw.traps || old.isEmpty || old.any Row.ends then some again
    else
      let stop (rows : List Row) (t : Track) (n : Nat) : Half := t.stop ((starts 0 rows).getLastD 0 + n)
      match (old.getLast?).bind (·.home) with
      | none => some again
      | some b =>
        ((flowNext x.code x.tgts b).foldl (fun acc p => acc.bind fun l =>
          (matchHalves (stop old ta p.2) (stop (v.rows x.ls x.new) tb p.2)).map fun q => l ++ [(⟨p.1, false, q.1, q.2⟩ : Visit)])
          (some [])).map (again ++ ·)

/-- The points that a block leads to, for every assignment of its predicates. -/
def Compare.visit (x : Compare) (v : Visit) : Option (List Visit) :=
  let gs := predGroups (x.tracks v fun _ => true).1 (v.rows x.ls x.old)
  (List.range (2 ^ gs.length)).foldl (fun acc m => acc.bind fun l =>
    (x.visitWith v fun id => match gs.findIdx? fun g => g.2.2.contains id with
      | some i => bits m i 1 == 1
      | none => true).map (l ++ ·)) (some [])

/-- Whether the runs agree from every point of a list on. The fuel bounds the points: where it runs out, R337 counts as not shown. -/
def Compare.agrees (x : Compare) : Nat → List Visit → List Visit → Bool
  | _, _, [] => true
  | 0, _, _ :: _ => false
  | n + 1, seen, v :: rest =>
    if seen.contains v || decide (x.code.length ≤ v.home) then Compare.agrees x n seen rest
    else match x.visit v with
      | none => false
      | some l => Compare.agrees x n (v :: seen) (l ++ rest)

/-- The registers that the LSTEPs of an object name. -/
def stepRegs (code : List Bundle) : List SReg :=
  (code.flatMap fun b => match slot0Of b with
    | some (.lstep _ d a) => [d, a]
    | _ => []).eraseDups

/-- What the comparison takes from the submitted object. -/
def compareOf (o : List Byte) : Compare :=
  let code := (List.range (objNbund o)).map (objBundle o)
  ⟨(leaders o).eraseDups, code, objTgt o, objLive o, stepRegs code, rowsOf o, rowsOf o, []⟩

/-- The bundles at which a task may enter: those that begin a block, and those that nothing but an entry leads to, after the end of a task. -/
def Compare.entries (x : Compare) : List Nat :=
  x.ls ++ ((List.range x.old.length).filter fun i => (x.old[i]?).any Row.ends).map (· + 1)

/-- Whether R337 holds for rows in which some loads have been treated. -/
def Compare.holds (x : Compare) (rows : List Row) (done : List Nat) : Bool :=
  { x with new := rows, done := done }.agrees 1048576 [] (x.entries.map fun b => ⟨b, false, Half.fresh, Half.fresh⟩)

/-! ## The three moves (R338) -/

/-- Whether the load of slot k in row i may move two rows up (R338 step 2). -/
def hoistable (ls : List Nat) (rows : List Row) (i : Nat) (k : Fin 4) : Bool :=
  match rows[i]?, rows[i - 1]?, rows[i - 2]? with
  | some r, some r1, some r2 => match (r.instrs.find? fun x => x.1 == k).map (·.2) with
    | some l =>
      decide (2 ≤ i) && decide (blockStart ls rows i + 2 ≤ i)
        && (match l with
          | .lds .. | .vld .. => true
          | _ => false)
        && bits (r.words.getD 0 0) 26 6 != 63 && r2.words.getD k.val 0 == 0
        && (r1.instrs ++ r2.instrs).all fun x =>
          !x.2.barsHoist && !x.2.touches l && l.loadRegs.all fun d => !x.2.dests.contains d
    | none => false
  | _, _, _ => false

/-- Move the word of slot k from row i to row i − 2. -/
def hoist (rows : List Row) (i : Nat) (k : Fin 4) : List Row :=
  match rows[i]?, rows[i - 2]? with
  | some r, some q =>
    (rows.set (i - 2) { q with words := q.words.set k.val (r.words.getD k.val 0), ids := q.ids.set k.val (r.ids.getD k.val none) }).set i
      { r with words := r.words.set k.val 0, ids := r.ids.set k.val none }
  | _, _ => rows

/-- A NOP bundle. -/
def nopRow : Row := ⟨[0, 0, 0, 0], none, [none, none, none, none]⟩

/-- Insert two NOP bundles before row i + 4. -/
def insertNops (rows : List Row) (i : Nat) : List Row := rows.take (i + 4) ++ nopRow :: nopRow :: rows.drop (i + 4)

/-- Treat the local load that stood at a place: keep, hoist, insert, or fail with its bundle. -/
def treatLoad (x : Compare) (acc : Except Nat (List Row × List Nat)) (id : Nat) : Except Nat (List Row × List Nat) :=
  match acc with
  | .error b => .error b
  | .ok (rows, ids) =>
    let done := id :: ids
    match rows.findIdx? fun r => r.ids.contains (some id) with
    | none => .error (id / 4)
    | some i =>
      let k : Fin 4 := Fin.ofNat 4 id
      if x.holds rows done then .ok (rows, done)
      else
        let up := hoist rows i k
        if hoistable x.ls rows i k && x.holds up done then .ok (up, done)
        else
          let wide := insertNops rows i
          if decide (i + 6 ≤ blockStop x.ls rows i) && x.holds wide done then .ok (wide, done) else .error (id / 4)

/-! ## What depends on positions -/

/-- The row where a bundle now stands. -/
def placeOf (rows : List Row) (b : Nat) : Nat := (rows.findIdx? fun r => r.home == some b).getD b

/-- The offset of a branch as it stands now, if it fits n bits. -/
def offField (n : Nat) (v : Int) : Option Nat := if -(2 ^ (n - 1) : Nat) ≤ v ∧ v < (2 ^ (n - 1) : Nat) then some (wrap n v) else none

/-- Branch and loop fields of a row. -/
def fixRow (rows : List Row) (i : Nat) (r : Row) : Option Row :=
  match r.home with
  | none => some r
  | some b =>
    let w := r.words.getD 0 0
    let put (n : Nat) (v : Option Nat) : Option Row := v.map fun v => { r with words := r.words.set 0 (putBits w 0 n v) }
    let far (t : Nat) : Int := (placeOf rows t : Int) - i
    let len (l : Nat) : Option Row :=
      let v := placeOf rows (b + 1 + l) - i - 1
      put 10 (if v ≤ 1023 then some v else none)
    match slot0Of r.bundle with
    | some (.br _ off) | some (.call _ off) => put 22 (offField 22 (far (offTarget b off.toInt)))
    | some (.brf _ _ off) => put 18 (offField 18 (far (offTarget b off.toInt)))
    | some (.loop _ _ l) | some (.loops _ _ l) | some (.loopp _ _ _ l) => len l.toNat
    | _ => some r

/-- Every row with its branch and loop fields as they stand now, or the first bundle whose field does not fit. -/
def fixRows (rows : List Row) : Except Nat (List Row) :=
  (List.range rows.length).foldr (fun i acc =>
    let r := rows.getD i nopRow
    match fixRow rows i r, acc with
    | some r, .ok l => .ok (r :: l)
    | some _, .error b => .error b
    | none, _ => .error (r.home.getD 0)) (.ok [])

/-- A relocation entry follows its word. -/
def fixRel (rows : List Row) (e : Nat) : Nat :=
  let id := wordId (bits e 0 22) (bits e 22 2)
  match rows.findIdx? fun r => r.ids.contains (some id) with
  | some i => putBits e 0 22 i
  | none => e

/-- Bytes put over others of a list. -/
def putAt (l : List Byte) (off : Nat) (bs : List Byte) : List Byte := l.take off ++ bs ++ l.drop (off + bs.length)

/-- The object with the rows: what stands behind its bundles moves up by what has been inserted; of the rest only what depends on positions
changes, PROFILE, CFLAGS, NBUND and HASH. -/
def rebuild (o : List Byte) (rows : List Row) : List Byte :=
  let stop := objCodeOff o + 16 * objNbund o
  let more := 16 * rows.length - 16 * objNbund o
  let up (x : Nat) : Nat := if stop ≤ x then x + more else x
  let move (e : Nat) : Nat := putBits e 0 22 (placeOf rows (bits e 0 22))
  let tables : List (Nat × List Nat) := [(0x10, (objSafe o).map move), (0x18, objLive o), (0x20, (objRel o).map (fixRel rows)),
    (0x28, (objTgt o).map move)]
  let q := o.take (objCodeOff o) ++ (rows.flatMap fun r => r.words.flatMap (bytesOf 4)) ++ o.drop stop
  let q := tables.foldl (fun q t => putAt (putAt q (up (objNum o t.1 4)) (t.2.flatMap (bytesOf 8))) t.1 (bytesOf 4 (up (objNum o t.1 4)))) q
  let q := objUnhashed (putAt q 6 ([6, 2] ++ bytesOf 4 rows.length))
  putAt q 0x40 (bytesOf 48 (sha384 q).toNat)

/-- Whether an instruction reads a read port. -/
def Instr.readsPort (i : Instr) : Bool := i.vSrcs.any fun v => match v with
  | .p _ _ => true
  | _ => false

/-- The rewriter (R338): the object rescheduled to profile 6, or the first bundle that it could not place. -/
def rewriteObject (o : List Byte) : Except Nat (List Byte) :=
  let rows := rowsOf o
  match rows.findIdx? fun r => r.instrs.any fun x => Instr.readsPort x.2 with
  | some b => .error b
  | none =>
    let loads := rows.flatMap fun r => (r.instrs.filter fun x => x.2.isLocal).map fun x => r.id x.1
    match loads.foldl (treatLoad (compareOf o)) (.ok (rows, [])) with
    | .error b => .error b
    | .ok (rows, _) => match fixRows rows with
      | .error b => .error b
      | .ok rows => .ok (rebuild o rows)

end Sys2Proof.Machine
end

