-- ==== Sys2Proof/Machine/Loader.lean ====
section
/-! DEFINITION. Code objects (03_host_interface.md R43-R45, R353; 04 R57, R58; 17 R337-R339): the checks of Table 3-9, rebinding,
and placement. -/

namespace Sys2Proof.Machine

/-! ## Check 01h -/

/-- A safe-point entry (03 R353; 14 R333). A TEXIT names no list (14 R331): LIVE 0 of its entry is accepted in an object without lists, as
the loader accepts kvreorder and kvsuper (16_program_kv_cache_reorder.md; DEDUCED, log entry 80). -/
def safeOk (nbund liven e : Nat) : Bool :=
  decide (bits e 0 22 < nbund) && (decide (bits e 22 12 < liven) || (bits e 34 2 == 3 && bits e 22 12 == 0)) && bits e 36 28 == 0
/-- A relocation entry (04 Table 4-3). -/
def relOk (nbund e : Nat) : Bool :=
  decide (bits e 0 22 < nbund) && decide (bits e 34 3 ≤ 3) && decide (1 ≤ bits e 29 5 ∧ bits e 29 5 ≤ 22)
    && decide (bits e 24 5 + bits e 29 5 ≤ 32) && bits e 37 27 == 0

/-- Whether a table lies inside the object. -/
def tableIn (o : List Byte) (h : Nat) : Bool := decide (objNum o h 4 + 8 * objNum o (h + 4) 4 ≤ o.length)

/-- Check 01h. An object of more live-state lists than `.live` can define (14 R333) is refused too (DESIGN CHOICE, log entry 85). -/
def check01 (o : List Byte) : Bool :=
  decide (128 ≤ o.length) && objNum o 0 4 == 0x524D554E && objNum o 4 2 == 3
    && decide (1 ≤ objNcore o ∧ objNcore o ≤ 512) && bits (objFlags o) 2 6 == 0
    && objNum o 0x32 14 == 0 && objNum o 0x70 16 == 0
    && decide (1 ≤ objNbund o ∧ objNbund o ≤ 4194304) && objCodeOff o % 16 == 0
    && decide (objCodeOff o + 16 * objNbund o ≤ o.length)
    && tableIn o 0x10 && tableIn o 0x18 && tableIn o 0x20 && tableIn o 0x28
    && (objSafe o).all (safeOk (objNbund o) (objLive o).length)
    && (objLive o).all (fun e => decide (e < 2 ^ 61)) && (objLive o).length ≤ 4096
    && (objRel o).all (relOk (objNbund o)) && (objTgt o).all (fun e => decide (e < 2 ^ 22))
    && sha384 (objUnhashed o) == objHash o

/-! ## Check 03h -/

/-- Whether a bundle decodes. -/
def bundleLegal : Bundle → Bool
  | .slots _ => true
  | .illegal _ _ _ _ => false

/-- The bundles that the direct branch, CALL or loop of bundle i names (11 R243, R247). -/
def directTargets (i : Nat) : Option Instr → List Nat
  | some (.br _ off) => [offTarget i off.toInt]
  | some (.brf _ _ off) => [offTarget i off.toInt]
  | some (.call _ off) => [offTarget i off.toInt]
  | some (.loop _ _ len) => [i + 1 + len.toNat]
  | some (.loops _ _ len) => [i + 1 + len.toNat]
  | some (.loopp _ _ _ len) => [i + 1 + len.toNat]
  | _ => []

/-- Check 03h (Table 3-9; 10 R221) of a bundle: it decodes, its LIVE lies below LIVEN, and every direct target lies inside the object. -/
def check03At (o : List Byte) (i : Nat) : Bool :=
  bundleLegal (boundLive (objLive o).length (objBundle o i)) && (directTargets i (slot0Of (objBundle o i))).all fun t => decide (t < objNbund o)

/-- The first bundle that fails check 03h. -/
def fails03 (o : List Byte) : Option Nat := (List.range (objNbund o)).find? fun i => !check03At o i

/-! ## Checks 04h and 05h -/

/-- How many more times a loop body runs, as far as a path knows: exactly n, at most n, or any number. -/
inductive Trips where
  | exact (n : Nat)
  | upTo (n : Nat)
  | any
deriving DecidableEq, Repr

/-- A loop level of a path: first bundle, last bundle, trips. -/
structure PathLevel where
  start : Nat
  stop  : Nat
  trips : Trips
deriving DecidableEq, Repr

/-- A point of a path: the bundle that runs next, the active levels, innermost first, the bundle that S31 holds, if the path knows, and
the bundles after the calls that have not returned. -/
structure PathPoint where
  pc    : Nat
  loops : List PathLevel
  link  : Option Nat
  calls : List Nat
deriving DecidableEq, Repr

/-- After a point's bundle without a taken branch (11 R248). -/
def PathPoint.after (x : PathPoint) : List PathPoint :=
  match x.loops with
  | [] => [{ x with pc := x.pc + 1 }]
  | l :: r =>
    let out : PathPoint := { x with pc := x.pc + 1, loops := r }
    let again (t : Trips) : PathPoint := { x with pc := l.start, loops := { l with trips := t } :: r }
    if l.stop ≠ x.pc then [{ x with pc := x.pc + 1 }]
    else match l.trips with
      | .exact n => if 1 < n then [again (.exact (n - 1))] else [out]
      | .upTo n => out :: (if 1 < n then [again (.upTo (n - 1))] else [])
      | .any => [out, again .any]

/-- A call from a point. -/
def PathPoint.call (x : PathPoint) (t : Nat) : PathPoint := { x with pc := t, link := some (x.pc + 1), calls := (x.pc + 1) :: x.calls }

/-- A RET from a point: to the bundle that S31 holds; where the path does not know it, to the caller, S31 having been restored; a path that
began within the procedure may return to each of its callers. -/
def PathPoint.ret (x : PathPoint) (callers : Nat → List Nat) : List PathPoint :=
  let go (t : Nat) (r : List Nat) : PathPoint := { x with pc := t, link := some t, calls := r }
  match x.link, x.calls with
  | some t, c :: r => [go t (if c = t then r else c :: r)]
  | some t, [] => [go t []]
  | none, c :: r => [go c r]
  | none, [] => (callers x.pc).map fun t => go t []

/-- What a control instruction does on a path: its predicate with the points it leads to, or the end of the path. -/
inductive PathStep where
  | plain
  | moves (p : FReg) (l : List PathPoint)
  | safe (p : FReg)
deriving DecidableEq, Repr

/-- Enter a loop from a point (11 R246). -/
def PathPoint.enter (x : PathPoint) (len : Nat) (t : Trips) : PathPoint :=
  { x with pc := x.pc + 1, loops := (⟨x.pc + 1, x.pc + 1 + len, t⟩ :: x.loops).take 4 }

/-- The step of a point's bundle (03 check 04h; 11 R243-R251). -/
def pathStep (tgts : List Nat) (callers : Nat → List Nat) (x : PathPoint) : Option Instr → PathStep
  | some (.br p off) => .moves p [{ x with pc := offTarget x.pc off.toInt }]
  | some (.brf p _ off) => .moves p ({ x with pc := offTarget x.pc off.toInt } :: x.after)
  | some (.jr p _) => .moves p (tgts.map fun t => { x with pc := t })
  | some (.callr p _) => .moves p (tgts.map x.call)
  | some (.call p off) => .moves p [x.call (offTarget x.pc off.toInt)]
  | some (.ret p) => .moves p (x.ret callers)
  | some (.loop p n len) => .moves p [x.enter len.toNat (.exact (n.toNat + 1))]
  | some (.loops p _ len) => .moves p [x.enter len.toNat .any, { x with pc := x.pc + len.toNat + 2 }]
  | some (.loopp p _ _ len) => .moves p [x.enter len.toNat .any, { x with pc := x.pc + len.toNat + 2 }]
  | some (.lbrk p) => match x.loops with
    | [] => .plain
    | l :: r => .moves p [{ x with pc := l.stop + 1, loops := r }]
  | some (.safept p _) => .safe p
  | some (.tsusp p _) => .safe p
  | some (.texit p) => .safe p
  | _ => .plain

/-- Whether a bundle writes S31 otherwise than by a call: then the path no longer knows what S31 holds. -/
def writesLink : Bundle → Bool
  | .slots is => is.any fun x => x.2.dests.contains (.s 31) && (match x.2 with
      | .call _ _ | .callr _ _ => false
      | _ => true)
  | .illegal _ _ _ _ => false

/-- The points that follow a point, up to a safe point. A safe point or branch under a predicate may not run. A path that leaves
the object ends in a trap. -/
def pathNext (code : List Bundle) (tgts : List Nat) (callers : Nat → List Nat) (x : PathPoint) : List PathPoint :=
  match code[x.pc]? with
  | none => []
  | some b =>
    let on (y : PathPoint) : PathPoint := if writesLink b then { y with link := none } else y
    (match pathStep tgts callers x (slot0Of b) with
    | .plain => x.after
    | .moves p l => if p = 0 then l else l ++ x.after
    | .safe p => if p = 0 then [] else x.after).map on

/-- A list without its repetitions. -/
def dedup {α : Type} [BEq α] (l : List α) : List α := l.foldl (fun acc x => if acc.contains x then acc else x :: acc) []

/-- Whether every path from these points ends before the fuel is used up: each round takes all of them one bundle on. -/
def pathsEnd (code : List Bundle) (tgts : List Nat) (callers : Nat → List Nat) : Nat → List PathPoint → Bool
  | _, [] => true
  | 0, _ :: _ => false
  | n + 1, l => pathsEnd code tgts callers n (dedup (l.flatMap (pathNext code tgts callers)))

/-- The bundles that follow a bundle within its procedure, in which a call leads to the bundle after it. -/
def bodyNext (code : List Bundle) (tgts : List Nat) (i : Nat) : List Nat :=
  match (code[i]?).bind slot0Of with
  | some (.br p off) => offTarget i off.toInt :: if p = 0 then [] else [i + 1]
  | some (.brf _ _ off) => [offTarget i off.toInt, i + 1]
  | some (.jr p _) => tgts ++ if p = 0 then [] else [i + 1]
  | some (.ret p) => if p = 0 then [] else [i + 1]
  | some (.loops _ _ len) => [i + 1, i + len.toNat + 2]
  | some (.loopp _ _ _ len) => [i + 1, i + len.toNat + 2]
  | _ => if i < code.length then [i + 1] else []

/-- The bundles of a procedure, from those found so far on; the fuel is the number of bundles. -/
def bodyFrom (code : List Bundle) (tgts : List Nat) : Nat → List Nat → List Nat → List Nat
  | 0, seen, _ => seen
  | _ + 1, seen, [] => seen
  | n + 1, seen, new =>
    let next := (dedup (new.flatMap (bodyNext code tgts))).filter fun i => !seen.contains i
    bodyFrom code tgts n (seen ++ next) next

/-- The calls of an object: the bundle after each, and the bundles of the procedures that it may call. -/
def objCalls (code : List Bundle) (tgts : List Nat) : List (Nat × List Nat) :=
  (List.range code.length).filterMap fun i =>
    let body (es : List Nat) : Nat × List Nat := (i + 1, bodyFrom code tgts code.length (dedup es) (dedup es))
    match (code[i]?).bind slot0Of with
    | some (.call _ off) => some (body [offTarget i off.toInt])
    | some (.callr _ _) => some (body tgts)
    | _ => none

/-- The bundles after the calls of the procedures that a bundle belongs to. -/
def callersOf (calls : List (Nat × List Nat)) (i : Nat) : List Nat := (calls.filter fun c => c.2.contains i).map (·.1)

/-- The loop levels that enclose a bundle by position, innermost first. -/
def levelsAt (code : List Bundle) (i : Nat) : List PathLevel :=
  (((List.range i).reverse).filterMap fun j =>
    let lev (len : Nat) (t : Trips) : Option PathLevel := if i ≤ j + 1 + len then some ⟨j + 1, j + 1 + len, t⟩ else none
    match (code[j]?).bind slot0Of with
    | some (.loop _ n len) => lev len.toNat (.upTo (n.toNat + 1))
    | some (.loops _ _ len) => lev len.toNat .any
    | some (.loopp _ _ _ len) => lev len.toNat .any
    | _ => none).take 4

/-- Where paths start: every bundle, since a record or launch may name any as its task's entry, and every point after a safe point that a
task may pass; of a RET that no call of the path explains see log entry 25 (DEDUCED). -/
def pathStarts (code : List Bundle) : List PathPoint :=
  (List.range code.length).flatMap fun i => ⟨i, [], none, []⟩ :: match (code[i]?).bind slot0Of with
    | some (.safept _ _) | some (.tsusp _ _) => (⟨i, levelsAt code i, none, []⟩ : PathPoint).after
    | _ => []

/-- The bundles of an object. -/
def objCode (o : List Byte) : List Bundle := (List.range (objNbund o)).map (objBundle o)

/-- Check 04h: at most 16,384 bundles run between safe points (05 R99). The bundle at which the first path that runs longer starts. -/
def fails04 (o : List Byte) : Option Nat :=
  let code := objCode o
  let callers := callersOf (objCalls code (objTgt o))
  ((pathStarts code).find? fun x => !pathsEnd code (objTgt o) callers 16385 [x]).map (·.pc)

/-- Check 05h: the first indirect branch where the target list is empty. -/
def uncovered (o : List Byte) : Option Nat :=
  if !(objTgt o).isEmpty then none
  else (List.range (objNbund o)).find? fun i => match (slot0Of (objBundle o i)) with
    | some (.jr _ _) | some (.callr _ _) => true
    | _ => false

/-! ## Rebinding (04 R57) and check 06h -/

/-- The dies of a VD, rising. -/
def Vd.dies (d : Vd) : List Nat := (List.range 4).filter fun k => d.onDie k

/-- The physical value of a logical one; none beyond the partition, or where it does not fit. -/
def relocValue (d : Vd) (kind wid j : Nat) : Option Nat :=
  let v : Option Nat := match kind with
    | 0 => d.globalCore j
    | 1 => d.clusters[j]?
    | 2 => d.dies[j]?
    | _ => if wid = 5 ∨ wid = 7 then d.clusters[j]?.map fun m =>
          let c := m % 32
          c % 8 + c / 8 * 8 + (if wid = 7 then m / 32 % 2 * 32 + m / 64 * 64 else 0)
        else none
  v.bind fun x => if x < 2 ^ wid then some x else none

/-- Bytes with n of them replaced from offset o. -/
def patchBytes (bs : List Byte) (o n v : Nat) : List Byte := bs.take o ++ bytesOf n v ++ bs.drop (o + n)

/-- Apply one relocation entry. -/
def rebindOne (d : Vd) (e : Nat) (o : List Byte) : Option (List Byte) :=
  let at' := objCodeOff o + 16 * bits e 0 22 + 4 * bits e 22 2
  let w := objNum o at' 4
  (relocValue d (bits e 34 3) (bits e 29 5) (bits w (bits e 24 5) (bits e 29 5))).map fun v =>
    patchBytes o at' 4 (putBits w (bits e 24 5) (bits e 29 5) v)

/-- The object rebound to a VD's partition (R57), or the bundle of the first entry that cannot be patched (check 06h). -/
def rebind (d : Vd) (o : List Byte) : Except Nat (List Byte) :=
  (objRel o).foldl (fun acc e => match acc with
    | .error b => .error b
    | .ok o => match rebindOne d e o with
      | some o => .ok o
      | none => .error (bits e 0 22)) (.ok o)

/-! ## The checks in order, and placement (R44, R45) -/

/-- A failed check as the loader reports it (R44): its code, and the bundle index where one applies (log entry 72). -/
structure Rejection where
  code   : Nat
  bundle : Option Nat
deriving DecidableEq, Repr

/-- The object that is placed, before rebinding: for a profile-4 object without COMPAT the rewriter's, if the driver's is equal to it byte
for byte (R338, R339). -/
def placedObject (o : List Byte) (driver : Option (List Byte)) : Except Rejection (List Byte) :=
  if objProfile o = 6 then .ok o
  else if objCompat o then .ok o
  else if objProfile o = 4 then
    match rewriteObject o with
    | .error b => .error ⟨2, some b⟩
    | .ok q => if driver = some q then .ok q else .error ⟨2, none⟩
  else .error ⟨2, none⟩

/-- The first failing check, in the order 01h, 03h, 02h, 04h, 05h, 06h; or the object to be placed with its rebound bytes. `driver` is the
driver's rewritten object. -/
def loaderCheck (d : Vd) (o : List Byte) (driver : Option (List Byte)) : Except Rejection (List Byte × List Byte) :=
  if !check01 o then .error ⟨1, none⟩
  else match fails03 o with
    | some b => .error ⟨3, some b⟩
    | none => match placedObject o driver with
      | .error e => .error e
      | .ok q => match fails04 q with
        | some b => .error ⟨4, some b⟩
        | none => match uncovered q with
          | some b => .error ⟨5, some b⟩
          | none =>
            if (objTgt q).any fun t => decide (objNbund q ≤ t) then .error ⟨5, none⟩
            else if d.ncore < objNcore q then .error ⟨6, none⟩
            else match rebind d q with
              | .error b => .error ⟨6, some b⟩
              | .ok b => .ok (q, b)

/-- The physical address of the page-table entry that maps an address, with the bytes its page covers. -/
def State.leafEntry (s : State) (d : Vd) (va : Nat) : Option (Nat × Nat) :=
  match d.tableBase with
  | none => none
  | some tb =>
    let o := va - hbmBase
    let e1 := s.pte (tb + 8 * bits o 30 11)
    if !pteOk d 1 e1 then none
    else
      let a2 := pteBase d e1 + 8 * bits o 21 9
      let e2 := s.pte a2
      if !pteOk d 2 e2 then none
      else if bits e2 1 1 = 1 then some (a2, frameSize)
      else
        let a3 := pteBase d e2 + 8 * bits o 16 5
        if pteOk d 3 (s.pte a3) then some (a3, 65536) else none

/-- Whether every page of a range is mapped by the VD's page tables, with frames it owns. -/
def State.pagesMapped (s : State) (v : Nat) (d : Vd) (va n : Nat) : Bool :=
  decide (hbmBase + frameSize ≤ va) && decide (va + n ≤ hbmTop)
    && (List.range ((va + n + 65535) / 65536 - va / 65536)).all fun i =>
      let a := (va / 65536 + i) * 65536
      (d.winAt a).isNone && (match s.walk v d a .rd with
        | .ok _ => true
        | .error _ => false)

/-- Map the pages of a range executable and read-only (R45): W := 0, X := 1. -/
def State.makeCode (s : State) (d : Vd) (va n : Nat) : State :=
  (List.range ((va + n + 65535) / 65536 - va / 65536)).foldl (fun s i =>
    match s.leafEntry d ((va / 65536 + i) * 65536) with
    | some (a, _) => s.write a (bytesOf 8 (putBits (putBits (s.pte a) 2 1 0) 3 1 1))
    | none => s) s

/-- The TLB entries of a VD's cores that cover a range go. -/
def State.dropTlbs (s : State) (d : Vd) (va n : Nat) : State :=
  d.cores.foldl (fun s k => s.updCore k fun c => { c with tlb := c.tlb.filter fun e =>
    !(decide (e.va < va + n) && decide (va < e.va + (if e.big then frameSize else 65536))) }) s

/-- A handle value root firmware chooses (R45): any that is not 0 and names no object of the VD. -/
def Vd.pickCode (d : Vd) (draw : Nat) : BitVec 32 :=
  let h := Config.handleValue draw
  if h != 0 && (d.code? h).isNone then h
  else match (List.range (d.codes.length + 1)).find? fun i => (d.code? (BitVec.ofNat 32 (i + 1))).isNone with
    | some i => BitVec.ofNat 32 (i + 1)
    | none => 1

/-- MEAS2 extended with a hash (R50). -/
def measExtend (m h : BitVec 384) : BitVec 384 := sha384 (bytesOf 48 m.toNat ++ bytesOf 48 h.toNat)

/-- An object that has passed the checks is placed at a virtual address of the VD (R45, R339): its handle. A rewritten object, with two
hashes in MEAS2, counts as two code objects measured (DESIGN CHOICE, log entry 73). -/
def State.placeCode (s : State) (v : Nat) (d : Vd) (va : Nat) (o q b : List Byte) : State × BitVec 32 :=
  let h := d.pickCode s.fresh
  let x : CodeObj :=
    ⟨h, va, objNbund q, objCodeOff q, objCompat q, (objLive q).map (BitVec.ofNat 64), objTgt q, (objRel q).map (BitVec.ofNat 64),
     objNcore q, q⟩
  let m := measExtend d.meas2 (objHash o)
  let (m, n) := if q = o then (m, 1) else (measExtend m (objHash q), 2)
  let s := s.draw.writeVd v va b
  let s := (s.makeCode d va b.length).dropTlbs d va b.length
  (s.updVd v fun d => { d with codes := d.codes ++ [x], meas2 := m, measured := d.measured + n }, h)

end Sys2Proof.Machine
end

