-- ==== Sys2Proof/Machine/Vds.lean ====
section
/-! DEFINITION. Root and service firmware: the mailbox (03 R49), the lifecycle of a VD (04 R52, R53, R59, R65, R76-R81; 09 R192,
R199, R201), shared windows (04 R71-R75), handles (06 R122, 19 R342), placement of code, attestation and telemetry (03 R45,
R50, R51). -/

namespace Sys2Proof.Machine

/-! ## The mailbox -/

/-- Replace bytes of a buffer, which reads as zero beyond its end. -/
def patchBuf (buf : List Byte) (o : Nat) (bs : List Byte) : List Byte :=
  (List.range (Max.max buf.length (o + bs.length))).map fun i =>
    if o ≤ i ∧ i < o + bs.length then bs.getD (i - o) 0 else buf.getD i 0

/-- Change the mailbox of a link. -/
def State.updBox (s : State) (link : Fin 2) (f : Mailbox → Mailbox) : State :=
  { s with pkg := { s.pkg with boxes := s.pkg.boxes.set link (f s.pkg.boxes[link]) } }

/-- COMMAND of a mailbox. -/
def Mailbox.command (b : Mailbox) : Nat := fieldAt b.buf 0 2
/-- LENGTH of a mailbox. -/
def Mailbox.len (b : Mailbox) : Nat := fieldAt b.buf 2 2

/-- Whether a command of Table 3-11 stands in a mailbox; 0020h selects by byte 8, and a byte 8 that selects none is an unknown command whatever
LENGTH says (DESIGN CHOICE, log entry 74). -/
def Mailbox.known (b : Mailbox) : Bool :=
  let c := b.command
  (decide (1 ≤ c) && decide (c ≤ 6)) || c == 0x10 || c == 0x11 || (c == 0x20 && decide (fieldAt b.buf 8 1 ≤ 2)) || c == 0x30
    || c == 0x40 || c == 0x50

/-- An MSI-X message of a physical function (01 R13): a masked vector becomes pending instead. An entry that the host has not written is at
its reset value: address 0, data 0, masked (log entry 40). -/
def State.pfMessage (s : State) (link : Fin 2) (vec : Nat) : State :=
  let n := 2048 * link.val + vec
  let e := (lookup n s.pkg.pfMsix).getD ⟨0, 0, 1⟩
  if e.ctl.getLsbD 0 then { s with pkg := { s.pkg with pfPba := insertNat n s.pkg.pfPba } }
  else s.send (.msix (.pf link) vec e.addr e.data)

/-- The host writes an entry of a physical function's MSI-X table: a pending vector that is no longer masked is sent. -/
def State.setPfVector (s : State) (link : Fin 2) (vec : Nat) (e : MsixEntry) : State :=
  if vec < 2048 then
    let n := 2048 * link.val + vec
    let s : State := { s with pkg := { s.pkg with pfMsix := put n e s.pkg.pfMsix } }
    if s.pkg.pfPba.contains n && !e.ctl.getLsbD 0 then
      ({ s with pkg := { s.pkg with pfPba := s.pkg.pfPba.filter (· != n) } } : State).pfMessage link vec
    else s
  else s

/-- A request completes: STATUS, BUSY cleared, PF MSI-X vector 0. -/
def State.finishBox (s : State) (link : Fin 2) (status : Nat) : State :=
  let s := s.updBox link fun b => { b with busy := false, status := BitVec.ofNat 8 status }
  ({ s with pkg := { s.pkg with waiting := s.pkg.waiting.filter (· != link) } } : State).pfMessage link 0

/-- Requests of unknown commands at the head of the queue complete with STATUS 01h; the fuel is the number of links. -/
def State.pumpFuel : Nat → State → State
  | 0, s => s
  | n + 1, s =>
    match s.pkg.waiting with
    | [] => s
    | k :: _ => if (s.pkg.boxes[k]).known then s else State.pumpFuel n (s.finishBox k 1)

/-- Complete a request; the next one gets its turn (03 R36). -/
def State.complete (s : State) (link : Fin 2) (status : Nat) : State := State.pumpFuel 2 (s.finishBox link status)

/-- Complete with STATUS 00h and response bytes at an offset of MBBUF. -/
def State.answer (s : State) (link : Fin 2) (o : Nat) (bs : List Byte) : State :=
  (s.updBox link fun b => { b with buf := patchBuf b.buf o bs }).complete link 0

/-- Whether root firmware runs a lifecycle or window request (04 R76). -/
def State.lifeBusy (s : State) : Bool := s.winOp.isSome || s.vds.any fun p => p.2.life.isSome

/-- The request of a link whose turn it is, if it is this command. -/
def State.request (s : State) (link : Fin 2) (cmd : Nat) : Option Mailbox :=
  let b := s.pkg.boxes[link]
  if s.pkg.bring.ready && !s.lifeBusy && s.pkg.waiting.head? == some link && b.busy && b.command == cmd then some b else none

/-- Serve a request of a fixed LENGTH; none refuses it with STATUS 03h. -/
def State.serve (s : State) (link : Fin 2) (cmd : Nat) (len : List Byte → Nat) (f : List Byte → Option State) : Out :=
  match s.request link cmd with
  | none => .fault .noSuchEvent
  | some b =>
    if b.len ≠ len b.buf then .next (s.complete link 2)
    else match f b.buf with
      | some s' => .next s'
      | none => .next (s.complete link 3)

/-- A class 6 event of a VD (Table 4-9, R73, R75). -/
def State.lifeEvent (s : State) (v code : Nat) : State := s.raiseEvent v 6 (BitVec.ofNat 8 code) []

/-! ## Frames, memory and scrubs -/

/-- A range of physical memory starts again: contents, poison, counters (R65). -/
def State.wipe (s : State) (pa n : Nat) : State :=
  ({ s with
    mem := s.mem.erase pa n
    poison := s.poison.filter fun b => !(decide (pa ≤ b * 64) && decide (b * 64 < pa + n))
    torn := s.torn.filter fun x => !inRange pa n (16 * x.blk)
    mpe := s.mpe.forget pa n } : State).supersede pa n

/-- The lowest n free frames of a die from a frame on; the fuel is the number of frames left. -/
def freeFuel (owners : List (Nat × Owner)) (die : Nat) : Nat → Nat → Nat → List Nat
  | 0, _, _ => []
  | fuel + 1, f, n =>
    if n = 0 then []
    else if (lookup (die * dieFrames + f) owners).isNone then f :: freeFuel owners die fuel (f + 1) (n - 1)
    else freeFuel owners die fuel (f + 1) n

/-- The lowest n free frames of a die, or fewer. -/
def State.freeFrames (s : State) (die n : Nat) : List Nat := freeFuel s.owners die dieFrames 0 n

/-- A core as a scrub leaves it (R59). -/
def State.resetCore (s : State) (k : Nat) : State :=
  if k = s.cur then { s with c := Core.reset } else { s with others := del k s.others }

/-- Scrub a cluster (R59). -/
def State.scrub (s : State) (m : Nat) : State :=
  let ks := [4 * m, 4 * m + 1, 4 * m + 2, 4 * m + 3]
  let s := ks.foldl (fun s k => ((s.resetCore k).wipe (sliceBase k) sliceSize)) s
  let s := s.wipe (cbsBase m) 0xC0000
  { s with clusters := del m s.clusters, arrivals := s.arrivals.filter fun a => clusterOf a.1 != m }

/-- New keys for a domain (R60). -/
def State.newKeys (s : State) (domain : Nat) : State :=
  { s with mpe := { s.mpe with keyGen := put domain (countAt domain s.mpe.keyGen + 1) s.mpe.keyGen } }

/-- A domain's root registers are set to zero on every die, and none of its subtrees counts as failed any more (R65, R70, R75, R80). -/
def State.zeroRoots (s : State) (domain : Nat) : State :=
  { s with mpe := s.mpe.zeroRoots domain, failed := s.failed.filter fun k => k.domain != domain }

/-! ## VD_CREATE (R53) -/

/-- The clusters of a mask, rising. -/
def clustersOf (x : Nat) : List Nat := (List.range 128).filter fun m => bits x m 1 == 1

/-- Counters of a die that VDs hold. -/
def State.ctrsUsed (s : State) (die : Fin 4) : Nat := s.vds.foldl (fun n p => n + p.2.ctrsN[die]) 0

/-- The free frames a request asks for, die by die; none where a die lacks them. -/
def State.askFrames (s : State) (counts : Nat → Nat) : Option (List (Nat × List Nat)) :=
  let l := (List.range 4).map fun die => (die, if s.degraded die then [] else s.freeFrames die (counts die))
  if l.all fun p => p.2.length == counts p.1 then some l else none

/-- The VD bound to a VF. -/
def State.vdOfVf (s : State) (link : Fin 2) (vf : Fin 64) : Option Nat :=
  (s.vds.find? fun p => p.2.link == link && p.2.vf == vf).map (·.1)

/-- A VD as created, with nothing running: the frames of each die take the places of its tree in order (R65). Its creation record is the
58h bytes of the request, the COMMAND word included (DESIGN CHOICE, log entry 73). -/
def Vd.fresh (b : List Byte) (clusters : List Nat) (slots : List ((Nat × Nat) × (Nat × Nat))) : Vd :=
  let m := sha384 (sliceBytes b 0 0x58)
  let home := clusters.headD 0 / 32
  { maxprio := fieldAt b 9 1
    weight := fieldAt b 0xA 1
    link := Fin.ofNat 2 (fieldAt b 0xC 2 / 32768)
    vf := Fin.ofNat 64 (fieldAt b 0xC 2)
    clusters := clusters
    framesN := Vector.ofFn fun k => fieldAt b (0x20 + 4 * k.val) 4
    ctrsN := Vector.ofFn fun k => fieldAt b (0x30 + 2 * k.val) 2
    quota := fieldAt b 0x38 4
    pedbase := BitVec.ofNat 64 (fieldAt b 0x40 8)
    pedn := fieldAt b 0x48 4
    qosns := fieldAt b 0x4C 4
    qosp := fieldAt b 0x50 1
    state := .running
    gen := 0
    life := none
    regs := VdRegs.reset
    tableDie := Fin.ofNat 4 home
    slots := slots
    pos := slots.map fun p => (p.2, p.1.2)
    posNext := Vector.ofFn fun k => fieldAt b (0x20 + 4 * k.val) 4
    winmap := []
    handles := []
    codes := []
    ctrs := []
    ready := []
    ovf := []
    cursors := []
    nextCur := 0
    hold := []
    pend := []
    seq := 0
    lostRun := 0
    due7 := false
    msix := []
    msgs := []
    msixAt := none
    hist := []
    meas2 := m
    meas2c := m
    measured := 0
    tasks := [] }

/-- VD_CREATE: none where it is refused. -/
def State.createVd (s : State) (link : Fin 2) (b : List Byte) : Option State :=
  let v := fieldAt b 8 1
  let vfn := fieldAt b 0xC 2
  let cl := clustersOf (fieldAt b 0x10 16)
  let fr (die : Nat) : Nat := fieldAt b (0x20 + 4 * die) 4
  let bad := decide (64 ≤ v) || (s.vd? v).isSome || (s.vdOfVf (Fin.ofNat 2 (vfn / 32768)) (Fin.ofNat 64 vfn)).isSome
    || cl.any (fun m => (s.ownerOfCluster m).isSome)
    || (List.finRange 4).any (fun (k : Fin 4) => decide (16384 < s.ctrsUsed k + fieldAt b (0x30 + 2 * k.val) 2))
    || fieldAt b 0x40 8 % 64 != 0 || decide (3 < fieldAt b 9 1) || fieldAt b 0xA 1 == 0 || fieldAt b 0x48 4 == 0
    || decide (65536 < fieldAt b 0x48 4) || decide (3 < fieldAt b 0x50 1) || bits vfn 6 9 != 0 || cl.isEmpty
    || fr (cl.headD 0 / 32) == 0
    || fieldAt b 0xB 1 != 0 || fieldAt b 0xE 2 != 0 || fieldAt b 0x3C 4 != 0 || fieldAt b 0x51 7 != 0
    || (List.range 4).any (fun die => s.degraded die && fr die != 0)
  if bad then none
  else (s.askFrames fr).map fun l =>
    let fs := l.flatMap fun p => p.2.map fun f => (p.1, f)
    let slots := l.flatMap fun p => (List.range p.2.length).map fun i => ((p.1, i), (p.1, p.2.getD i 0))
    let s := fs.foldl (fun (s : State) p =>
      ({ s with owners := put (p.1 * dieFrames + p.2) (Owner.vd v) s.owners } : State).wipe (frameBase p.1 p.2) frameSize) s
    let s := ((cl.foldl State.scrub s).newKeys v).zeroRoots v
    let s : State := { s with vds := put v (Vd.fresh b cl slots) s.vds }
    s.answer link 8 (bytesOf 1 v ++ [b.getD 9 0] ++ bytesOf 2 0)

def execVdCreate (link : Fin 2) (s : State) : Out := s.serve link 1 (fun _ => 0x58) (s.createVd link)

/-! ## Stopping a VD (R77, R80; 09 R192) -/

/-- Order the urgent stop of every core of a VD that runs a task and has no such order yet. -/
def State.stopAll (s : State) (d : Vd) (why : StopReq) : State :=
  d.cores.foldl (fun s k =>
    let c := s.coreAt k
    let leaving : Bool := match c.wait with
      | some (.leave _) => true
      | _ => false
    if c.task.isSome && c.stop != some why && (why == .reset || !leaving) then s.stopCore k why else s) s

/-- Everything the cores of a VD have under way is performed, as far as it can be. -/
def State.drainAll (s : State) (d : Vd) : State := d.cores.foldl (fun s k => s.drain k fun _ => false) s

/-- The fills of a VD's clusters end. -/
def State.endFills (s : State) (d : Vd) : State :=
  d.clusters.foldl (fun s m => (s.clusterAt m).fills.foldl (fun s f => s.endFill m f ((s.clusterAt m).fills.erase f)) s) s

/-- Cores that have drained leave. -/
def State.leaveDrained (s : State) (d : Vd) : State :=
  d.cores.foldl (fun s k => match (s.coreAt k).wait with
    | some (.leave (.urgent u)) => if s.leaveReady k (.urgent u) then s.finishUrgent k u else s
    | _ => s) s

/-- A contribution that waits in its switch, which is no access of the MPE. -/
def Req.isSent (r : Req) : Bool :=
  match r.op with
  | .redWin _ _ _ _ true => true
  | _ => false

/-- Whether a VD runs no task and none of its accesses is outstanding (R77). -/
def State.vdQuiet (s : State) (d : Vd) : Bool :=
  (d.cores.all fun k => let c := s.coreAt k; c.task.isNone && c.chans.isEmpty && c.lsu.all Req.isSent)
    && d.clusters.all fun m => (s.clusterAt m).cmds.isEmpty && (s.clusterAt m).fills.isEmpty

/-- The reason with which a lifecycle request stops cores. -/
def LifeReq.why : LifeReq → StopReq
  | .reset _ _ | .destroy _ | .leaving _ => .reset
  | _ => .pause

/-! ## Accumulators (09 R199) -/

/-- A tile's 4,096 bytes. -/
def tileBytes (t : Tile) : List Byte := t.toList.flatMap fun x => bytesOf 4 x.toNat

/-- The dirty tiles of a core's ACCOWN are spilled into the owner's frame; ACCOWN.VALID and ACCDIRTY become 0, and so do the tiles' tags
(08 R179). -/
def State.spillCore (s : State) (v k : Nat) : State :=
  let c := s.coreAt k
  let fr := c.csr.accown.toNat % 2 ^ 58 * 64
  let dirty := (List.finRange 4).filter fun (j : Fin 4) => c.csr.accdirty.getLsbD j.val
  let s := if c.csr.accown.getLsbD 58 then
      dirty.foldl (fun s j =>
        let s := s.writeVd v (fr + 0x8000 + 0x1000 * j.val) (tileBytes c.regs.ac[j])
        let m := fieldAt ((s.readVd v (fr + 0x42) 1).getD []) 0 1
        let g := fieldAt ((s.readVd v (fr + 0x46) 2).getD []) 0 2
        (s.writeVd v (fr + 0x42) (bytesOf 1 (m ||| 2 ^ j.val))).writeVd v (fr + 0x46)
          (bytesOf 2 (g - bits g (4 * j.val) 4 * 2 ^ (4 * j.val) + (c.regs.tag[j]).toNat * 2 ^ (4 * j.val)))) s
    else s
  s.updCore k fun c => { c with
    csr := { c.csr with accown := c.csr.accown &&& 0x03FFFFFFFFFFFFFF, accdirty := 0 }
    regs := { c.regs with tag := Vector.replicate 4 0 } }

/-- Every core of a VD. -/
def State.spillAll (s : State) (v : Nat) (d : Vd) : State := d.cores.foldl (fun s k => s.spillCore v k) s

/-! ## Running again (R78) -/

/-- A record enters the Shepherd (03 R39 step 6). -/
def State.accept (s : State) (v : Nat) (b : List Byte) : State :=
  match s.vd? v with
  | none => s
  | some d =>
    let s := s.updVd v fun d => { d with regs := { d.regs with acc := d.regs.acc + 1 } }
    s.makeReady v (Fin.ofNat 4 d.homeDie) (Cont.ofBytes b) none

/-- STATE becomes running: held records enter in order, the overflow lists move again. -/
def State.runAgain (s : State) (v : Nat) : State :=
  let held := ((s.vd? v).map (·.hold)).getD []
  let s := s.updVd v fun d => { d with state := .running, hold := [] }
  (held.foldl (fun s b => s.accept v b) s).settle v

/-! ## VD_RESET (R80) -/

/-- The frames of a VD, physically. -/
def Vd.frames (d : Vd) : List (Nat × Nat) := d.slots.map (·.2)

/-- Steps 2 to 6 of R80, and the reset's part of 03 R47. -/
def State.clearVd (s : State) (v : Nat) (d : Vd) : State :=
  let s := ((d.clusters.foldl State.scrub s).newKeys v).zeroRoots v
  let s := d.frames.foldl (fun s p => s.wipe (frameBase p.1 p.2) frameSize) s
  s.updVd v fun d => { d with
    gen := d.gen + 1
    handles := []
    codes := []
    ctrs := []
    ready := []
    ovf := []
    cursors := []
    hold := []
    pend := []
    hist := []
    regs := { d.regs with en := false }
    meas2 := d.meas2c
    measured := 0
    tasks := [] }

/-! ## Windows (R71-R75) -/

/-- The holders of a window. -/
def State.holders (s : State) (w : Nat) : List Nat := ((lookup w s.wins).map (·.holders)).getD []

/-- How many windows a VD holds. -/
def State.winsHeld (s : State) (v : Nat) : Nat := (s.wins.filter fun p => p.2.holders.contains v).length

/-- Whether a base for n frames may be mapped into a VD (R72). -/
def State.baseOk (s : State) (v : Nat) (d : Vd) (base n : Nat) : Bool :=
  base % frameSize == 0 && decide (hbmBase + frameSize ≤ base) && decide (base + n * frameSize ≤ hbmTop)
    && (d.winmap.all fun m =>
      !(s.holders m.win).contains v || decide (base + n * frameSize ≤ m.base) || decide (m.base + m.len ≤ base))
    && ((List.range (32 * n)).all fun i => match s.walk v d (base + 65536 * i) .rd with
      | .ok _ => false
      | .error _ => true)

/-- Whether a VD may be named in a window request (R72, R76). -/
def State.winVd (s : State) (v : Nat) : Option Vd :=
  (s.vd? v).bind fun d => if d.state = .migrating ∨ d.state = .resetting then none else some d

/-- Map a window into a VD; an entry the VD had for it, or that it overlaps, goes. -/
def Vd.mapWin (d : Vd) (w base len : Nat) : Vd :=
  { d with winmap := ⟨base, len, w⟩ :: d.winmap.filter fun m =>
      m.win != w && (decide (base + len ≤ m.base) || decide (m.base + m.len ≤ base)) }

/-- Everything the cores of a list of VDs have under way is performed (R73 step 3). -/
def State.drainVds (s : State) (vs : List Nat) : State :=
  vs.foldl (fun s v => match s.vd? v with
    | some d => s.drainAll d
    | none => s) s

/-- Numbers of a list, each once. -/
def uniq (l : List Nat) : List Nat := l.foldl (fun acc x => if acc.contains x then acc else acc ++ [x]) []

/-- The VDs that a window request bears on: the holders, and the new ones. -/
def State.winVds (s : State) (o : WinOp) : List Nat := uniq (s.holders o.win ++ (o.new.getD []).map (·.1))

/-- The re-key point of WIN_REKEY or WIN_FREE (R73 steps 1, 2; R75): from now on translations of the window wait, and its entries leave the
TLBs of every holder. -/
def State.startWin (s : State) (o : WinOp) : State :=
  let s : State := { s with winOp := some o }
  (s.winVds o).foldl (fun s v => match s.vd? v with
    | none => s
    | some d => d.cores.foldl (fun s k => s.updCore k fun c => { c with tlb := c.tlb.filter fun e => e.win != some o.win }) s) s

/-- Whether a fill reads an entry that lies in a window. -/
def Window.holdsByte (x : Window) (pa : Nat) : Bool :=
  decide (frameBase x.die.val x.first ≤ pa) && decide (pa < frameBase x.die.val x.first + x.n * frameSize)

/-- Whether no access to a window made before its re-key point is outstanding (R73 step 3): of a core, a copy, an array command or a fill. -/
def State.winQuiet (s : State) (o : WinOp) : Bool :=
  (s.winVds o).all fun v => match s.vd? v with
    | none => true
    | some d =>
      (d.cores.all fun k =>
        let c := s.coreAt k
        (c.lsu.all fun q => q.win != some o.win || q.isSent || !q.op.counts) && c.chans.all fun h => !h.wins.contains o.win)
      && d.clusters.all fun m =>
        let c := s.clusterAt m
        (c.cmds.all fun x => !x.wins.contains o.win)
          && c.fills.all fun f => !((lookup o.win s.wins).any fun x => x.holdsByte f.pa)

/-- WIN_REKEY ends (R73 steps 4, 5). What the re-encryption does to block counters, tree counters, poison and failed subtrees the spec does
not say: they stay (DESIGN CHOICE, log entry 75). -/
def State.rekey (s : State) (w : Nat) (new : List (Nat × Nat)) : State :=
  match lookup w s.wins with
  | none => s
  | some x =>
    let all := uniq (x.holders ++ new.map (·.1))
    let s := s.newKeys (0x80 + w)
    let s : State := { s with wins := put w { x with holders := new.map (·.1), keyGen := x.keyGen + 1 } s.wins }
    let s := new.foldl (fun s p =>
      if x.holders.contains p.1 then s else s.updVd p.1 fun d => d.mapWin w p.2 (x.n * frameSize)) s
    all.foldl (fun s v => s.lifeEvent v 5) s

/-- The number no window has: what remains of a freed window's map entries and handle pages answers ACCESS (R75). -/
def deadWin : Nat := 128

/-- WIN_FREE ends (R75). -/
def State.freeWin (s : State) (w : Nat) : State :=
  match lookup w s.wins with
  | none => s
  | some x =>
    let s := (List.range x.n).foldl (fun (s : State) i =>
      ({ s with owners := del (x.die.val * dieFrames + x.first + i) s.owners } : State).wipe (frameBase x.die.val (x.first + i)) frameSize) s
    let s := s.zeroRoots (0x80 + w)
    let kill (p : Nat × Option Nat) : Nat × Option Nat := if p.2 = some w then (p.1, some deadWin) else p
    let s : State := { s with
      wins := del w s.wins
      vds := s.vds.map fun p => (p.1, { p.2 with
        winmap := p.2.winmap.map fun m => if m.win = w then { m with win := deadWin } else m
        handles := p.2.handles.map fun h => (h.1, { h.2 with pages := h.2.pages.map kill }) }) }
    x.holders.foldl (fun s v => s.lifeEvent v 6) s

/-- Whether a VD_DESTROY takes its VD out of its windows: the window request under way is its own. -/
def State.destroying (s : State) : Bool := s.vds.any fun p => match p.2.life with
  | some (.leaving _) => true
  | _ => false

/-- A window request ends: every write to the window is applied everywhere (07 R153), the waits end, BAR 2 accesses that waited come next, and
a mailbox request completes. -/
def State.finishWin (s : State) (o : WinOp) : State :=
  let s := s.flush fun x => x.win == some o.win
  let s := match o.new with
    | some l => s.rekey o.win l
    | none => s.freeWin o.win
  let own := s.destroying
  let s : State := { s with winOp := none, inputs := s.deferred.map Input.event ++ s.inputs, deferred := [] }
  if own then s else s.complete o.link 0

/-- A window request goes on: what is under way is performed, as far as it can be, and it ends once nothing of the window is. -/
def State.winTry (s : State) : State :=
  match s.winOp with
  | none => s
  | some o =>
    let s := s.drainVds (s.winVds o)
    let s := (s.winVds o).foldl (fun s v => match s.vd? v with
      | some d => s.endFills d
      | none => s) s
    if s.winQuiet o then s.finishWin o else s

/-- Whether a window request can go on: it can end, or something that a VD it bears on has under way can be performed. -/
def State.winDue (s : State) : Bool :=
  s.winOp.any fun o => s.winQuiet o || (s.winVds o).any fun v => match s.vd? v with
    | some d => (d.cores.any fun k => (s.progress k).isSome) || d.clusters.any fun m => !(s.clusterAt m).fills.isEmpty
    | none => false

/-- The lowest run of n free frames of a die; the fuel is the number of frames. -/
def runFuel (owners : List (Nat × Owner)) (die n : Nat) : Nat → Nat → Nat → Option Nat
  | 0, _, _ => none
  | fuel + 1, f, got =>
    if got = n then some (f - n)
    else if (lookup (die * dieFrames + f) owners).isNone && decide (f < dieFrames) then runFuel owners die n fuel (f + 1) (got + 1)
    else runFuel owners die n fuel (f + 1) 0

/-- The holders a window request names at bytes 0Ah and 0Bh, with their bases. -/
def winHolders (b : List Byte) : List (Nat × Nat) :=
  let one (o base : Nat) : Nat × Nat := (fieldAt b o 1, fieldAt b base 8)
  if fieldAt b 0xB 1 = 0xFF then [one 0xA 0x18] else [one 0xA 0x18, one 0xB 0x20]

/-- Whether new holders may take a window of n frames: no named VD holds 16 windows already, and the bases of those that are new hold. -/
def State.holdersOk (s : State) (old : List Nat) (new : List (Nat × Nat)) (n : Nat) : Bool :=
  new.all (fun p => match s.winVd p.1 with
    | none => false
    | some d => decide (s.winsHeld p.1 < 16) && (old.contains p.1 || s.baseOk p.1 d p.2 n))
  && decide ((uniq (new.map (·.1))).length = new.length)

/-- WIN_CREATE. -/
def State.createWin (s : State) (link : Fin 2) (b : List Byte) : Option State :=
  let w := fieldAt b 9 1
  let die := fieldAt b 0xC 1
  let n := fieldAt b 0x10 4
  let new := winHolders b
  if 127 < w || (lookup w s.wins).isSome || n = 0 || 8192 < n || 3 < die || fieldAt b 0xD 3 != 0 || fieldAt b 0x14 4 != 0
      || !s.holdersOk [] new n || s.degraded die then none
  else (runFuel s.owners die n (dieFrames + 1) 0 0).map fun first =>
    let s := (List.range n).foldl (fun (s : State) i =>
      ({ s with owners := put (die * dieFrames + first + i) (Owner.win w) s.owners } : State).wipe (frameBase die (first + i)) frameSize) s
    let s := (s.newKeys (0x80 + w)).zeroRoots (0x80 + w)
    let s : State := { s with wins := put w ⟨w, Fin.ofNat 4 die, first, n, new.map (·.1), 0⟩ s.wins }
    (new.foldl (fun s p => s.updVd p.1 fun d => d.mapWin w p.2 (n * frameSize)) s).complete link 0

/-- The request code in byte 8. -/
def winCode (s : State) (link : Fin 2) : Nat := fieldAt (s.pkg.boxes[link]).buf 8 1

/-- Serve a window request of a code. -/
def State.serveWin (s : State) (link : Fin 2) (code : Nat) (f : List Byte → Option State) : Out :=
  if winCode s link ≠ code then .fault .noSuchEvent else s.serve link 0x20 (fun _ => 0x28) f

def execWinCreate (link : Fin 2) (s : State) : Out := s.serveWin link 0 (s.createWin link)

def execWinRekey (link : Fin 2) (s : State) : Out :=
  s.serveWin link 1 fun b =>
    let w := fieldAt b 9 1
    match lookup w s.wins with
    | none => none
    | some x =>
      if fieldAt b 0xC 12 != 0 || !(x.holders.all fun v => (s.winVd v).isSome) || !s.holdersOk x.holders (winHolders b) x.n then none
      else some (s.startWin ⟨w, some (winHolders b), link⟩).winTry

def execWinFree (link : Fin 2) (s : State) : Out :=
  s.serveWin link 2 fun b =>
    let w := fieldAt b 9 1
    if (lookup w s.wins).isNone || fieldAt b 0xA 30 != 0 || !((s.holders w).all fun v => (s.winVd v).isSome) then none
    else some (s.startWin ⟨w, none, link⟩).winTry

/-! ## VD_DESTROY (R81) and VD_MIGRATE (R79) -/

/-- The next window that the VD leaves, with what VD_DESTROY performs on it (R75). -/
def State.nextLeave (s : State) (v : Nat) (link : Fin 2) : Option WinOp :=
  (s.wins.find? fun p => p.2.holders.contains v).map fun p =>
    let rest := p.2.holders.filter (· != v)
    ⟨p.1, if rest.isEmpty then none else some (rest.map fun u => (u, 0)), link⟩

/-- The VD is gone: clusters scrubbed and freed, frames freed, VF unbound. -/
def State.removeVd (s : State) (v : Nat) (d : Vd) : State :=
  let s := d.clusters.foldl State.scrub s
  { s with
    owners := s.owners.filter fun p => p.2 != .vd v
    cbinvs := s.cbinvs.filter fun i => i.vd != v
    vds := del v s.vds }

/-- The clusters a VD_MIGRATE request names. -/
def migClusters (b : List Byte) : List Nat := clustersOf (fieldAt b 0x10 16)
/-- The frame moves of a VD_MIGRATE request: die and slot of the name, target die. The source die of an entry is read as the die of the slot's
name, wherever the frame lies now (DESIGN CHOICE, log entry 88). -/
def migMoves (b : List Byte) : List (Nat × Nat × Nat) :=
  (List.range (fieldAt b 0x20 4)).map fun i =>
    let e := fieldAt b (0x28 + 8 * i) 8
    (bits e 32 2, bits e 0 32, bits e 34 2)

/-- Whether a VD_MIGRATE request may run (R79; what it does not state is DEDUCED, log entry 26). -/
def State.migrateOk (s : State) (v : Nat) (d : Vd) (b : List Byte) : Bool :=
  let cl := migClusters b
  let mv := migMoves b
  decide (cl.length = d.clusters.length) && (cl.all fun m => match s.ownerOfCluster m with
      | some u => u == v
      | none => true)
    && (mv.all fun m => d.hasSlot m.1 m.2.1 && !s.degraded m.2.2)
    && ((List.range 4).all fun die =>
      let n := (mv.filter fun m => m.2.2 == die).length
      (s.freeFrames die n).length == n)
    && d.codes.all fun o => match rebind { d with clusters := cl } o.bytes with
      | .ok _ => true
      | .error _ => false

/-- A byte range of physical memory moves: contents and poison. -/
def State.moveRange (s : State) (src dst n : Nat) : State :=
  let inSrc (a : Nat) : Bool := decide (src ≤ a) && decide (a < src + n)
  let cells := s.mem.filter fun c => inSrc c.1
  let pois := s.poison.filter fun b => inSrc (b * 64)
  let s := s.wipe src n
  { s with
    mem := cells.foldl (fun m c => m.set (c.1 - src + dst) c.2) s.mem
    poison := pois.foldl (fun l b => insertNat ((b * 64 - src + dst) / 64) l) s.poison }

/-- A frame of a VD takes the next place of its tree on a die (R79 step 5). -/
def Vd.placeFrame (d : Vd) (old new : Nat × Nat) : Vd :=
  let die : Fin 4 := Fin.ofNat 4 new.1
  { d with
    pos := (d.pos.filter fun p => p.1 != old) ++ [(new, d.posNext[die])]
    posNext := d.posNext.set die (d.posNext[die] + 1) }

/-- One frame moves to a die (R79 step 5): its blocks are written anew under the VD's key at the next place of its tree, what was poisoned
arrives poisoned, its name stays; handle pages follow, copies keyed by its entries are dropped. -/
def State.moveFrame (s : State) (v : Nat) (m : Nat × Nat × Nat) : State :=
  match (s.vd? v).bind fun d => d.slots.find? fun p => p.1 == (m.1, m.2.1) with
  | none => s
  | some (_, (pd, pf)) =>
    match s.freeFrames m.2.2 1 with
    | [] => s
    | nf :: _ =>
      let src := frameBase pd pf
      let dst := frameBase m.2.2 nf
      let inSrc (a : Nat) : Bool := decide (src ≤ a) && decide (a < src + frameSize)
      let follow (p : Nat × Option Nat) : Nat × Option Nat := if p.2.isNone && inSrc p.1 then (p.1 - src + dst, none) else p
      let blks := (List.range 32768).map fun i => src / 64 + i
      let written := blks.filter fun b => countAt b s.mpe.minor != 0 || countAt (b / 64) s.mpe.major != 0
      let bad := blks.filter fun b => s.failedBlock b
      let s := (s.wipe dst frameSize).moveRange src dst frameSize
      let s : State := { s with
        poison := bad.foldl (fun l b => insertNat ((b * 64 - src + dst) / 64) l) s.poison
        owners := put (m.2.2 * dieFrames + nf) (Owner.vd v) (del (pd * dieFrames + pf) s.owners)
        clusters := s.clusters.map fun p => (p.1, { p.2 with cbs := p.2.cbs.filter fun c => !inSrc c.key }) }
      let s := s.updVd v fun d => { d.placeFrame (pd, pf) (m.2.2, nf) with
        slots := d.slots.map fun p => if p.1 = (m.1, m.2.1) then (p.1, (m.2.2, nf)) else p
        handles := d.handles.map fun h => (h.1, { h.2 with pages := h.2.pages.map follow }) }
      written.foldl (fun (s : State) b => { s with mpe := s.bumped ((b * 64 - src + dst) / 64) }) s

/-- The clusters of a VD are exchanged (R79 steps 2, 3): SRAM is copied to the cluster of the same logical place, everything left
or entered is scrubbed. -/
def State.moveClusters (s : State) (old new : List Nat) : State :=
  let pairs := (old.zip new).filter fun p => p.1 != p.2
  let areas (m : Nat) : List (Nat × Nat) := ([0, 1, 2, 3].map fun i => (sliceBase (4 * m + i), sliceSize)) ++ [(cbsBase m, 0xC0000)]
  let grab (a : Nat × Nat) : List Host.Cell × List Nat :=
    ((s.mem.filter fun c => decide (a.1 ≤ c.1) && decide (c.1 < a.1 + a.2)).map fun c => (c.1 - a.1, c.2),
     (s.poison.filter fun b => decide (a.1 ≤ b * 64) && decide (b * 64 < a.1 + a.2)).map fun b => b * 64 - a.1)
  let held := pairs.map fun p => ((areas p.1).map grab, (s.clusterAt p.1).cbs)
  let s := (uniq (pairs.map (·.1) ++ pairs.map (·.2))).foldl State.scrub s
  (pairs.zip held).foldl (fun s p =>
    let s := ((areas p.1.2).zip p.2.1).foldl (fun (s : State) x => { s with
      mem := x.2.1.foldl (fun m c => m.set (x.1.1 + c.1) c.2) s.mem
      poison := x.2.2.foldl (fun l o => insertNat ((x.1.1 + o) / 64) l) s.poison }) s
    s.updCluster p.1.2 fun c => { c with cbs := p.2.2 }) s

/-- Every code object is rebound to the partition (R79 step 4): its bytes are written again where it is placed, from the object as it was
submitted (DESIGN CHOICE, log entry 89). -/
def State.rebindAll (s : State) (v : Nat) : State :=
  match s.vd? v with
  | none => s
  | some d =>
    let s := d.codes.foldl (fun s o => match rebind d o.bytes with
      | .ok b => s.writeVd v o.va b
      | .error _ => s) s
    d.cores.foldl (fun s k => s.updCore k fun c => { c with icache := ⟨[], []⟩, tlb := [] }) s

/-- Steps 2 to 5 of R79. -/
def State.migrateVd (s : State) (v : Nat) (d : Vd) (b : List Byte) : State :=
  let s := s.moveClusters d.clusters (migClusters b)
  let s := s.updVd v fun d => { d with clusters := migClusters b }
  let s := (migMoves b).foldl (fun s m => s.moveFrame v m) s
  s.rebindAll v

/-! ## The end of a lifecycle request -/

/-- A VD that is being destroyed leaves its windows one after another, and is gone (R81). -/
def State.leaveOn (s : State) (v : Nat) (d : Vd) (link : Fin 2) : State :=
  if s.winOp.isSome then s
  else match s.nextLeave v link with
    | some o => (s.startWin o).winTry
    | none => (s.removeVd v d).complete link 0

/-- A quiet VD completes its request; none of its writes is left to be applied. A VD_DESTROY has still to take it out of its windows. -/
def State.finishLife (s : State) (v : Nat) (d : Vd) (r : LifeReq) : State :=
  let s := (s.flush fun w => d.cores.contains w.core).updVd v fun d => { d with life := none }
  match r with
  | .pause link => ((s.spillAll v d).lifeEvent v 1).complete link 0
  | .firmware => (s.spillAll v d).lifeEvent v 1
  | .reset link halted =>
    let s := (s.clearVd v d).updVd v fun d => { d with state := if halted then .paused else .running }
    (s.lifeEvent v 4).complete link 0
  | .destroy link => ((s.clearVd v d).updVd v fun d => { d with life := some (.leaving link) }).leaveOn v d link
  | .leaving link => s.leaveOn v d link
  | .migrate link was =>
    let s := (s.spillAll v d).migrateVd v d (s.pkg.boxes[link]).buf
    let s := s.updVd v fun d => { d with state := was }
    let s := if was = .running then s.runAgain v else s
    (s.lifeEvent v 3).complete link 0

/-- A firmware pause takes hold of the VD (09 R192, R201): STATE becomes paused. -/
def State.holdFirmware (s : State) (v : Nat) (r : LifeReq) : State :=
  if r = .firmware then
    s.updVd v fun d => { d with state := if d.state == .running then .paused else d.state }
  else s

/-- A VD's lifecycle request goes on: cores are stopped, what is under way is performed, and a quiet VD completes it. -/
def State.lifeTry (s : State) (v : Nat) : State :=
  match s.vd? v with
  | none => s
  | some d =>
    match d.life with
    | none => s
    | some (.leaving link) => s.leaveOn v d link
    | some r =>
      let s := s.holdFirmware v r
      let s := (s.stopAll d r.why).drainAll d
      let s := (s.leaveDrained d).endFills d
      if s.vdQuiet d then s.finishLife v ((s.vd? v).getD d) r else s

/-- Whether lifeTry has something to do for a VD: a core to stop, something under way, a core that may leave, or the end. -/
def State.lifeCan (s : State) (d : Vd) (r : LifeReq) : Bool :=
  match r with
  | .leaving _ => s.winOp.isNone
  | _ =>
  (r == .firmware && d.state == .running)
    || (d.cores.any fun k =>
      let c := s.coreAt k
      (s.progress k).isSome || (match c.wait with
        | some (.leave (.urgent u)) => s.leaveReady k (.urgent u)
        | some (.leave _) => c.task.isSome && r.why == .reset && c.stop != some .reset
        | _ => c.task.isSome && c.stop != some r.why))
    || (d.clusters.any fun m => !(s.clusterAt m).fills.isEmpty)
    || s.vdQuiet d

/-- The first VD whose lifecycle request can go on. A halted VD's cores are stopped, drained and saved by root firmware also on a die whose
clocks are stopped (DESIGN CHOICE, log entry 76). -/
def State.lifeDue (s : State) : Option Nat :=
  (s.vds.find? fun p => match p.2.life with
    | some r => s.lifeCan p.2 r
    | none => false).map (·.1)

/-- Serve a lifecycle request of LENGTH `len` on the VD in byte 8: STATE during, and what it is. -/
def State.serveLife (s : State) (link : Fin 2) (cmd : Nat) (len : List Byte → Nat) (ok : Nat → Vd → List Byte → Bool)
    (during : VdState) (req : Vd → LifeReq) : Out :=
  s.serve link cmd len fun b =>
    let v := fieldAt b 8 1
    match s.vd? v with
    | none => none
    | some d =>
      if ok v d b then some ((s.updVd v fun d => { d with state := during, life := some (req d) }).lifeTry v) else none

def execVdPause (link : Fin 2) (s : State) : Out :=
  s.serveLife link 3 (fun _ => 9) (fun _ d _ => d.state == .running) .paused fun _ => .pause link
def execVdReset (link : Fin 2) (s : State) : Out :=
  s.serveLife link 5 (fun _ => 9) (fun _ d _ => d.state == .running || d.state == .paused) .resetting fun _ => .reset link false
def execVdDestroy (link : Fin 2) (s : State) : Out :=
  s.serveLife link 2 (fun _ => 9) (fun _ d _ => d.state != .migrating) .resetting fun _ => .destroy link
def execVdMigrate (link : Fin 2) (s : State) : Out :=
  s.serveLife link 6 (fun b => 0x28 + 8 * fieldAt b 0x20 4)
    (fun v d b => (d.state == .running || d.state == .paused) && fieldAt b 9 7 == 0 && fieldAt b 0x24 4 == 0
      && decide (fieldAt b 0x20 4 ≤ 240) && s.migrateOk v d b)
    .migrating fun d => .migrate link d.state

def execVdResume (link : Fin 2) (s : State) : Out :=
  s.serve link 4 (fun _ => 9) fun b =>
    let v := fieldAt b 8 1
    match s.vd? v with
    | none => none
    | some d => if d.state = .paused then some (((s.runAgain v).lifeEvent v 2).complete link 0) else none

/-! ## Code, handles, attestation, telemetry -/

/-- A request whose layout the spec does not give: it comes with its event. -/
def State.serveFree (s : State) (link : Fin 2) (cmd : Nat) (f : State → Option State) : Out :=
  match s.request link cmd with
  | none => .fault .noSuchEvent
  | some _ => .next ((f s).getD (s.complete link 3))

/-- What a refused CODE_PLACE leaves in MBBUF: the code of the failed check in byte 8, the bundle index in bytes 0Ch-0Fh, all ones where none
applies (R44 names both, no layout: DESIGN CHOICE, log entry 72). -/
def Rejection.bytes (e : Rejection) : List Byte := bytesOf 4 e.code ++ bytesOf 4 (e.bundle.getD 0xFFFFFFFF)

/-- CODE_PLACE of an object, with the rewritten object of the driver where it has one. -/
def execCodePlace (link : Fin 2) (vd : Nat) (va : Word) (x : Submission) (s : State) : Out :=
  s.serveFree link 0x10 fun s =>
    match s.winVd vd with
    | none => none
    | some d =>
      match loaderCheck d x.obj x.rewritten with
      | .error e => some ((s.updBox link fun b => { b with buf := patchBuf b.buf 8 e.bytes }).complete link 3)
      | .ok (q, b) =>
        if s.pagesMapped vd d va.toNat b.length then
          let (s, h) := s.placeCode vd d va.toNat x.obj q b
          some (s.answer link 8 (bytesOf 4 h.toNat))
        else none

/-- Whether a record names a code object: by its CODE, or a launch by that of its header. -/
def State.contNames (s : State) (v : Nat) (h : BitVec 32) (c : Cont) : Bool :=
  c.code == h || (c.launch && match s.readVd v (c.frame.toNat + 4) 4 with
    | some b => fieldAt b 0 4 == h.toNat
    | none => false)

/-- Whether a continuation or launch of a VD names a code object (R45). -/
def State.codeNamed (s : State) (v : Nat) (d : Vd) (h : BitVec 32) : Bool :=
  (d.ready ++ d.ovf).any (fun r => s.contNames v h r.cont) || d.hold.any (fun b => s.contNames v h (Cont.ofBytes b))
    || d.cursors.any (fun c => c.code == h)
    || d.ctrs.any (fun p => p.2.named.any (s.contNames v h))
    || d.cores.any fun k => match (s.coreAt k).task with
      | some t => t.vd == v && (t.cont.code == h || (s.coreAt k).code == h)
      | none => false

def execCodeUnload (link : Fin 2) (vd : Nat) (handle : BitVec 32) (s : State) : Out :=
  s.serveFree link 0x11 fun s =>
    match s.vd? vd with
    | none => none
    | some d =>
      if (d.code? handle).isNone || s.codeNamed vd d handle then none
      else some ((s.updVd vd fun d => { d with codes := d.codes.filter fun o => o.handle != handle }).complete link 0)

/-- The pages of a kind 0 handle: their places now, with the window each lies in (06 R122, 04 R71). -/
def State.handlePages (s : State) (v : Nat) (d : Vd) (target n : Nat) : Option (List (Nat × Option Nat)) :=
  (List.range n).foldr (fun i acc => match acc, s.xlate v d false [] (target + 65536 * i) .rd with
    | some l, .ok x => some ((x.pa, x.win) :: l)
    | _, _ => none) (some [])

/-- The lowest handle ID a VD has free, from 1 upward (19 R342). -/
def Vd.freeHandle (d : Vd) : Nat :=
  ((List.range (d.handles.length + 1)).find? fun i => (lookup (i + 1) d.handles).isNone).getD 0 + 1

/-- HANDLE_MAKE (06 Table 6-6): none where it is refused. -/
def State.makeHandle (s : State) (link : Fin 2) (b : List Byte) : Option State :=
  let kind := fieldAt b 8 1
  let attr := fieldAt b 9 1
  let n := fieldAt b 0xC 4
  let target := fieldAt b 0x10 8
  let req := fieldAt b 0x20 4
  let v := fieldAt b 0x24 1
  match s.vd? v with
  | none => none
  | some d =>
    let htso := bits attr 2 1 == 1
    let bad := decide (2 < kind) || decide (8 ≤ attr) || fieldAt b 0xA 2 != 0 || fieldAt b 0x25 3 != 0 || n == 0 || decide (65536 < n)
      || (kind != 2 && target % 65536 != 0) || (kind == 2 && decide (2 ^ 48 ≤ target)) || fieldAt b 0x18 8 % 8 != 0
      || (htso && (kind != 1 || link != d.link)) || (req != 0 && (lookup req d.handles).isSome)
      || (kind == 0 && (decide (target < hbmBase) || decide (hbmTop < target + 65536 * n)))
      || (kind == 1 && !((List.range n).all fun i => Config.hostRangeAssigned link.val d.vf.val (target + 65536 * i)))
    if bad then none
    else
      let pages : Option (List (Nat × Option Nat)) := if kind = 0 then s.handlePages v d target n else some []
      pages.map fun ps =>
        let id := if req = 0 then d.freeHandle else req
        let h : Handle :=
          ⟨if kind = 0 then .device else if kind = 1 then .host else .peer, bits attr 0 1 == 1, bits attr 1 1 == 1, htso, n,
           BitVec.ofNat 64 target, link, BitVec.ofNat 64 (fieldAt b 0x18 8), ps⟩
        (s.updVd v fun d => { d with handles := put id h d.handles }).answer link 8 (bytesOf 4 id)

def execHandleMake (link : Fin 2) (s : State) : Out := s.serve link 0x30 (fun _ => 0x28) (s.makeHandle link)

/-- Items 1 to 4 of a report (R51): VDID in one byte, GEN in two, the count in four (DESIGN CHOICE, log entry 73). -/
def reportBody (v : Nat) (d : Vd) (nonce : List Byte) : List Byte :=
  sliceBytes nonce 0 32 ++ bytesOf 1 v ++ bytesOf 2 d.gen.toNat ++ bytesOf 48 Config.meas0.toNat ++ bytesOf 48 Config.meas1.toNat
    ++ bytesOf 48 d.meas2.toNat ++ bytesOf 4 d.measured

/-- The signed report. -/
def attestReport (v : Nat) (d : Vd) (nonce : List Byte) : List Byte :=
  let m := reportBody v d nonce
  m ++ bytesOf 96 (Config.ecdsaSign (sha384 m)).toNat

def execAttest (link : Fin 2) (vd : Nat) (nonce : List Byte) (s : State) : Out :=
  s.serveFree link 0x40 fun s => (s.vd? vd).map fun d => s.answer link 8 (attestReport vd d nonce)

/-- DOE_ATTESTATION (R51): on a VF only that VF's VD may be named; any other request gets no report. -/
def execDoeAttestation (fn : PciFn) (vd : Nat) (nonce : List Byte) (chain : Bool) (s : State) : Out :=
  if !s.pkg.bring.ready then .fault .noSuchEvent
  else if chain then .next (s.send (.doe fn Config.certChain))
  else
    let mayName : Bool := match fn with
      | .pf _ => true
      | .vf link n => s.vdOfVf link n == some vd
    match s.vd? vd, mayName with
    | some d, true => .next (s.send (.doe fn (attestReport vd d nonce)))
    | _, _ => .next (s.send (.doe fn []))

def execTelemetry (link : Fin 2) (s : State) : Out :=
  s.serveFree link 0x50 fun s => some (s.draw.answer link 8 (Config.telemetryAnswer s.fresh))

end Sys2Proof.Machine
end

