-- ==== Sys2Proof/Machine/Links.lean ====
section
/-! DEFINITION. Die-to-die links, Falyth ports and reduction windows, Ethernet lanes (01_package_and_links.md R10, R14-R21; 13
R305). -/

namespace Sys2Proof.Machine

/-! ## A halt by root firmware (01 R10, 02 R29) -/

/-- Root firmware halts a VD: it pauses as by a firmware pause; a migration or reset under way ends with the VD paused. A class 4 event
reports it. -/
def State.haltVd (s : State) (v : Nat) : State :=
  let s := s.updVd v fun d => { d with life :=
    match d.life with
    | none => if d.state = .running then some .firmware else none
    | some (.migrate l _) => some (.migrate l .paused)
    | some (.reset l _) => some (.reset l true)
    | some r => some r }
  s.raiseEvent v 4 (Config.eventCode s.fresh) []

/-- Every VD that owns a cluster on one of some dies is halted. -/
def State.haltDies (s : State) (dies : List Nat) : State :=
  (s.vds.filter fun p => dies.any p.2.onDie).foldl (fun s p => s.haltVd p.1) s

/-! ## Die-to-die links (R8, R10) -/

/-- The link between two dies, as its lower and higher die; none where they are no neighbours (Table 1-1). -/
def dieLink (a b : Fin 4) : Option (Nat × Nat) :=
  if a.val ^^^ b.val = 1 ∨ a.val ^^^ b.val = 2 then some (Min.min a.val b.val, Max.max a.val b.val) else none

/-- Retries of the transfer a link is on. -/
def State.linkTries (s : State) (l : Nat × Nat) : Nat := ((s.pkg.d2dTries.find? fun p => p.1 == l).map (·.2)).getD 0

/-- D2D_TRANSFER_RETRY: a transfer is retried, for the first time or once more; a transfer that has failed 16 retries has no further one. -/
def execD2dTransferRetry (a : Fin 4) (b : RetryTo) (s : State) : Out :=
  match dieLink a b.die with
  | none => .fault .noSuchEvent
  | some l =>
    let n := s.linkTries l
    onlyIf (s.pkg.on && !s.pkg.d2dDown.contains l && (b.first || (decide (1 ≤ n) && decide (n < 16))))
      { s with pkg := { s.pkg with
        d2dTries := (l, if b.first then 1 else n + 1) :: s.pkg.d2dTries.filter fun p => p.1 != l } }

/-- D2D_LINK_DOWN: UE to root firmware, and a halt of the VDs on either end. Accesses of other VDs whose route crosses the link are performed
as before: the spec says nothing of them (DESIGN CHOICE, log entry 82). -/
def execD2dLinkDown (a b : Fin 4) (s : State) : Out :=
  match dieLink a b with
  | none => .fault .noSuchEvent
  | some l =>
    let s' : State := { s with pkg := { s.pkg with
      d2dDown := s.pkg.d2dDown ++ [l], d2dTries := s.pkg.d2dTries.filter fun p => p.1 != l } }
    onlyIf (s.pkg.on && !s.pkg.d2dDown.contains l && s.linkTries l == 16)
      ((s'.send (.rootNotice 0x16 (4 * l.1 + l.2))).haltDies [l.1, l.2])

/-! ## Reduction windows (R19-R21; 13 R305) -/

/-- Whether a window may be registered (Table 1-5): for a home in this package its VD's handle. -/
def RedWindow.ok (id : Nat) (w : RedWindow) : Bool :=
  decide (id ≤ 4095) && w.off % 64 == 0 && w.len % 64 == 0 && decide (0 < w.len ∧ w.len ≤ 0x4000000) && decide (2 ≤ w.n ∧ w.n ≤ 4096)
    && (w.ranks.all fun r => decide (r < w.n)) && w.lines.isEmpty && w.rejected == 0

/-- Service firmware registers a window in a switch, under its ID there: window n of the model is ID n mod 4,096 of switch n div 4,096 (R19). -/
def State.register (s : State) (id : Nat) (w : RedWindow) : State :=
  let n := 4096 * w.switch + id
  if w.ok id && (lookup n s.reds).isNone then { s with reds := put n w s.reds } else s

/-- Whether every rank has arrived at a line: those of this package; of the others the model supplies the lines (log entry 36). -/
def RedWindow.full (w : RedWindow) (l : Nat × Nat × List Contribution) : Bool := w.ranks.all fun r => l.2.2.any fun c => c.rank == r

/-- Whether a window lies around the 64 bytes of a contribution of VD v. -/
def RedWindow.around (w : RedWindow) (v : Nat) (home : Option Nat × Nat × Nat) : Bool :=
  (match home.1 with
   | some c => w.home.isNone && w.chip == c
   | none => w.home == some v) && w.handle == home.2.1 && decide (w.off ≤ home.2.2) && decide (home.2.2 + 64 ≤ w.off + w.len)

/-- A window after a contribution (R20, R21), none where it rejects it: the epoch of an incomplete line differs, or the rank has contributed. A
rank at or above N is turned away too (DESIGN CHOICE, log entry 77). -/
def RedWindow.take (w : RedWindow) (off epoch : Nat) (x : Contribution) : Option RedWindow :=
  let here := w.lines.filter fun l => l.1 == off
  if w.n ≤ x.rank then none
  else if here.any fun l => (l.2.1 == epoch && l.2.2.any fun c => c.rank == x.rank) || (l.2.1 != epoch && !w.full l) then none
  else if here.any fun l => l.2.1 == epoch then
    some { w with lines := w.lines.map fun l => if l.1 = off ∧ l.2.1 = epoch then (l.1, l.2.1, l.2.2 ++ [x]) else l }
  else some { w with lines := w.lines ++ [(off, epoch, [x])] }

/-- A contribution returns to its issuer once REDUCTION_REJECT happens. -/
def State.turnAway (s : State) (core ord rank epoch : Nat) : State :=
  s.updCore core fun c => { c with lsu := c.lsu.map fun q =>
    if q.ord = ord then { q with op := .redWin 0 [] rank epoch true, rel := true } else q }

/-- A contribution reaches its switch: collected in its line, or rejected and counted. -/
def State.contribute (s : State) (v : Nat) (home : Option Nat × Nat × Nat) (epoch : Nat) (x : Contribution) : State :=
  match s.reds.find? fun p => p.2.around v home with
  | none => ({ s with pkg := { s.pkg with redRejects := s.pkg.redRejects + 1 } } : State).turnAway x.core x.seq x.rank epoch
  | some (i, w) =>
    match w.take home.2.2 epoch x with
    | some w' => { s with reds := put i w' s.reds }
    | none => ({ s with reds := put i { w with rejected := w.rejected + 1 } s.reds } : State).turnAway x.core x.seq x.rank epoch

/-- A request has reached the switch: a contribution, or a copy's, whose bytes go to the peer (log entry 35). -/
def State.reached (s : State) (x : TxReq) : State :=
  match x.op with
  | .red v home line rank epoch => s.contribute v home epoch ⟨rank, line, x.core, x.ord⟩
  | .read _ _ => s.peerAnswer x.core x.ord none
  | .write chip handle off bs => (s.send (.peerWrite chip handle off bs)).peerAnswer x.core x.ord none

/-- The lines of every rank, in rank order: those received, and those of ranks outside this package. -/
def RedWindow.rankLines (w : RedWindow) (id off epoch : Nat) (cs : List Contribution) : List (BitVec 512) :=
  (List.range w.n).map fun r =>
    match cs.find? fun c => c.rank == r with
    | some c => c.line
    | none => Config.peerLine id off epoch r

/-- Write a completed line at the home (R20). Where its VD or handle is gone the result is dropped, and the contributions complete all the
same (DESIGN CHOICE, log entry 77). -/
def State.writeHome (s : State) (w : RedWindow) (off : Nat) (bs : List Byte) : State :=
  match w.home with
  | none => s.send (.peerWrite w.chip w.handle off bs)
  | some v =>
    match (s.vd? v).bind fun d => lookup w.handle d.handles with
    | some h => s.sideWrite (.handle h) off (bs.map fun b => (b, false))
    | none => s

/-- REDUCTION_RESULT_WRITE: every rank has arrived at the oldest complete line; it is combined, written, freed, and its contributions
complete. -/
def execReductionResultWrite (w off : Nat) (s : State) : Out :=
  orFault ((lookup w s.reds).bind fun x => (x.lines.find? fun l => l.1 == off && x.full l).map fun l =>
    let v := treeFold x.op x.ty x.n (x.rankLines w off l.2.1 l.2.2)
    let s : State := { s with reds := put w { x with lines := x.lines.filter fun y => y.1 != off || y.2.1 != l.2.1 } s.reds }
    l.2.2.foldl (fun s c => s.updCore c.core fun k => k.retire c.seq) (s.writeHome x off (bytesOf 64 v.toNat)))

/-- A RED fails: it completes at its issuer, and UE is reported there. -/
def State.failRed (s : State) (core ord : Nat) : State :=
  match (s.coreAt core).request ord with
  | some r => (s.updCore core fun c => c.retire ord).report core r.task cUE 1 r.bund 0
  | none => s

/-- A request that a port has lost fails at its issuer (R18): a contribution as a RED; a copy learns which bytes are lost. -/
def State.failRequest (s : State) (x : TxReq) : State :=
  match x.op with
  | .red _ _ _ _ _ => s.failRed x.core x.ord
  | .read off n => s.peerAnswer x.core x.ord (some (off, n))
  | .write _ _ off bs => s.peerAnswer x.core x.ord (some (off, bs.length))

/-- REDUCTION_REJECT: a contribution that its switch turned away returns as a failed RED. -/
def execReductionReject (core seq : Nat) (s : State) : Out :=
  orFault (((s.coreAt core).request seq).bind fun r => if r.rejected then some (s.failRed core seq) else none)

/-! ## Falyth ports (R15-R18) -/

/-- A flit that a port has taken from the wire, in ACTIVE (R17). A failed flit and every later one up to the replay are discarded, and NAK is
sent; a data flit out of sequence is discarded. An accepted flit applies its ACK, whose requests have then reached the switch, its credits
and its NAK; a data flit is acknowledged and its credit returned as the transaction layer takes its payload. -/
def State.receiveFlit (s : State) (port : Fin 24) (bs : List Byte) : State :=
  let p := s.pkg.ports[port]
  let h := fieldAt bs 0 8
  if flitBad bs then (s.setPort port { p with dropping := true }).send (.flit port.val (p.controlFlit true 0 0))
  else
    let isData := bits h 0 4 == 1
    let seq := bits h 4 12
    let next := seq == (p.rxLast + 1) % 4096
    if (p.dropping && !(isData && next)) || (isData && !next) then s
    else
      let (p, acked) := p.ack (bits h 16 12)
      let vc : Fin 4 := Fin.ofNat 4 (bits h 40 2)
      let p := { p with credits := p.credits.set vc (p.credits[vc] + bits h 32 8) }
      let p := if isData then { p with rxLast := seq, dropping := false } else p
      let s := acked.foldl State.reached (s.setPort port p)
      let s := if bits h 28 1 = 1 then s.replayPort port else s
      let s := if isData then s.acknowledge port (Fin.ofNat 4 (bits h 29 2)) else s
      s.pump port

/-- FALYTH_FLIT_RECEIVE: the flit sent, with the errors that the wire has added, by byte of the flit and its parity. -/
def execFalythFlitReceive (port : Fin 24) (sent : List Byte) (errs : List (Nat × Byte)) (s : State) : Out :=
  onlyIf (s.pkg.on && s.pkg.ports[port].phase == .active) (s.receiveFlit port (corrected sent errs))

/-- FALYTH_ACK_TIMEOUT (R17 step 5). -/
def execFalythAckTimeout (port : Fin 24) (s : State) : Out :=
  let p := s.pkg.ports[port]
  onlyIf (s.pkg.on && p.phase == .active && p.replays) (s.replayPort port)

/-- FALYTH_REPLAY_LIMIT (R17 step 6). -/
def execFalythReplayLimit (port : Fin 24) (s : State) : Out :=
  let p := s.pkg.ports[port]
  onlyIf (s.pkg.on && p.phase == .active && decide (8 ≤ p.stalls)) (s.setPort port { p with phase := .equalize, kept := true, stalls := 0 })

/-- What a port states in PARAM (R17, R18): two lanes, or the one that is good; 512 flits of replay; reductions; its receive buffers. -/
def FalPort.own (p : FalPort) (port : Nat) : FalPartner := ⟨port, false, p.lanes, 512, true, [256, 256, 128, 32]⟩

/-- Whether both ends match in PARAM (Table 1-4; what must match is DEDUCED, log entry 34): the lane count, which is how both agree to one-lane
operation, the replay depth, reduction support, and credits from 16 to 1,024 for each virtual channel. -/
def FalPort.matches (p : FalPort) (q : FalPartner) : Bool :=
  q.lanes == p.lanes && q.depth == 512 && q.reduces && q.credits.length == 4 && q.credits.all fun n => decide (16 ≤ n) && decide (n ≤ 1024)

/-- The port on entering ACTIVE (R17): after a return from EQUALIZE what it kept is kept, else it starts afresh with the
partner's credits; what waits to be sent waits on. -/
def FalPort.activate (p : FalPort) (q : FalPartner) : FalPort :=
  if p.kept then { p with phase := .active, fails := 0, kept := false }
  else { FalPort.idle with phase := .active, lanes := p.lanes, queue := p.queue, partner := some q, credits := Vector.ofFn fun i => q.credits.getD i.val 0 }

/-- FALYTH_PHASE_EXIT (Table 1-4): `lanes` are the lanes locked in SIGNAL, `q` what the partner states in PARAM. -/
def execFalythPhaseExit (port : Fin 24) (lanes : Fin 3) (q : FalPartner) (s : State) : Out :=
  let p := s.pkg.ports[port]
  if !s.pkg.on || !s.pkg.bring.ready then .fault .noSuchEvent
  else match p.phase with
    | .detect => .next (s.setPort port { p with phase := .signal })
    | .signal => onlyIf (lanes != 0) (s.setPort port { p with phase := .equalize, lanes := lanes.val })
    | .equalize => .next (s.setPort port { p with phase := .align })
    | .align => .next ((s.setPort port { p with phase := .param }).send (.param port.val (p.own port.val)))
    | .param =>
      let s' := s.setPort port (p.activate q)
      onlyIf (p.matches q) ((if p.kept then s'.resend port else s').pump port)
    | .active => .fault .noSuchEvent
    | .down => .fault .noSuchEvent

/-- FALYTH_TRAINING_TIMEOUT (R18): back to DETECT, down after four failures; what was unacknowledged is lost: it completes at its issuers,
which receive UE, and the replay buffer is cleared. Requests that wait to be sent stay in the queue, for ever at a port that stays down: the
spec names only unacknowledged ones (DESIGN CHOICE, log entry 81). -/
def execFalythTrainingTimeout (port : Fin 24) (s : State) : Out :=
  let p := s.pkg.ports[port]
  let timed : Bool := p.phase == .signal || p.phase == .equalize || p.phase == .align || p.phase == .param
  let n := p.fails + 1
  let s' := s.setPort port { FalPort.idle with fails := n, phase := if n < 4 then .detect else .down, queue := p.queue }
  let s' := if n < 4 then s' else s'.send (.serviceNotice port.val)
  onlyIf (s.pkg.on && timed) (p.replay.foldl (fun s x => s.failRequest x.req) s')

/-- FALYTH_DETECT_RETRY: far-end termination is sensed again. -/
def execFalythDetectRetry (port : Fin 24) (seen : Bool) (s : State) : Out :=
  let p := s.pkg.ports[port]
  onlyIf (s.pkg.on && s.pkg.bring.ready && p.phase == .detect) (if seen then s.setPort port { p with phase := .signal } else s)

/-! ## Ethernet (R14) -/

/-- ETHERNET_LINK_TRAINING: a port of 1, 4 or 8 lanes is up; every port has as many lanes as service firmware has grouped the lanes in, which
the first training shows. -/
def execEthernetLinkTraining (lane : Fin 16) (lanes : Nat) (s : State) : Out :=
  let ok : Bool := (lanes == 1 || lanes == 4 || lanes == 8) && lane.val % lanes == 0 && s.pkg.ethGroup.all (· == lanes)
  onlyIf (s.pkg.on && s.pkg.bring.ready && ok)
    { s with pkg := { s.pkg with
      ethGroup := some lanes
      bring := { s.pkg.bring with ethup := s.pkg.bring.ethup ||| BitVec.ofNat 16 ((2 ^ lanes - 1) * 2 ^ lane.val) } } }

end Sys2Proof.Machine
end

