-- ==== Sys2Proof/Machine/Heat.lean ====
section
/-! DEFINITION. Heat and power (02_heat_and_power.md R26-R32): sensors, the throttle controller of each die, HBM refresh, the power
controller. Temperatures are in 1/16 °C, clocks in 10 MHz. -/

namespace Sys2Proof.Machine

/-! ## Sensors and the throttle controller (R26, R27, R29) -/

/-- Put a die's state. -/
def State.setHeat (s : State) (die : Fin 4) (h : DieHeat) : State := { s with pkg := { s.pkg with heat := s.pkg.heat.set die h } }

/-- The die temperature (R26): the largest valid TEMP; none where no sensor is valid. -/
def dieTemp (temps : List (BitVec 16 × Bool)) : Option Int :=
  (temps.filter (·.2)).foldl (fun m p =>
    match m with
    | none => some p.1.toInt
    | some t => some (Max.max t p.1.toInt)) none

/-- A temperature in °C as the sensors count it. -/
def celsius (n : Int) : Int := 16 * n

/-- The level of Table 2-3 after a sample below the trip point. -/
def throttleLevel (level : Nat) (t : Int) : Nat :=
  if level = 3 then 3
  else if celsius 112 ≤ t then 2
  else if level = 2 then (if t < celsius 108 then 1 else 2)
  else if celsius 105 ≤ t then 1
  else if level = 1 ∧ ¬ t < celsius 102 then 1
  else 0

/-- A die after a sample: its level, its clock, the bits software clears; and whether level 3 has been entered. -/
def DieHeat.sample (h : DieHeat) (temps : Vector (BitVec 16 × Bool) 8) : DieHeat × Bool :=
  let t := (dieTemp temps.toList).getD (celsius 120)
  let hot := h.stack.toList.any fun x => decide (celsius 105 < x)
  let h : DieHeat := { h with sensors := temps, temp := t }
  if h.level != 3 && (decide (celsius 120 ≤ t) || hot) then
    ({ h with level := 3, tripped := true, stktrip := h.stktrip || hot }, true)
  else
    let l := throttleLevel h.level t
    if l = 2 ∧ h.level ≠ 2 then ({ h with level := 2, clkT := 35, hard := true }, false) else ({ h with level := l }, false)

/-- THERMAL_SAMPLE: on entering level 3 root firmware is told and halts the VDs on the die (R29). -/
def execThermalSample (die : Fin 4) (temps : Vector (BitVec 16 × Bool) 8) (s : State) : Out :=
  let (h, trip) := s.pkg.heat[die].sample temps
  let s' := s.setHeat die h
  onlyIf s.pkg.on (if trip then (s'.send (.rootNotice 0 die.val)).haltDies [die.val] else s')

/-- The clock after one step of 1 ms: down in level 1, up in level 0. -/
def DieHeat.clockStep (h : DieHeat) : DieHeat :=
  if h.level = 1 then (if 70 < h.clkT then { h with clkT := Max.max 70 (h.clkT - 10) } else h)
  else if h.level = 0 then (if h.clkT < 140 then { h with clkT := Min.min 140 (h.clkT + 10) } else h)
  else h

def execThrottleClockStep (die : Fin 4) (s : State) : Out := onlyIf s.pkg.on (s.setHeat die s.pkg.heat[die].clockStep)

/-- Whether an operation waits at the Shepherd of a die, for a VD that is still there. -/
def State.parkedAt (s : State) (die : Fin 4) : Instr → Bool
  | .counterOperation v _ ctr _ _ => Fin.ofNat 4 (ctr.toNat / 16384) == die && (s.vd? v).isSome
  | _ => false

/-- The clocks of a die run again: the counter operations that waited at its Shepherd come next (log entry 76), launches get the cursors that
are free, and free slots of the VDs whose home it is go to whom 05 R354 names. -/
def State.wakeDie (s : State) (die : Fin 4) : State :=
  let gone (i : Instr) : Bool := match i with
    | .counterOperation _ _ ctr _ _ => Fin.ofNat 4 (ctr.toNat / 16384) == die
    | _ => false
  let s : State := { s with
    inputs := (s.parked.filter (s.parkedAt die)).map Input.event ++ s.inputs
    parked := s.parked.filter fun i => !gone i }
  let s := (List.range 64).foldl (fun s _ => s.nextLaunch die.val) s
  (s.vds.filter fun p => p.2.homeDie == die.val).foldl (fun s p => s.settle p.1) s

/-- THERMAL_TRIP_CLEAR: the die and both of its stacks are below 95 °C. The level that follows is 0, the model's choice: the spec names none
(log entry 37). The clock starts at a value the implementation defines, at most the 1.4 GHz that CLKT never passes. -/
def execThermalTripClear (die : Fin 4) (s : State) : Out :=
  let h := s.pkg.heat[die]
  onlyIf (s.pkg.on && h.level == 3 && decide (h.temp < celsius 95) && h.stack.toList.all fun x => decide (x < celsius 95))
    ((s.draw.setHeat die { h with level := 0, clkT := Min.min 140 (Config.restartClock s.fresh) }).wakeDie die)

/-! ## HBM refresh (R30) -/

/-- The refresh rate of a stack: raised above a threshold, lowered only 2 °C below it. -/
def refreshRate (cur : Nat) (t : Int) : Nat :=
  let want := if celsius 95 < t then 2 else if celsius 85 < t then 1 else 0
  if cur ≤ want then want
  else if cur = 2 ∧ ¬ t ≤ celsius 93 then 2
  else if t ≤ celsius 83 then 0 else 1

/-- HBM_TEMP_SAMPLE of a trained stack. -/
def execHbmTempSample (stack : Fin 8) (temp : Int) (s : State) : Out :=
  let die : Fin 4 := Fin.ofNat 4 (stack.val / 2)
  let k : Fin 2 := Fin.ofNat 2 stack.val
  let h := s.pkg.heat[die]
  onlyIf (s.pkg.on && s.pkg.bring.hbmok.getLsbD stack.val)
    (s.setHeat die { h with stack := h.stack.set k temp, refr := h.refr.set k (refreshRate h.refr[k] temp) })

/-- HBM_REFRESH: accesses to the bank wait, and no access is lost or reordered; time is all that passes. -/
def execHbmRefresh (stack : Fin 8) (_bank : Nat) (s : State) : Out :=
  onlyIf (s.pkg.on && s.pkg.bring.hbmok.getLsbD stack.val) s.tick

/-! ## The power controller (R31) -/

/-- The cores that run a ballast task. -/
def State.ballastCores (s : State) : List Nat :=
  (s.cur :: s.others.map (·.1)).filter fun k => (s.coreAt k).cls == some 7

/-- Change the power controller's cap on every die. -/
def Pkg.mapCap (p : Pkg) (f : Nat → Nat) : Pkg := { p with heat := Vector.map (fun h : DieHeat => { h with clkP := f h.clkP }) p.heat }

/-- POWER_MEASUREMENT. The 100 MHz are taken from, and given to, the controller's own request, which is the clock of a die that nothing else
lowers (DESIGN CHOICE, log entry 83). -/
def State.measurePower (s : State) (watts : Nat) : State :=
  let s : State := { s with pkg := { s.pkg with pkgw := watts } }
  let set := s.pkg.setpt
  let band := s.pkg.band
  if !s.pkg.en then s
  else if watts + band < set then
    { s with pkg := ({ s.pkg with balrun := true } : Pkg).mapCap fun c => Min.min 140 (c + 10) }
  else if set < watts then
    let running := s.ballastCores
    let s : State := { s with pkg := { s.pkg with balrun := false } }
    let s := running.foldl (fun s k => s.updCore k Core.sliceEnd) s
    if set + band < watts ∧ running.isEmpty then { s with pkg := s.pkg.mapCap fun c => Max.max 70 (c - 10) } else s
  else s

def execPowerMeasurement (watts : BitVec 12) (s : State) : Out := onlyIf s.pkg.on (s.measurePower watts.toNat)

/-! ## The registers as they read (Tables 2-2, 2-4, 2-6, 2-7) -/

/-- The clock a die runs at: the lower of the two controllers', stopped in level 3 (R28). -/
def Pkg.clock (p : Pkg) (die : Fin 4) : Nat :=
  let h := p.heat[die]
  if h.level = 3 then 0 else Min.min h.clkT h.clkP

/-- TSENS_d_s. -/
def DieHeat.tsens (h : DieHeat) (k : Fin 8) : BitVec 32 :=
  (h.sensors[k]).1.setWidth 32 ||| (if (h.sensors[k]).2 then 0x10000 else 0)

/-- REFR (Table 2-4): the refresh rate of the die's hotter stack; of the faster one where both are equally hot. -/
def DieHeat.hotRefr (h : DieHeat) : Nat :=
  if h.stack[1] < h.stack[0] then h.refr[0] else if h.stack[0] < h.stack[1] then h.refr[1] else Max.max h.refr[0] h.refr[1]

/-- THSTAT_d. -/
def Pkg.thstat (p : Pkg) (die : Fin 4) : BitVec 32 :=
  let h := p.heat[die]
  BitVec.ofNat 32 (h.level % 4 + p.clock die % 256 * 4 + h.hotRefr % 4 * 1024
    + (if h.hard then 4096 else 0) + (if h.tripped then 8192 else 0) + (if h.stktrip then 16384 else 0))

/-- PWRCTL. -/
def Pkg.pwrctl (p : Pkg) : BitVec 32 :=
  BitVec.ofNat 32 (p.setpt % 4096 + p.band % 256 * 65536 + (if p.en then 2 ^ 24 else 0))

/-- Whether a die clock is below 1.4 GHz because of the set point; the clock of a die in level 3 stands still because of its trip. -/
def Pkg.capped (p : Pkg) : Bool :=
  p.heat.toList.any fun h => h.level != 3 && decide (h.clkP < 140) && decide (h.clkP ≤ h.clkT)

/-- PWRSTAT. -/
def Pkg.pwrstat (p : Pkg) : BitVec 32 :=
  BitVec.ofNat 32 (p.pkgw % 4096 + (if p.balrun then 4096 else 0) + (if p.capped then 8192 else 0))

end Sys2Proof.Machine
end

