-- ==== Sys2Proof/Machine/Bringup.lean ====
section
/-! DEFINITION. Power and bring-up (01_package_and_links.md R22-R24; 02 R33): power-on, the steps of Table 1-6, fundamental reset. -/

namespace Sys2Proof.Machine

/-! ## Power -/

/-- The device starts from nothing; what lies outside it stays: host and peer memory, the windows the switches registered, what was
sent, the events to come and the draws made. -/
def State.restart (s : State) (on : Bool) : State :=
  { State.reset with
    ext := s.ext
    reds := s.reds.map fun p => (p.1, { p.2 with lines := [] })
    inputs := s.inputs
    outbox := s.outbox
    fresh := s.fresh
    pkg := { Pkg.reset with on := on } }

def execPowerOn (s : State) : Out := onlyIf (!s.pkg.on) (s.restart true)
def execPowerOff (s : State) : Out := onlyIf s.pkg.on (s.restart false)
def execPcieFundamentalReset (s : State) : Out := onlyIf s.pkg.on (s.restart true)

/-! ## Bring-up (Table 1-6) -/

/-- Whether a work item is of step 2. -/
def isPcie : BringItem → Bool
  | .pcie _ => true
  | _ => false

/-- Whether the steps before a work item have ended. -/
def BringUp.before (b : BringUp) (w : BringItem) : Bool :=
  match w with
  | .root => true
  | .pcie _ | .hbm _ => !b.todo.contains .root
  | .mpe => b.todo.all fun x => x == .mpe || x == .service
  | .service => b.todo.all fun x => x == .service

/-- Whether a work item is under way: bring-up has not stopped, but for the links that the boot ROM trains (R22). -/
def BringUp.running (b : BringUp) (w : BringItem) : Bool :=
  b.todo.contains w && b.before w && (!b.fail || isPcie w)

/-- A work item completes. -/
def BringUp.finish (b : BringUp) (w : BringItem) : BringUp :=
  let b := { b with todo := b.todo.filter (· != w) }
  match w with
  | .root | .mpe => b
  | .pcie k => { b with pcieup := b.pcieup ||| BitVec.ofNat 2 (2 ^ k.val) }
  | .hbm k => { b with hbmok := b.hbmok ||| BitVec.ofNat 8 (2 ^ k.val) }
  | .service => { b with ready := true, degr := b.hbmfail != 0 }

/-- A work item times out or fails: a stack is excluded (R24), steps 1, 4 and 5 stop bring-up, a link keeps trying. -/
def BringUp.giveUp (b : BringUp) (w : BringItem) : BringUp :=
  let b := { b with todo := b.todo.filter (· != w) }
  match w with
  | .root => { b with fail := true, fstep := 1 }
  | .mpe => { b with fail := true, fstep := 2 }
  | .service => { b with fail := true, fstep := 3 }
  | .pcie _ => b
  | .hbm k => { b with hbmfail := b.hbmfail ||| BitVec.ofNat 8 (2 ^ k.val) }

/-- Change the bring-up state. -/
def State.setBring (s : State) (b : BringUp) : State := { s with pkg := { s.pkg with bring := b } }

def execBringupStepComplete (w : BringItem) (s : State) : Out :=
  onlyIf (s.pkg.on && s.pkg.bring.running w) (s.setBring (s.pkg.bring.finish w))

def execBringupTimeout (w : BringItem) (s : State) : Out :=
  onlyIf (s.pkg.on && s.pkg.bring.running w) (s.setBring (s.pkg.bring.giveUp w))

/-- PCIE_LINK_TRAINED: a link that did not train in step 2 trains later. -/
def execPcieLinkTrained (link : Fin 2) (s : State) : Out :=
  let b := s.pkg.bring
  onlyIf (s.pkg.on && !b.todo.contains (.pcie link) && !b.pcieup.getLsbD link.val)
    (s.setBring { b with pcieup := b.pcieup ||| BitVec.ofNat 2 (2 ^ link.val) })

/-- CONFIG_REQUEST: Retry Status until step 5 has ended or bring-up has stopped. -/
def execConfigRequest (fn : PciFn) (s : State) : Out :=
  onlyIf s.pkg.on (s.send (if s.pkg.bring.ready || s.pkg.bring.fail then .cfgDone fn else .cfgRetry fn))

/-- BRINGST (Table 1-7). -/
def Pkg.bringst (p : Pkg) : Word :=
  let b := p.bring
  BitVec.ofNat 64 (b.hbmok.toNat + b.hbmfail.toNat * 2 ^ 8 + b.pcieup.toNat * 2 ^ 16 + (if b.ready then 2 ^ 18 else 0)
    + (if b.degr then 2 ^ 19 else 0) + (if b.fail then 2 ^ 20 else 0) + b.fstep.toNat * 2 ^ 21
    + digits 1 (fun i => if h : i < 24 then (if p.ports[i].phase = .active then 1 else 0) else 0) 24 * 2 ^ 24
    + b.ethup.toNat * 2 ^ 48)

end Sys2Proof.Machine
end

