-- ==== Sys2Proof/Machine/Host.lean ====
section
/-! DEFINITION. The host's side (03_host_interface.md R34-R40, R46, R47): registers of the physical and virtual functions, the BAR 2
aperture, continuation injection, and the delivery of events. -/

namespace Sys2Proof.Machine

/-! ## The physical function's registers (Table 3-2) -/

/-- What an offset of PF BAR 0 is. -/
inductive PfReg where
  | bringst | mgmterr | pwrctl | pwrstat
  | thstat (die : Fin 4)
  | tsens (die : Fin 4) (k : Fin 8)
  | mbctl
  | mbbuf (off : Nat)
  | unassigned
deriving DecidableEq, Repr

/-- The map of Table 3-2, by the offset at which an access starts. -/
def pfReg (off : Nat) : PfReg :=
  if 0x100 ≤ off ∧ off < 0x108 then .bringst
  else if 0x108 ≤ off ∧ off < 0x110 then .mgmterr
  else if 0x200 ≤ off ∧ off < 0x204 then .pwrctl
  else if 0x208 ≤ off ∧ off < 0x20C then .pwrstat
  else if 0x300 ≤ off ∧ off < 0x310 then .thstat (Fin.ofNat 4 ((off - 0x300) / 4))
  else if 0x400 ≤ off ∧ off < 0x480 then .tsens (Fin.ofNat 4 ((off - 0x400) / 32)) (Fin.ofNat 8 ((off - 0x400) / 4))
  else if 0x10000 ≤ off ∧ off < 0x10008 then .mbctl
  else if 0x10100 ≤ off ∧ off < 0x11100 then .mbbuf (off - 0x10100)
  else .unassigned

/-- The bytes of a register of the PF of a link, as it reads; where bring-up has stopped, all but BRINGST read as ones (01 R22). A read that
starts inside a register gives its bytes from its start (DESIGN CHOICE, log entry 31). -/
def State.pfRead (s : State) (link : Fin 2) (off : Nat) : List Byte :=
  let r := pfReg off
  if s.pkg.bring.fail ∧ r ≠ .bringst then List.replicate 8 0xFF
  else match r with
  | .bringst => bytesOf 8 s.pkg.bringst.toNat
  | .mgmterr => bytesOf 8 s.pkg.mgmterr.toNat
  | .pwrctl => bytesOf 4 s.pkg.pwrctl.toNat
  | .pwrstat => bytesOf 4 s.pkg.pwrstat.toNat
  | .thstat d => bytesOf 4 (s.pkg.thstat d).toNat
  | .tsens d k => bytesOf 4 (s.pkg.heat[d].tsens k).toNat
  | .mbctl =>
    let b := s.pkg.boxes[link]
    bytesOf 8 ((if b.busy then 2 else 0) + b.status.toNat * 256)
  | .mbbuf o => sliceBytes (s.pkg.boxes[link]).buf o 8
  | .unassigned => bytesOf 8 0

/-- An access to an unassigned offset (R35). -/
def State.countUnassigned (s : State) : State := { s with pkg := { s.pkg with mgmterr := s.pkg.mgmterr + 1 } }

/-- A write of THSTAT_d: W1C of HARDSEEN, TRIPPED, STKTRIP (Table 2-4). -/
def DieHeat.clear (h : DieHeat) (v : Word) : DieHeat :=
  { h with hard := h.hard && !v.getLsbD 12, tripped := h.tripped && !v.getLsbD 13, stktrip := h.stktrip && !v.getLsbD 14 }

/-- MBCTL.GO (R49): ignored while BUSY; else the request waits its turn. -/
def State.mailboxGo (s : State) (link : Fin 2) (v : Word) : State :=
  if (s.pkg.boxes[link]).busy || !v.getLsbD 0 then s
  else
    let s := s.updBox link fun b => { b with busy := true }
    State.pumpFuel 2 { s with pkg := { s.pkg with waiting := s.pkg.waiting ++ [link] } }

/-- A write to the PF of a link: only a write of a register's whole width acts (log entry 31), and MBBUF takes any part. -/
def State.pfWrite (s : State) (link : Fin 2) (off size : Nat) (v : Word) : Option State :=
  match pfReg off with
  | .bringst | .mgmterr | .pwrstat | .tsens _ _ => some s
  | .pwrctl => none
  | .thstat d => some (if size = 4 ∧ off % 4 = 0 then s.setHeat d (s.pkg.heat[d].clear v) else s)
  | .mbctl => some (if size = 8 ∧ off = 0x10000 then s.mailboxGo link v else s)
  | .mbbuf o =>
    some (if (s.pkg.boxes[link]).busy then s
      else s.updBox link fun b => { b with buf := patchBuf b.buf o ((bytesOf size v.toNat).take (4096 - o)) })
  | .unassigned => some s.countUnassigned

/-! ## A virtual function's registers (Tables 3-3, 3-4) -/

/-- STATE as VDSTAT shows it. -/
def VdState.code : VdState → Nat
  | .running => 0
  | .paused => 1
  | .migrating => 2
  | .resetting => 3

/-- A VD register, by its offset from 1000h divided by 8, as it reads. -/
def Vd.regRead (d : Vd) (v : Nat) (i : Nat) : Word :=
  let r := d.regs
  match i with
  | 0 => BitVec.ofNat 64 (v % 64 + VdState.code d.state * 64 + d.gen.toNat * 256 + d.link.val * 2 ^ 24)
  | 1 => r.acc
  | 2 => BitVec.ofNat 64 (r.rej.toNat + r.drop.toNat * 2 ^ 32 + r.last.toNat * 2 ^ 48)
  | 3 => BitVec.ofNat 64 (r.evhdl.toNat + r.evoff.toNat * 2 ^ 32)
  | 4 => BitVec.ofNat 64 (r.log2n + r.modus.toNat * 256 + (if r.en then 65536 else 0))
  | 5 => r.head.setWidth 64
  | 6 => r.tail.setWidth 64
  | 7 => BitVec.ofNat 64 (r.stale.toNat + r.lost.toNat * 2 ^ 32)
  | 8 => BitVec.ofNat 64 (digits 8 (fun k => if h : k < 8 then (r.vec[k]).toNat else 0) 8)
  | 9 => BitVec.ofNat 64 (r.win.toNat * 2 ^ 32)
  | _ => 0

/-- A write of a VD register that has no row of its own (Table 3-4). -/
def VdRegs.write (r : VdRegs) (i : Nat) (v : Word) : VdRegs :=
  match i with
  | 3 => if r.en then r else { r with evhdl := v.setWidth 32, evoff := (v >>> 32).setWidth 32 &&& 0xFFFFF000 }
  | 4 =>
    let n := (v &&& 31).toNat
    { r with
      log2n := if r.en then r.log2n else if 6 ≤ n ∧ n ≤ 16 then n else 6
      modus := (v >>> 8).setWidth 8
      en := v.getLsbD 16 }
  | 8 => { r with vec := Vector.ofFn fun k => v.extractLsb' (8 * k.val) 6 }
  | 9 => { r with win := (v >>> 32).setWidth 9 }
  | _ => r

/-- An entry of the MSI-X table as it stands; masked where the host has not written it (log entry 12). -/
def Vd.msixAtEntry (d : Vd) (k : Nat) : MsixEntry := (lookup k d.msix).getD ⟨0, 0, 1⟩

/-- An MSI-X entry's 16 bytes. -/
def MsixEntry.bytes (e : MsixEntry) : List Byte := bytesOf 8 e.addr.toNat ++ bytesOf 4 e.data.toNat ++ bytesOf 4 e.ctl.toNat

/-- Whether a vector is masked. -/
def Vd.masked (d : Vd) (k : Nat) : Bool := (d.msixAtEntry k).ctl.getLsbD 0

/-- The pending bit array: a vector that has a message to send is pending (log entry 12). -/
def Vd.pba (d : Vd) : BitVec 64 := d.msgs.foldl (fun p m => p ||| BitVec.twoPow 64 m.2.toNat) 0

/-- A record's message joins those to be sent; a masked vector that is pending takes no second one (log entry 12). -/
def Vd.owe (d : Vd) (cls : Fin 8) : Vd :=
  let vec := d.regs.vec[cls]
  if d.masked vec.toNat && d.msgs.any (fun m => m.2 == vec) then d else { d with msgs := d.msgs ++ [(cls, vec)] }

/-- A write within one entry of the MSI-X table. -/
def Vd.msixWrite (d : Vd) (o size : Nat) (v : Word) : Vd :=
  let b := patchBuf (d.msixAtEntry (o / 16)).bytes (o % 16) (bytesOf size v.toNat)
  { d with msix := put (o / 16) ⟨BitVec.ofNat 64 (fieldAt b 0 8), BitVec.ofNat 32 (fieldAt b 8 4), BitVec.ofNat 32 (fieldAt b 12 4) &&& 1⟩ d.msix }

/-- What a read of BAR 0 of a VF returns (R35, R37): all ones from a function that no VD is bound to, and from a read of a VD
register of another width or alignment. -/
def State.vfRead (s : State) (link : Fin 2) (n : Fin 64) (off size : Nat) : List Byte :=
  match s.vdOfVf link n with
  | none => List.replicate size 0xFF
  | some v =>
    match s.vd? v with
    | none => List.replicate size 0xFF
    | some d =>
      if off < 0x1000 then List.replicate size 0
      else if off < 0x1050 then
        if size = 8 ∧ off % 8 = 0 then bytesOf 8 (d.regRead v ((off - 0x1000) / 8)).toNat else List.replicate size 0xFF
      else if 0x2000 ≤ off ∧ off < 0x2400 then sliceBytes (d.msixAtEntry ((off - 0x2000) / 16)).bytes (off % 16) size
      else if 0x3000 ≤ off ∧ off < 0x3008 then sliceBytes (bytesOf 8 d.pba.toNat) (off - 0x3000) size
      else List.replicate size 0

/-- A write to BAR 0 of the VF of a VD; none for the parts that have rows of their own. -/
def State.vfWrite (s : State) (v off size : Nat) (x : Word) : Option State :=
  if off < 0x1000 then none
  else if off < 0x1050 then
    if size = 8 ∧ off % 8 = 0 then
      if off = 0x1030 then none
      else some (s.updVd v fun d => { d with regs := d.regs.write ((off - 0x1000) / 8) x })
    else some s
  else if 0x2000 ≤ off ∧ off < 0x2400 then
    some (if (size = 4 ∨ size = 8) ∧ off % size = 0 then s.updVd v fun d => d.msixWrite (off - 0x2000) size x else s)
  else if 0x3000 ≤ off ∧ off < 0x3008 then some s
  else some s.countUnassigned

/-- REGISTER_WRITE (R5, R34-R37). -/
def execRegisterWrite (fn : PciFn) (off size : Nat) (v : Word) (s : State) : Out :=
  if !s.pkg.on || size = 0 || decide (8 < size) then .fault .noSuchEvent
  else if !s.pkg.bring.ready then .next s
  else match fn with
    | .pf link => orFault (s.pfWrite link off size v)
    | .vf link n =>
      match s.vdOfVf link n with
      | none => .next s
      | some d => orFault (s.vfWrite d off size v)

/-- Ballast tasks get a pending slice end where the controller withholds ballast (02 R31, 05 R94). -/
def State.endBallast (s : State) : State :=
  if s.ballast then s else s.ballastCores.foldl (fun s k => s.updCore k Core.sliceEnd) s

/-- PWRCTL_WRITE (R32): through a physical function, by whom it is allowed; without EN no set point lowers a clock (R31). -/
def Pkg.writePwrctl (p : Pkg) (v : BitVec 32) : Pkg :=
  let p := { p with setpt := Min.min 2400 (v.toNat % 4096), band := v.toNat / 65536 % 256, en := v.getLsbD 24 }
  if p.en then p else p.mapCap fun _ => 140

def execPwrctlWrite (fn : PciFn) (authorised : Bool) (v : BitVec 32) (s : State) : Out :=
  let act : Bool := s.pkg.bring.ready && authorised && (match fn with
    | .pf _ => true
    | .vf _ _ => false)
  onlyIf s.pkg.on (if act then ({ s with pkg := s.pkg.writePwrctl v } : State).endBallast else s)

/-- EVTAIL_WRITE (R37): while EN is 1 only a value between TAIL and HEAD is accepted. -/
def VdRegs.writeTail (r : VdRegs) (t : BitVec 32) : VdRegs :=
  if !r.en || decide ((t - r.tail).toNat ≤ (r.head - r.tail).toNat) then { r with tail := t } else r

def execEvtailWrite (link : Fin 2) (vf : Fin 64) (v : Word) (s : State) : Out :=
  onlyIf s.pkg.on (match s.vdOfVf link vf with
    | none => s
    | some n => s.updVd n fun d => { d with regs := d.regs.writeTail (v.setWidth 32) })

/-- Whether a function's BARs are in use: a PF, or a VF bound to a VD. -/
def State.fnBound (s : State) : PciFn → Bool
  | .pf _ => true
  | .vf link n => (s.vdOfVf link n).isSome

/-- UNASSIGNED_OFFSET_ACCESS (R35). -/
def execUnassignedOffsetAccess (fn : PciFn) (s : State) : Out :=
  onlyIf (s.pkg.on && s.pkg.bring.ready && s.fnBound fn) s.countUnassigned

/-! ## BAR 2 (R38) -/

/-- All ones. -/
def allOnes (n : Nat) : List Byte := List.replicate n 0xFF

/-- An access of a VD to its HBM region through BAR 2. -/
def State.aperture (s : State) (fn : PciFn) (v va : Nat) (wr : Bool) (len : Nat) (bytes : List Byte) : State :=
  match s.xlateVd v va (if wr then .wr else .rd) with
  | .error t =>
    let s := s.raiseEvent v 3 (BitVec.ofNat 8 t.code) (bytesOf 8 va)
    if wr then s else s.send (.read fn (allOnes len))
  | .ok x =>
    if wr then s.write x.pa bytes
    else if s.poisonedRange x.pa len then s.send (.read fn [])
    else s.send (.read fn (s.read x.pa len))

/-- The largest payload of a write and the largest read request, in bytes (01 Table 1-2). -/
def requestLimit (wr : Bool) : Nat := if wr then 512 else 4096

/-- Whether an access of a VD through BAR 2 waits: its address lies in a window of the VD that a request past its re-key point holds (04
R73, R75). -/
def State.apertureWaits (s : State) (d : Vd) (va : Nat) : Bool := (d.winAt va).any fun m => s.frozenWin m.win

/-- APERTURE_ACCESS: an access lies within a naturally aligned 4 KiB, as PCI Express requests do, and within Table 1-2's sizes. One that
waits for a window request is made when the request has ended. -/
def execApertureAccess (link : Fin 2) (vf : Fin 64) (off : Nat) (wr : Bool) (len : Nat) (bytes : List Byte) (s : State) : Out :=
  let fn : PciFn := .vf link vf
  let shape : Bool := decide (0 < len) && decide (off < 2 ^ 32) && decide (off % 4096 + len ≤ 4096) && decide (len ≤ requestLimit wr) && (!wr || bytes.length == len)
  let idle (s : State) : State := if wr then s else s.send (.read fn (allOnes len))
  onlyIf (s.pkg.on && shape) (match s.vdOfVf link vf with
    | none => idle s
    | some v =>
      match s.vd? v with
      | none => idle s
      | some d =>
        let va := hbmBase + d.regs.win.toNat * 2 ^ 32 + off
        if s.apertureWaits d va then { s with deferred := s.deferred ++ [.apertureAccess link vf off wr len bytes] }
        else s.aperture fn v va wr len bytes)

/-! ## Injection (R39) -/

/-- A rejection: REJ, LAST, and an event of class 1 with the reason and the first 16 bytes of the record. -/
def State.rejectRecord (s : State) (v reason : Nat) (b : List Byte) : State :=
  (s.updVd v fun d => { d with regs := { d.regs with rej := d.regs.rej + 1, last := BitVec.ofNat 8 reason } }).raiseEvent v 1
    (BitVec.ofNat 8 reason) (b.take 16)

/-- A record dropped for lack of space or during a reset. DROP, as REJ, STALE and LOST, counts modulo 2 to its width, the model's choice
(log entry 79). -/
def Vd.drop (d : Vd) : Vd := { d with regs := { d.regs with drop := d.regs.drop + 1 } }

/-- A submission to a VD, in the order of R39. -/
def State.inject (s : State) (v : Nat) (d : Vd) (off : Nat) (b : List Byte) : State :=
  if b.length ≠ 64 ∨ off % 64 ≠ 0 then s.rejectRecord v 1 b
  else
    let c : Cont := { Cont.ofBytes b with vd := BitVec.ofNat 8 v, gen := d.gen }
    match s.recordCheck v c true with
    | some r => s.rejectRecord v r b
    | none =>
      match d.state with
      | .paused | .migrating =>
        s.updVd v fun d => if d.hold.length < 256 then { d with hold := d.hold ++ [c.toBytes] } else d.drop
      | .resetting => s.updVd v Vd.drop
      | .running => s.accept v c.toBytes

def execContinuationInjection (link : Fin 2) (vf : Fin 64) (off : Nat) (bytes : List Byte) (s : State) : Out :=
  onlyIf (s.pkg.on && decide (off < 4096)) (match s.vdOfVf link vf with
    | none => s
    | some v =>
      match s.vd? v with
      | none => s
      | some d => s.inject v d off bytes)

/-! ## Events on their way to the host (R46, R47) -/

/-- PHASE: 1 on the first pass through the area, flipping on each wrap. -/
def VdRegs.phase (r : VdRegs) : Bool := r.head.toNat / 2 ^ r.log2n % 2 == 0

/-- The 32 bytes of an event record (Table 3-10). -/
def Event.bytes (e : Event) (phase : Bool) : List Byte :=
  bytesOf 1 e.cls.toNat ++ bytesOf 1 e.code.toNat ++ bytesOf 2 e.gen.toNat
    ++ bytesOf 4 (e.seq.toNat + (if phase then 2 ^ 31 else 0)) ++ bytesOf 8 e.time.toNat ++ sliceBytes e.payload 0 16

/-- Room in the pending queue lets the class 7 event in (R47). -/
def Vd.placeLost (d : Vd) (time : Nat) : Vd :=
  if d.due7 && decide (d.pend.length < 256) then
    { d with
      pend := d.pend ++ [⟨7, 0, d.gen, d.seq, BitVec.ofNat 64 time, sliceBytes (bytesOf 4 (Min.min d.lostRun 0xFFFFFFFF)) 0 16⟩]
      seq := d.seq + 1
      lostRun := 0
      due7 := false }
  else d

/-- The oldest message of a class whose vector is not masked, in a VD that may send (R46, R47). -/
def Vd.msixDue (d : Vd) (cls : Fin 8) : Option (Fin 8 × BitVec 6) :=
  if d.state = .paused ∨ d.state = .migrating then none else d.msgs.find? fun m => m.1 == cls && !d.masked m.2.toNat

/-- The oldest pending event is delivered, or discarded as stale; none while the VD is paused or migrating, or the area cannot take
it (R47). -/
def State.deliver (s : State) (v : Nat) : Option State :=
  match s.vd? v with
  | none => none
  | some d =>
    if d.state = .paused ∨ d.state = .migrating then none
    else match d.pend, s.areaSlot v d with
      | e :: _, some (h, o) =>
        let s := s.tick
        let time := s.pkg.timeNs
        if e.gen != d.gen then
          some (s.updVd v fun d => ({ d with
            pend := d.pend.drop 1
            regs := { d.regs with stale := d.regs.stale + 1 } } : Vd).placeLost time)
        else
          let s := s.sideWrite (.handle h) o ((e.bytes d.regs.phase).map fun b => (b, false))
          some (s.updVd v fun d => (({ d with
            pend := d.pend.drop 1
            regs := { d.regs with head := d.regs.head + 1 } } : Vd).owe (Fin.ofNat 8 e.cls.toNat)).placeLost time)
      | _, _ => none

/-- EVENT_POST (R46, R47): the event is raised, and written at once where it can be. -/
def execEventPost (vd : Nat) (cls code : BitVec 8) (payload : List Byte) (s : State) : Out :=
  let s' := s.raiseEvent vd cls code payload
  onlyIf ((s.vd? vd).isSome && decide (cls.toNat < 8) && decide (payload.length ≤ 16)) ((s'.deliver vd).getD s')

/-- EVENT_PENDING_DELIVERY (R47). -/
def execEventPendingDelivery (vd : Nat) (s : State) : Out := orFault (s.deliver vd)

/-- MSIX_SEND (R46): no sooner than MODUS µs after the VF's previous message. -/
def execMsixSend (vd : Nat) (cls : Fin 8) (s : State) : Out :=
  orFault ((s.vd? vd).bind fun d => (d.msixDue cls).map fun x =>
    let s := s.tick
    let t := match d.msixAt with
      | some t => Max.max s.pkg.timeNs (t + d.regs.modus.toNat * 1000)
      | none => s.pkg.timeNs
    let s : State := { s with pkg := { s.pkg with timeNs := t } }
    let e := d.msixAtEntry x.2.toNat
    (s.updVd vd fun d => { d with msixAt := some t, msgs := d.msgs.erase x }).send
      (.msix (.vf d.link d.vf) x.2.toNat e.addr e.data))

end Sys2Proof.Machine
end

