-- ==== Sys2Proof/Machine/Mpe.lean ====
section
/-! DEFINITION. The Memory Protection Engine's own steps (04_virtual_devices_and_protected_memory.md R56, R63, R64, R68-R70): a read
with its checks, a write, and what a failed check poisons. -/

namespace Sys2Proof.Machine

/-- A dirty entry of the metadata cache may be evicted (R64): which, if any, is open. -/
def State.evictOne (s : State) : State :=
  let s' := s.draw
  match s.mpe.cache[Config.metadataVictim s.fresh]? with
  | some p => { s' with mpe := s'.mpe.evict p.1 }
  | none => s'

/-- Whether a block has been written (R63): a read of one that has not makes no check. -/
def State.writtenBlock (s : State) (blk : Nat) : Bool := countAt blk s.mpe.minor != 0 || countAt (blk / 64) s.mpe.major != 0

/-- The data frames of a domain on a die with their places in its tree (R65, R79): a VD's frame slots, or a window's frames. -/
def State.domainFrames (s : State) (o : Owner) (die : Nat) : List (Nat × Nat) :=
  match o with
  | .vd v =>
    match s.vd? v with
    | none => []
    | some d => (d.pos.filter fun p => p.1.1 == die).map fun p => (p.2, p.1.2)
  | .win w =>
    match lookup w s.wins with
    | none => []
    | some x => if x.die.val = die then (List.range x.n).map fun i => (i, x.first + i) else []

/-- The runs of blocks, as first block and length, below the counter block, node or root that covers a block (Table 4-5). -/
def State.below (s : State) (o : Owner) (blk : Nat) (k : IntegKind) : List (Nat × Nat) :=
  let die := blk * 64 / dieSpan
  let frame := blk * 64 % dieSpan / frameSize
  let whole (fs : List (Nat × Nat)) : List (Nat × Nat) := fs.map fun f => (frameBase die f.2 / 64, frameSize / 64)
  match k with
  | .data => [(blk, 1)]
  | .counter => [(blk / 64 * 64, 64)]
  | .root => whole (s.domainFrames o die)
  | .node level =>
    if level.val < 3 then
      let n := 64 * 8 ^ (level.val + 1)
      [(blk / n * n, n)]
    else
      let n := 8 ^ (level.val - 2)
      whole ((s.domainFrames o die).filter fun f => f.1 / n == s.framePlace o die frame / n)

/-- Whether an entry on the path from a block to the root registers is cached, of the levels below a bound (R64, R69). -/
def State.cachedBelow (s : State) (blk bound : Nat) : Bool :=
  (List.range bound).any fun l => match s.treeKey l blk with
    | some k => s.mpe.holds k
    | none => false

/-- Whether a read of a block makes a check of a kind (R64, R69): its data MAC always; its counter block, a node or the root registers only
where no entry from the counter block up to it is cached, as what is cached is trusted. -/
def State.checks (s : State) (blk : Nat) (k : IntegKind) : Bool :=
  match k with
  | .data => true
  | .counter => !s.cachedBelow blk 1
  | .node level => !s.cachedBelow blk (level.val + 2)
  | .root => !s.cachedBelow blk 8

/-- A read whose checks have passed leaves its counter block and the nodes it has verified in the metadata cache (R64). -/
def State.verified (s : State) (blk : Nat) : State :=
  let up := (List.range 8).takeWhile fun l => !s.cachedBelow blk (l + 1)
  { s with mpe := up.foldl (fun m l => match s.treeKey l blk with
      | some k => m.keep k false
      | none => m) s.mpe }

/-- The kind of a failure as its event states it (R70). -/
def IntegKind.code : IntegKind → Nat
  | .data => 0
  | .counter => 1
  | .node _ => 2
  | .root => 3

/-- The level of what a failure of a kind makes fail, if it is more than one block. -/
def IntegKind.level : IntegKind → Option Nat
  | .data => none
  | .counter => some 0
  | .node l => some (l.val + 1)
  | .root => some 8

/-- A failed integrity check (R70): a data block is poisoned, or every block below is and the subtree has failed; the event names
the lowest physical block of those, which is the model's choice of the first (log entry 78), and their number. -/
def State.integrityFails (s : State) (o : Owner) (blk : Nat) (k : IntegKind) : State :=
  let runs := s.below o blk k
  let first := runs.foldl (fun m r => Min.min m r.1) blk
  let n := runs.foldl (fun m r => m + r.2) 0
  let s' := match (IntegKind.level k) with
    | none => s.markPoison blk
    | some l => { s with failed := s.failed ++ (s.treeKey l blk).toList }
  s'.reportIntegrity first n (IntegKind.code k)

/-- MPE_READ of a block. A read of a reserved range or of a degraded die gives poison and tells root firmware (R56, 01 R24); so does one of the
metadata area, of which the spec says only that it is never mapped (DESIGN CHOICE, log entry 86). A check can fail only where one is made: on a block that has been written and is not poisoned yet, and of what is not trusted. -/
def execMpeRead (block : Nat) (fail : Option IntegKind) (s : State) : Out :=
  let pa := block * 64
  let dead : Bool := match physArea pa with
    | .hbmData d _ _ => s.degraded d
    | .hbmMeta _ | .reserved => true
    | _ => false
  match s.ownerOf pa, fail with
  | _, none => .next (if dead then s.send (.rootNotice 0x16 pa)
    else if s.writtenBlock block then (s.verified block).evictOne else s.evictOne)
  | some o, some k => onlyIf (!dead && !s.poisoned pa && s.writtenBlock block && s.checks block k) (s.evictOne.integrityFails o block k)
  | none, some _ => .fault .noSuchEvent

/-- Whether an access of the MPE can come to an address: no translation yields a free frame (R68). -/
def State.reachable (s : State) (pa : Nat) : Bool :=
  match physArea pa with
  | .hbmData d _ _ => s.degraded d || (s.ownerOf pa).isSome
  | _ => true

/-- MPE_WRITE of bytes within one block. -/
def execMpeWrite (addr : Nat) (bytes : List Byte) (s : State) : Out :=
  onlyIf (decide (0 < bytes.length) && decide (addr % 64 + bytes.length ≤ 64) && s.reachable addr) (s.evictOne.writeBlock addr bytes)

end Sys2Proof.Machine
end

