-- ==== Sys2Proof/Machine/Scalar.lean ====
section
/-! DEFINITION. Slot 0: integer arithmetic, compares and flags (11_isa_scalar_and_control.md R226-R236). -/

namespace Sys2Proof.Machine

/-- A slot-0 instruction that writes a scalar register with a latency and has no check (Table 11-1). -/
def State.scalar (s : State) (p : FReg) (lat : Nat) (d : SReg) (v : Word) : Out :=
  s.runSlot 0 p [] none (fun _ => .ok) fun s => { s with c := s.c.oweS lat 0 d v }

/-- A slot-0 instruction that writes a flag, latency 1. -/
def State.flagOp (s : State) (p : FReg) (d : FReg) (v : Bool) : Out :=
  s.runSlot 0 p [] none (fun _ => .ok) fun s => { s with c := s.c.oweF 0 d v }

/-- Bits [127:64] of a product of integers. -/
def highWord (x : Int) : Word := BitVec.ofInt 64 (x / (2 ^ 64 : Nat))

/-- Signed quotient and remainder of R229, truncated toward zero. -/
def quotRem (a b : Int) : Int × Int :=
  if b = 0 then (-1, a) else (a.tdiv b, a.tmod b)

/-- Unsigned quotient and remainder of R229. -/
def quotRemN (a b : Nat) : Nat × Nat := if b = 0 then (2 ^ 64 - 1, a) else (a / b, a % b)

/-! ## The ALU group (Table 11-2) -/

def execNop (s : State) : Out := .next s
def execAdd (p : FReg) (d a b : SReg) (s : State) : Out := s.scalar p 1 d (s.c.readS a + s.c.readS b)
def execSub (p : FReg) (d a b : SReg) (s : State) : Out := s.scalar p 1 d (s.c.readS a - s.c.readS b)
def execMul (p : FReg) (d a b : SReg) (s : State) : Out := s.scalar p 3 d (s.c.readS a * s.c.readS b)
def execMulh (p : FReg) (d a b : SReg) (s : State) : Out :=
  s.scalar p 3 d (highWord ((s.c.readS a).toInt * (s.c.readS b).toInt))
def execMulhn (p : FReg) (d a b : SReg) (s : State) : Out :=
  s.scalar p 3 d (highWord ((s.c.readS a).toNat * (s.c.readS b).toNat : Nat))
def execDiv (p : FReg) (d a b : SReg) (s : State) : Out :=
  s.scalar p 8 d (BitVec.ofInt 64 (quotRem (s.c.readS a).toInt (s.c.readS b).toInt).1)
def execDivn (p : FReg) (d a b : SReg) (s : State) : Out :=
  s.scalar p 8 d (BitVec.ofNat 64 (quotRemN (s.c.readS a).toNat (s.c.readS b).toNat).1)
def execRem (p : FReg) (d a b : SReg) (s : State) : Out :=
  s.scalar p 8 d (BitVec.ofInt 64 (quotRem (s.c.readS a).toInt (s.c.readS b).toInt).2)
def execRemn (p : FReg) (d a b : SReg) (s : State) : Out :=
  s.scalar p 8 d (BitVec.ofNat 64 (quotRemN (s.c.readS a).toNat (s.c.readS b).toNat).2)
def execAnd (p : FReg) (d a b : SReg) (s : State) : Out := s.scalar p 1 d (s.c.readS a &&& s.c.readS b)
def execOr (p : FReg) (d a b : SReg) (s : State) : Out := s.scalar p 1 d (s.c.readS a ||| s.c.readS b)
def execXor (p : FReg) (d a b : SReg) (s : State) : Out := s.scalar p 1 d (s.c.readS a ^^^ s.c.readS b)
def execShl (p : FReg) (d a b : SReg) (s : State) : Out :=
  s.scalar p 1 d (s.c.readS a <<< ((s.c.readS b).toNat % 64))
def execShr (p : FReg) (d a b : SReg) (s : State) : Out :=
  s.scalar p 1 d (s.c.readS a >>> ((s.c.readS b).toNat % 64))
def execSra (p : FReg) (d a b : SReg) (s : State) : Out :=
  s.scalar p 1 d ((s.c.readS a).sshiftRight ((s.c.readS b).toNat % 64))
def execMin (p : FReg) (d a b : SReg) (s : State) : Out :=
  s.scalar p 1 d (if (s.c.readS a).slt (s.c.readS b) then s.c.readS a else s.c.readS b)
def execMax (p : FReg) (d a b : SReg) (s : State) : Out :=
  s.scalar p 1 d (if (s.c.readS a).slt (s.c.readS b) then s.c.readS b else s.c.readS a)
def execMinn (p : FReg) (d a b : SReg) (s : State) : Out :=
  s.scalar p 1 d (if s.c.readS a < s.c.readS b then s.c.readS a else s.c.readS b)
def execMaxn (p : FReg) (d a b : SReg) (s : State) : Out :=
  s.scalar p 1 d (if s.c.readS a < s.c.readS b then s.c.readS b else s.c.readS a)
def execClz (p : FReg) (d a : SReg) (s : State) : Out :=
  s.scalar p 1 d (BitVec.ofNat 64 (leadZeros 64 (s.c.readS a).toNat))
def execCtz (p : FReg) (d a : SReg) (s : State) : Out :=
  s.scalar p 1 d (BitVec.ofNat 64 (trailZeros 64 (s.c.readS a).toNat))
def execPopc (p : FReg) (d a : SReg) (s : State) : Out :=
  s.scalar p 1 d (BitVec.ofNat 64 (popCount 64 (s.c.readS a).toNat))
/-- R233. -/
def execAddx (p : FReg) (d a b : SReg) (sh : Fin 8) (s : State) : Out :=
  s.scalar p 1 d (s.c.readS a + (s.c.readS b <<< sh.val))
/-- R234: the flag is read at issue. -/
def execSel (p : FReg) (d a b : SReg) (fs : FReg) (s : State) : Out :=
  s.scalar p 1 d (if s.readF fs then s.c.readS a else s.c.readS b)

/-! ## Immediate forms (R230-R232) -/

def execAddi (p : FReg) (d a : SReg) (imm : BitVec 12) (s : State) : Out := s.scalar p 1 d (s.c.readS a + imm.signExtend 64)
def execAndi (p : FReg) (d a : SReg) (imm : BitVec 12) (s : State) : Out := s.scalar p 1 d (s.c.readS a &&& imm.signExtend 64)
def execOri (p : FReg) (d a : SReg) (imm : BitVec 12) (s : State) : Out := s.scalar p 1 d (s.c.readS a ||| imm.signExtend 64)
def execXori (p : FReg) (d a : SReg) (imm : BitVec 12) (s : State) : Out := s.scalar p 1 d (s.c.readS a ^^^ imm.signExtend 64)
def execShli (p : FReg) (d a : SReg) (sh : Fin 64) (s : State) : Out := s.scalar p 1 d (s.c.readS a <<< sh.val)
def execShri (p : FReg) (d a : SReg) (sh : Fin 64) (s : State) : Out := s.scalar p 1 d (s.c.readS a >>> sh.val)
def execSrai (p : FReg) (d a : SReg) (sh : Fin 64) (s : State) : Out := s.scalar p 1 d ((s.c.readS a).sshiftRight sh.val)

/-- Bits [pos+lenm1 : pos] of a word. -/
def wordField (x : Word) (pos lenm1 : Nat) : Nat := bits x.toNat pos (lenm1 + 1)

def execExts (p : FReg) (d a : SReg) (pos lenm1 : Fin 64) (s : State) : Out :=
  s.scalar p 1 d (BitVec.ofInt 64 (sgn (lenm1.val + 1) (wordField (s.c.readS a) pos.val lenm1.val)))
def execExtz (p : FReg) (d a : SReg) (pos lenm1 : Fin 64) (s : State) : Out :=
  s.scalar p 1 d (BitVec.ofNat 64 (wordField (s.c.readS a) pos.val lenm1.val))
def execLi (p : FReg) (d : SReg) (imm : BitVec 17) (s : State) : Out := s.scalar p 1 d (imm.signExtend 64)
def execLih (p : FReg) (d : SReg) (imm : BitVec 16) (s : State) : Out :=
  s.scalar p 1 d ((s.c.readS d <<< 16) ||| imm.setWidth 64)

/-! ## Compares and flags (R235, R236) -/

def execCmp (p : FReg) (fd : FReg) (a b : SReg) (c : Cond) (s : State) : Out :=
  s.flagOp p fd (condWords c (s.c.readS a) (s.c.readS b))
def execCmpi (p : FReg) (fd : FReg) (a : SReg) (c : Cond) (imm : BitVec 9) (s : State) : Out :=
  s.flagOp p fd (condWords c (s.c.readS a) (imm.signExtend 64))
def execFset (p : FReg) (fd : FReg) (s : State) : Out := s.flagOp p fd true
def execFclr (p : FReg) (fd : FReg) (s : State) : Out := s.flagOp p fd false
def execFand (p : FReg) (fd fa fb : FReg) (s : State) : Out := s.flagOp p fd (s.readF fa && s.readF fb)
def execForr (p : FReg) (fd fa fb : FReg) (s : State) : Out := s.flagOp p fd (s.readF fa || s.readF fb)
def execFnot (p : FReg) (fd fa : FReg) (s : State) : Out := s.flagOp p fd (!s.readF fa)

end Sys2Proof.Machine
end

