-- ==== Sys2Proof/Machine/Dispatch.lean ====
section
/-! DEFINITION. The dispatch: one arm per constructor of `Instr`, each a direct call of its meaning. -/

namespace Sys2Proof.Machine

/-- The meaning of an instruction. -/
def exec (i : Instr) (s : State) : Host.Outcome State Fault Refusal :=
  match i with
  | .powerOn => Sys2Proof.Machine.execPowerOn s
  | .bringupStepComplete w => Sys2Proof.Machine.execBringupStepComplete w s
  | .bringupTimeout w => Sys2Proof.Machine.execBringupTimeout w s
  | .pcieFundamentalReset => Sys2Proof.Machine.execPcieFundamentalReset s
  | .configRequest fn => Sys2Proof.Machine.execConfigRequest fn s
  | .d2dTransferRetry a b => Sys2Proof.Machine.execD2dTransferRetry a b s
  | .d2dLinkDown a b => Sys2Proof.Machine.execD2dLinkDown a b s
  | .falythFlitReceive port sent errs => Sys2Proof.Machine.execFalythFlitReceive port sent errs s
  | .falythAckTimeout port => Sys2Proof.Machine.execFalythAckTimeout port s
  | .falythReplayLimit port => Sys2Proof.Machine.execFalythReplayLimit port s
  | .falythPhaseExit port lanes partner => Sys2Proof.Machine.execFalythPhaseExit port lanes partner s
  | .falythTrainingTimeout port => Sys2Proof.Machine.execFalythTrainingTimeout port s
  | .falythDetectRetry port seen => Sys2Proof.Machine.execFalythDetectRetry port seen s
  | .reductionResultWrite w off => Sys2Proof.Machine.execReductionResultWrite w off s
  | .reductionReject core seq => Sys2Proof.Machine.execReductionReject core seq s
  | .ethernetLinkTraining lane lanes => Sys2Proof.Machine.execEthernetLinkTraining lane lanes s
  | .thermalSample die temps => Sys2Proof.Machine.execThermalSample die temps s
  | .throttleClockStep die => Sys2Proof.Machine.execThrottleClockStep die s
  | .thermalTripClear die => Sys2Proof.Machine.execThermalTripClear die s
  | .hbmTempSample stack temp => Sys2Proof.Machine.execHbmTempSample stack temp s
  | .hbmRefresh stack bank => Sys2Proof.Machine.execHbmRefresh stack bank s
  | .powerMeasurement watts => Sys2Proof.Machine.execPowerMeasurement watts s
  | .pwrctlWrite fn authorised v => Sys2Proof.Machine.execPwrctlWrite fn authorised v s
  | .registerWrite fn off size v => Sys2Proof.Machine.execRegisterWrite fn off size v s
  | .evtailWrite link vf v => Sys2Proof.Machine.execEvtailWrite link vf v s
  | .apertureAccess link vf off wr len bytes => Sys2Proof.Machine.execApertureAccess link vf off wr len bytes s
  | .continuationInjection link vf off bytes => Sys2Proof.Machine.execContinuationInjection link vf off bytes s
  | .vdCreate link => Sys2Proof.Machine.execVdCreate link s
  | .vdDestroy link => Sys2Proof.Machine.execVdDestroy link s
  | .vdPause link => Sys2Proof.Machine.execVdPause link s
  | .vdResume link => Sys2Proof.Machine.execVdResume link s
  | .vdReset link => Sys2Proof.Machine.execVdReset link s
  | .vdMigrate link => Sys2Proof.Machine.execVdMigrate link s
  | .codePlace link vd va obj => Sys2Proof.Machine.execCodePlace link vd va obj s
  | .codeUnload link vd handle => Sys2Proof.Machine.execCodeUnload link vd handle s
  | .winCreate link => Sys2Proof.Machine.execWinCreate link s
  | .winRekey link => Sys2Proof.Machine.execWinRekey link s
  | .winFree link => Sys2Proof.Machine.execWinFree link s
  | .handleMake link => Sys2Proof.Machine.execHandleMake link s
  | .attest link vd nonce => Sys2Proof.Machine.execAttest link vd nonce s
  | .doeAttestation fn vd nonce chain => Sys2Proof.Machine.execDoeAttestation fn vd nonce chain s
  | .telemetry link => Sys2Proof.Machine.execTelemetry link s
  | .eventPost vd cls code payload => Sys2Proof.Machine.execEventPost vd cls code payload s
  | .msixSend vd cls => Sys2Proof.Machine.execMsixSend vd cls s
  | .eventPendingDelivery vd => Sys2Proof.Machine.execEventPendingDelivery vd s
  | .mpeRead block fail => Sys2Proof.Machine.execMpeRead block fail s
  | .mpeWrite addr bytes => Sys2Proof.Machine.execMpeWrite addr bytes s
  | .pageWalk va acc => Sys2Proof.Machine.execPageWalk va acc s
  | .loadDataArrival core seq => Sys2Proof.Machine.execLoadDataArrival core seq s
  | .tileGenerate vd cursor => Sys2Proof.Machine.execTileGenerate vd cursor s
  | .shepherdDispatch die => Sys2Proof.Machine.execShepherdDispatch die s
  | .counterOperation vd gen ctr op bund => Sys2Proof.Machine.execCounterOperation vd gen ctr op bund s
  | .quantumExpiry core => Sys2Proof.Machine.execQuantumExpiry core s
  | .qosWindowEnd vd => Sys2Proof.Machine.execQosWindowEnd vd s
  | .tnextAnswer core => Sys2Proof.Machine.execTnextAnswer core s
  | .copyCompletion core chan => Sys2Proof.Machine.execCopyCompletion core chan s
  | .arrayCommandCompletion cluster => Sys2Proof.Machine.execArrayCommandCompletion cluster s
  | .cbsRefill core b => Sys2Proof.Machine.execCbsRefill core b s
  | .cbinvCompletion k => Sys2Proof.Machine.execCbinvCompletion k s
  | .leaseGrant cluster => Sys2Proof.Machine.execLeaseGrant cluster s
  | .barrierArrival k => Sys2Proof.Machine.execBarrierArrival k s
  | .impreciseReport => Sys2Proof.Machine.execImpreciseReport s
  | .timerInterrupt => Sys2Proof.Machine.execTimerInterrupt s
  | .ipiInterrupt => Sys2Proof.Machine.execIpiInterrupt s
  | .debugHalt => Sys2Proof.Machine.execDebugHalt s
  | .tlbinv v => Sys2Proof.Machine.execTlbinv v s
  | .ipisend v => Sys2Proof.Machine.execIpisend v s
  | .timecmpWrite v => Sys2Proof.Machine.execTimecmpWrite v s
  | .nop => Sys2Proof.Machine.execNop s
  | .add p d a b => Sys2Proof.Machine.execAdd p d a b s
  | .sub p d a b => Sys2Proof.Machine.execSub p d a b s
  | .mul p d a b => Sys2Proof.Machine.execMul p d a b s
  | .mulh p d a b => Sys2Proof.Machine.execMulh p d a b s
  | .mulhn p d a b => Sys2Proof.Machine.execMulhn p d a b s
  | .div p d a b => Sys2Proof.Machine.execDiv p d a b s
  | .divn p d a b => Sys2Proof.Machine.execDivn p d a b s
  | .rem p d a b => Sys2Proof.Machine.execRem p d a b s
  | .remn p d a b => Sys2Proof.Machine.execRemn p d a b s
  | .and p d a b => Sys2Proof.Machine.execAnd p d a b s
  | .or p d a b => Sys2Proof.Machine.execOr p d a b s
  | .xor p d a b => Sys2Proof.Machine.execXor p d a b s
  | .shl p d a b => Sys2Proof.Machine.execShl p d a b s
  | .shr p d a b => Sys2Proof.Machine.execShr p d a b s
  | .sra p d a b => Sys2Proof.Machine.execSra p d a b s
  | .min p d a b => Sys2Proof.Machine.execMin p d a b s
  | .max p d a b => Sys2Proof.Machine.execMax p d a b s
  | .minn p d a b => Sys2Proof.Machine.execMinn p d a b s
  | .maxn p d a b => Sys2Proof.Machine.execMaxn p d a b s
  | .clz p d a => Sys2Proof.Machine.execClz p d a s
  | .ctz p d a => Sys2Proof.Machine.execCtz p d a s
  | .popc p d a => Sys2Proof.Machine.execPopc p d a s
  | .addx p d a b sh => Sys2Proof.Machine.execAddx p d a b sh s
  | .sel p d a b fs => Sys2Proof.Machine.execSel p d a b fs s
  | .addi p d a imm => Sys2Proof.Machine.execAddi p d a imm s
  | .andi p d a imm => Sys2Proof.Machine.execAndi p d a imm s
  | .ori p d a imm => Sys2Proof.Machine.execOri p d a imm s
  | .xori p d a imm => Sys2Proof.Machine.execXori p d a imm s
  | .shli p d a sh => Sys2Proof.Machine.execShli p d a sh s
  | .shri p d a sh => Sys2Proof.Machine.execShri p d a sh s
  | .srai p d a sh => Sys2Proof.Machine.execSrai p d a sh s
  | .exts p d a pos lenm1 => Sys2Proof.Machine.execExts p d a pos lenm1 s
  | .extz p d a pos lenm1 => Sys2Proof.Machine.execExtz p d a pos lenm1 s
  | .li p d imm => Sys2Proof.Machine.execLi p d imm s
  | .lih p d imm => Sys2Proof.Machine.execLih p d imm s
  | .cmp p fd a b c => Sys2Proof.Machine.execCmp p fd a b c s
  | .cmpi p fd a c imm => Sys2Proof.Machine.execCmpi p fd a c imm s
  | .fset p fd => Sys2Proof.Machine.execFset p fd s
  | .fclr p fd => Sys2Proof.Machine.execFclr p fd s
  | .fand p fd fa fb => Sys2Proof.Machine.execFand p fd fa fb s
  | .forr p fd fa fb => Sys2Proof.Machine.execForr p fd fa fb s
  | .fnot p fd fa => Sys2Proof.Machine.execFnot p fd fa s
  | .lds p d a sz sgn disp => Sys2Proof.Machine.execLds p d a sz sgn disp s
  | .ldt8 p d a arr sgn acq sc => Sys2Proof.Machine.execLdt8 p d a arr sgn acq sc s
  | .ldt16 p d a arr sgn acq sc => Sys2Proof.Machine.execLdt16 p d a arr sgn acq sc s
  | .ldt32 p d a arr sgn acq sc => Sys2Proof.Machine.execLdt32 p d a arr sgn acq sc s
  | .ldt64 p d a arr acq sc => Sys2Proof.Machine.execLdt64 p d a arr acq sc s
  | .st p t a sz rel sc disp => Sys2Proof.Machine.execSt p t a sz rel sc disp s
  | .br p off => Sys2Proof.Machine.execBr p off s
  | .brf p fa off => Sys2Proof.Machine.execBrf p fa off s
  | .jr p a => Sys2Proof.Machine.execJr p a s
  | .call p off => Sys2Proof.Machine.execCall p off s
  | .callr p a => Sys2Proof.Machine.execCallr p a s
  | .ret p => Sys2Proof.Machine.execRet p s
  | .loop p cntm1 lenm1 => Sys2Proof.Machine.execLoop p cntm1 lenm1 s
  | .loops p a lenm1 => Sys2Proof.Machine.execLoops p a lenm1 s
  | .loopp p a b lenm1 => Sys2Proof.Machine.execLoopp p a b lenm1 s
  | .lstep p d a => Sys2Proof.Machine.execLstep p d a s
  | .lbrk p => Sys2Proof.Machine.execLbrk p s
  | .waitf p mask any => Sys2Proof.Machine.execWaitf p mask any s
  | .crd p d csr => Sys2Proof.Machine.execCrd p d csr s
  | .cwr p d csr => Sys2Proof.Machine.execCwr p d csr s
  | .stqpop p d h => Sys2Proof.Machine.execStqpop p d h s
  | .amo p t a op ord sc sz64 => Sys2Proof.Machine.execAmo p t a op ord sc sz64 s
  | .cas p t a b ord sc sz64 => Sys2Proof.Machine.execCas p t a b ord sc sz64 s
  | .red p a b op ty sc => Sys2Proof.Machine.execRed p a b op ty sc s
  | .redWin p a b => Sys2Proof.Machine.execRedWin p a b s
  | .barinit p n a => Sys2Proof.Machine.execBarinit p n a s
  | .bararr p n a => Sys2Proof.Machine.execBararr p n a s
  | .barwait p n sense fb => Sys2Proof.Machine.execBarwait p n sense fb s
  | .frset p k a b => Sys2Proof.Machine.execFrset p k a b s
  | .fence p mask kind sc => Sys2Proof.Machine.execFence p mask kind sc s
  | .tspawn p a b => Sys2Proof.Machine.execTspawn p a b s
  | .tspawnWait p a b => Sys2Proof.Machine.execTspawnWait p a b s
  | .tdep p a b => Sys2Proof.Machine.execTdep p a b s
  | .tdepDec p a => Sys2Proof.Machine.execTdepDec p a s
  | .cwait p a fb => Sys2Proof.Machine.execCwait p a fb s
  | .cwaitYield p a live => Sys2Proof.Machine.execCwaitYield p a live s
  | .tsusp p live => Sys2Proof.Machine.execTsusp p live s
  | .texit p => Sys2Proof.Machine.execTexit p s
  | .tnext p => Sys2Proof.Machine.execTnext p s
  | .safept p live => Sys2Proof.Machine.execSafept p live s
  | .trap p imm => Sys2Proof.Machine.execTrap p imm s
  | .eret p => Sys2Proof.Machine.execEret p s
  | .ebrk p => Sys2Proof.Machine.execEbrk p s
  | .isync p => Sys2Proof.Machine.execIsync p s
  | .iinv p a b => Sys2Proof.Machine.execIinv p a b s
  | .vld p d a disp => Sys2Proof.Machine.execVld p d a disp s
  | .vldt p d a arr acq sc => Sys2Proof.Machine.execVldt p d a arr acq sc s
  | .vst p src a sc rel men msk disp => Sys2Proof.Machine.execVst p src a sc rel men msk disp s
  | .vldx p d a x => Sys2Proof.Machine.execVldx p d a x s
  | .vstx p src a x men msk => Sys2Proof.Machine.execVstx p src a x men msk s
  | .vstq p src a b n => Sys2Proof.Machine.execVstq p src a b n s
  | .agset p g a => Sys2Proof.Machine.execAgset p g a s
  | .cbset p c a => Sys2Proof.Machine.execCbset p c a s
  | .cbacq p c d fb => Sys2Proof.Machine.execCbacq p c d fb s
  | .cbrel p c => Sys2Proof.Machine.execCbrel p c s
  | .vadd p m d a b ty => Sys2Proof.Machine.execVadd p m d a b ty s
  | .vsub p m d a b ty => Sys2Proof.Machine.execVsub p m d a b ty s
  | .vmul p m d a b ty => Sys2Proof.Machine.execVmul p m d a b ty s
  | .vfma p m d a b c bf => Sys2Proof.Machine.execVfma p m d a b c bf s
  | .vfms p m d a b c bf => Sys2Proof.Machine.execVfms p m d a b c bf s
  | .vmin p m d a b ty => Sys2Proof.Machine.execVmin p m d a b ty s
  | .vmax p m d a b ty => Sys2Proof.Machine.execVmax p m d a b ty s
  | .vabs p m d a ty => Sys2Proof.Machine.execVabs p m d a ty s
  | .vneg p m d a ty => Sys2Proof.Machine.execVneg p m d a ty s
  | .vand p m d a b => Sys2Proof.Machine.execVand p m d a b s
  | .vor p m d a b => Sys2Proof.Machine.execVor p m d a b s
  | .vxor p m d a b => Sys2Proof.Machine.execVxor p m d a b s
  | .vnot p m d a => Sys2Proof.Machine.execVnot p m d a s
  | .vshl p m d a b ty => Sys2Proof.Machine.execVshl p m d a b ty s
  | .vshr p m d a b ty => Sys2Proof.Machine.execVshr p m d a b ty s
  | .vsra p m d a b ty => Sys2Proof.Machine.execVsra p m d a b ty s
  | .vcmp p md a b c ty => Sys2Proof.Machine.execVcmp p md a b c ty s
  | .vsel p m d a b k => Sys2Proof.Machine.execVsel p m d a b k s
  | .vmov p m d a => Sys2Proof.Machine.execVmov p m d a s
  | .vbc p m d a k ty => Sys2Proof.Machine.execVbc p m d a k ty s
  | .vperm p m d a b ty => Sys2Proof.Machine.execVperm p m d a b ty s
  | .vrot p m d a k ty => Sys2Proof.Machine.execVrot p m d a k ty s
  | .vshuf p m d a b ty => Sys2Proof.Machine.execVshuf p m d a b ty s
  | .vred p m d a op ty => Sys2Proof.Machine.execVred p m d a op ty s
  | .vscan p m d a op excl ty => Sys2Proof.Machine.execVscan p m d a op excl ty s
  | .vext p d a k ty => Sys2Proof.Machine.execVext p d a k ty s
  | .vexp2 p m d a => Sys2Proof.Machine.execVexp2 p m d a s
  | .vlog2 p m d a => Sys2Proof.Machine.execVlog2 p m d a s
  | .vrcp p m d a => Sys2Proof.Machine.execVrcp p m d a s
  | .vrsq p m d a => Sys2Proof.Machine.execVrsq p m d a s
  | .vcvt p m d a sat part ts td => Sys2Proof.Machine.execVcvt p m d a sat part ts td s
  | .vxpand p m d a src hi => Sys2Proof.Machine.execVxpand p m d a src hi s
  | .vmx p m d a b ty => Sys2Proof.Machine.execVmx p m d a b ty s
  | .vqz p m d a b n => Sys2Proof.Machine.execVqz p m d a b n s
  | .vdq p m d a b n => Sys2Proof.Machine.execVdq p m d a b n s
  | .vdiff p md a b ty => Sys2Proof.Machine.execVdiff p md a b ty s
  | .vcompact p m d a b k => Sys2Proof.Machine.execVcompact p m d a b k s
  | .vexpand p m d a b k => Sys2Proof.Machine.execVexpand p m d a b k s
  | .vpopc p m d a ty => Sys2Proof.Machine.execVpopc p m d a ty s
  | .vclz p m d a ty => Sys2Proof.Machine.execVclz p m d a ty s
  | .vtrp p a rst => Sys2Proof.Machine.execVtrp p a rst s
  | .vtrc p m d rst => Sys2Proof.Machine.execVtrc p m d rst s
  | .mset p d a => Sys2Proof.Machine.execMset p d a s
  | .mand p d x y => Sys2Proof.Machine.execMand p d x y s
  | .mor p d x y => Sys2Proof.Machine.execMor p d x y s
  | .mnot p d x => Sys2Proof.Machine.execMnot p d x s
  | .lease p => Sys2Proof.Machine.execLease p s
  | .lfree p => Sys2Proof.Machine.execLfree p s
  | .mmd p c a b t f => Sys2Proof.Machine.execMmd p c a b t f s
  | .tbld p n a b t => Sys2Proof.Machine.execTbld p n a b t s
  | .mmt p c n a b t => Sys2Proof.Machine.execMmt p c n a b t s
  | .mmtd p c n a b t => Sys2Proof.Machine.execMmtd p c n a b t s
  | .accz p c t => Sys2Proof.Machine.execAccz p c t s
  | .accld p c a tg t => Sys2Proof.Machine.execAccld p c a tg t s
  | .accst p c a ty sat t => Sys2Proof.Machine.execAccst p c a ty sat t s
  | .cbbind p n a mode t => Sys2Proof.Machine.execCbbind p n a mode t s
  | .cbfree p n => Sys2Proof.Machine.execCbfree p n s
  | .cbinv p a t => Sys2Proof.Machine.execCbinv p a t s
  | .cbpre p a => Sys2Proof.Machine.execCbpre p a s
  | .cpy p d src h t => Sys2Proof.Machine.execCpy p d src h t s
  | .cpyq p d src h t => Sys2Proof.Machine.execCpyq p d src h t s
  | .cpyd p d src h t => Sys2Proof.Machine.execCpyd p d src h t s
  | .cpym p d src h t => Sys2Proof.Machine.execCpym p d src h t s
  | .cpyf p d src h t => Sys2Proof.Machine.execCpyf p d src h t s
  | .illegalSlotWord slot why word => Sys2Proof.Machine.execIllegalSlotWord slot why word s
  | .requestCompletion core seq => Sys2Proof.Machine.execRequestCompletion core seq s
  | .cbsEviction cluster key gen => Sys2Proof.Machine.execCbsEviction cluster key gen s
  | .pcieLinkTrained link => Sys2Proof.Machine.execPcieLinkTrained link s
  | .powerOff => Sys2Proof.Machine.execPowerOff s
  | .unassignedOffsetAccess fn => Sys2Proof.Machine.execUnassignedOffsetAccess fn s

end Sys2Proof.Machine
end

