-- ==== Sys2Proof/Machine/Run.lean ====
section
/-! DEFINITION. What one step does: an input of the environment, the device's own work, or the issue of a bundle by the acting core
(06 R103, R104, Table 6-1; 07 R155; 09 R186-R188, R192; 10 R203, R220, R221; 11 R253, R254). The order in which independent parties
act is the model's (log entry 1). -/

namespace Sys2Proof.Machine

/-- One outcome after another. -/
def Out.andThen (o : Out) (f : State → Out) : Out :=
  match o with
  | .next s => f s
  | .fault r => .fault r
  | .refused r => .refused r

/-- Run an event of the device: nothing of the bundle being issued outlives it. -/
def State.runEvent (s : State) (i : Instr) : Out := Out.andThen (exec i s) fun s => .next { s with iss := Issue.none }

/-! ## The turn of a core -/

/-- Another core becomes the acting one. -/
def State.turnTo (s : State) (k : Nat) : State :=
  if k = s.cur then s
  else { s with cur := k, c := s.coreAt k, others := del k (put s.cur s.c s.others), iss := Issue.none }

/-- The next core that has a task, in a round from the acting one. -/
def State.nextTurn (s : State) : Option Nat :=
  let busy := (s.others.filter fun p => p.2.task.isSome).map (·.1)
  (busy.find? fun k => decide (s.cur < k)) <|> busy.head?

/-! ## The device's own work -/

/-- The events that stand for the progress of a core's operations: its oldest request that may be performed, its oldest copy, its
TNEXT; none while its die's clocks are stopped (02 R27, R28). -/
def State.coreEvent (s : State) (k : Nat) : Option Instr :=
  if s.stopped (dieOf k) then none
  else (s.nextRequest k).map (fun r => if r.op.reads then .loadDataArrival k r.ord else .requestCompletion k r.ord)
  <|> (s.nextCopy k).map (fun h => .copyCompletion k h.id.val)
  <|> (if (s.answerTnext k).isSome then some (.tnextAnswer k) else none)

/-- A cluster's array command, fill or lease. -/
def State.clusterEvent (s : State) (m : Nat) : Option Instr :=
  if s.stopped (m / 32) then none
  else (s.nextCma m).map (fun _ => .arrayCommandCompletion m)
  <|> ((s.clusterAt m).fills.head?.map fun f => .cbsRefill f.core f.bn)
  <|> (s.leaseTo m).map fun _ => .leaseGrant m

/-- A release of a codebook that may complete. -/
def State.releaseEvent (s : State) : Option Instr :=
  (s.cbinvs.findIdx? s.invReady).map fun k => .cbinvCompletion k

/-- An event of a VD that can go to the host, and its message. -/
def State.hostEvent (s : State) : Option Instr :=
  s.vds.findSome? fun p =>
    if (s.deliver p.1).isSome then some (.eventPendingDelivery p.1)
    else ((List.finRange 8).find? fun cls => (p.2.msixDue cls).isSome).map fun cls => .msixSend p.1 cls

/-- A task that can be dispatched, or a tile that can be generated. -/
def State.shepherdEvent (s : State) : Option Instr :=
  ((List.finRange 4).find? fun die => (s.dispatchChoice die).isSome).map (fun die => Instr.shepherdDispatch die)
  <|> s.vds.findSome? fun p => (s.nextTile p.1).map fun x => .tileGenerate p.1 x.1

/-- What the device does next beside the acting core's bundles, if it has anything to do. -/
def State.autoEvent (s : State) : Option Instr :=
  (s.cur :: s.others.map (·.1)).findSome? s.coreEvent
  <|> (s.clusters.map (·.1)).findSome? s.clusterEvent
  <|> (((List.range s.arrivals.length).zip s.arrivals).find? fun p => s.arrivalDue p.1 p.2).map (fun p => .barrierArrival p.1)
  <|> s.releaseEvent
  <|> s.hostEvent
  <|> s.shepherdEvent

/-- The oldest write that some die has not applied is applied everywhere: every write is, in time (07 R138). -/
def State.applyOldest (s : State) : State :=
  match (s.late.find? (·.live)) <|> s.late.head? with
  | none => s
  | some w => s.applyAt [w.id] 0xF

/-- A copy that has requests to a peer to send, on a core whose clock runs. -/
def State.askDue (s : State) : Option (Nat × Chan) :=
  (s.cur :: s.others.map (·.1)).findSome? fun k => if s.stopped (dieOf k) then none else (s.nextAsk k).map fun h => (k, h)

/-- The device's own work; with none left, a write is applied where it was not, or the turn passes to a core that has a task. -/
def State.autoWork (s : State) : Out :=
  match s.askDue, s.autoEvent with
  | some (k, h), _ => .next { s.sendPeer k h with iss := Issue.none }
  | none, some i => s.runEvent i
  | none, none =>
    if s.late.isEmpty then
      match s.nextTurn with
      | some k => .next (s.turnTo k)
      | none => .next s
    else .next s.applyOldest

/-- Die cycles of a wait, of open number, which no counter counts (06 Table 6-1, 05 R98). -/
def State.waitOpen (s : State) : State :=
  let s' := s.draw
  { s' with c := { s'.c with dieCyc := s'.c.dieCyc + Config.freezeCycles s.fresh } }

/-- The operations that the acting core waits for go on; if none of its own can, the device works. -/
def State.goOn (s : State) : Out :=
  match s.progress s.cur with
  | some s' => .next s'
  | none => s.autoWork

/-! ## Fetch (10 R203, 07 R155, 06 R120) -/

/-- Where bundle i of the code the acting core runs lies; none at or beyond NBUND, or without a code object. -/
def State.bundleAt (s : State) (i : Nat) : Option Nat :=
  match (s.vdOf s.c).bind fun d => d.code? s.c.code with
  | some o => if i < o.nbund then some (o.va + o.off + 16 * i) else none
  | none => none

/-- The 16 bytes of a bundle in a line of the instruction cache. -/
def lineBytes (l : Nat × List Byte) (va : Nat) : List Byte := sliceBytes l.2 (va - l.1) 16

/-- The 64-byte line around a physical address, as the acting core's die sees it (07 R137); each of its 16-byte blocks wholly old or wholly
new (07 R133, R155). -/
def State.lineAt (s : State) (pa : Nat) : List Byte :=
  if s.torn.isEmpty then
    if s.late.isEmpty then s.read pa 64 else (byteRange pa 64).map (s.view (dieOf s.cur))
  else [0, 1, 2, 3].flatMap fun i => s.fetchBlock (dieOf s.cur) (pa / 16 + i)

/-- The bundle as the instruction cache gives it: from its line, from memory, or, where the two differ or the line was invalidated
since the last ISYNC, from either (R155); a line not yet held is filled. -/
def State.cachedBundle (s : State) (va pa : Nat) : State × List Byte :=
  let base := va / 64 * 64
  let fresh := s.lineAt (pa - va % 64)
  let line : Nat × List Byte := (base, fresh)
  let old := (s.c.icache.lines.find? fun l => l.1 == base) <|> s.c.icache.stale.find? fun l => l.1 == base
  let refill (s : State) : State := { s with c := { s.c with icache :=
    ⟨line :: s.c.icache.lines.filter (fun l => l.1 != base), s.c.icache.stale⟩ } }
  match old with
  | none => (refill s, lineBytes line va)
  | some l =>
    if lineBytes l va = lineBytes line va then (s, lineBytes line va)
    else if Config.staleFetch s.fresh then (s.draw, lineBytes l va)
    else (refill s.draw, lineBytes line va)

/-- The fetch of the bundle at an address: its bytes, or the trap of the translation; poison traps UE. -/
def State.fetchAt (s : State) (va : Nat) : Except Trap (State × List Byte) :=
  match s.xlateCore va .fetch with
  | .error t => .error t
  | .ok x => if s.poisoned x.pa then .error (mkTrap cUE 0 va) else .ok ((s.afterXlate x).cachedBundle va x.pa)

/-! ## Issue (06 R103; 09 R186; 11 R253) -/

/-- One phase of a bundle of several slots, slot by slot. -/
def phaseAll (ph : Phase) : List (Fin 4 × Instr) → State → Out
  | [], s => .next s
  | (k, i) :: r, s =>
    Out.andThen (exec i { s with iss := { s.iss with phase := ph, slot := k } }) fun s => phaseAll ph r s

/-- The slots of a bundle take effect. -/
def State.effectAll (s : State) (is : List (Fin 4 × Instr)) : Out := phaseAll .effect is s

/-- A bundle of several slots: its waits, then its checks, then its effects. Its bindings are made where it waits or takes effect, not where
it traps (13 R296). -/
def State.issueMany (s : State) (is : List (Fin 4 × Instr)) : Out :=
  let s : State := { s with iss := { s.iss with seen := some (s.flagsOf s.c) } }
  Out.andThen (phaseAll .waits is.reverse s) fun s =>
    if s.iss.unsat then .next (s.bindAll s.iss.binds).blockFlags
    else Out.andThen (phaseAll .checks is s) fun s =>
      match worst (s.iss.traps ++ s.bundleTraps s.iss.uses) with
      | some t => .next (s.precise t)
      | none =>
        match s.iss.blocked with
        | some w => .next (s.block w)
        | none => (s.bindAll s.iss.binds).effectAll is

/-- A bundle with an illegal slot (R186): the slots below it are checked, for one whose operands are illegal comes first. -/
def State.issueIllegal (s : State) (slot : Fin 4) (why : IllegalSub) (word : BitVec 32) (below : List (Fin 4 × Instr)) : Out :=
  Out.andThen (phaseAll .checks below { s with iss := { s.iss with seen := some (s.flagsOf s.c) } }) fun s' =>
    match worst (s'.iss.traps.filter fun t => t.code == cILLEGAL) with
    | some t => .next (s.precise t)
    | none => exec (.illegalSlotWord slot why word) s

/-- A decoded bundle issues; a LIVE that its object lacks makes its word illegal (10 R221). -/
def State.issueBundle (s : State) (b : Bundle) : Out :=
  Out.andThen (match boundLive s.liven b with
    | .illegal slot why word below => s.issueIllegal slot why word below
    | .slots [] => exec .nop s
    | .slots [(_, i)] => exec i s
    | .slots is => s.issueMany is) fun s => .next s.endBundle

/-- The acting core issues the bundle at its pc; an array command that has waited for the lease, with the operand checked then (14 R316). -/
def State.issueNext (s : State) (granted : Bool) (checked : Option (Nat × Option Nat × Option TlbEntry) := none) : Out :=
  let s : State := { s with c := { s.c with wait := none }, iss := { Issue.none with granted := granted, checked := checked } }
  match s.bundleAt s.c.pc with
  | none => s.issueBundle (.illegal 0 .opcode 0 [])
  | some va =>
    match s.fetchAt va with
    | .error t => .next { ({ s with iss := { s.iss with walk := s.misses va } } : State).precise t with iss := Issue.none }
    | .ok (s, bs) => s.issueBundle (decodeBytes bs)

/-- A bundle that waited for operations reissues, the die cycles of its stop having passed; where it must wait still, they go on. -/
def State.reissueWaiting (s : State) : Out :=
  match s.freezeOpen.issueNext false with
  | .next s' => if s'.c.wait = s.c.wait then s.goOn else .next s'
  | o => o

/-- A bundle that has not issued reissues, or keeps waiting (Table 6-1). -/
def State.issueStage (s : State) : Out :=
  match s.c.wait with
  | none => s.issueNext false
  | some (.flags seen) => if s.flagsOf s.c = seen then s.autoWork else s.waitOpen.issueNext false
  | some (.lease op) =>
    match s.c.lease with
    | .held => if s.leasePassing s.cur then s.autoWork else s.freezeOpen.issueNext true op
    | .none => .next (s.requestLease s.cur)
    | .requested =>
      if s.leaseTo (clusterOf s.cur) = some s.cur then s.runEvent (.leaseGrant (clusterOf s.cur)) else s.autoWork
  | some .landing => if s.c.landingHeld < s.c.landingLimit then s.freezeOpen.issueNext false else s.autoWork
  | some .channels | some .requests => s.reissueWaiting
  | some (.leave _) => s.autoWork

/-! ## Bundle boundaries (09 R188, R192) -/

/-- The bundle at a boundary issues, unless a poisoned result is due: that traps (11 R241). -/
def State.issueOrTrap (s : State) : Out :=
  match s.c.poisonedDue with
  | some e => .next { s.takeTrap ⟨cUE, 0, e.slot, e.eval⟩ false s.c.pc s.c.pc with iss := Issue.none }
  | none => s.issueStage

/-- What a boundary of task mode brings before the next issue, in its order. A stop other than an unsatisfied wait ends with what it waits for
or with an urgent stop: reports and interrupts come after it (06 R104). -/
def State.boundary (s : State) : Out :=
  if s.c.csr.mode then s.issueOrTrap
  else match s.c.stop with
    | some why => .next (s.leaveUrgent s.cur (.stop why))
    | none =>
      let open' := s.c.interruptible
      if open' && !s.c.reports.isEmpty then s.runEvent .impreciseReport
      else if open' && s.c.csr.ipTimer then s.runEvent .timerInterrupt
      else if open' && s.c.csr.ipIpi then s.runEvent .ipiInterrupt
      else if s.quantumDue s.cur then s.runEvent (.quantumExpiry s.cur)
      else s.issueOrTrap

/-- The results due land, their data having arrived: a stop for late data ends, die cycles of open number having passed in it; data of a
COMPAT landing are waited for (06 R104, R110, R112). -/
def State.landDue (s : State) : State :=
  let s := s.endLate
  match s.c.presence with
  | none => s
  | some w => { s with c := (if w = 0 then s.c else s.c.awaitPresence w).land s.cur }

/-- The acting core's turn: channels held in its frame are reissued before the task's first bundle (06 R118); a result due whose data have
not arrived stops it; else what is due lands, the empty cycles left pass, and the boundary comes. -/
def State.runCore (s : State) : Out :=
  if !s.c.again.isEmpty then (match s.reissueNext s.cur with
    | some s' => .next s'
    | none => s.goOn)
  else if s.c.presence.isNone then ({ s with c := { s.c with lateStop := true } } : State).goOn
  else
    let s := s.landDue
    if s.c.empty != 0 then .next { s with c := s.c.spend s.cur s.c.empty } else s.boundary

/-- The device goes on by itself: a lifecycle or window request, a core that leaves its task, the acting core, or the device's own
work. -/
def State.advance (s : State) : Out :=
  match s.lifeDue with
  | some v => .next (s.lifeTry v)
  | none =>
    if s.winDue then .next s.winTry
    else if s.stopped (dieOf s.cur) then s.autoWork
    else match s.c.task, s.c.wait with
      | none, _ => s.autoWork
      | some _, some (.leave l) =>
        let s := s.leavePrep s.cur l
        if s.leaveReady s.cur l then .next { s.endLate.retryLeave l with iss := Issue.none }
        else ({ s with c := { s.c with lateStop := s.c.lateStop || (l.followsBundle && s.c.late.isSome) } } : State).goOn
      | some _, _ => s.runCore

/-! ## What comes next -/

/-- The request of a core that an input names, if it may be performed now. -/
def State.inputReq (s : State) (core ord : Nat) : Option Req := s.performable core ord fun _ => true

/-- An input of the environment: one that has no occasion in the state stops (log entries 1, 6). -/
def State.runInput (s : State) (x : Input) : Out :=
  match x with
  | .event i => s.runEvent i
  | .turn k => .next (if k < 512 then s.turnTo k else s)
  | .go => s.advance
  | .weak k ord dies => orFault ((s.inputReq k ord).map fun r => (s.performWeak k r dies).beginCopies k)
  | .apply id die => onlyIf (s.late.any fun w => w.id == id) (s.applyAt [id] (BitVec.ofNat 4 (2 ^ die.val)))
  | .lanes k ord mask => orFault ((s.inputReq k ord).bind fun r => if r.lanes then some (s.performLanes k r mask) else none)
  | .race l =>
    let rs := l.filterMap fun p => ((s.coreAt p.1).request p.2).map fun r => (p.1, r)
    onlyIf (rs.length == l.length && decide (2 ≤ l.length) && s.mayRace rs) (s.performRace rs)
  | .chunk k chan lo n =>
    orFault (if s.stopped (dieOf k) then none
      else ((s.coreAt k).chans.find? fun h => h.id.val == chan && s.copyReady k h).map fun h => s.moveSome k h lo n)
  | .drain cl lo n => orFault ((if s.clocked cl then s.nextCma cl else none).map fun m => s.drainSome cl m.1 lo n)
  | .window id w => .next (s.register id w)
  | .pfVector link vec e => .next (s.setPfVector link vec e)

/-- One step: the next input; with none, a write that some die has not applied is applied, or the device goes on by itself. -/
def State.runStep (s : State) : Out :=
  match s.inputs with
  | x :: r => ({ s with inputs := r } : State).runInput x
  | [] => if s.late.isEmpty then s.advance else .next s.applyOldest

/-! ## A slot word placed where the next fetch finds it -/

/-- A bundle with one slot word, as its 16 bytes. -/
def bundleBytes (slot : Nat) (w : Nat) : List Byte := bytesOf 16 (w % 2 ^ 32 * 2 ^ (32 * slot))

/-- The code object that a placed word belongs to: one bundle, in the first page of a frame. -/
def probeCode : CodeObj := ⟨1, hbmBase + frameSize, 1, 0, false, [], [], [], 1, []⟩

/-- A VD of cluster 0 with a table frame and a code frame. -/
def probeVd : Vd := { Vd.fresh [] [0] [((0, 0), (0, 0)), ((0, 1), (0, 1))] with codes := [probeCode], meas2 := 0, meas2c := 0 }

/-- The continuation of the task that runs it. -/
def probeCont : Cont := ⟨1, 0, 0, 0, 0, 0xFFFF, 0, 0, 0, 0, 0, 0, 0⟩

/-- Place a word: a VD, its code object with the word as its only bundle, and a task of it at that bundle on the acting core. -/
def State.placeWord (s : State) (slot w : Nat) : State :=
  { s with
    c := { s.c with
      task := some ⟨probeCont, 0, 0, s.disp, s.c.dieCyc, 0, 0, s.disp⟩
      code := 1
      pc := 0
      wait := none
      stop := none
      reports := []
      owed := []
      csr := { s.c.csr with mode := false, ipTimer := false, ipIpi := false }
      icache := ⟨[], []⟩
      tlb := [⟨hbmBase + frameSize, false, frameSize, false, true, none⟩]
      lateStop := false
      empty := 0
      again := [] }
    vds := [(0, probeVd)]
    owners := put 0 (.vd 0) (put 1 (.vd 0) s.owners)
    mem := s.mem.setBytes frameSize (bundleBytes slot w)
    inputs := []
    late := []
    torn := []
    winOp := none
    iss := Issue.none }

end Sys2Proof.Machine
end

