-- ==== Sys2Proof/Machine/Step.lean ====
section
/-! DEFINITION. The step of the machine, and the placement of an instruction's bits where the step fetches next. -/

namespace Sys2Proof.Machine

/-- One step of the machine. -/
def step (s : State) : Host.Outcome State Fault Refusal := s.runStep

/-- The state with an instruction's bits, numbered as spec/opcode_table.json numbers them, where the acting core fetches its next
bundle (log entry 30 says how a program comes to run from reset): the word in the slot whose class takes it, the other slots NOP. -/
def State.withFetchWord (s : State) (nbits w : Nat) : State :=
  if nbits = 0 then s
  else s.placeWord (((tableSlot (w % 2 ^ 32)).map fun x => x.1.val).getD 0) w

end Sys2Proof.Machine
end

