-- ==== Sys2Proof/Safety.lean ====
section
/-! DEFINITION. What claims about runs are stated in: the outcomes of a step, runs of the device, and what a sound state is. -/

namespace Sys2Proof.Machine

/-- The outcome of a step is a next state: the machine neither stops with a fault nor meets an instruction without a meaning. -/
def Out.goesOn (o : Out) : Prop := ∃ t, o = .next t

/-- A state reached from another by steps of the machine. -/
inductive Reaches : State → State → Prop where
  | refl (s : State) : Reaches s s
  | step {s t u : State} (h : Reaches s t) (e : Sys2Proof.Machine.step t = .next u) : Reaches s u

/-- Every sparse memory of the machine stands in its canonical form. -/
def State.MemoryCanonical (s : State) : Prop := s.mem.wf = true ∧ s.ext.wf = true

/-- A property of states that a step keeps. -/
def Kept (p : State → Prop) : Prop := ∀ s t, p s → Sys2Proof.Machine.step s = .next t → p t

end Sys2Proof.Machine
end

