-- ==== Sys2Proof/Certificates/Slice0/Obligations.lean ====
section
/-! DEFINITION. The statements about the machine, for the provers: each says what a rule of spec/ says an instruction, an event or
the machine does. The definitions beside them give the spec's own tables and conditions. -/

namespace Sys2Proof.Claims
end Sys2Proof.Claims

open Sys2Proof Sys2Proof.Machine Sys2Proof.Claims

/-! ## Slot 0: scalar results -/

/-- The acting core issues a bundle of one slot: the scratch of the issue is empty, a lease that was waited for and the operand that was checked
before that wait apart. -/
def Sys2Proof.Claims.Alone (s : State) : Prop := s.iss = { Issue.none with granted := s.iss.granted, checked := s.iss.checked }

/-- Table 11-1, Table 11-2, R230-R234: predicate, destination, latency and value of a slot-0 instruction that computes a scalar. -/
def Sys2Proof.Claims.scalarResult (s : State) : Instr → Option (FReg × SReg × Nat × Word)
  | .add p d a b => some (p, d, 1, s.c.readS a + s.c.readS b)
  | .sub p d a b => some (p, d, 1, s.c.readS a - s.c.readS b)
  | .mul p d a b => some (p, d, 3, s.c.readS a * s.c.readS b)
  | .mulh p d a b => some (p, d, 3, ((s.c.readS a).signExtend 128 * (s.c.readS b).signExtend 128).extractLsb' 64 64)
  | .mulhn p d a b => some (p, d, 3, ((s.c.readS a).zeroExtend 128 * (s.c.readS b).zeroExtend 128).extractLsb' 64 64)
  | .and p d a b => some (p, d, 1, s.c.readS a &&& s.c.readS b)
  | .or p d a b => some (p, d, 1, s.c.readS a ||| s.c.readS b)
  | .xor p d a b => some (p, d, 1, s.c.readS a ^^^ s.c.readS b)
  | .shl p d a b => some (p, d, 1, s.c.readS a <<< (s.c.readS b).extractLsb' 0 6)
  | .shr p d a b => some (p, d, 1, s.c.readS a >>> (s.c.readS b).extractLsb' 0 6)
  | .sra p d a b => some (p, d, 1, (s.c.readS a).sshiftRight' ((s.c.readS b).extractLsb' 0 6))
  | .min p d a b => some (p, d, 1, if (s.c.readS a).sle (s.c.readS b) then s.c.readS a else s.c.readS b)
  | .max p d a b => some (p, d, 1, if (s.c.readS a).sle (s.c.readS b) then s.c.readS b else s.c.readS a)
  | .minn p d a b => some (p, d, 1, if (s.c.readS a).ule (s.c.readS b) then s.c.readS a else s.c.readS b)
  | .maxn p d a b => some (p, d, 1, if (s.c.readS a).ule (s.c.readS b) then s.c.readS b else s.c.readS a)
  | .clz p d a => some (p, d, 1, (s.c.readS a).clz)
  | .ctz p d a => some (p, d, 1, (s.c.readS a).ctz)
  | .popc p d a => some (p, d, 1, (s.c.readS a).cpop)
  | .sel p d a b fs => some (p, d, 1, if s.readF fs then s.c.readS a else s.c.readS b)
  | .addi p d a imm => some (p, d, 1, s.c.readS a + imm.signExtend 64)
  | .andi p d a imm => some (p, d, 1, s.c.readS a &&& imm.signExtend 64)
  | .ori p d a imm => some (p, d, 1, s.c.readS a ||| imm.signExtend 64)
  | .xori p d a imm => some (p, d, 1, s.c.readS a ^^^ imm.signExtend 64)
  | .shli p d a sh => some (p, d, 1, s.c.readS a <<< sh.val)
  | .shri p d a sh => some (p, d, 1, s.c.readS a >>> sh.val)
  | .srai p d a sh => some (p, d, 1, (s.c.readS a).sshiftRight sh.val)
  | .exts p d a pos lenm1 =>
    some (p, d, 1, (s.c.readS a <<< (63 - pos.val - lenm1.val)).sshiftRight (63 - lenm1.val))
  | .extz p d a pos lenm1 => some (p, d, 1, (s.c.readS a <<< (63 - pos.val - lenm1.val)) >>> (63 - lenm1.val))
  | .li p d imm => some (p, d, 1, imm.signExtend 64)
  | .lih p d imm => some (p, d, 1, (s.c.readS d <<< 16) ||| imm.zeroExtend 64)
  | _ => none

/-- The state in which slot 0 owes one more scalar, from the core cycle `lat` later on, and nothing else has changed. -/
def Sys2Proof.Claims.owesScalar (s : State) (lat : Nat) (d : SReg) (v : Word) : State :=
  { s with c := { s.c with
      serial := s.c.serial + 1
      owed := s.c.owed ++
        [⟨s.c.serial, s.c.csr.cycle + lat, 0, .sreg d, some (v.zeroExtend 1024), false, 0, false, 0, none, [], none⟩] } }

/-- R226, Table 11-1, Table 11-2, R230-R234: every scalar instruction but the divisions and ADDX completes, owing exactly its value
with its latency and changing nothing else. -/
def Obligations.ScalarValueIsOwed : Prop :=
  ∀ (s : State) (i : Instr) (p : FReg) (d : SReg) (lat : Nat) (v : Word),
    i.wf = true → Alone s → scalarResult s i = some (p, d, lat, v) → s.readF p = true →
    exec i s = .next (owesScalar s lat d v)

/-- R229: the quotient and remainder of DIV and REM for signed A and B. -/
def Sys2Proof.Claims.signedQuotRem (a b : Int) : Int × Int :=
  if b = 0 then (-1, a)
  else if a = -2 ^ 63 ∧ b = -1 then (-2 ^ 63, 0)
  else (a.tdiv b, a - a.tdiv b * b)

/-- R229: the quotient and remainder of DIVN and REMN for unsigned A and B. -/
def Sys2Proof.Claims.unsignedQuotRem (a b : Nat) : Nat × Nat :=
  if b = 0 then (0xFFFFFFFFFFFFFFFF, a) else (a / b, a - a / b * b)

/-- R229: division never traps and its results are fixed for every input (latency 8, Table 11-1). -/
def Obligations.DivisionNeverTrapsAndHasFixedResults : Prop :=
  ∀ (s : State) (p : FReg) (d a b : SReg), Alone s → s.readF p = true →
    (∃ v : Word, v.toInt = (signedQuotRem (s.c.readS a).toInt (s.c.readS b).toInt).1 ∧
      exec (.div p d a b) s = .next (owesScalar s 8 d v)) ∧
    (∃ v : Word, v.toInt = (signedQuotRem (s.c.readS a).toInt (s.c.readS b).toInt).2 ∧
      exec (.rem p d a b) s = .next (owesScalar s 8 d v)) ∧
    (∃ v : Word, v.toNat = (unsignedQuotRem (s.c.readS a).toNat (s.c.readS b).toNat).1 ∧
      exec (.divn p d a b) s = .next (owesScalar s 8 d v)) ∧
    (∃ v : Word, v.toNat = (unsignedQuotRem (s.c.readS a).toNat (s.c.readS b).toNat).2 ∧
      exec (.remn p d a b) s = .next (owesScalar s 8 d v))

/-- R233: ADDX has opcode 02h and its shift in FN[2:0], FN[6:3] is reserved, and it computes A + (B << sh) modulo 2^64 with
latency 1; `addx s7, s4, s5, 3` is 080E_4283h. -/
def Obligations.AddxDecodesAndAddsShifted : Prop :=
  (∀ (p : FReg) (d a b : SReg) (sh : Fin 8) (bc : SReg) (hdr : Bool) (ext : Nat),
    decodeSlot 0 bc hdr ext
        (0x02 * 2 ^ 26 + p.val * 2 ^ 22 + d.val * 2 ^ 17 + a.val * 2 ^ 12 + b.val * 2 ^ 7 + sh.val)
      = .ok (.addx p d a b sh)) ∧
  (∀ (p : FReg) (d a b : SReg) (fn : Fin 128) (bc : SReg) (hdr : Bool) (ext : Nat), 8 ≤ fn.val →
    decodeSlot 0 bc hdr ext
        (0x02 * 2 ^ 26 + p.val * 2 ^ 22 + d.val * 2 ^ 17 + a.val * 2 ^ 12 + b.val * 2 ^ 7 + fn.val)
      = .error .reserved) ∧
  decodeSlot 0 0 false 0 0x080E4283 = .ok (.addx 0 7 4 5 3) ∧
  (∀ (s : State) (p : FReg) (d a b : SReg) (sh : Fin 8), Alone s → s.readF p = true →
    exec (.addx p d a b sh) s = .next (owesScalar s 1 d (s.c.readS a + s.c.readS b * BitVec.ofNat 64 (2 ^ sh.val))))

/-- R235: the conditions of CMP and CMPI: .eq to .ge compare signed, .ltn to .gen unsigned. -/
def Sys2Proof.Claims.scalarCond : Cond → Word → Word → Bool
  | .eq, a, b => a == b
  | .ne, a, b => a != b
  | .lt, a, b => a.slt b
  | .le, a, b => a.sle b
  | .gt, a, b => b.slt a
  | .ge, a, b => b.sle a
  | .ltn, a, b => a.ult b
  | .len, a, b => a.ule b
  | .gtn, a, b => b.ult a
  | .gen, a, b => b.ule a
  | .un, _, _ => false

/-- R235, R236: predicate, destination and value of a slot-0 instruction that computes a flag. -/
def Sys2Proof.Claims.flagResult (s : State) : Instr → Option (FReg × FReg × Bool)
  | .cmp p fd a b c => some (p, fd, scalarCond c (s.c.readS a) (s.c.readS b))
  | .cmpi p fd a c imm => some (p, fd, scalarCond c (s.c.readS a) (imm.signExtend 64))
  | .fset p fd => some (p, fd, true)
  | .fclr p fd => some (p, fd, false)
  | .fand p fd fa fb => some (p, fd, s.readF fa && s.readF fb)
  | .forr p fd fa fb => some (p, fd, s.readF fa || s.readF fb)
  | .fnot p fd fa => some (p, fd, !s.readF fa)
  | _ => none

/-- R235, R236: a compare or a flag operation completes, owing its flag with latency 1 and changing nothing else. -/
def Obligations.FlagValueIsOwed : Prop :=
  ∀ (s : State) (i : Instr) (p fd : FReg) (v : Bool),
    i.wf = true → Alone s → flagResult s i = some (p, fd, v) → s.readF p = true →
    exec i s = .next { s with c := { s.c with
      serial := s.c.serial + 1
      owed := s.c.owed ++
        [⟨s.c.serial, s.c.csr.cycle + 1, 0, .flag fd, some (if v then 1 else 0), false, 0, false, 0, none, [], none⟩] } }

/-- No result is due while the next n core cycles pass. -/
def Sys2Proof.Claims.Quiet (s : State) (n : Nat) : Prop := ∀ e ∈ s.c.owed, s.c.csr.cycle + n < e.due

/-- The innermost loop level, if there is one, does not end at the present bundle. -/
def Sys2Proof.Claims.NoLoopEnd (s : State) : Prop :=
  ∀ outer l, s.c.regs.loops.levels = outer ++ [l] → l.start + l.lenM1 ≠ s.c.pc

/-- What a bundle changes in a core beside its registers, CSRs and what is owed: the pc, the cycle count, the order number, and the empty
cycles left, which it passes. -/
def Sys2Proof.Claims.OtherwiseSame (a b : Core) : Prop :=
  { a with regs := b.regs, csr := b.csr, owed := b.owed, pc := b.pc, dieCyc := b.dieCyc, serial := b.serial, wait := b.wait,
           empty := b.empty } = b

/-- The CSRs but for CYCLE, BUNDLES and what the passing of time changes: TSTAT and the pending TIMER. -/
def Sys2Proof.Claims.SameCsrsButTime (a b : Csrs) : Prop :=
  { a with cycle := b.cycle, bundles := b.bundles, tstat := b.tstat, tstatNext := b.tstatNext, ipTimer := b.ipTimer } = b

/-- R103, R105, R226: a bundle of one scalar instruction of latency 1 takes one core cycle; after it the destination holds the
value, S0 stays zero, and every other register, flag, mask, queue, latch, accumulator, CSR and byte of memory is as it was. -/
def Obligations.ScalarBundleWritesOnlyItsRegister : Prop :=
  ∀ (s : State) (i : Instr) (p : FReg) (d : SReg) (v : Word),
    i.wf = true → Alone s → scalarResult s i = some (p, d, 1, v) → s.readF p = true → Quiet s 1 → NoLoopEnd s →
    ∃ u, exec i s = .next u ∧
      (∀ r, u.endBundle.c.readS r = if r = d ∧ r ≠ 0 then v else s.c.readS r) ∧
      u.endBundle.c.pc = s.c.pc + 1 ∧
      u.endBundle.c.csr.cycle = s.c.csr.cycle + 1 ∧
      u.endBundle.c.csr.bundles = s.c.csr.bundles + 1 ∧
      u.endBundle.c.owed = s.c.owed ∧
      { u.endBundle.c.regs with s := s.c.regs.s } = s.c.regs ∧
      SameCsrsButTime u.endBundle.c.csr s.c.csr ∧
      OtherwiseSame u.endBundle.c s.c ∧
      u.endBundle = { s with c := u.endBundle.c, iss := Issue.none }

/-- The predicate of a slot instruction; none for a NOP, an illegal word and an event of the device (10 R204, R220). -/
def Sys2Proof.Claims.predOf (i : Instr) : Option FReg := (encode i).bind fun e =>
  if i = .nop then none else some (Fin.ofNat 16 (e.word / 2 ^ 22 % 16))

/-- R205: a slot whose predicate reads 0 does nothing: alone in its bundle or in any phase of a bundle of several slots, it
answers the state it was given, raising no trap. R220: nor does a NOP do anything. -/
def Obligations.SlotWithFalsePredicateDoesNothing : Prop :=
  (∀ (s : State) (i : Instr) (p : FReg), predOf i = some p → s.readF p = false → exec i s = .next s) ∧
  ∀ s : State, exec .nop s = .next s

/-! ## Slot 0: control flow -/

/-- Table 11-5, R245: predicate, whether S31 gets the link, and the target of a branch, call or return that is taken. -/
def Sys2Proof.Claims.takenTarget (s : State) : Instr → Option (FReg × Bool × BitVec 22)
  | .br p off => some (p, false, BitVec.ofNat 22 s.c.pc + off)
  | .brf p fa off => if s.readF fa then some (p, false, BitVec.ofNat 22 s.c.pc + off.signExtend 22) else none
  | .jr p a => some (p, false, (s.c.readS a).extractLsb' 0 22)
  | .call p off => some (p, true, BitVec.ofNat 22 s.c.pc + off)
  | .callr p a => some (p, true, (s.c.readS a).extractLsb' 0 22)
  | .ret p => some (p, false, (s.c.readS 31).extractLsb' 0 22)
  | _ => none

/-- R243-R245: a bundle of one taken branch, call or return takes two core cycles and counts once in BUNDLES; the next bundle is
its target, a call leaves the index of the bundle after it in S31, no loop level changes, and nothing else does. A BRF whose
condition flag reads 0 is not taken and costs nothing. That a target past either end is taken modulo 2^22 is the model's choice (log
entry 60). -/
def Obligations.TakenBranchGoesToItsTarget : Prop :=
  (∀ (s : State) (i : Instr) (p : FReg) (link : Bool) (tgt : BitVec 22),
     Alone s → takenTarget s i = some (p, link, tgt) → s.readF p = true → Quiet s 2 →
     ∃ u, exec i s = .next u ∧
       u.endBundle.c.pc = tgt.toNat ∧
       u.endBundle.c.csr.cycle = s.c.csr.cycle + 2 ∧
       u.endBundle.c.csr.bundles = s.c.csr.bundles + 1 ∧
       (∀ r, u.endBundle.c.readS r = if link ∧ r = 31 then BitVec.ofNat 64 (s.c.pc + 1) else s.c.readS r) ∧
       { u.endBundle.c.regs with s := s.c.regs.s } = s.c.regs ∧
       SameCsrsButTime u.endBundle.c.csr s.c.csr ∧
       OtherwiseSame u.endBundle.c s.c ∧
       u.endBundle = { s with c := u.endBundle.c, iss := Issue.none }) ∧
  (∀ (s : State) (p fa : FReg) (off : BitVec 18), Alone s → s.readF p = true → s.readF fa = false →
     exec (.brf p fa off) s = .next s)

/-- Table 11-7: predicate, LENM1 and the count of a loop start. -/
def Sys2Proof.Claims.loopCount (s : State) : Instr → Option (FReg × BitVec 10 × Nat)
  | .loop p cntm1 len => some (p, len, cntm1.toNat + 1)
  | .loops p a len => some (p, len, Nat.min (s.c.readS a).toNat 0xFFFFFFFF)
  | .loopp p a b len =>
    let diff := (s.c.readS b - s.c.readS a).toInt
    some (p, len, if diff ≤ 0 then 0 else if 0xFFFFFFFF < diff then 0xFFFFFFFF else diff.toNat)
  | _ => none

/-- R247: a loop start with a positive count pushes a level with the armed steps, the outermost of four levels making room, clears
ARMED, and its body's first bundle is next after one core cycle; with a count of zero it pushes nothing, clears ARMED and takes the
bundle after the body as a taken branch. -/
def Obligations.LoopStartPushesALevelOrSkipsItsBody : Prop :=
  ∀ (s : State) (i : Instr) (p : FReg) (len : BitVec 10) (n : Nat),
    Alone s → loopCount s i = some (p, len, n) → s.readF p = true → Quiet s 2 →
    ∃ u, exec i s = .next u ∧
      u.endBundle.c.regs.loops.armed = Steps.none ∧
      (0 < n →
        u.endBundle.c.regs.loops.levels =
          (if s.c.regs.loops.levels.length < 4 then s.c.regs.loops.levels else s.c.regs.loops.levels.drop 1)
            ++ [⟨s.c.pc + 1, len.toNat, n, s.c.regs.loops.armed⟩] ∧
        u.endBundle.c.pc = s.c.pc + 1 ∧ u.endBundle.c.csr.cycle = s.c.csr.cycle + 1) ∧
      (n = 0 →
        u.endBundle.c.regs.loops.levels = s.c.regs.loops.levels ∧
        u.endBundle.c.pc = s.c.pc + len.toNat + 2 ∧ u.endBundle.c.csr.cycle = s.c.csr.cycle + 2) ∧
      { u.endBundle.c.regs with loops := s.c.regs.loops } = s.c.regs ∧
      SameCsrsButTime u.endBundle.c.csr s.c.csr ∧
      OtherwiseSame u.endBundle.c s.c ∧
      u.endBundle = { s with c := u.endBundle.c, iss := Issue.none }

/-- Whether a step slot of ARMED holds a step of a destination. -/
def Sys2Proof.Claims.armsFor (d : SReg) : Option (SReg × SReg) → Bool
  | some (x, _) => x == d
  | none => false

/-- R249: what LSTEP makes of ARMED. -/
def Sys2Proof.Claims.armedAfter (x : Steps) (d a : SReg) : Steps :=
  if d = 0 ∧ a = 0 then Steps.none
  else if armsFor d x.s0 then { x with s0 := some (d, a) }
  else if armsFor d x.s1 then { x with s1 := some (d, a) }
  else if x.s0 = none then { x with s0 := some (d, a) }
  else if x.s1 = none then { x with s1 := some (d, a) }
  else ⟨x.s1, some (d, a)⟩

/-- R249: LSTEP arms its step, in its place, and changes nothing else; it names no destination. R250: LBRK pops the innermost level without
its steps, and the bundle after its END is next as a taken branch; with DEPTH 0 it does nothing and costs nothing. Their words: opcodes 21h
and 22h, every other field reserved: a word in which one is not zero is refused (Table 10-6). -/
def Obligations.LstepArmsAStepAndLbrkPopsALevel : Prop :=
  (∀ (s : State) (p : FReg) (d a : SReg), Alone s → s.readF p = true →
     exec (.lstep p d a) s = .next { s with c := { s.c with regs := { s.c.regs with
       loops := { s.c.regs.loops with armed := armedAfter s.c.regs.loops.armed d a } } } }) ∧
  (∀ (s : State) (p : FReg) (outer : List LoopLevel) (l : LoopLevel),
     Alone s → s.readF p = true → Quiet s 2 → s.c.regs.loops.levels = outer ++ [l] →
     ∃ u, exec (.lbrk p) s = .next u ∧
       u.endBundle.c.regs = { s.c.regs with loops := { s.c.regs.loops with levels := outer } } ∧
       u.endBundle.c.pc = l.start + l.lenM1 + 1 ∧
       u.endBundle.c.csr.cycle = s.c.csr.cycle + 2 ∧
       u.endBundle.c.csr.bundles = s.c.csr.bundles + 1 ∧
       SameCsrsButTime u.endBundle.c.csr s.c.csr ∧
       OtherwiseSame u.endBundle.c s.c ∧
       u.endBundle = { s with c := u.endBundle.c, iss := Issue.none }) ∧
  (∀ (s : State) (p : FReg), Alone s → s.readF p = true → s.c.regs.loops.levels = [] → exec (.lbrk p) s = .next s) ∧
  (∀ (p : FReg) (d a : SReg), (Instr.lstep p d a).dests = [] ∧
     decodeSlot 0 0 false 0 (0x21 * 2 ^ 26 + p.val * 2 ^ 22 + d.val * 2 ^ 17 + a.val * 2 ^ 12) = .ok (.lstep p d a) ∧
     decodeSlot 0 0 false 0 (0x22 * 2 ^ 26 + p.val * 2 ^ 22) = .ok (.lbrk p)) ∧
  (∀ (p : FReg) (d a : SReg) (x : Nat), 0 < x → x < 2 ^ 12 →
     decodeSlot 0 0 false 0 (0x21 * 2 ^ 26 + p.val * 2 ^ 22 + d.val * 2 ^ 17 + a.val * 2 ^ 12 + x) = .error .reserved) ∧
  (∀ (p : FReg) (x : Nat), 0 < x → x < 2 ^ 22 → decodeSlot 0 0 false 0 (0x22 * 2 ^ 26 + p.val * 2 ^ 22 + x) = .error .reserved) ∧
  decodeSlot 0 0 false 0 0x840E8000 = .ok (.lstep 0 7 8) ∧ decodeSlot 0 0 false 0 0x88000000 = .ok (.lbrk 0) ∧
  decodeSlot 0 0 false 0 0x88800000 = .ok (.lbrk 2)

/-- R248: what a register holds after the steps of a level: step 1 counts as issued after step 0. -/
def Sys2Proof.Claims.stepped (s : State) (x : Steps) (r : SReg) : Word :=
  match x.s0, x.s1 with
  | some (d0, a0), some (d1, a1) =>
    if r = d1 then s.c.readS d1 + s.c.readS a1 else if r = d0 then s.c.readS d0 + s.c.readS a0 else s.c.readS r
  | some (d0, a0), none => if r = d0 then s.c.readS d0 + s.c.readS a0 else s.c.readS r
  | none, some (d1, a1) => if r = d1 then s.c.readS d1 + s.c.readS a1 else s.c.readS r
  | none, none => s.c.readS r

/-- Whether a level has a step of a register. -/
def Sys2Proof.Claims.stepsTo (x : Steps) (r : SReg) : Bool := armsFor r x.s0 || armsFor r x.s1

/-- The register and value of a bundle of one NOP, which has none, or of one scalar instruction of latency 1 whose predicate reads 1. -/
def Sys2Proof.Claims.shortResult (s : State) (i : Instr) (w : Option (SReg × Word)) : Prop :=
  (i = .nop ∧ w = none) ∨
  ∃ p d v, i.wf = true ∧ scalarResult s i = some (p, d, 1, v) ∧ s.readF p = true ∧ w = some (d, v)

/-- R248: when a bundle of a NOP or of one scalar instruction of latency 1 ends the innermost body, the level's steps add to their
registers with sources read at issue, a step's value being kept before the instruction's result; while iterations are left COUNT goes down
and the body's first bundle is next with no empty cycle, else the level ends. -/
def Obligations.LoopEndStepsAndWraps : Prop :=
  ∀ (s : State) (outer : List LoopLevel) (l : LoopLevel) (i : Instr) (w : Option (SReg × Word)),
    Alone s → shortResult s i w → Quiet s 1 → s.c.regs.loops.levels = outer ++ [l] → l.start + l.lenM1 = s.c.pc →
    ∃ u, exec i s = .next u ∧
      (∀ r, u.endBundle.c.readS r =
        if r = 0 then 0 else if stepsTo l.steps r then stepped s l.steps r
        else match w with
          | some (d, v) => if r = d then v else s.c.readS r
          | none => s.c.readS r) ∧
      u.endBundle.c.owed = s.c.owed ∧ u.endBundle.c.csr.bundles = s.c.csr.bundles + 1 ∧
      (1 < l.count →
        u.endBundle.c.regs.loops.levels = outer ++ [{ l with count := l.count - 1 }] ∧ u.endBundle.c.pc = l.start) ∧
      (l.count ≤ 1 → u.endBundle.c.regs.loops.levels = outer ∧ u.endBundle.c.pc = s.c.pc + 1) ∧
      u.endBundle.c.csr.cycle = s.c.csr.cycle + 1 ∧
      { u.endBundle.c.regs with s := s.c.regs.s, loops := s.c.regs.loops } = s.c.regs ∧
      SameCsrsButTime u.endBundle.c.csr s.c.csr ∧
      OtherwiseSame u.endBundle.c s.c ∧
      u.endBundle = { s with c := u.endBundle.c, iss := Issue.none }

/-- R253: WAITF's condition on the flags. -/
def Sys2Proof.Claims.waitHolds (s : State) (mask : BitVec 16) (any : Bool) : Prop :=
  if any then ∃ k : FReg, mask.getLsbD k.val = true ∧ s.readFof s.c k = true
  else ∀ k : FReg, mask.getLsbD k.val = true → s.readFof s.c k = true

/-- R253: a WAITF whose condition holds lets its bundle issue with no effect of its own; one whose condition fails stops the domain,
no core cycle passing and the attempt counting in BUNDLES. -/
def Obligations.WaitfWaitsForItsFlags : Prop :=
  ∀ (s : State) (p : FReg) (mask : BitVec 16) (any : Bool), Alone s → s.readF p = true →
    (waitHolds s mask any → exec (.waitf p mask any) s = .next s) ∧
    (¬ waitHolds s mask any → ∃ t, exec (.waitf p mask any) s = .next t ∧
      t.endBundle.c = { s.c with wait := some (.flags (Vector.ofFn fun k => s.readFof s.c k)),
                                 csr := { s.c.csr with bundles := s.c.csr.bundles + 1 } } ∧
      t.endBundle = { s with c := t.endBundle.c, iss := Issue.none })

/-! ## CSRs and the statistics queue -/

/-- 09 R181: the CSRs that task mode may not read. -/
def Sys2Proof.Claims.supervisorCsr (c : Csr) : Prop :=
  c = .status ∨ c = .cause ∨ c = .epc ∨ c = .eval ∨ c = .evec ∨ c = .scratch ∨ c = .timecmp ∨ c = .accown ∨ c = .accdirty

/-- What each CSR of core k reads (Tables 6-3, 6-9, 6-10, 9-1; 10 R219): its fields at their places and zero elsewhere, a write-only CSR
zero; TSTATk its newest drain that is visible (06 R129). -/
def Sys2Proof.Claims.ReadsCsrs (s : State) (k : Nat) (c : Core) : Prop :=
  let rd := s.csrValue k c
  rd .cause = c.csr.cause ∧ rd .epc = c.csr.epc ∧ rd .eval = c.csr.eval ∧ rd .evec = c.csr.evec ∧ rd .scratch = c.csr.scratch ∧
  rd .timecmp = c.csr.timecmp ∧ rd .accown = c.csr.accown ∧ rd .accdirty = c.csr.accdirty.zeroExtend 64 ∧
  rd .ipisend = 0 ∧ rd .tlbinv = 0 ∧
  (rd .status).getLsbD 0 = c.csr.mode ∧ (rd .status).getLsbD 1 = c.csr.slend ∧ (rd .status).getLsbD 8 = c.csr.ipTimer ∧
  (rd .status).getLsbD 9 = c.csr.ipIpi ∧ rd .status &&& 0xFFFFFFFFFFFFFCFC = 0 ∧
  (rd .latprof).toNat = (if c.csr.compat then 1 else 0) + 6 * 2 ^ 4 + c.csr.cfrz.toNat * 2 ^ 16 ∧
  (c.csr.tstatNext = [] → ∀ j, rd (.tstat j) = c.csr.tstat[j]) ∧
  (∀ i v at', c.csr.tstatNext = [(i, v, at')] → ∀ j, rd (.tstat j) = if j = i ∧ at' ≤ c.csr.cycle then v else c.csr.tstat[j]) ∧
  rd .cycle = BitVec.ofNat 64 c.csr.cycle ∧ rd .bundles = BitVec.ofNat 64 c.csr.bundles ∧
  rd .freezecnt = BitVec.ofNat 64 c.csr.freezecnt ∧ rd .bankstall = BitVec.ofNat 64 c.csr.bankstall ∧
  (c.regs.stq.length ≤ 64 → (rd .stqcnt).toNat = c.regs.stq.length + c.regs.lost.toNat * 2 ^ 16) ∧
  (∀ t, c.task = some t → rd .ctxid = t.cont.frame >>> 6 ∧
    ∀ d, s.vd? t.vd = some d → t.vd < 64 → (rd .vdid).toNat = t.vd + d.gen.toNat * 2 ^ 16) ∧
  (∀ v d l, s.ownerOfCluster (clusterOf k) = some v → s.vd? v = some d → d.globalCore l = some k → d.clusters.Nodup → k < 512 → l < 512 →
    (rd .coreid).toNat = k + l * 2 ^ 16)

/-- R255, R181, R219: CRD owes its register the CSR as it stands, its fields as their tables place them and a write-only CSR zero; in task mode
a supervisor CSR traps PRIV. CWR owes its CSR the value of its register, to be written at the end of the issue cycle; in task mode every CSR
but STQCNT traps PRIV; IPISEND makes IPI pend on the logical core it names.
Table 9-1: of a value written, reserved bits are ignored, bits written as 1 clear IPEND, a write of TIMECMP clears IPEND bit 8, a write of
TLBINV drops the translations that cover its address, or all of them for all ones (06 R121), and a read-only CSR is unchanged. -/
def Obligations.CrdReadsAndCwrWritesACsr : Prop :=
  (∀ (s : State) (p : FReg) (d : SReg) (csr : Csr), Alone s → s.readF p = true →
     (s.c.csr.mode = true ∨ ¬ supervisorCsr csr →
       exec (.crd p d csr) s = .next (owesScalar s 1 d (s.csrValue s.cur s.c csr))) ∧
     (s.c.csr.mode = false → supervisorCsr csr → exec (.crd p d csr) s = .next (s.precise ⟨cPRIV, 0, 0, 0⟩))) ∧
  (∀ (s : State) (p : FReg) (d : SReg) (csr : Csr), Alone s → s.readF p = true →
     (csr ≠ .ipisend → s.c.csr.mode = true ∨ csr = .stqcnt →
       exec (.cwr p d csr) s = .next { s with c := { s.c with
         serial := s.c.serial + 1
         owed := s.c.owed ++ [⟨s.c.serial, s.c.csr.cycle + 1, 0, .csr csr, some ((s.c.readS d).zeroExtend 1024), false, 0, false, 0,
           none, [], none⟩] } }) ∧
     (s.c.csr.mode = true → ∃ t, exec (.cwr p d .ipisend) s = .next t ∧
       (∀ v k, s.vdOf s.c = some v → v.globalCore ((s.c.readS d).toNat % 512) = some k →
         t = s.setCore k { s.coreAt k with csr := { (s.coreAt k).csr with ipIpi := true } }) ∧
       (∀ v, s.vdOf s.c = some v → v.globalCore ((s.c.readS d).toNat % 512) = none → t = s)) ∧
     (s.c.csr.mode = false → csr ≠ .stqcnt → exec (.cwr p d csr) s = .next (s.precise ⟨cPRIV, 0, 0, 0⟩))) ∧
  (∀ (s : State) (k : Nat) (c : Core), ReadsCsrs s k c) ∧
  ∀ (c : Core) (v : Word),
    (c.writeCsr .cause v).csr = { c.csr with cause := v &&& 0x03FF01FF } ∧
    (c.writeCsr .epc v).csr = { c.csr with epc := v } ∧
    (c.writeCsr .eval v).csr = { c.csr with eval := v } ∧
    (c.writeCsr .evec v).csr = { c.csr with evec := v } ∧
    (c.writeCsr .scratch v).csr = { c.csr with scratch := v } ∧
    (c.writeCsr .timecmp v).csr = { c.csr with timecmp := v, ipTimer := false } ∧
    (c.writeCsr .accown v).csr = { c.csr with accown := v &&& 0x07FFFFFFFFFFFFFF } ∧
    (c.writeCsr .accdirty v).csr = { c.csr with accdirty := v.extractLsb' 0 4 } ∧
    (c.writeCsr .latprof v).csr = { c.csr with compat := v[0] } ∧
    (c.writeCsr .stqcnt v) = { c with regs := { c.regs with lost := v.extractLsb' 16 16 } } ∧
    (c.writeCsr .status v).csr =
      { c.csr with ipTimer := c.csr.ipTimer && !v[8], ipIpi := c.csr.ipIpi && !v[9] } ∧
    (∃ l, c.writeCsr .tlbinv v = { c with tlb := l } ∧ ∀ e, e ∈ l ↔ e ∈ c.tlb ∧ v ≠ BitVec.allOnes 64 ∧ e.covers v.toNat = false) ∧
    (∀ x, x = .ctxid ∨ x = .vdid ∨ x = .coreid ∨ x = .cycle ∨ x = .bundles ∨ x = .freezecnt ∨ x = .bankstall ∨
        (∃ k, x = .tstat k) → c.writeCsr x v = c)

/-- R256: STQPOP gives the half of the oldest record that it names and only the form without H removes it; an empty queue gives 0
and is unchanged. -/
def Obligations.StqpopReadsTheOldestRecord : Prop :=
  ∀ (s : State) (p : FReg) (d : SReg), Alone s → s.readF p = true →
    (s.c.regs.stq = [] → ∀ h, exec (.stqpop p d h) s = .next (owesScalar s 1 d 0)) ∧
    (∀ r rest, s.c.regs.stq = r :: rest →
      exec (.stqpop p d true) s = .next (owesScalar s 1 d r.detail) ∧
      exec (.stqpop p d false) s =
        .next (owesScalar { s with c := { s.c with regs := { s.c.regs with stq := rest } } } 1 d
          ((r.count ++ r.kind ++ BitVec.ofNat 2 r.slot.val ++ r.bund).zeroExtend 64)))

/-! ## Loads and stores -/

/-- SZ: the bytes of an access (Table 10-5). -/
def Sys2Proof.Claims.sizeBytes : Size → Nat
  | .b1 => 1
  | .b2 => 2
  | .b4 => 4
  | .b8 => 8

/-- Bytes, the lowest first, as a number (00 R3: little-endian). -/
def Sys2Proof.Claims.leValue : List Byte → Nat
  | [] => 0
  | b :: r => b.toNat + 256 * leValue r

/-- R238, R239: the value a scalar load of n bytes gives: sign- or zero-extended. -/
def Sys2Proof.Claims.extended (bs : List Byte) (sgn : Bool) : Word :=
  if sgn then (BitVec.ofNat (8 * bs.length) (leValue bs)).signExtend 64 else BitVec.ofNat 64 (leValue bs)

/-- The n physical bytes of the acting core's own slice from a virtual address on (06 R113). -/
def Sys2Proof.Claims.sliceBytesAt (s : State) (va n : Nat) : List Nat :=
  (List.range n).map fun i => sliceBase s.cur + (va + i - sramBase) % sliceSize

/-- 06 R111: there is room for one more request and, for a timed result, one more landing entry. -/
def Sys2Proof.Claims.HasRoom (s : State) (timed : Bool) : Prop :=
  s.c.outstanding < 1024 ∧ (timed = true → s.c.landingHeld < s.c.landingLimit)

/-- The effective address of LDS, ST, VLD and VST: the base register plus a signed displacement in units of the size. -/
def Sys2Proof.Claims.effAddr (s : State) (a : SReg) (disp : Int) (unit : Nat) : Nat := (s.c.readS a + BitVec.ofInt 64 (disp * unit)).toNat

/-- t is s, but for what the acting core remembers to have read (07 R137, R146): its marks of stores read by forwarding and of writes seen;
with no request outstanding and no write that some die has not applied, it is s. -/
def Sys2Proof.Claims.readsNow (s t : State) : Prop :=
  { t with c := { t.c with lsu := s.c.lsu, seen := s.c.seen, past := s.c.past } } = s ∧
  t.c.lsu.map (fun r => { r with fwd := false }) = s.c.lsu.map (fun r => { r with fwd := false }) ∧
  (s.c.lsu = [] → s.late = [] → t = s)

/-- 06 R110, R112, 11 R238: an aligned LDS of the own slice completes, owing its register the bytes as the core sees them, extended,
after 6 core cycles, or 4 in COMPAT mode where it takes a landing entry and its data are there 6 die cycles on; poisoned bytes mark the
result, and bytes that an earlier access or fence holds are read by a request. Nothing else changes but what the core remembers to have
read (07 R146), and that changes no register, no owed result, no memory and no other core. -/
def Obligations.LdsReadsTheOwnSlice : Prop :=
  ∀ (s : State) (p : FReg) (d a : SReg) (sz : Size) (sgn : Bool) (disp : BitVec 9) (x : Xl),
    let va := effAddr s a disp.toInt (sizeBytes sz)
    let bs := sliceBytesAt s va (sizeBytes sz)
    Alone s → s.readF p = true → va % (sizeBytes sz) = 0 → s.isOwn va (sizeBytes sz) = true → s.xlateCore va .rd = .ok x →
    HasRoom s s.c.csr.compat →
    ∃ (e : Owed) (t : State), exec (.lds p d a sz sgn disp) s = .next t ∧
      e.dest = .sreg d ∧ e.ord = s.c.serial ∧ e.due = s.c.csr.cycle + (if s.c.csr.compat then 4 else 6) ∧
      e.timed = s.c.csr.compat ∧ e.present = (if s.c.csr.compat then s.c.dieCyc + 6 else 0) ∧ e.eval = BitVec.ofNat 64 va ∧
      e.recs = [] ∧
      (s.localHeld bs = false → (∀ b ∈ bs, s.poisoned b = false) →
        e.data = some ((extended (s.ownBytes bs) sgn).zeroExtend 1024) ∧ e.poison = false ∧
        readsNow { s with c := { s.c with serial := s.c.serial + 1, owed := s.c.owed ++ [e] } } t) ∧
      (s.localHeld bs = false → (∃ b ∈ bs, s.poisoned b = true) →
        e.poison = true ∧ readsNow { s with c := { s.c with serial := s.c.serial + 1, owed := s.c.owed ++ [e] } } t) ∧
      (s.localHeld bs = true →
        e.data = none ∧ ∃ r : Req, r.op = .load bs sgn [] ∧ r.ord = s.c.serial ∧ r.fwd = false ∧
          t = { s with c := { s.c with serial := s.c.serial + 1, owed := s.c.owed ++ [e], lsu := s.c.lsu ++ [r] } })

/-- The operands of a timed scalar load: predicate, destination, address register, bytes, arrival offset, signed, acquire, scope. -/
def Sys2Proof.Claims.timedLoadOf : Instr → Option (FReg × SReg × SReg × Nat × Nat × Bool × Bool × Scope2)
  | .ldt8 p d a arr sgn acq sc => some (p, d, a, 1, arr.toNat, sgn, acq, sc)
  | .ldt16 p d a arr sgn acq sc => some (p, d, a, 2, arr.toNat, sgn, acq, sc)
  | .ldt32 p d a arr sgn acq sc => some (p, d, a, 4, arr.toNat, sgn, acq, sc)
  | .ldt64 p d a arr acq sc => some (p, d, a, 8, arr.toNat, false, acq, sc)
  | _ => none

/-- The scope a timed load names. -/
def Sys2Proof.Claims.loadScope : Scope2 → Scope
  | .clu => .clu
  | .die => .die
  | .pkg => .pkg
  | .sys => .sys

/-- 06 R110, 11 R239: an aligned LDT that translates completes: its register is owed a result at its arrival offset, which takes a
landing entry, and a request for exactly its bytes goes out with its scope and its acquire mark; memory is unchanged. -/
def Obligations.LdtOwesItsResultAtItsArrivalOffset : Prop :=
  ∀ (s : State) (i : Instr) (p : FReg) (d a : SReg) (n arr : Nat) (sgn acq : Bool) (sc : Scope2) (x : Xl),
    let va := (s.c.readS a).toNat
    Alone s → timedLoadOf i = some (p, d, a, n, arr, sgn, acq, sc) → s.readF p = true → va % n = 0 →
    s.xlateCore va .rd = .ok x → HasRoom s true →
    ∃ (r : Req) (t : State), exec i s = .next t ∧
      r.op = .load ((List.range n).map fun j => x.pa + j) sgn [] ∧ r.ord = s.c.serial ∧ r.scope = loadScope sc ∧ r.acq = acq ∧
      r.rel = false ∧ r.va = BitVec.ofNat 64 va ∧ r.win = x.win ∧ r.lanes = false ∧ r.fwd = false ∧
      t = { s.afterXlate x with c := { (s.afterXlate x).c with
        serial := s.c.serial + 1
        owed := s.c.owed ++ [⟨s.c.serial, s.c.csr.cycle + arr, 0, .sreg d, none, true, 0, false, BitVec.ofNat 64 va, none, [], none⟩]
        lsu := s.c.lsu ++ [r] } }

/-- Table 11-4 row 1, R238-R240: a scalar access whose address is not a multiple of its size traps MISALIGN with the address, and
nothing is loaded, stored or reserved. -/
def Obligations.MisalignedScalarAccessTraps : Prop :=
  (∀ (s : State) (p : FReg) (d a : SReg) (sz : Size) (sgn : Bool) (disp : BitVec 9), Alone s → s.readF p = true →
    effAddr s a disp.toInt (sizeBytes sz) % (sizeBytes sz) ≠ 0 →
    exec (.lds p d a sz sgn disp) s =
      .next (s.precise ⟨cMISALIGN, 0, 0, BitVec.ofNat 64 (effAddr s a disp.toInt (sizeBytes sz))⟩)) ∧
  (∀ (s : State) (i : Instr) (p : FReg) (d a : SReg) (n arr : Nat) (sgn acq : Bool) (sc : Scope2), Alone s →
    timedLoadOf i = some (p, d, a, n, arr, sgn, acq, sc) → s.readF p = true → (s.c.readS a).toNat % n ≠ 0 →
    exec i s = .next (s.precise ⟨cMISALIGN, 0, 0, s.c.readS a⟩)) ∧
  (∀ (s : State) (p : FReg) (t a : SReg) (sz : Size) (rel : Bool) (sc : Scope) (disp : BitVec 6), Alone s → s.readF p = true →
    effAddr s a disp.toInt (sizeBytes sz) % (sizeBytes sz) ≠ 0 →
    exec (.st p t a sz rel sc disp) s =
      .next (s.precise ⟨cMISALIGN, 0, 0, BitVec.ofNat 64 (effAddr s a disp.toInt (sizeBytes sz))⟩))

/-- Byte j of a number, the lowest first. -/
def Sys2Proof.Claims.leByte (n j : Nat) : Byte := BitVec.ofNat 8 (n / 256 ^ j)

/-- 11 R240: an aligned ST that translates completes: one request enters the LSU that stores the low bytes of its register,
little-endian, at the bytes its address translates to, with its scope and release mark; no byte of memory, no register and no flag
changes until the store is performed. -/
def Obligations.StIssuesAStoreOfItsBytes : Prop :=
  ∀ (s : State) (p : FReg) (t a : SReg) (sz : Size) (rel : Bool) (sc : Scope) (disp : BitVec 6) (x : Xl),
    let va := effAddr s a disp.toInt (sizeBytes sz)
    Alone s → s.readF p = true → va % (sizeBytes sz) = 0 → s.xlateCore va .wr = .ok x → HasRoom s false →
    ∃ r : Req, r.op = .store ((List.range (sizeBytes sz)).map fun j => (x.pa + j, leByte (s.c.readS t).toNat j)) ∧
      r.ord = s.c.serial ∧ r.scope = sc ∧ r.rel = rel ∧ r.acq = false ∧ r.win = x.win ∧ r.lanes = false ∧ r.fwd = false ∧
      exec (.st p t a sz rel sc disp) s = .next { s.afterXlate x with c := { (s.afterXlate x).c with
        serial := s.c.serial + 1
        lsu := s.c.lsu ++ [r] } }

/-- A request of the core that nothing earlier holds back: it may be performed now (07 R134-R146), the clocks of its die running (02 R27); and
no copy of the core still waits for a slot of a circular buffer, which it could take then (06 R117). -/
def Sys2Proof.Claims.NextToPerform (s : State) (k : Nat) (r : Req) : Prop :=
  r ∈ (s.coreAt k).lsu ∧ s.canPerform k r = true ∧ (∀ q ∈ (s.coreAt k).lsu, q.ord = r.ord → q = r) ∧
  s.stopped (dieOf k) = false ∧ ∀ h ∈ (s.coreAt k).chans, h.held = false

/-- A physical byte that a store reaches: of a core's slice, or of an HBM data frame of a die that has its HBM, outside failed
subtrees and short of the end of its counters (04 R56, R63, R70; 01 R24); and not poisoned. -/
def Sys2Proof.Claims.StorableByte (s : State) (pa : Nat) : Prop :=
  s.poison.contains (pa / 64) = false ∧
  ((∃ core off, physArea pa = .slice core off) ∨
    ∃ die f off, physArea pa = .hbmData die f off ∧ s.degraded die = false ∧ s.failedBlock (pa / 64) = false ∧
      s.mpe.wouldWrap (pa / 64) = false)

/-- 07 R134, 11 R240: a store that is performed towards every die writes exactly its bytes: each cell reads back, on every die, every byte
outside them is as it was, and the request has left its LSU. 06 R110, 11 R239: the data of a load arrive: the result owed to it holds the
extended bytes as its die sees them, or its poison mark, every other result owed is as it was, and memory is unchanged. A die sees memory as
it is where no write waits to be applied. -/
def Obligations.PerformedRequestsWriteAndReadTheirBytes : Prop :=
  (∀ (s : State) (k base : Nat) (bs : List Byte) (r : Req), coreOk k = true → s.mem.wf = true → NextToPerform s k r →
     r.op = .store ((List.range bs.length).map fun j => (base + j, bs.getD j 0)) →
     (∀ j, j < bs.length → StorableByte s (base + j)) →
     ∃ t, exec (.requestCompletion k r.ord) s = .next t ∧
       (∀ a, t.mem.get a = if base ≤ a ∧ a < base + bs.length then bs.getD (a - base) 0 else s.mem.get a) ∧
       (∀ die j, j < bs.length → t.view die (base + j) = bs.getD j 0) ∧
       t.mem.wf = true ∧ (t.coreAt k).lsu = (s.coreAt k).lsu.filter (fun q => q.ord != r.ord) ∧
       (t.coreAt k).regs = (s.coreAt k).regs ∧ t.ext = s.ext ∧ t.vds = s.vds) ∧
  (∀ (s : State) (die a : Nat), s.late = [] → s.view die a = s.mem.get a) ∧
  (∀ (s : State) (k : Nat) (bs : List Nat) (sgn : Bool) (r : Req), coreOk k = true → NextToPerform s k r → r.op = .load bs sgn [] →
     (sgn = true → 0 < bs.length ∧ bs.length ≤ 8) →
     ∃ t, exec (.loadDataArrival k r.ord) s = .next t ∧ t.mem = s.mem ∧ t.ext = s.ext ∧ t.vds = s.vds ∧
       (t.coreAt k).regs = (s.coreAt k).regs ∧
       (t.coreAt k).lsu = (s.coreAt k).lsu.filter (fun q => q.ord != r.ord) ∧
       (t.coreAt k).owed = (s.coreAt k).owed.map fun e =>
         if e.ord = r.ord ∧ e.data = none then
           (if bs.any s.poisoned then { e with data := some 0, poison := true }
            else { e with poison := false, data := some (if sgn then (extended (bs.map (s.view (dieOf k))) true).zeroExtend 1024
              else BitVec.ofNat 1024 (leValue (bs.map (s.view (dieOf k))))) })
         else e)
/-! ## Vector operands (06 R106-R109, 12 R258) -/

/-- Whether a source is queue k, and whether it pops it. -/
def Sys2Proof.Claims.readsQueue (k : Fin 16) : VSrc → Bool
  | .q j _ => j == k
  | _ => false
def Sys2Proof.Claims.popsQueue (k : Fin 16) : VSrc → Bool
  | .q j pk => j == k && !pk
  | _ => false
/-- Whether a destination pushes queue k. -/
def Sys2Proof.Claims.pushesQueue (k : Fin 16) : Option VDst → Bool
  | some (.q j) => j == k
  | _ => false

/-- R106: the entries queue k holds after a slot's pop and push. -/
def Sys2Proof.Claims.queueAfter (s : State) (srcs : List VSrc) (dst : Option VDst) (k : Fin 16) : Nat :=
  (s.c.regs.q[k]).length - (if srcs.any (popsQueue k) then 1 else 0) + (if pushesQueue k dst then 1 else 0)

/-- A source can be read: its queue's head has landed, its latch is valid, its port's generator is valid, not done and within the
own slice or padding (R106-R108, R295); BC always can (R109). -/
def Sys2Proof.Claims.SourceReady (s : State) : VSrc → Prop
  | .q k _ => ∃ e r v, s.c.regs.q[k] = e :: r ∧ e.data = some v
  | .l k => (s.c.regs.l[k]).isSome = true
  | .p k _ => s.portTrap (portAg k) = none
  | .bc _ => True

/-- A destination can be written: a write port's generator does not trap (R108). -/
def Sys2Proof.Claims.DestReady (s : State) : Option VDst → Prop
  | some .p4 => s.portTrap 4 = none
  | some .p5 => s.portTrap 5 = none
  | _ => True

/-- The landing entries that the port reads of a slot take: one each in COMPAT mode (R111, R112; log entry 71), none otherwise. -/
def Sys2Proof.Claims.portReads (s : State) (srcs : List VSrc) : Nat :=
  if s.c.csr.compat then (srcs.filter fun x => match x with
    | .p _ _ => true
    | _ => false).length
  else 0

/-- The vector operands of a slot alone in its bundle pass every check of R106-R108, and its port reads find the landing entries they
take. -/
def Sys2Proof.Claims.OperandsReady (s : State) (srcs : List VSrc) (dst : Option VDst) : Prop :=
  (∀ x ∈ srcs, SourceReady s x) ∧ DestReady s dst ∧
  (∀ k, (srcs.any (readsQueue k) || pushesQueue k dst) = true → queueAfter s srcs dst k ≤ 4) ∧
  (0 < portReads s srcs → s.c.landingHeld + portReads s srcs ≤ s.c.landingLimit)

/-- The state with the slot's sources and destination noted, for the pops and steps at the end of the bundle. -/
def Sys2Proof.Claims.usesOperands (s : State) (slot : Fin 4) (srcs : List VSrc) (dst : Option VDst) : State :=
  { s with iss := { s.iss with uses := if srcs = [] ∧ dst = none then s.iss.uses else s.iss.uses ++ [⟨slot, srcs, dst⟩] } }

/-- R106-R108: what a vector result of a slot owes: a queue reserves an entry now and has it filled when the result is due, a
no-write-back destination only enters the latch, a write port forms its address now and drops the store where its access is padding (13
R295). -/
def Sys2Proof.Claims.owesVector (c : Core) (lat : Nat) (slot : Fin 4) (d : VDst) (e : Owed) (c' : Core) : Prop :=
  e.ord = c.serial ∧ e.due = c.csr.cycle + lat ∧ e.slot = slot ∧ e.latch = some (if slot = 1 then 0 else 1) ∧
  match d with
  | .q k => e.dest = .queue k c.serial ∧
      c' = { c with serial := c.serial + 1, owed := c.owed ++ [e],
                    regs := { c.regs with q := c.regs.q.set k (c.regs.q[k] ++ [⟨c.serial, none⟩]) } }
  | .nwb _ => e.dest = .latch ∧ c' = { c with serial := c.serial + 1, owed := c.owed ++ [e] }
  | .p4 =>
      let x := agAccess c.regs.ag[(4 : AgReg)]
      (∃ a, e.dest = .port false a x.pad ∧ (x.pad = false → a = BitVec.ofInt 64 x.addr)) ∧
      c' = { c with serial := c.serial + 1, owed := c.owed ++ [e] }
  | .p5 =>
      let x := agAccess c.regs.ag[(5 : AgReg)]
      (∃ a, e.dest = .port true a x.pad ∧ (x.pad = false → a = BitVec.ofInt 64 x.addr)) ∧
      c' = { c with serial := c.serial + 1, owed := c.owed ++ [e] }

/-- 06 R110, R112, 13 R287: an aligned VLD of the own slice owes its destination the 128 bytes as the core sees them after 6 core
cycles, 4 in COMPAT mode where its data are there 6 die cycles on, and leaves all else but what the core remembers to have read; and VLDT,
13 R288, owes it at its arrival offset and sends a request for exactly its 128 bytes, by lanes. -/
def Obligations.VectorLoadsOweTheirDestination : Prop :=
  (∀ (s : State) (p : FReg) (d : VDst) (a : SReg) (disp : BitVec 18) (x : Xl),
    let va := effAddr s a disp.toInt 128
    let bs := sliceBytesAt s va 128
    let s' := usesOperands s 1 [] (some d)
    Alone s → s.readF p = true → OperandsReady s [] (some d) → va % 128 = 0 → s.isOwn va 128 = true →
    s.xlateCore va .rd = .ok x → HasRoom s s.c.csr.compat → s.localHeld bs = false →
    (∀ b ∈ bs, s.poisoned b = false) →
    ∃ (e : Owed) (c' : Core) (t : State), exec (.vld p d a disp) s = .next t ∧ readsNow { s' with c := c' } t ∧
      owesVector s.c (if s.c.csr.compat then 4 else 6) 1 d e c' ∧ e.present = (if s.c.csr.compat then s.c.dieCyc + 6 else 0) ∧
      e.data = some (BitVec.ofNat 1024 (leValue (s.ownBytes bs))) ∧ e.poison = false ∧ e.timed = s.c.csr.compat) ∧
  (∀ (s : State) (p : FReg) (d : VDst) (a : SReg) (arr : BitVec 15) (acq : Bool) (sc : Scope2) (x : Xl),
    let va := (s.c.readS a).toNat
    let s' := (usesOperands s 1 [] (some d)).afterXlate x
    Alone s → s.readF p = true → OperandsReady s [] (some d) → va % 128 = 0 → s.xlateCore va .rd = .ok x → HasRoom s true →
    ∃ (e : Owed) (c' : Core) (r : Req), exec (.vldt p d a arr acq sc) s = .next { s' with c := { c' with lsu := s.c.lsu ++ [r] } } ∧
      owesVector s'.c arr.toNat 1 d e c' ∧ e.data = none ∧ e.timed = true ∧
      r.op = .load ((List.range 128).map fun j => x.pa + j) false [] ∧ r.ord = s.c.serial ∧ r.scope = loadScope sc ∧ r.acq = acq ∧
      r.lanes = true)

/-- The lanes a masked store writes: all of them without .men, else those whose mask bit is 1. -/
def Sys2Proof.Claims.laneStored (s : State) (men : Bool) (msk : MReg) (i : Nat) : Bool := !men || (s.c.regs.m[msk]).getLsbD i

/-- The bytes that a port source reads, if it reads any, are not poisoned, and no earlier access or fence of the core holds them. -/
def Sys2Proof.Claims.PortQuiet (s : State) : VSrc → Prop
  | .p k _ =>
    let x := agAccess s.c.regs.ag[portAg k]
    let bs := sliceBytesAt s x.addr.toNat 128
    x.pad = true ∨ ((∀ b ∈ bs, s.poisoned b = false) ∧ s.localHeld bs = false)
  | _ => True

/-- The byte address of lane i of a gather or scatter: the base plus the sign-extended lane of the index vector (13 R291). -/
def Sys2Proof.Claims.laneAddress (s : State) (a : SReg) (x : VSrc) (i : Nat) : Nat :=
  (s.c.readS a + ((s.readV 32 x).extractLsb' (32 * i) 32).signExtend 64).toNat

/-- A lane's access of the own slice passes its checks (Table 11-4). -/
def Sys2Proof.Claims.LaneOk (s : State) (acc : AccKind) (va : Nat) : Prop :=
  va % 4 = 0 ∧ s.isOwn va 4 = true ∧ ∃ x, s.xlateCore va acc = .ok x

/-- The numbers of a list, each once. -/
def Sys2Proof.Claims.distinct : List Nat → List Nat
  | [] => []
  | w :: r => if w ∈ r then distinct r else w :: distinct r

/-- 06 R115: the die cycles that the lanes' words cost: the largest count of distinct words on one of the 32 banks of the slice, less 1. -/
def Sys2Proof.Claims.bankCost (words : List Nat) : Nat :=
  (List.range 32).foldl (fun m b => Nat.max m ((distinct words).filter fun w => w % 32 == b).length) 0 - 1

/-- The 4-byte words of the own slice at some addresses. -/
def Sys2Proof.Claims.slotWords (s : State) (vas : List Nat) : List Nat := vas.map fun va => (va - s.ownBase) / 4

/-- 13 R291, 06 R115: a gather of 32 aligned words of the own slice owes its destination lane i from the word lane i of its index
vector selects; a scatter issues one store of the words of the lanes its mask selects, each at its own address. Both stop the domain for the
die cycles that their bank conflicts cost and add them to BANKSTALL. -/
def Obligations.GatherAndScatterAccessTheirLanes : Prop :=
  (∀ (s : State) (p : FReg) (d : VDst) (a : SReg) (x : VSrc),
    let words := (List.range 32).map fun i => sliceBytesAt s (laneAddress s a x i) 4
    Alone s → s.readF p = true → OperandsReady s [x] (some d) → PortQuiet s x → (∀ i < 32, LaneOk s .rd (laneAddress s a x i)) →
    HasRoom s s.c.csr.compat → (s.c.csr.compat = true → s.c.landingHeld + portReads s [x] < s.c.landingLimit) →
    s.localHeld words.flatten = false →
    (∀ b ∈ words.flatten, s.poisoned b = false) →
    ∃ (e : Owed) (c' : Core) (t : State), exec (.vldx p d a x) s = .next t ∧
      owesVector s.c (if s.c.csr.compat then 4 else 6) 1 d e c' ∧
      e.data = some (BitVec.ofNat 1024 (leValue (words.flatMap s.ownBytes))) ∧
      let stop := bankCost (slotWords s ((List.range 32).map (laneAddress s a x)))
      readsNow { usesOperands s 1 [x] (some d) with c := { c' with
        dieCyc := s.c.dieCyc + stop, csr := { s.c.csr with bankstall := s.c.csr.bankstall + stop } } } t) ∧
  (∀ (s : State) (p : FReg) (v : VSrc) (a : SReg) (x : VSrc) (men : Bool) (msk : MReg),
    let on := (List.range 32).filter (laneStored s men msk)
    Alone s → s.readF p = true → OperandsReady s [v, x] none → PortQuiet s v → PortQuiet s x →
    (∀ i ∈ on, LaneOk s .wr (laneAddress s a x i)) → HasRoom s false →
    let stop := bankCost (slotWords s (on.map (laneAddress s a x)))
    ∃ t, exec (.vstx p v a x men msk) s = .next t ∧ t.mem = s.mem ∧ t.c.regs = s.c.regs ∧ t.c.owed = s.c.owed ∧
      t.c.dieCyc = s.c.dieCyc + stop ∧ t.c.csr = { s.c.csr with bankstall := s.c.csr.bankstall + stop } ∧
      (on = [] → t.c.lsu = s.c.lsu) ∧
      (on ≠ [] → ∃ r : Req, t.c.lsu = s.c.lsu ++ [r] ∧ r.scope = .core ∧
        r.op = .store (on.flatMap fun i => (List.range 4).map fun j =>
          (sliceBase s.cur + (laneAddress s a x i + j - sramBase) % sliceSize, leByte (s.readV 32 v).toNat (4 * i + j)))))

/-- 13 R289: an aligned VST that translates issues one store: byte j of the vector at byte j of its address, for exactly the bytes of
the lanes its mask selects; no memory changes until it is performed. 13 R292: VSTQ of a live binding whose version its vector carries
stores the index block at one address and its three trailer bytes at the other, in the own slice. -/
def Obligations.VectorStoresIssueTheirBytes : Prop :=
  (∀ (s : State) (p : FReg) (v : VSrc) (a : SReg) (sc : Scope) (rel men : Bool) (msk : MReg) (disp : BitVec 11) (x : Xl),
     let va := effAddr s a disp.toInt 128
     Alone s → s.readF p = true → OperandsReady s [v] none → PortQuiet s v → va % 128 = 0 → s.xlateCore va .wr = .ok x →
     HasRoom s false →
     ∃ r : Req, r.op = .store (((List.range 128).filter fun j => laneStored s men msk (j / 4)).map fun j =>
         (x.pa + j, leByte (s.readV 32 v).toNat j)) ∧
       r.ord = s.c.serial ∧ r.scope = sc ∧ r.rel = rel ∧
       exec (.vst p v a sc rel men msk disp) s =
         .next { (usesOperands s 1 [v] none).afterXlate x with c := { (s.afterXlate x).c with
           serial := s.c.serial + 1
           lsu := s.c.lsu ++ [r] } }) ∧
  (∀ (s : State) (p : FReg) (v : VSrc) (a b : SReg) (n : BReg),
     let va := (s.c.readS a).toNat
     let vb := (s.c.readS b).toNat
     let w := 4 * (s.c.regs.b[n]).w
     Alone s → s.readF p = true → OperandsReady s [v] none → PortQuiet s v → (s.c.regs.b[n]).valid = true →
     (s.readV 32 v).extractLsb' 512 16 = (s.c.regs.b[n]).ver → va % 16 = 0 → s.isOwn va w = true → s.isOwn vb 3 = true →
     (∃ x, s.xlateCore va .wr = .ok x) → (∃ x, s.xlateCore vb .wr = .ok x) → HasRoom s false →
     ∃ r : Req, r.ord = s.c.serial ∧ r.scope = .core ∧
       r.op = .store (((List.range w).map fun j =>
           (sliceBase s.cur + (va + j - sramBase) % sliceSize, leByte (s.readV 32 v).toNat j)) ++
         (List.range 3).map fun j => (sliceBase s.cur + (vb + j - sramBase) % sliceSize, leByte (s.readV 32 v).toNat (64 + j))) ∧
       exec (.vstq p v a b n) s = .next { usesOperands s 1 [v] none with c := { s.c with
         serial := s.c.serial + 1
         lsu := s.c.lsu ++ [r] } })
/-! ## Atomics, reductions, barriers, fences, generators and circular buffers -/

/-- The bytes of an atomic. -/
def Sys2Proof.Claims.atomicBytes (sz64 : Bool) : Nat := if sz64 then 8 else 4

/-- Table 13-4: what an AMO stores for an old value x and an operand y of w bits. -/
def Sys2Proof.Claims.amoResult (op : AmoOp) {w : Nat} (x y : BitVec w) : BitVec w :=
  match op with
  | .swap => y
  | .add => x + y
  | .and => x &&& y
  | .or => x ||| y
  | .xor => x ^^^ y
  | .min => if y.slt x then y else x
  | .max => if x.slt y then y else x
  | .minn => if y.ult x then y else x
  | .maxn => if x.ult y then y else x

/-- 13 R303: an aligned AMO or CAS that translates completes: its register is owed the old value 8 core cycles later, with a landing
entry, and one request goes out that carries the operation, its operands as read at issue, its scope and its ordering. 13 R301,
R303, Table 13-4: an AMO that is performed gives its register the old value and stores the operation's result, and a CAS stores its
new value only where the old one equals the expected one; no other byte of memory changes. -/
def Obligations.AtomicsOweTheOldValueAndUpdateTheirWord : Prop :=
  (∀ (s : State) (p : FReg) (t a b : SReg) (op : AmoOp) (ord : Ord) (sc : Scope) (sz64 : Bool) (x : Xl),
     let va := (s.c.readS a).toNat
     let n := atomicBytes sz64
     let after (r : Req) : State := { s.afterXlate x with c := { (s.afterXlate x).c with
       serial := s.c.serial + 1
       owed := s.c.owed ++ [⟨s.c.serial, s.c.csr.cycle + 8, 0, .sreg t, none, true, 0, false, BitVec.ofNat 64 va, none, [], none⟩]
       lsu := s.c.lsu ++ [r] } }
     let common (r : Req) : Prop := r.ord = s.c.serial ∧ r.scope = sc ∧ (r.acq = true ↔ ord = .acq ∨ ord = .acqrel) ∧
       (r.rel = true ↔ ord = .rel ∨ ord = .acqrel) ∧ r.win = x.win
     Alone s → s.readF p = true → va % n = 0 → s.xlateCore va .wr = .ok x → HasRoom s true →
     (∃ r, common r ∧ r.op = .amo x.pa n op (s.c.readS t) ∧ exec (.amo p t a op ord sc sz64) s = .next (after r)) ∧
     (∃ r, common r ∧ r.op = .cas x.pa n (s.c.readS t) (s.c.readS b) ∧ exec (.cas p t a b ord sc sz64) s = .next (after r))) ∧
  (∀ (s : State) (k pa n : Nat) (r : Req), coreOk k = true → s.mem.wf = true → NextToPerform s k r → (n = 4 ∨ n = 8) →
     pa % n = 0 → (∀ j < n, StorableByte s (pa + j)) → s.poisoned pa = false →
     let old := BitVec.ofNat (8 * n) (leValue ((List.range n).map fun j => s.mem.get (pa + j)))
     let wrote (new : BitVec (8 * n)) (t : State) : Prop :=
       (∀ a, t.mem.get a = if pa ≤ a ∧ a < pa + n then leByte new.toNat (a - pa) else s.mem.get a) ∧
       (t.coreAt k).owed = (s.coreAt k).owed.map fun e =>
         if e.ord = r.ord ∧ e.data = none then { e with data := some (old.zeroExtend 1024), poison := false } else e
     (∀ op v, r.op = .amo pa n op v →
       ∃ t, exec (.loadDataArrival k r.ord) s = .next t ∧ wrote (amoResult op old (v.truncate (8 * n))) t) ∧
     (∀ expd new, r.op = .cas pa n expd new →
       ∃ t, exec (.loadDataArrival k r.ord) s = .next t ∧
         wrote (if old = expd.truncate (8 * n) then new.truncate (8 * n) else old) t))

/-- Table 13-4, 13 R304: what a reduction leaves in a word of its type: the operation on the old value and the operand's low bits, signed or
unsigned as the type is, a floating result rounded once. -/
def Sys2Proof.Claims.redResult (op : RedOp) (ty : RedTy) (x y : Nat) : Nat :=
  let int (w : Nat) (sg : Bool) : Nat :=
    let a := BitVec.ofNat w x
    let b := BitVec.ofNat w y
    (match op with
     | .add => a + b
     | .min => if (if sg then b.slt a else b.ult a) then b else a
     | .max => if (if sg then a.slt b else a.ult b) then b else a).toNat
  let flt (f : Fmt) : Nat :=
    fround f (match op with
      | .add => (fdec f x).add (fdec f y)
      | .min => (fdec f x).min (fdec f y)
      | .max => (fdec f x).max (fdec f y))
  match ty with
  | .s32 => int 32 true
  | .n32 => int 32 false
  | .s64 => int 64 true
  | .n64 => int 64 false
  | .f32 => flt fmtF32
  | .bf16 => flt fmtBf16

/-- 13 R304: an aligned RED that translates issues one request with its operation, type and operand and owes nothing; a RED that is
performed on a word that is not poisoned leaves the operation's result in that word, every other byte of memory and every register as it
was. 13 R305: a RED.win that passes its checks issues one contribution of its 64-byte line. -/
def Obligations.ReductionsIssueTheirRequests : Prop :=
  (∀ (s : State) (p : FReg) (a b : SReg) (op : RedOp) (ty : RedTy) (sc : Scope) (x : Xl),
    let va := (s.c.readS a).toNat
    Alone s → s.readF p = true → va % redBytes ty = 0 → s.xlateCore va .wr = .ok x → HasRoom s false →
    ∃ r : Req, r.op = .red x.pa op ty (s.c.readS b) ∧ r.ord = s.c.serial ∧ r.scope = sc ∧ r.acq = false ∧ r.rel = false ∧
      exec (.red p a b op ty sc) s = .next { s.afterXlate x with c := { (s.afterXlate x).c with
        serial := s.c.serial + 1
        lsu := s.c.lsu ++ [r] } }) ∧
  (∀ (s : State) (k pa : Nat) (op : RedOp) (ty : RedTy) (v : Word) (r : Req), coreOk k = true → s.mem.wf = true →
    NextToPerform s k r → r.op = .red pa op ty v → pa % redBytes ty = 0 → (∀ j < redBytes ty, StorableByte s (pa + j)) →
    s.poisoned pa = false →
    let old := leValue ((List.range (redBytes ty)).map fun j => s.mem.get (pa + j))
    ∃ t, exec (.requestCompletion k r.ord) s = .next t ∧
      (∀ a, t.mem.get a = if pa ≤ a ∧ a < pa + redBytes ty then leByte (redResult op ty old v.toNat) (a - pa) else s.mem.get a) ∧
      t.mem.wf = true ∧ (t.coreAt k).lsu = (s.coreAt k).lsu.filter (fun q => q.ord != r.ord) ∧
      (t.coreAt k).regs = (s.coreAt k).regs ∧ (t.coreAt k).owed = (s.coreAt k).owed ∧ t.ext = s.ext) ∧
  (∀ (s : State) (p : FReg) (a b : SReg) (l : List TlbEntry),
    let va := s.c.readS a
    let vb := s.c.readS b
    Alone s → s.readF p = true → s.winCheck va vb 0 = .ok l → HasRoom s false →
    ∃ (r : Req) (t : State), exec (.redWin p a b) s = .next t ∧ t.c.lsu = s.c.lsu ++ [r] ∧ t.c.owed = s.c.owed ∧
      t.c.regs = s.c.regs ∧ t.mem = s.mem ∧ t.ext = s.ext ∧
      r.op = .redWin va (sliceBytesAt s (s.ownBase + (vb.extractLsb' 0 21).toNat) 64) (vb.extractLsb' 32 12).toNat
        (vb.extractLsb' 48 16).toNat false)

/-- A barrier of a core as it stands. -/
def Sys2Proof.Claims.barrierOf (c : Core) (n : BarReg) : Barrier := (lookup n.val c.regs.bars).getD ⟨0, 0, false⟩

/-- 13 R306, R307: BARINIT of 1 to 4,096 above the arrivals counted sets EXPECT and nothing else; any other value traps BARBAD with
the barrier's number. R307, R308: BARARR of a logical core of the VD sends one arrival for that core's barrier, and changes nothing
else. R306: an arrival that is performed at a core's barrier is counted; the arrival that reaches EXPECT clears ARRIVED and inverts
PH instead; where ARRIVED stands at 4,095 and EXPECT is not reached it changes no barrier; arrivals wait while the clocks of the core's die
are stopped (02 R27). R307, R253: BARWAIT on an initialised barrier binds
its flag to the phase; when the phase stands the bundle issues, else the domain stops. -/
def Obligations.BarriersCountAndBindFlags : Prop :=
  (∀ (s : State) (p fb : FReg) (n : BarReg) (sense : Bool), Alone s → s.readF p = true → fb ≠ 0 → (barrierOf s.c n).expect ≠ 0 →
    let bound : State := { s with c := { s.c with regs := { s.c.regs with fbind := s.c.regs.fbind.set fb (some (.bar n sense)) } } }
    ((barrierOf s.c n).ph = sense → exec (.barwait p n sense fb) s = .next bound) ∧
    ((barrierOf s.c n).ph ≠ sense → exec (.barwait p n sense fb) s = .next bound.blockFlags)) ∧
  (∀ (s : State) (p : FReg) (n : BarReg) (a : SReg), Alone s → s.readF p = true →
     let v := (s.c.readS a).toNat
     (1 ≤ v → v ≤ 4096 → (barrierOf s.c n).arrived < v →
       ∃ t, exec (.barinit p n a) s = .next t ∧ barrierOf t.c n = { barrierOf s.c n with expect := v } ∧
         (∀ m, m ≠ n → barrierOf t.c m = barrierOf s.c m) ∧
         t = { s with c := { s.c with regs := { s.c.regs with bars := t.c.regs.bars } } }) ∧
     ((v = 0 ∨ 4096 < v ∨ v ≤ (barrierOf s.c n).arrived) →
       exec (.barinit p n a) s = .next (s.precise ⟨cBARBAD, 0, 0, BitVec.ofNat 64 n.val⟩))) ∧
  (∀ (s : State) (p : FReg) (n : BarReg) (a : SReg) (d : Vd) (k : Nat), Alone s → s.readF p = true →
     s.vdOf s.c = some d → (s.c.readS a).toNat < Nat.min 512 d.ncore → d.globalCore (s.c.readS a).toNat = some k →
     ∃ r : Req, r.op = .bararr k n ∧ r.ord = s.c.serial ∧
       exec (.bararr p n a) s = .next { s with c := { s.c with serial := s.c.serial + 1, lsu := s.c.lsu ++ [r] } }) ∧
  (∀ (s : State) (k core : Nat) (n : BarReg), s.arrivals[k]? = some (core, n) → (core, n) ∉ s.arrivals.take k →
     s.stopped (dieOf core) = false →
     let b := barrierOf (s.coreAt core) n
     ∃ t, exec (.barrierArrival k) s = .next t ∧ t.mem = s.mem ∧
       (∀ m, m ≠ n → barrierOf (t.coreAt core) m = barrierOf (s.coreAt core) m) ∧
       (b.arrived + 1 = b.expect → barrierOf (t.coreAt core) n = { b with arrived := 0, ph := !b.ph }) ∧
       (b.arrived + 1 ≠ b.expect → b.arrived < 4095 →
         barrierOf (t.coreAt core) n = { b with arrived := b.arrived + 1 }) ∧
       (b.arrived + 1 ≠ b.expect → 4095 ≤ b.arrived → barrierOf (t.coreAt core) n = b))

/-- Whether a fence of a mask covers an access (07 R143, R152). -/
def Sys2Proof.Claims.fenceCovers (mask : BitVec 8) (q : Req) : Prop := if mask = 0 then q.win = none else mask &&& q.tags ≠ 0

/-- A request that a later one must see performed: at .core a store is performed as it issues (07 R131, R134). -/
def Sys2Proof.Claims.stillOpen (sc : Scope) (q : Req) : Prop := sc ≠ .core ∨ q.op.isStore = false

/-- 07 R139, R143, R144, R152, 13 R308: an earlier request q of core k holds a later one r back: an acquire whatever comes after it in its
window domain, a release for what came before it there, a fence for the accesses it covers and what comes after it, a barrier arrival for
all. -/
def Sys2Proof.Claims.EarlierHolds (s : State) (k : Nat) (q r : Req) : Prop :=
  q.ord < r.ord →
  (q.op.counts = true → r.op.counts = true → q.win = r.win →
    (q.acq = true → s.canPerform k r = false) ∧ (r.rel = true → stillOpen r.scope q → s.canPerform k r = false)) ∧
  (∀ mask kind, r.op = .fence mask kind → q.op.counts = true → fenceCovers mask q → stillOpen r.scope q →
    (kind = .acq → q.op.reads = true) → s.canPerform k r = false) ∧
  (∀ mask kind, q.op = .fence mask kind → r.op.counts = true → (∀ w, r.win = some w → w ∈ q.wins) →
    (kind = .rel → r.op.isLoad = false) → s.canPerform k r = false) ∧
  (∀ core n, r.op = .bararr core n → (q.op.counts = true ∨ ∃ mask kind, q.op = .fence mask kind) → s.canPerform k r = false)

/-- 07 R135, R143, R144: two requests of a core that has no copy and no array command in flight, the later one held by nothing: two accesses of
other bytes that neither acquire nor release; a fence that does not cover the earlier access, or an acquire fence after one that reads
nothing. A full fence also waits for a store that has been read (R146). -/
def Sys2Proof.Claims.NothingHolds (s : State) (k : Nat) (q r : Req) : Prop :=
  (s.coreAt k).lsu = [q, r] → (s.coreAt k).chans = [] → (∀ m ∈ (s.clusterAt (clusterOf k)).cmds, m.core ≠ k) → q.op.counts = true →
  ((r.op.isLoad = true ∨ r.op.isStore = true) → q.acq = false → r.rel = false → (∀ b ∈ q.op.touched, b ∉ r.op.touched) →
    s.canPerform k r = true) ∧
  (∀ mask kind, r.op = .fence mask kind → ¬ fenceCovers mask q ∨ kind = .acq ∧ q.op.reads = false → (kind = .full → q.fwd = false) →
    s.canPerform k r = true)

/-- 07 R142, R145, 13 R309: FRSET owes its fence register the range, reserved bits zero once it is written, and counts every access, copy
and array command of the core in flight, and every write of it that some die has not applied; FENCE, R310, puts one fence among the core's
requests. What a fence, an acquire and a release hold back: R139, R143, R144; the copies and array commands a release or full fence covers, too
(R143). That a fence whose ranges cover a window which a request holds waits with it is the model's choice (log entry 44). -/
def Obligations.FencesAreSetAndIssued : Prop :=
  (∀ (s : State) (p : FReg) (k : FrReg) (a b : SReg), Alone s → s.readF p = true →
    ∃ t, exec (.frset p k a b) s = .next t ∧ t.mem = s.mem ∧ t.c.regs = s.c.regs ∧ t.c.csr = s.c.csr ∧
      t.c.owed = s.c.owed ++ [⟨s.c.serial, s.c.csr.cycle + 1, 0, .fence k,
        some ((s.c.readS b ++ s.c.readS a).zeroExtend 1024), false, 0, false, 0, none, [], none⟩] ∧
      t.c.lsu = s.c.lsu.map (fun r => { r with tags := r.tags ||| BitVec.twoPow 8 k.val }) ∧
      t.c.chans = s.c.chans.map (fun h => { h with tags := h.tags ||| BitVec.twoPow 8 k.val }) ∧
      (t.clusterAt (clusterOf s.cur)).cmds = (s.clusterAt (clusterOf s.cur)).cmds.map (fun m =>
        if m.core = s.cur then { m with tags := m.tags ||| BitVec.twoPow 8 k.val } else m) ∧
      t.late = s.late.map (fun w => if w.core = s.cur then { w with tags := w.tags ||| BitVec.twoPow 8 k.val } else w)) ∧
  (∀ lo hi, FenceRange.ofWords lo hi = ⟨lo &&& 0xFFFFFFFFFFFFFFC0, hi &&& 0xFFFFFFFFFFFFFFC3⟩) ∧
  (∀ (s : State) (p : FReg) (mask : BitVec 8) (kind : FenceKind) (sc : Scope), Alone s → s.readF p = true →
    (s.fenceFrozen mask = false → ∃ r : Req, r.op = .fence mask kind ∧ r.scope = sc ∧ r.ord = s.c.serial ∧
      exec (.fence p mask kind sc) s = .next { s with c := { s.c with serial := s.c.serial + 1, lsu := s.c.lsu ++ [r] } }) ∧
    (s.fenceFrozen mask = true → exec (.fence p mask kind sc) s = .next (s.block .requests))) ∧
  (∀ (s : State) (mask : BitVec 8), s.winOp = none → s.fenceFrozen mask = false) ∧
  (∀ (s : State) (k : Nat) (q r : Req), q ∈ (s.coreAt k).lsu → EarlierHolds s k q r) ∧
  (∀ (s : State) (k : Nat) (q r : Req), NothingHolds s k q r) ∧
  ∀ (s : State) (k : Nat) (r : Req) (mask : BitVec 8) (kind : FenceKind), r.op = .fence mask kind → kind ≠ .acq →
    (∀ h ∈ (s.coreAt k).chans, h.ord < r.ord → (if mask = 0 then h.plain = true else mask &&& h.tags ≠ 0) → s.canPerform k r = false) ∧
    ∀ m ∈ (s.clusterAt (clusterOf k)).cmds, m.core = k → m.ord < r.ord → (if mask = 0 then m.plain = true else mask &&& m.tags ≠ 0) →
      s.canPerform k r = false

/-- Table 13-3: the 32 bytes of a circular buffer's state block, as a number. -/
def Sys2Proof.Claims.bufferImage (b : CbBuf) : Nat :=
  b.base.toNat + b.slotsz % 2 ^ 32 * 2 ^ 64 + b.nslot % 2 ^ 16 * 2 ^ 96 + b.free % 2 ^ 16 * 2 ^ 112 + b.filled % 2 ^ 16 * 2 ^ 128 +
    b.pidx % 2 ^ 16 * 2 ^ 144 + b.cidx % 2 ^ 16 * 2 ^ 160 + b.pheld % 2 ^ 16 * 2 ^ 176 + b.cheld % 2 ^ 16 * 2 ^ 192

/-- 13 R294, R298: with bit 0 of its address set, AGSET or CBSET saves its state block by a local store; with it clear it owes its
register the block it reads, where the block passes the checks and no access younger than 8 cycles writes it; all else stays but what the
core remembers to have read. A generator that is loaded holds zero in the reserved bits of its set (00 R5). -/
def Obligations.AgsetAndCbsetSaveAndLoadTheirBlock : Prop :=
  (∀ (s : State) (p : FReg) (g : AgReg) (a : SReg),
    let va := (s.c.readS a).toNat
    Alone s → s.readF p = true → va % 64 = 1 → s.isOwn (va - 1) 64 = true → HasRoom s false →
    ∃ r : Req, r.ord = s.c.serial ∧ r.scope = .core ∧
      r.op = .store ((List.range 64).map fun j =>
        (sliceBase s.cur + (va - 1 - sramBase) % sliceSize + j, leByte (s.c.regs.ag[g]).toNat j)) ∧
      exec (.agset p g a) s = .next { s with c := { s.c with serial := s.c.serial + 1, lsu := s.c.lsu ++ [r] } }) ∧
  (∀ (s : State) (p : FReg) (g : AgReg) (a : SReg),
    let va := (s.c.readS a).toNat
    let bs := sliceBytesAt s va 64
    let blk := BitVec.ofNat 512 (leValue (s.ownBytes bs))
    Alone s → s.readF p = true → va % 64 = 0 → s.isOwn va 64 = true → HasRoom s false →
    s.localHeld bs = false → (∀ b ∈ bs, s.poisoned b = false) → s.recentIn bs = false →
    agCheck g va blk = none →
    ∃ t, exec (.agset p g a) s = .next t ∧ readsNow { s with
      iss := { s.iss with block := some (s.ownBytes bs) }
      c := { s.c with
        serial := s.c.serial + 1
        owed := s.c.owed ++ [⟨s.c.serial, s.c.csr.cycle + 1, 1, .agen g, some (blk.zeroExtend 1024), false, 0, false, 0,
          none, [], none⟩] } } t) ∧
  (∀ (k : Nat) (c : Core) (e : Owed) (g : AgReg) (v : Vec), e.dest = .agen g → e.data = some v → e.latch = none → e.recs = [] →
    (Core.commit k c e).regs.ag[g] = v.truncate 512 &&& ~~~((0xFCE0 : BitVec 512) <<< 64)) ∧
  (∀ (s : State) (p : FReg) (k : CbReg) (a : SReg),
    let va := (s.c.readS a).toNat
    Alone s → s.readF p = true → va % 32 = 1 → s.isOwn (va - 1) 32 = true → HasRoom s false →
    ∃ r : Req, r.ord = s.c.serial ∧ r.scope = .core ∧
      r.op = .store ((List.range 32).map fun j =>
        (sliceBase s.cur + (va - 1 - sramBase) % sliceSize + j, leByte (bufferImage (s.c.regs.cb[k])) j)) ∧
      exec (.cbset p k a) s = .next { s with c := { s.c with serial := s.c.serial + 1, lsu := s.c.lsu ++ [r] } }) ∧
  (∀ (s : State) (p : FReg) (k : CbReg) (a : SReg),
    let va := (s.c.readS a).toNat
    let bs := sliceBytesAt s va 32
    Alone s → s.readF p = true → va % 32 = 0 → s.isOwn va 32 = true → HasRoom s false →
    s.localHeld bs = false → (∀ b ∈ bs, s.poisoned b = false) → s.recentIn bs = false →
    s.cbCheck k va (s.ownBytes bs) = none →
    ∃ t, exec (.cbset p k a) s = .next t ∧ readsNow { s with
      iss := { s.iss with block := some (s.ownBytes bs) }
      c := { s.c with
        serial := s.c.serial + 1
        owed := s.c.owed ++ [⟨s.c.serial, s.c.csr.cycle + 1, 1, .buf k, some (BitVec.ofNat 1024 (leValue (s.ownBytes bs))), false, 0,
          false, 0, none, [], none⟩] } } t)

/-- 13 R299, 06 R117: CBACQ of an enabled buffer binds its flag; with a filled slot it owes its register the address of the slot at
CIDX, moves one slot from filled to consumer-held and advances CIDX; with none it stops the domain. 13 R300: CBREL of a buffer with a
consumer-held slot frees it; a copy that waits for a slot of the buffer comes after the core's accesses that precede the CBREL (07 R140), and
takes the slot at PIDX when it starts to move data: at once, where nothing holds it. That a copy starts as soon as it can, the one
first that waits longest, is the model's choice (log entries 67, 69). With no consumer-held slot it traps AGBOUNDS, SUB 10h + k, EVAL 0. -/
def Obligations.CircularBufferSlotsAreTakenAndFreed : Prop :=
  (∀ (s : State) (p fb : FReg) (k : CbReg) (d : SReg), Alone s → s.readF p = true → fb ≠ 0 → 0 < (s.c.regs.cb[k]).nslot →
     let b := s.c.regs.cb[k]
     let bound : State := { s with c := { s.c with regs := { s.c.regs with fbind := s.c.regs.fbind.set fb (some (.buf k)) } } }
     let taken : CbBuf := { b with filled := b.filled - 1, cheld := b.cheld + 1, cidx := (b.cidx + 1) % b.nslot }
     let e : Owed := ⟨s.c.serial, s.c.csr.cycle + 1, 1, .sreg d,
       some ((b.base + BitVec.ofNat 64 (b.cidx * b.slotsz)).zeroExtend 1024), false, 0, false, 0, none, [], none⟩
     (0 < b.filled → exec (.cbacq p k d fb) s = .next { bound with c := { bound.c with
       serial := s.c.serial + 1
       owed := s.c.owed ++ [e]
       regs := { bound.c.regs with cb := s.c.regs.cb.set k taken } } }) ∧
     (b.filled = 0 → exec (.cbacq p k d fb) s = .next bound.blockFlags)) ∧
  (∀ (s : State) (p : FReg) (k : CbReg), Alone s → s.readF p = true →
     let b := s.c.regs.cb[k]
     let given : State := { s with c := { s.c with
       chans := s.c.chans.map fun g =>
         if g.held = true ∧ g.dst.toNat % 16 = k.val then { g with after := Nat.max g.after s.c.serial } else g
       regs := { s.c.regs with cb := s.c.regs.cb.set k { b with free := b.free + 1, cheld := b.cheld - 1 } } } }
     (0 < b.cheld → (∀ h ∈ given.c.chans, h.held = true → given.copyFree s.cur h = false) → exec (.cbrel p k) s = .next given) ∧
     (∀ h, 0 < b.cheld → s.c.chans.filter (fun g => g.held) = [h] → (∀ g ∈ s.c.chans, g.ord = h.ord → g = h) → shpDkind h.shp = 2 →
       h.dst.toNat % 16 = k.val → s.c.lsu = [] → (∀ e ∈ s.c.owed, e.dest ≠ .buf k) → s.tsoSrc h = false →
       ∃ t, exec (.cbrel p k) s = .next t ∧
         t.c.chans = s.c.chans.map (fun g => if g.ord = h.ord then
           { g with held := false, slot := some b.pidx, after := Nat.max g.after s.c.serial } else g) ∧
         (t.c.regs.cb[k]).free = b.free ∧ (t.c.regs.cb[k]).pheld = b.pheld + 1 ∧ (t.c.regs.cb[k]).cheld = b.cheld - 1 ∧
         t = { s with c := { s.c with chans := t.c.chans, regs := { s.c.regs with cb := s.c.regs.cb.set k t.c.regs.cb[k] } } }) ∧
     (b.cheld = 0 → exec (.cbrel p k) s = .next (s.precise ⟨cAGBOUNDS, 0x10 + k.val, 1, 0⟩)))
/-! ## Slot 2: vectors -/

/-- Element j of width w of a vector (12 R257). -/
def Sys2Proof.Claims.el (w : Nat) (v : Vec) (j : Nat) : Nat := v.toNat / 2 ^ (w * j) % 2 ^ w

/-- A w-bit pattern as a signed integer. -/
def Sys2Proof.Claims.asSigned (w x : Nat) : Int := if 2 * x < 2 ^ w then x else (x : Int) - 2 ^ w

/-- The bits of an integer modulo 2^w. -/
def Sys2Proof.Claims.lowBits (w : Nat) (x : Int) : Nat := (x % 2 ^ w).toNat

/-- The order of two patterns of a type: signed or unsigned. -/
def Sys2Proof.Claims.below (ty : VTy) (x y : Nat) : Bool :=
  if ty.signed then decide (asSigned ty.width x < asSigned ty.width y) else decide (x < y)

/-- The floating format of a type, if it is one. -/
def Sys2Proof.Claims.floatOf : VTy → Option Fmt
  | .f32 => some fmtF32
  | .f16 => some fmtF16
  | .bf16 => some fmtBf16
  | .e4m3 => some fmtE4m3
  | .e5m2 => some fmtE5m2
  | _ => none

/-- A floating operation on patterns: exact on the values, rounded once to the format (12 R261). -/
def Sys2Proof.Claims.rounded (f : Fmt) (op : FVal → FVal → FVal) (x y : Nat) : Nat := fround f (op (fdec f x) (fdec f y))

/-- What a vector instruction gives: predicate, merge, latency, destination, sources, element width, the source lanes with mask 0
keep (R259), element j of the result before the merge, and whether a NaN is read or produced there (R262). -/
structure Sys2Proof.Claims.VecSpec where
  p : FReg
  m : Merge
  lat : Nat
  d : VDst
  srcs : List VSrc
  w : Nat
  keep : VSrc
  val : Nat → Nat
  nan : Nat → Bool

/-- 06 R128, Table 6-7, 12 R262: what a slot-2 instruction records of a kind for the elements of width w that a test marks: nothing where it
marks none, else one record with their number and, for kind 01h, the lanes they lie in. -/
def Sys2Proof.Claims.recorded (s : State) (kind w : Nat) (mark : Nat → Bool) (rs : List StqRec) : Prop :=
  let n := (List.range (1024 / w)).countP mark
  (n = 0 → rs = []) ∧
  (0 < n → ∃ r, rs = [r] ∧ r.bund = BitVec.ofNat 22 s.c.pc ∧ r.slot = 2 ∧ r.kind = BitVec.ofNat 8 kind ∧ r.count = BitVec.ofNat 32 n ∧
    ∀ i < 64, r.detail.getLsbD i = (decide (kind = 1) && (List.range (1024 / w)).any fun j => mark j && j * w / 32 == i))

/-- R263-R266, R269-R271, R274, R275: what each element-wise instruction and each move between lanes gives. -/
def Sys2Proof.Claims.vectorResult (s : State) (i : Instr) : Option VecSpec :=
  let two (p : FReg) (m : Merge) (lat : Nat) (d : VDst) (a b : VSrc) (w : Nat) (f : (Nat → Nat) → (Nat → Nat) → Nat → Nat) :
      Option VecSpec := some ⟨p, m, lat, d, [a, b], w, a, f (el w (s.readV w a)) (el w (s.readV w b)), fun _ => false⟩
  let one (p : FReg) (m : Merge) (lat : Nat) (d : VDst) (a : VSrc) (w : Nat) (f : (Nat → Nat) → Nat → Nat) : Option VecSpec :=
    some ⟨p, m, lat, d, [a], w, a, f (el w (s.readV w a)), fun _ => false⟩
  let arith (p : FReg) (m : Merge) (ilat : Nat) (d : VDst) (a b : VSrc) (ty : VTy) (g : Nat → Nat → Nat)
      (op : FVal → FVal → FVal) : Option VecSpec :=
    match floatOf ty with
    | some f =>
      let x (j : Nat) : FVal := fdec f (el ty.width (s.readV ty.width a) j)
      let y (j : Nat) : FVal := fdec f (el ty.width (s.readV ty.width b) j)
      (two p m 4 d a b ty.width fun x y j => rounded f op (x j) (y j)).map fun o =>
        { o with nan := fun j => (x j).isNan || (y j).isNan || (op (x j) (y j)).isNan }
    | none => two p m ilat d a b ty.width fun x y j => g (x j) (y j)
  let fused (p : FReg) (m : Merge) (d : VDst) (a b c : VSrc) (bf : Bool) (sign : FVal → FVal) : Option VecSpec :=
    let f := if bf then fmtBf16 else fmtF32
    let w := if bf then 16 else 32
    let x (v : VSrc) (j : Nat) : FVal := fdec f (el w (s.readV w v) j)
    let r (j : Nat) : FVal := ((x a j).mul (x b j)).add (sign (x c j))
    some ⟨p, m, 4, d, [a, b, c], w, a, fun j => fround f (r j),
      fun j => (x a j).isNan || (x b j).isNan || (x c j).isNan || (r j).isNan⟩
  let fun1 (p : FReg) (m : Merge) (d : VDst) (a : VSrc) (f : FVal → FVal) : Option VecSpec :=
    let r (x : Nat) : Nat := fround fmtF32 (f (fdec fmtF32 x))
    (one p m 8 d a 32 fun x j => r (x j)).map fun o =>
      { o with nan := fun j =>
          (fdec fmtF32 (el 32 (s.readV 32 a) j)).isNan || (fdec fmtF32 (r (el 32 (s.readV 32 a) j))).isNan }
  match i with
  | .vadd p m d a b ty => arith p m 2 d a b ty (fun x y => (x + y) % 2 ^ ty.width) FVal.add
  | .vsub p m d a b ty => arith p m 2 d a b ty (fun x y => lowBits ty.width ((x : Int) - y)) fun x y => x.add y.neg
  | .vmul p m d a b ty => arith p m 3 d a b ty (fun x y => x * y % 2 ^ ty.width) FVal.mul
  | .vmin p m d a b ty => arith p m 2 d a b ty (fun x y => if below ty y x then y else x) FVal.min
  | .vmax p m d a b ty => arith p m 2 d a b ty (fun x y => if below ty x y then y else x) FVal.max
  | .vabs p m d a ty => one p m 2 d a ty.width fun x j =>
      if (floatOf ty).isSome then x j % 2 ^ (ty.width - 1)
      else if ty.signed then lowBits ty.width (asSigned ty.width (x j)).natAbs else x j
  | .vneg p m d a ty => one p m 2 d a ty.width fun x j =>
      if (floatOf ty).isSome then x j ^^^ 2 ^ (ty.width - 1) else lowBits ty.width (-(x j : Int))
  | .vfma p m d a b c bf => fused p m d a b c bf id
  | .vfms p m d a b c bf => fused p m d a b c bf FVal.neg
  | .vand p m d a b => two p m 2 d a b 32 fun x y j => x j &&& y j
  | .vor p m d a b => two p m 2 d a b 32 fun x y j => x j ||| y j
  | .vxor p m d a b => two p m 2 d a b 32 fun x y j => x j ^^^ y j
  | .vnot p m d a => one p m 2 d a 32 fun x j => 2 ^ 32 - 1 - x j
  | .vmov p m d a => one p m 2 d a 32 fun x j => x j
  | .vshl p m d a b ty => two p m 2 d a b ty.width fun x y j => x j * 2 ^ (y j % ty.width) % 2 ^ ty.width
  | .vshr p m d a b ty => two p m 2 d a b ty.width fun x y j => x j / 2 ^ (y j % ty.width)
  | .vsra p m d a b ty => two p m 2 d a b ty.width fun x y j =>
      lowBits ty.width (asSigned ty.width (x j) / 2 ^ (y j % ty.width))
  | .vsel p m d a b k => two p m 2 d a b 32 fun x y j => if (s.c.regs.m[k]).getLsbD j then x j else y j
  | .vexpand p m d a b k => two p m 3 d a b 32 fun x y j =>
      if (s.c.regs.m[k]).getLsbD j then x ((List.range j).countP fun i => (s.c.regs.m[k]).getLsbD i) else y j
  | .vcompact p m d a b k =>
      let kept := (List.range 32).filter fun i => (s.c.regs.m[k]).getLsbD i
      two p m 3 d a b 32 fun x y j => match kept[j]? with
        | some i => x i
        | none => y j
  | .vbc p m d a k ty => one p m 2 d a ty.width fun x _ => x k.val
  | .vrot p m d a k ty => one p m 3 d a ty.width fun x j => x ((j + k.val) % (1024 / ty.width))
  | .vperm p m d a b ty => two p m 3 d a b ty.width fun x y j => x (y j % (1024 / ty.width))
  | .vshuf p m d a b ty => two p m 3 d a b ty.width fun x y j => if j % 2 = 0 then x (j / 2) else y (j / 2)
  | .vpopc p m d a ty => one p m 3 d a ty.width fun x j => (List.range ty.width).countP fun k => (x j).testBit k
  | .vexp2 p m d a => fun1 p m d a fexp2
  | .vlog2 p m d a => fun1 p m d a flog2
  | .vrcp p m d a => fun1 p m d a frcp
  | .vrsq p m d a => fun1 p m d a frsq
  | _ => none

/-- R259: the merge of a result with the lanes a mask does not select. -/
def Sys2Proof.Claims.mergedLane (s : State) (m : Merge) (old new : Vec) (i : Nat) : Lane :=
  if m.men ∧ (s.c.regs.m[m.msk]).getLsbD i = false then old.extractLsb' (32 * i) 32 else new.extractLsb' (32 * i) 32

/-- R257-R266, R269, R270, R274, R275: every element-wise, logic, shift, selection, move, count and transcendental instruction
of slot 2 completes, owing its destination the vector whose elements are as its entry says, merged lane by lane, with its latency, and the
record of kind 01h of the NaNs that a floating instruction reads or produces (R262), no other; only its operands are noted beside. -/
def Obligations.VectorValueIsOwed : Prop :=
  ∀ (s : State) (i : Instr) (o : VecSpec), i.wf = true → Alone s → vectorResult s i = some o → s.readF o.p = true →
    OperandsReady s o.srcs (some o.d) → (∀ x ∈ o.srcs, PortQuiet s x) →
    ∃ (e : Owed) (c' : Core) (v x : Vec), exec i s = .next { usesOperands s 2 o.srcs (some o.d) with c := c' } ∧
      owesVector s.c o.lat 2 o.d e c' ∧ e.data = some x ∧ e.poison = false ∧ e.timed = false ∧ recorded s 1 o.w o.nan e.recs ∧
      (∀ j, j * o.w < 1024 → el o.w v j = o.val j) ∧
      (∀ k < 32, x.extractLsb' (32 * k) 32 = mergedLane s o.m (s.readV o.w o.keep) v k)

/-- 12 R271, R272: the tree of VRED combines element 2i with element 2i + 1, level by level; VSCAN combines in ascending order from
the identity of its operation. -/
def Sys2Proof.Claims.treeOf (f : Nat → Nat → Nat) : Nat → (Nat → Nat) → Nat
  | 0, x => x 0
  | n + 1, x => treeOf f n fun i => f (x (2 * i)) (x (2 * i + 1))

/-- The combination of VRED and VSCAN for a type. -/
def Sys2Proof.Claims.combined (op : VRedOp) (ty : VTy) (x y : Nat) : Nat :=
  if ty = .f32 then
    match op with
    | .min => rounded fmtF32 FVal.min x y
    | .max => rounded fmtF32 FVal.max x y
    | _ => fround fmtF32 (fdec fmtF32 (rounded fmtF32 FVal.add x y))
  else match op with
    | .add => (x + y) % 2 ^ ty.width
    | .min => if below ty y x then y else x
    | .max => if below ty x y then y else x
    | .and => x &&& y
    | .or => x ||| y
    | .xor => x ^^^ y

/-- The prefix combinations of VSCAN. -/
def Sys2Proof.Claims.prefixOf (f : Nat → Nat → Nat) (z : Nat) (x : Nat → Nat) : Nat → Nat
  | 0 => z
  | n + 1 => f (prefixOf f z x n) (x n)

/-- R271, R272: VRED gives the combination of every element in element 0 and zero elsewhere; VSCAN gives the
prefix combinations, without or with the element itself; on FP32 either records the NaNs it reads or produces (R262): that each element of the
source and each of the result counts once is the model's choice (log entry 61). -/
def Obligations.ReductionsAndScansCombineInOrder : Prop :=
  ∀ (s : State) (p : FReg) (m : Merge) (d : VDst) (a : VSrc) (ty : VTy), Alone s → s.readF p = true →
    OperandsReady s [a] (some d) → PortQuiet s a →
    let x := el ty.width (s.readV ty.width a)
    let owes (i : Instr) (val : Nat → Nat) : Prop :=
      ∃ (e : Owed) (c' : Core) (v y : Vec), exec i s = .next { usesOperands s 2 [a] (some d) with c := c' } ∧
        owesVector s.c 6 2 d e c' ∧ e.data = some y ∧ (∀ j, j * ty.width < 1024 → el ty.width v j = val j) ∧
        recorded s 1 ty.width (fun j => decide (ty = .f32) && ((fdec fmtF32 (x j)).isNan || (fdec fmtF32 (val j)).isNan)) e.recs ∧
        (∀ k < 32, y.extractLsb' (32 * k) 32 = mergedLane s m (s.readV ty.width a) v k)
    (∀ op, vredOk op ty = true →
      owes (.vred p m d a op ty) fun j =>
        if j = 0 then treeOf (combined op ty) (if ty.width = 32 then 5 else if ty.width = 16 then 6 else 7) x else 0) ∧
    (∀ (op : VScanOp) (excl : Bool), ty.redOk = true →
      let f := combined (match op with | .add => .add | .min => .min | .max => .max) ty
      let z := match op with
        | .add => 0
        | .min => if ty = .f32 then 0x7F800000 else if ty.signed then 2 ^ (ty.width - 1) - 1 else 2 ^ ty.width - 1
        | .max => if ty = .f32 then 0xFF800000 else if ty.signed then 2 ^ (ty.width - 1) else 0
      owes (.vscan p m d a op excl ty) fun j => prefixOf f z x (if excl then j else j + 1))

/-- The state in which slot 2 owes a result that is no vector. -/
def Sys2Proof.Claims.owesResult (s : State) (srcs : List VSrc) (lat : Nat) (d : Dest) (v : Vec) (rs : List StqRec) : State :=
  { usesOperands s 2 srcs none with c := { s.c with
      serial := s.c.serial + 1
      owed := s.c.owed ++ [⟨s.c.serial, s.c.csr.cycle + lat, 2, d, some v, false, 0, false, 0, none, rs, none⟩] } }

/-- The number of leading zeros of a w-bit pattern, w for zero. -/
def Sys2Proof.Claims.leading (w x : Nat) : Nat := w - (List.range w).foldl (fun n k => if x.testBit k then k + 1 else n) 0

/-- R267: a compare of two lanes as FP32: a NaN in either makes .ne and .un true and every other condition false; else by value. -/
def Sys2Proof.Claims.floatCond (c : Cond) (x y : FVal) : Bool :=
  if x.isNan || y.isNan then c == .ne || c == .un
  else match c with
    | .eq => !x.lt y && !y.lt x
    | .ne => x.lt y || y.lt x
    | .lt => x.lt y
    | .le => !y.lt x
    | .gt => y.lt x
    | .ge => !x.lt y
    | _ => false

/-- R267, R268, R273, R274, R282: compares, mask operations, element extraction, the count of leading zeros and VDIFF complete, owing
their mask, scalar or vector; a floating compare records the NaNs it reads, and nothing else records anything (R262). -/
def Obligations.MaskAndScalarResultsOfSlot2AreOwed : Prop :=
  ∀ (s : State) (p : FReg), Alone s → s.readF p = true →
    (∀ (md : MReg) (a b : VSrc) (c : Cond) (ty : VTy), vcmpOk c ty = true → OperandsReady s [a, b] none →
      PortQuiet s a → PortQuiet s b →
      ∃ (k : Lane) (rs : List StqRec), exec (.vcmp p md a b c ty) s = .next (owesResult s [a, b] 2 (.mask md) (k.zeroExtend 1024) rs) ∧
        (ty ≠ .f32 → rs = [] ∧ ∀ j < 32, k.getLsbD j = (let x := el 32 (s.readV 32 a) j; let y := el 32 (s.readV 32 b) j
          match c with
          | .eq => x == y
          | .ne => x != y
          | .lt => decide (asSigned 32 x < asSigned 32 y)
          | .le => decide (asSigned 32 x ≤ asSigned 32 y)
          | .gt => decide (asSigned 32 y < asSigned 32 x)
          | .ge => decide (asSigned 32 y ≤ asSigned 32 x)
          | .ltn => decide (x < y)
          | .len => decide (x ≤ y)
          | .gtn => decide (y < x)
          | .gen => decide (y ≤ x)
          | .un => false)) ∧
        (ty = .f32 →
          (∀ j < 32, k.getLsbD j = floatCond c (fdec fmtF32 (el 32 (s.readV 32 a) j)) (fdec fmtF32 (el 32 (s.readV 32 b) j))) ∧
          recorded s 1 32
            (fun j => (fdec fmtF32 (el 32 (s.readV 32 a) j)).isNan || (fdec fmtF32 (el 32 (s.readV 32 b) j)).isNan) rs)) ∧
    (∀ (d : MReg) (a : SReg), exec (.mset p d a) s =
      .next (owesResult s [] 1 (.mask d) (((s.c.readS a).truncate 32).zeroExtend 1024) [])) ∧
    (∀ (d x y : MReg), exec (.mand p d x y) s =
      .next (owesResult s [] 1 (.mask d) ((s.c.regs.m[x] &&& s.c.regs.m[y]).zeroExtend 1024) [])) ∧
    (∀ (d x y : MReg), exec (.mor p d x y) s =
      .next (owesResult s [] 1 (.mask d) ((s.c.regs.m[x] ||| s.c.regs.m[y]).zeroExtend 1024) [])) ∧
    (∀ (d x : MReg), exec (.mnot p d x) s =
      .next (owesResult s [] 1 (.mask d) ((~~~(s.c.regs.m[x])).zeroExtend 1024) [])) ∧
    (∀ (d : SReg) (a : VSrc) (k : Fin 64) (ty : VTy), laneOk k ty = true → OperandsReady s [a] none → PortQuiet s a →
      ∃ v : Word, exec (.vext p d a k ty) s = .next (owesResult s [a] 2 (.sreg d) (v.zeroExtend 1024) []) ∧
        (ty.signed = true → v.toInt = asSigned ty.width (el ty.width (s.readV ty.width a) k.val)) ∧
        (ty.signed = false → v.toNat = el ty.width (s.readV ty.width a) k.val)) ∧
    (∀ (m : Merge) (d : VDst) (a : VSrc) (ty : VTy), ty.isInt = true → OperandsReady s [a] (some d) → PortQuiet s a →
      ∃ (e : Owed) (c' : Core) (v x : Vec), exec (.vclz p m d a ty) s = .next { usesOperands s 2 [a] (some d) with c := c' } ∧
        owesVector s.c 3 2 d e c' ∧ e.data = some x ∧ e.recs = [] ∧
        (∀ j, j * ty.width < 1024 → el ty.width v j = leading ty.width (el ty.width (s.readV ty.width a) j)) ∧
        (∀ k < 32, x.extractLsb' (32 * k) 32 = mergedLane s m (s.readV ty.width a) v k)) ∧
    (∀ (md : MReg) (a b : VSrc) (ty : VTy), vdiffOk ty = true → OperandsReady s [a, b] none → PortQuiet s a → PortQuiet s b →
      ∃ k : Lane, exec (.vdiff p md a b ty) s = .next (owesResult s [a, b] 2 (.mask md) (k.zeroExtend 1024) []) ∧
        ∀ g < 32, k.getLsbD g = (
          let w := match ty with | .ix4 => 4 | .ix8 => 8 | _ => 12
          (s.readV 32 a).extractLsb' 512 24 != (s.readV 32 b).extractLsb' 512 24
            || el w (s.readV 32 a) g != el w (s.readV 32 b) g))

/-- R284, R285: in task mode VTRP writes its vector into the row at RP and advances RP; VTRC of a transposer whose 32 rows are all
written owes its destination the column at CP, element i from row i, and advances CP; in supervisor mode both trap PRIV. -/
def Obligations.TransposerTurnsRowsIntoColumns : Prop :=
  (∀ (s : State) (p : FReg) (a : VSrc) (rst : Bool), Alone s → s.readF p = true → OperandsReady s [a] none → PortQuiet s a →
    s.c.csr.mode = false →
    let t := s.c.regs.tr
    let rp : Fin 32 := if rst then 0 else t.rp
    let rv : BitVec 32 := if rst then 0 else t.rv
    let s' := owesResult s [a] 1 (.trow rp) (s.readV 32 a) []
    exec (.vtrp p a rst) s = .next { s' with c := { s'.c with regs := { s'.c.regs with
      tr := { t with rv := rv ||| BitVec.twoPow 32 rp.val, rp := rp + 1, cp := if rst then 0 else t.cp } } } }) ∧
  (∀ (s : State) (p : FReg) (m : Merge) (d : VDst) (rst : Bool), Alone s → s.readF p = true → OperandsReady s [] (some d) →
    s.c.csr.mode = false → s.c.regs.tr.rv = BitVec.allOnes 32 →
    let t := s.c.regs.tr
    let cp : Fin 32 := if rst then 0 else t.cp
    ∃ (e : Owed) (c' : Core) (v x : Vec), exec (.vtrc p m d rst) s =
        .next { usesOperands s 2 [] (some d) with c := { c' with regs := { c'.regs with tr := { t with cp := cp + 1 } } } } ∧
      owesVector s.c 2 2 d e c' ∧ e.data = some x ∧ e.recs = [] ∧
      (∀ i : Fin 32, el 32 v i.val = el 32 t.rows[i] cp.val) ∧
      (∀ k < 32, x.extractLsb' (32 * k) 32 = mergedLane s m 0 v k)) ∧
  (∀ (s : State) (p : FReg) (m : Merge) (d : VDst) (a : VSrc) (rst : Bool), Alone s → s.readF p = true →
    OperandsReady s [a] none → OperandsReady s [] (some d) → PortQuiet s a → s.c.csr.mode = true →
    exec (.vtrp p a rst) s = .next ((usesOperands s 2 [a] none).precise ⟨cPRIV, 0, 2, 0⟩) ∧
    exec (.vtrc p m d rst) s = .next ((usesOperands s 2 [] (some d)).precise ⟨cPRIV, 0, 2, 0⟩))

/-! ## Slot 2: conversions and codebooks -/

/-- The value of a pattern of a type: an integer or a floating value (12 R276). -/
def Sys2Proof.Claims.typedValue (ty : VTy) (x : Nat) : FVal :=
  match floatOf ty with
  | some f => fdec f x
  | none => FVal.ofInt (if ty.signed then asSigned ty.width x else (x : Int))

/-- The pattern a value converts to (08 R158). -/
def Sys2Proof.Claims.converted (ty : VTy) (sat : Bool) (v : FVal) : Nat :=
  match floatOf ty with
  | some f => (fconv f sat v).bits
  | none => (iconv ty.width ty.signed v).bits

/-- R158: a value whose rounding, with the exponent range unbounded, exceeds the largest finite value of a format; an infinity does. -/
def Sys2Proof.Claims.beyondFloat (f : Fmt) : FVal → Bool
  | .nan => false
  | .inf _ => true
  | .num _ m e => decide (f.maxMag < (roundMag f m e).mag)

/-- R158: a value whose rounding leaves the range of an integer type; an infinity does. -/
def Sys2Proof.Claims.beyondInt (ty : VTy) : FVal → Bool
  | .nan => false
  | .inf _ => true
  | .num neg m e =>
    let n : Int := if neg then -(roundInt m e : Int) else roundInt m e
    if ty.signed then decide (n < -2 ^ (ty.width - 1)) || decide (2 ^ (ty.width - 1) - 1 < n) else decide (n < 0) || decide (2 ^ ty.width - 1 < n)

/-- Whether a value is finite and not zero. -/
def Sys2Proof.Claims.nonZero : FVal → Bool
  | .num _ m _ => m != 0
  | _ => false

/-- R158, Table 8-2: what the conversion of a value to a type counts as: 02h a saturation, 03h an overflow to infinity, 04h an underflow of a
nonzero value to zero; 12 R262: 01h a NaN. -/
def Sys2Proof.Claims.conversionKind (ty : VTy) (sat : Bool) (v : FVal) (kind : Nat) : Bool :=
  match floatOf ty with
  | some f =>
    let clamps := sat || f.inf.isNone
    match kind with
    | 1 => v.isNan
    | 2 => beyondFloat f v && clamps
    | 3 => beyondFloat f v && !clamps && !v.isInf
    | _ => nonZero v && !beyondFloat f v && fround f v % 2 ^ (f.width - 1) == 0
  | none => match kind with
    | 1 => v.isNan
    | 2 => v.isNan || beyondInt ty v
    | _ => false

/-- R276: the element of the source that element j of the destination of VCVT converts, if any. -/
def Sys2Proof.Claims.vcvtSource (ts td : VTy) (part : Bool) (j : Nat) : Option Nat :=
  let ns := 1024 / ts.width
  let nd := 1024 / td.width
  let k := if part then 1 else 0
  if nd = ns then some j
  else if nd < ns then some (j + k * nd)
  else if k * ns ≤ j ∧ j < k * ns + ns then some (j - k * ns) else none

/-- R159: the records of packing 32 values into elements of scale x: of a value that is a NaN, one that saturates, one that is not zero and
becomes so. -/
def Sys2Proof.Claims.packRecorded (s : State) (four : Bool) (x : Nat) (v : Nat → FVal) (rs : List StqRec) : Prop :=
  let big (j : Nat) : Bool := match v j with
    | .nan => false
    | .inf _ => true
    | .num _ m e => if four then beyondFloat fmtE2m1 ((v j).scale (127 - (x : Int))) else decide (127 < roundInt m (e + 133 - x))
  let bits (j : Nat) : Nat := if four then (mxElem4 x (v j)).bits % 8 else (mxElem8 x (v j)).bits
  ∃ r1 r2 r4, rs = r1 ++ r2 ++ r4 ∧ recorded s 1 32 (fun j => (v j).isNan) r1 ∧ recorded s 2 32 (fun j => x != 0xFF && big j) r2 ∧
    recorded s 4 32 (fun j => x != 0xFF && nonZero (v j) && bits j == 0) r4

/-- R276: element j of the destination of VCVT: of one width element j; narrowing by reading the half or quarter that PART selects when
the destination's elements are wider; and, when they are narrower, writing the half or quarter PART selects and zero elsewhere. -/
def Sys2Proof.Claims.vcvtElement (ts td : VTy) (sat part : Bool) (x : Nat → Nat) (j : Nat) : Nat :=
  let ns := 1024 / ts.width
  let nd := 1024 / td.width
  let k := if part then 1 else 0
  let conv (i : Nat) : Nat := converted td sat (typedValue ts (x i)) % 2 ^ td.width
  if nd = ns then conv j
  else if nd < ns then conv (j + k * nd)
  else if k * ns ≤ j ∧ j < k * ns + ns then conv (j - k * ns) else 0

/-- R276-R278: VCVT, VXPAND and VMX complete, owing the converted elements with the records of 08 R158, R159 and R262, in ascending kind; VMX
shifts its second source down and puts its new field at the top. Which scale VMX.n8 gives is the model's free choice (log entry 17). -/
def Obligations.ConversionsAreOwed : Prop :=
  ∀ (s : State) (p : FReg) (m : Merge) (d : VDst) (a b : VSrc), Alone s → s.readF p = true →
    (∀ (sat part : Bool) (ts td : VTy), vcvtOk sat part ts td = true → OperandsReady s [a] (some d) → PortQuiet s a →
      ∃ (e : Owed) (c' : Core) (v x : Vec), exec (.vcvt p m d a sat part ts td) s =
          .next { usesOperands s 2 [a] (some d) with c := c' } ∧
        owesVector s.c 4 2 d e c' ∧ e.data = some x ∧
        (∀ j, j * td.width < 1024 → el td.width v j = vcvtElement ts td sat part (el ts.width (s.readV ts.width a)) j) ∧
        (let mark (kind j : Nat) : Bool := match vcvtSource ts td part j with
          | some i => conversionKind td sat (typedValue ts (el ts.width (s.readV ts.width a) i)) kind
          | none => false
         ∃ r1 r2 r3 r4, e.recs = r1 ++ r2 ++ r3 ++ r4 ∧ recorded s 1 td.width (mark 1) r1 ∧ recorded s 2 td.width (mark 2) r2 ∧
           recorded s 3 td.width (mark 3) r3 ∧ recorded s 4 td.width (mark 4) r4) ∧
        (∀ k < 32, x.extractLsb' (32 * k) 32 = mergedLane s m (s.readV ts.width a) v k)) ∧
    (∀ (src : VXSrc) (hi : Bool), vxpandOk src hi = true → OperandsReady s [a] (some d) → PortQuiet s a →
      ∃ (e : Owed) (c' : Core) (v x : Vec), exec (.vxpand p m d a src hi) s =
          .next { usesOperands s 2 [a] (some d) with c := c' } ∧
        owesVector s.c 3 2 d e c' ∧ e.data = some x ∧ e.recs = [] ∧
        (∀ j < 128, el 8 v j = fround fmtE4m3 (subByte src
          (match src with
           | .e2m3 | .e3m2 => el 6 (s.readV 8 a) j
           | _ => el 4 (s.readV 8 a) (j + if hi then 128 else 0)))) ∧
        (∀ k < 32, x.extractLsb' (32 * k) 32 = mergedLane s m (s.readV 8 a) v k)) ∧
    (∀ (ty : VTy), vmxOk ty = true → OperandsReady s [a, b] (some d) → PortQuiet s a → PortQuiet s b →
      ∃ (e : Owed) (c' : Core) (v x : Vec), exec (.vmx p m d a b ty) s =
          .next { usesOperands s 2 [a, b] (some d) with c := c' } ∧
        owesVector s.c 6 2 d e c' ∧ e.data = some x ∧
        (let vals := (List.range 32).map fun j => fdec fmtF32 (el 32 (s.readV 32 a) j)
         let packs (four : Bool) (x : Nat) : Prop := packRecorded s four x (fun j => vals.getD j .nan) e.recs
         (ty = .mx4 → (∀ j < 224, el 4 v j = el 4 (s.readV 32 b) (j + 32)) ∧
            (∀ j < 32, el 4 v (224 + j) = (mxElem4 (mxScale vals 2) (vals.getD j .nan)).bits % 16) ∧ packs true (mxScale vals 2)) ∧
         (ty = .mxi8 → (∀ j < 96, el 8 v j = el 8 (s.readV 32 b) (j + 32)) ∧
            (∀ j < 32, el 8 v (96 + j) = (mxElem8 (mxScale vals 0) (vals.getD j .nan)).bits % 256) ∧ packs false (mxScale vals 0)) ∧
         (ty = .n8 → (∀ j < 127, el 8 v j = el 8 (s.readV 32 b) (j + 1)) ∧
            (el 8 v 127 = mxScale vals 2 % 256 ∧ packs true (mxScale vals 2) ∨
             el 8 v 127 = mxScale vals 0 % 256 ∧ packs false (mxScale vals 0)))) ∧
        (∀ k < 32, x.extractLsb' (32 * k) 32 = mergedLane s m (s.readV 32 a) v k))

/-- R281: byte 64 of the image that VDQ reads through a port whose step accesses memory; else 0. -/
def Sys2Proof.Claims.imageByte (s : State) : VSrc → Nat
  | .p k _ =>
    let x := agAccess s.c.regs.ag[portAg k]
    if x.pad then 0 else (BitVec.ofInt 64 (x.addr + 64)).toNat
  | _ => 0

/-- 08 R163, Table 8-5: element j of codeword c, a signed byte or two. -/
def Sys2Proof.Claims.codeword (k : Binding) (cw : List Byte) (c j : Nat) : Int :=
  let i := c * k.v + j
  if k.wide then asSigned 16 ((cw.getD (2 * i) 0).toNat + 256 * (cw.getD (2 * i + 1) 0).toNat) else asSigned 8 (cw.getD i 0).toNat

/-- 08 R163: the value of an element in a block of exponent e; NaN where e is FFh. -/
def Sys2Proof.Claims.decoded (k : Binding) (cw : List Byte) (e c j : Nat) : FVal :=
  let x := codeword k cw c j
  if e = 0xFF then .nan else .num (decide (x < 0)) x.natAbs ((k.scale.toNat : Int) - 127 - k.f + ((e : Int) - 127))

/-- 08 R171: cm, the largest magnitude over all elements of all codewords, or 1 if that is 0. -/
def Sys2Proof.Claims.largestElement (k : Binding) (cw : List Byte) (cm : Nat) : Prop :=
  (∀ c < k.kcb, ∀ j < k.v, (codeword k cw c j).natAbs ≤ cm) ∧
  ((∃ c < k.kcb, ∃ j < k.v, (codeword k cw c j).natAbs = cm ∧ cm ≠ 0) ∨
    cm = 1 ∧ ∀ c < k.kcb, ∀ j < k.v, codeword k cw c j = 0)

/-- 08 R171: the block exponent: the smallest that lets the largest element reach amax, or 254. -/
def Sys2Proof.Claims.blockExponent (k : Binding) (cm : Nat) (amax : FVal) (e : Nat) : Prop :=
  let reaches (x : Nat) : Prop := (FVal.num false cm ((k.scale.toNat : Int) - 127 - k.f + ((x : Int) - 127))).lt amax = false
  (amax.isInf = true → e = 254) ∧ (amax.isInf = false → e ≤ 254 ∧ (e = 254 ∨ reaches e) ∧ ∀ x < e, ¬ reaches x)

/-- 08 R171: a value as the search takes it: rounded once and clamped; whether a finite value was clamped. -/
def Sys2Proof.Claims.quantized (k : Binding) (e : Nat) : FVal → Int × Bool
  | .nan => (0, false)
  | .inf neg => (if neg then -32767 else 32767, false)
  | .num neg m x =>
    let r := roundInt m (x + (127 - (e : Int)) + (127 + (k.f : Int) - k.scale.toNat))
    let q : Int := Min.min (r : Int) 32767
    (if neg then -q else q, decide (32767 < r))

/-- 08 R172: the squared distance of a group from a codeword. -/
def Sys2Proof.Claims.distance (k : Binding) (cw : List Byte) (q : Nat → Int) (c : Nat) : Int := ((List.range k.v).map fun j => (q j - codeword k cw c j) ^ 2).sum

/-- 08 R172: the nearest codeword, the lowest index among equals. -/
def Sys2Proof.Claims.isNearest (k : Binding) (cw : List Byte) (q : Nat → Int) (c : Nat) : Prop :=
  c < k.kcb ∧ ∀ d < k.kcb, distance k cw q c ≤ distance k cw q d ∧ (d < c → distance k cw q c < distance k cw q d)

/-- 08 R168: entry c of a revision map. -/
def Sys2Proof.Claims.mapEntry (m : List Byte) (c : Nat) : Nat := (m.getD (2 * c) 0).toNat + 256 * (m.getD (2 * c + 1) 0).toNat

/-- 08 R168: the stamp of an image names the version before the bound one, in translate mode. -/
def Sys2Proof.Claims.namesPrevious (k : Binding) (x : Vec) : Prop :=
  x.extractLsb' 512 16 ≠ k.ver ∧ k.mode = true ∧ k.prevver ≠ 0 ∧ x.extractLsb' 512 16 = k.prevver

/-- 08 R168: every index of an image has a successor in a map. -/
def Sys2Proof.Claims.hasSuccessors (k : Binding) (x : Vec) (m : List Byte) : Prop :=
  ∀ g < 32, mapEntry m (el k.w x g) ≠ 0xFFFF ∧ mapEntry m (el k.w x g) < k.kcb

/-- R279, R280, R281, R283: with a live binding whose copy stands in the CBS, VQZ owes the block image of its lanes: the version as the
stamp, the block exponent and the codeword indices its search finds (08 R171, R172), zero in every other byte; VDQ of an image that carries the
binding's version, or in translate mode the one before it, its indices taken through the map (08 R168), owes, lane by lane, the value of its
codeword's element (08 R163); an image of another version, or without a successor in the map, traps CBSTALE. Records: kind 01h for NaNs,
02h for clamped values, 05h for infinities, 06h for a translated block. A binding that is not valid traps CBDEAD with its number; of VDQ,
EVAL names byte 64 of an image that a port reads. That a wide codebook's elements take two
bytes, and that the scale is a number for FFh too, is the model's choice (log entry 17). -/
def Obligations.QuantizeAndDequantizeThroughABinding : Prop :=
  ∀ (s : State) (p : FReg) (m : Merge) (d : VDst) (a b : VSrc) (n : BReg) (cp : CbsCopy), Alone s → s.readF p = true →
    OperandsReady s [a, b] (some d) → PortQuiet s a → PortQuiet s b →
    let k := s.c.regs.b[n]
    let x := s.readV 32 a
    let y := s.readV 32 b
    (k.valid = true → s.copyAt n false = .ok (cp, false) →
      let val (j : Nat) : FVal := fdec fmtF32 (el 32 x j)
      let amax := fdec fmtF32 (el 32 y 0)
      let nanBlock : Bool := amax.isNan || (List.range 32).any fun j => (val j).isNan
      let g0 := el 32 y 1 % 32 / (32 / k.v) * (32 / k.v)
      ∃ (e : Owed) (c' : Core) (v z : Vec), exec (.vqz p m d a b n) s =
          .next { usesOperands s 2 [a, b] (some d) with c := c' } ∧
        owesVector s.c 8 2 d e c' ∧ e.data = some z ∧ e.cbs = some cp.key ∧
        (∃ (ex : Nat) (idx : Nat → Nat),
          (nanBlock = true → ex = 0xFF ∧ ∀ h, idx h = 0) ∧
          (nanBlock = false → (∃ cm, largestElement k cp.cw cm ∧ blockExponent k cm amax ex) ∧
            ∀ h < 32 / k.v, isNearest k cp.cw (fun j => (quantized k ex (val (h * k.v + j))).1) (idx h)) ∧
          v.extractLsb' 512 16 = k.ver ∧ (v.extractLsb' 528 8).toNat = ex ∧
          (∀ g < 32, el k.w v g = if g0 ≤ g ∧ g < g0 + 32 / k.v then idx (g - g0) else 0) ∧
          (∀ i < 128, 4 * k.w ≤ i → i < 64 ∨ 67 ≤ i → el 8 v i = 0) ∧
          ∃ r1 r2 r5, e.recs = r1 ++ r2 ++ r5 ∧
            (amax.isNan = false → recorded s 1 32 (fun j => (val j).isNan) r1) ∧ (amax.isNan = true → r1 ≠ []) ∧
            recorded s 2 32 (fun j => !nanBlock && (quantized k ex (val j)).2) r2 ∧
            ((amax.isInf = true → ∃ j < 32, (val j).isInf = true) → recorded s 5 32 (fun j => !nanBlock && (val j).isInf) r5)) ∧
        (∀ i < 32, z.extractLsb' (32 * i) 32 = mergedLane s m x v i)) ∧
    (∀ map, k.valid = true → s.copyAt n true = .ok (cp, false) → cp.map = map →
      let be := (x.extractLsb' 528 8).toNat
      x.extractLsb' 512 16 = k.ver ∨ namesPrevious k x ∧ (be = 0xFF ∨ ∃ mp, map = some mp ∧ hasSuccessors k x mp) →
      let moves : Bool := x.extractLsb' 512 16 != k.ver
      let idx (g : Nat) : Nat := if moves = true ∧ be ≠ 0xFF then mapEntry (map.getD []) (el k.w x g) else el k.w x g
      let g0 := el 32 y 0 % 32 / (32 / k.v) * (32 / k.v)
      ∃ (e : Owed) (c' : Core) (v z : Vec), exec (.vdq p m d a b n) s =
          .next { usesOperands s 2 [a, b] (some d) with c := c' } ∧
        owesVector s.c 6 2 d e c' ∧ e.data = some z ∧ e.cbs = some cp.key ∧
        (∀ j < 32, el 32 v j = fround fmtF32 (decoded k cp.cw be (idx (g0 + j / k.v)) (j % k.v))) ∧
        (∃ r1 r6, e.recs = r1 ++ r6 ∧ recorded s 1 32 (fun _ => be == 0xFF) r1 ∧ recorded s 6 32 (fun j => j == 0 && moves) r6) ∧
        (∀ i < 32, z.extractLsb' (32 * i) 32 = mergedLane s m x v i)) ∧
    (k.valid = true → s.copyAt n true = .ok (cp, false) → x.extractLsb' 512 16 ≠ k.ver →
      (namesPrevious k x → x.extractLsb' 528 8 ≠ 0xFF ∧ ∃ mp, cp.map = some mp ∧ ¬ hasSuccessors k x mp) →
      exec (.vdq p m d a b n) s =
        .next ((usesOperands s 2 [a, b] (some d)).precise ⟨cCBSTALE, n.val, 2, BitVec.ofNat 64 (imageByte s a)⟩)) ∧
    (k.valid = false →
      exec (.vqz p m d a b n) s = .next ((usesOperands s 2 [a, b] (some d)).precise ⟨cCBDEAD, n.val, 2, 0⟩) ∧
      exec (.vdq p m d a b n) s =
        .next ((usesOperands s 2 [a, b] (some d)).precise ⟨cCBDEAD, n.val, 2, BitVec.ofNat 64 (imageByte s a)⟩))

/-! ## Slot 3: the lease, array commands, codebook commands, copies -/

/-- 14 R319, 06 R125: LEASE of a core without a lease or a request puts its request in its cluster's queue; otherwise it changes
nothing. LFREE in task mode leaves the core without a lease and without a request; in supervisor mode the lease goes back to what it
was at the trap's entry (14 R320). The lease of a cluster that no core holds goes to the core whose turn it is, which then holds
it. -/
def Obligations.LeaseIsRequestedGrantedAndFreed : Prop :=
  (∀ (s : State) (p : FReg), Alone s → s.readF p = true →
     (s.c.lease = .none → s.cur ∉ (s.clusterAt (clusterOf s.cur)).reqs →
       ∃ t, exec (.lease p) s = .next t ∧ t.c = { s.c with lease := .requested } ∧ t.mem = s.mem ∧
         (t.clusterAt (clusterOf s.cur)).reqs = (s.clusterAt (clusterOf s.cur)).reqs ++ [s.cur] ∧
         (t.clusterAt (clusterOf s.cur)).holder = (s.clusterAt (clusterOf s.cur)).holder) ∧
     (s.c.lease ≠ .none → exec (.lease p) s = .next s) ∧
     (s.c.csr.mode = true → s.c.leaseAtTrap = .held → exec (.lfree p) s = .next s) ∧
     (s.c.csr.mode = true → s.c.leaseAtTrap = .requested → s.c.lease ≠ .held → exec (.lfree p) s = .next s) ∧
     (s.c.csr.mode = true → s.c.leaseAtTrap = .requested → s.c.lease = .held →
       ∃ t, exec (.lfree p) s = .next t ∧ t.c = { s.c with lease := .requested } ∧ t.mem = s.mem) ∧
     (s.c.csr.mode = true → s.c.leaseAtTrap = .none →
       ∃ t, exec (.lfree p) s = .next t ∧ t.c = { s.c with lease := .none } ∧ t.mem = s.mem) ∧
     (s.c.csr.mode = false →
       ∃ t, exec (.lfree p) s = .next t ∧ t.c = { s.c with lease := .none, grace := false } ∧ t.mem = s.mem ∧
         s.cur ∉ (t.clusterAt (clusterOf s.cur)).reqs ∧
         ((s.clusterAt (clusterOf s.cur)).holder = some s.cur → (s.clusterAt (clusterOf s.cur)).idleFor s.cur = true →
           (t.clusterAt (clusterOf s.cur)).holder = none))) ∧
  (∀ (s : State) (m k : Nat), clusterOk m = true → (s.clusterAt m).holder = none → s.leaseTo m = some k →
     ∃ t, exec (.leaseGrant m) s = .next t ∧ (t.clusterAt m).holder = some k ∧ (t.coreAt k).lease = .held ∧
       k ∉ (t.clusterAt m).reqs ∧ (t.clusterAt m).turn = 0 ∧ t.mem = s.mem ∧ (t.coreAt k).regs = (s.coreAt k).regs)

/-- What an array command names, its predicate, its counter register, its binding, its tile and the tag it sets (08 R179). -/
def Sys2Proof.Claims.arrayCommand (s : State) : Instr → Option (FReg × ArrayUse × SReg × Option BReg × Option (AcReg × Option (BitVec 4)))
  | .mmd p c a b t f => some (p, s.mmdUse c a b t f, t, none, some (c, some (mmdTag f)))
  | .tbld p n a b t => some (p, s.tbldUse n a b t, t, some n, none)
  | .mmt p c n a b t => some (p, s.mmtUse c n a b t, t, some n, some (c, some 5))
  | .accz p c t => some (p, ⟨[], some c, none, none, t, false⟩, t, none, some (c, some 0))
  | .accld p c a tg t =>
    some (p, ⟨[accldOp (s.c.readS a).toNat], some c, none, none, t, false⟩, t, none, some (c, some (BitVec.ofNat 4 tg.val)))
  | .accst p c a ty _ t =>
    some (p, ⟨[accstOp (s.c.readS a).toNat ty], some c, none, none, t, false⟩, t, none, some (c, none))
  | .mmtd p c n a b t => if s.maskTraps a b = [] then some (p, s.mmtdUse c n a b t, t, some n, some (c, some 5)) else none
  | _ => none

/-- The physical address an operand register names for an access; after a wait for the lease, that of the check before the wait (14 R316). -/
def Sys2Proof.Claims.physOf (s : State) (a : SReg) (acc : AccKind) (pa : Nat) : Prop :=
  match s.iss.checked with
  | some x => x.1 = pa
  | none => ∃ x, s.xlateCore (s.c.readS a).toNat acc = .ok x ∧ x.pa = pa

/-- The operation of an array command carries the instruction's tile, operand addresses and descriptors as read at issue. -/
def Sys2Proof.Claims.carriesOperands (s : State) : Instr → CmaOp → Prop
  | .mmd _ c a b _ f, .mmd c' pa pb f' => c' = c ∧ f' = f ∧ physOf s a .rd pa ∧ physOf s b .rd pb
  | .tbld _ _ a b _, .tbld pa d => physOf s a .rd pa ∧ d = s.c.readS b
  | .mmt _ c _ a b _, .mmt c' pa d => c' = c ∧ physOf s a .rd pa ∧ d = s.c.readS b
  | .mmtd _ c _ a b _, .mmtd c' pa d e => c' = c ∧ physOf s a .rd pa ∧ d = s.c.readS b ∧ e = s.c.readS (b + 1)
  | .accz _ c _, .accz c' => c' = c
  | .accld _ c a tg _, .accld c' pa tg' => c' = c ∧ tg' = tg ∧ physOf s a .rd pa
  | .accst _ c a ty sat _, .accst c' pa ty' sat' => c' = c ∧ ty' = ty ∧ sat' = sat ∧ physOf s a .wr pa
  | _, _ => False

/-- 14 R316, R317, R321-R325; 08 R179; 09 R196: an array command of a core that holds the lease and whose checks pass, or have passed before
it waited for the lease, with the operand as it was checked then, forks: it joins its cluster's queue with its operands, its binding's snapshot and its counter as read at issue; its tile takes its tag and, in task
mode, counts as dirty; no register, no other tag and no byte of memory changes at issue. -/
def Obligations.ArrayCommandsForkIntoTheQueue : Prop :=
  ∀ (s : State) (i : Instr) (p : FReg) (u : ArrayUse) (t : SReg) (n : Option BReg) (tile : Option (AcReg × Option (BitVec 4))),
    i.wf = true → Alone s → arrayCommand s i = some (p, u, t, n, tile) → s.readF p = true → s.c.lease = .held →
    (s.arrayTraps u 0 = [] ∧ s.leasePassing s.cur = false ∧ s.iss.checked = none ∨
      s.iss.granted = true ∧ s.iss.checked.isSome = true) →
    ∃ (m : CmaCmd) (s' : State), exec i s = .next s' ∧
      (s'.clusterAt (clusterOf s.cur)).cmds = (s.clusterAt (clusterOf s.cur)).cmds ++ [m] ∧
      m.core = s.cur ∧ m.ord = s.c.serial ∧ carriesOperands s i m.op ∧ m.bnd = n.map (fun n => s.c.regs.b[n]) ∧
      m.ctr = (if t = 0 then none else some ((s.c.readS t).truncate 16)) ∧
      s'.mem = s.mem ∧ s'.ext = s.ext ∧ s'.c.owed = s.c.owed ∧ s'.c.lsu = s.c.lsu ∧
      s'.c.regs = { s.c.regs with tag := match tile with
        | some (c, some g) => s.c.regs.tag.set c g
        | _ => s.c.regs.tag } ∧
      s'.c.csr.accdirty = (match tile with
        | some (c, some _) => if s.c.csr.mode then s.c.csr.accdirty else s.c.csr.accdirty ||| BitVec.twoPow 4 c.val
        | _ => s.c.csr.accdirty)

/-- 14 R316, R319, Table 14-1: an array command whose other checks pass traps NOLEASE on a core that neither holds nor has requested the
lease, and waits, with no core cycle passing and the operand that it has checked kept, on one that has requested it. That it also waits on a
core whose lease is at its bound while another core waits is the model's reading of 06 R125 (log entry 64). -/
def Obligations.ArrayCommandsNeedTheLease : Prop :=
  ∀ (s : State) (i : Instr) (p : FReg) (u : ArrayUse) (t : SReg) (n : Option BReg) (tile : Option (AcReg × Option (BitVec 4))),
    i.wf = true → s.iss = Issue.none → arrayCommand s i = some (p, u, t, n, tile) → s.readF p = true →
    ({ s with c := { s.c with lease := .held } } : State).arrayTraps u 0 = [] →
    (s.c.lease = .none → s.c.grace = false → exec i s = .next (s.precise ⟨cNOLEASE, 0, 3, 0⟩)) ∧
    (s.c.lease = .requested → exec i s = .next (s.block (.lease (u.ops.findSome? s.hbmOperand)))) ∧
    (s.c.lease = .held → s.leasePassing s.cur = true → exec i s = .next (s.block (.lease (u.ops.findSome? s.hbmOperand))))

/-- COUNT is a signed 32-bit number. -/
def Sys2Proof.Claims.CountFits (m : Int) : Prop := -2 ^ 31 ≤ m ∧ m < 2 ^ 31

/-- 05 R88, R90: a counter number in the 16-bit form is allocated to a VD. -/
def Sys2Proof.Claims.Allocated (d : Vd) (ctr : Nat) : Prop := ctr % 16384 < d.ctrsN[Fin.ofNat 4 (ctr / 16384)]

/-- The number that n bytes of memory make. -/
def Sys2Proof.Claims.bytesAt (s : State) (pa n : Nat) : Nat := leValue ((List.range n).map fun j => s.mem.get (pa + j))

/-- A counter operation that an engine makes is applied at once and readies nothing: the counter is allocated to its VD, its COUNT stays in
range, it names no continuation, and its Shepherd's clock runs (05 R88-R91; 02 R27). -/
def Sys2Proof.Claims.QuietCounter (s : State) (v : Nat) (gen : BitVec 16) (ctr : Nat) : Prop :=
  ∃ d, s.vd? v = some d ∧ d.gen = gen ∧ Allocated d ctr ∧ CountFits ((d.ctr ctr).count - 1) ∧ (d.ctr ctr).named = none ∧
    s.stopped (ctr / 16384) = false

/-- The counter has been decremented. -/
def Sys2Proof.Claims.Decremented (s t : State) (v ctr : Nat) : Prop :=
  ∀ d, s.vd? v = some d → ∃ d', t.vd? v = some d' ∧ d'.ctr ctr = ⟨(d.ctr ctr).count - 1, (d.ctr ctr).named⟩

/-- 08 R165, 14 R326, R327: CBBIND of a bindable entry owes its binding the entry's fields with VALID set and increments the entry's
BINDCNT, and releases the old binding first where it is valid; CBFREE of a valid binding owes it zero and sends the decrement, of an invalid
one does nothing; the decrement, when it is performed, takes one from a BINDCNT that is not zero. CBINV and CBPRE of an entry that translates
start their release and their fill. -/
def Obligations.CodebookCommandsActOnTheirEntry : Prop :=
  ∀ (s : State) (p : FReg) (n : BReg) (a t : SReg) (mode : Bool) (x : Xl), Alone s → s.readF p = true →
    let v := s.c.readS a
    let va := s.entryVa (v.extractLsb' 0 16).toNat
    let found := s.bindFound n v t (wordOf (.cbbind p n a mode t))
    let old := s.c.regs.b[n]
    let oldVa := s.entryVa old.entry.toNat + 8
    (found.traps = [] → found.wait = none → s.xlateCore (va + 8) .wr = .ok x →
      ∃ (u : State) (f : Fill), exec (.cbbind p n a mode t) s = .next u ∧
        (∃ ord, u.c.owed = s.c.owed ++ [⟨ord, s.c.csr.cycle + 1, 3, .bind n,
          some (BitVec.ofNat 1024 ((PedEntry.ofBytes (s.read (x.pa - 8) 64)).binding (v.extractLsb' 0 16).toNat mode).pack),
          false, 0, false, 0, none, [], none⟩]) ∧
        (old.valid = false → u.c.lsu = s.c.lsu) ∧
        (∀ y, old.valid = true → s.xlateCore oldVa .wr = .ok y → ∃ r : Req, u.c.lsu = s.c.lsu ++ [r] ∧
          r.op = .bindcnt y.pa (BitVec.ofNat 64 oldVa) ∧ r.rel = true ∧ r.scope = .sys) ∧
        u.c.regs = s.c.regs ∧
        u.mem = (s.write x.pa (bytesOf 8 (leValue (s.read x.pa 8) + 256))).mem ∧
        (u.clusterAt (clusterOf s.cur)).fills = (s.clusterAt (clusterOf s.cur)).fills ++ [f] ∧ f.bn = n ∧ f.pa = x.pa - 8) ∧
    ((s.c.regs.b[n]).valid = false → exec (.cbfree p n) s = .next s) ∧
    ((s.c.regs.b[n]).valid = true → s.xlateCore (s.entryVa (s.c.regs.b[n]).entry.toNat + 8) .wr = .ok x → HasRoom s false →
      ∃ (u : State) (r : Req), exec (.cbfree p n) s = .next u ∧ u.c.lsu = s.c.lsu ++ [r] ∧
        r.op = .bindcnt x.pa (BitVec.ofNat 64 (s.entryVa (s.c.regs.b[n]).entry.toNat + 8)) ∧
        u.c.owed = s.c.owed ++ [⟨s.c.serial + 1, s.c.csr.cycle + 1, 3, .bind n, some 0, false, 0, false, 0, none, [], none⟩] ∧
        u.c.regs = s.c.regs ∧ u.mem = s.mem) ∧
    (∀ (k pa : Nat) (vw : Word) (r : Req), coreOk k = true → s.mem.wf = true → NextToPerform s k r → r.op = .bindcnt pa vw → pa % 8 = 0 →
      (∀ j < 8, StorableByte s (pa + j)) → s.poisoned pa = false →
      ∃ u, exec (.requestCompletion k r.ord) s = .next u ∧ (u.coreAt k).lsu = (s.coreAt k).lsu.filter (fun q => q.ord != r.ord) ∧
        ∀ a, u.mem.get a =
          if pa ≤ a ∧ a < pa + 8 ∧ bytesAt s (pa + 1) 3 ≠ 0 then leByte (bytesAt s pa 8 - 256) (a - pa) else s.mem.get a) ∧
    (v.toNat < 65536 → s.entryBad v.toNat = false → s.xlateCore va .rd = .ok x → s.ctrTraps t 0 = [] →
      ∃ (u : State) (i : CbInv), exec (.cbinv p a t) s = .next u ∧ u.cbinvs = s.cbinvs ++ [i] ∧ i.core = s.cur ∧ i.key = x.pa ∧
        i.ctr = (if t = 0 then none else some ((s.c.readS t).truncate 16)) ∧ u.c.regs = s.c.regs ∧ u.mem = s.mem) ∧
    (v.toNat < 2 ^ 48 → s.entryBad (v.extractLsb' 0 16).toNat = false → s.xlateCore va .rd = .ok x →
      ∃ (u : State) (f : Fill), exec (.cbpre p a) s = .next u ∧
        (u.clusterAt (clusterOf s.cur)).fills = (s.clusterAt (clusterOf s.cur)).fills ++ [f] ∧ f.pre = true ∧ f.pa = x.pa ∧
        u.c.regs = s.c.regs ∧ u.c.owed = s.c.owed ∧ u.mem = s.mem)

/-- The operands of a copy: predicate, operation, destination, source, shape, counter register. -/
def Sys2Proof.Claims.copyOf : Instr → Option (FReg × CopyOp × SReg × SReg × SReg × SReg)
  | .cpy p d a h t => some (p, .cpy, d, a, h, t)
  | .cpyq p d a h t => some (p, .cpyq, d, a, h, t)
  | .cpyd p d a h t => some (p, .cpyd, d, a, h, t)
  | .cpym p d a h t => some (p, .cpym, d, a, h, t)
  | .cpyf p d a h t => some (p, .cpyf, d, a, h, t)
  | _ => none

/-- Memory after bytes have been written in order. -/
def Sys2Proof.Claims.wroteAll (m : Nat → Byte) : List (Nat × Byte) → Nat → Byte
  | [] => m
  | (a, b) :: r => wroteAll (fun x => if x = a then b else m x) r

/-- A side of a copy that lies in the device: a slice, or a kind 0 handle. -/
def Sys2Proof.Claims.OnDevice : SideAt → Prop
  | .slice _ => True
  | .handle h => h.kind = .device
  | .broken _ _ => False

/-- The physical byte at a slice address, or at an offset of a kind 0 handle (06 R113, R122). -/
def Sys2Proof.Claims.sideByte : SideAt → Nat → Nat
  | .slice g, o => sliceBase g + (o - sramBase) % sliceSize
  | .handle h, o => ((h.pages[o / 65536]?).map fun p => p.1 + o % 65536).getD 0
  | .broken _ _, _ => 0

/-- The number that n bytes of a side make. -/
def Sys2Proof.Claims.sideBytes (s : State) (x : SideAt) (o n : Nat) : Nat := leValue ((List.range n).map fun j => s.mem.get (sideByte x (o + j)))

/-- A physical byte that the writes of n bytes reach: as StorableByte says, its counters not coming to their end among them (04 R63). -/
def Sys2Proof.Claims.Roomy (s : State) (n pa : Nat) : Prop := StorableByte s pa ∧ countAt (pa / 4096) s.mpe.major + n < 2 ^ 64

/-- Table 13-5: LEN + 1, the rows, and the byte steps of the sides of a copy. -/
def Sys2Proof.Claims.copyLen (h : Chan) : Nat := (h.shp.extractLsb' 0 16).toNat + 1
def Sys2Proof.Claims.copyRows (h : Chan) : Nat := (h.shp.extractLsb' 16 12).toNat + 1
def Sys2Proof.Claims.srcStep (h : Chan) : Nat := 4 * (h.shp.extractLsb' 32 16).toNat
def Sys2Proof.Claims.dstStep (h : Chan) : Nat := 4 * (h.shp.extractLsb' 48 16).toNat

/-- Table 13-5: the element type of a codebook copy, and HOFF as a signed offset (log entry 17). -/
def Sys2Proof.Claims.copyType (h : Chan) : VTy := VTy.ofCode (h.ctr.extractLsb' 20 4).toNat
def Sys2Proof.Claims.copyHoff (h : Chan) : Int := (h.ctr.extractLsb' 32 32).toInt

/-- The only copy of a core, ready to move its data, the clocks of its die running; the counter it names, if any, readies nothing. -/
def Sys2Proof.Claims.OnlyCopy (s : State) (k : Nat) (h : Chan) : Prop :=
  coreOk k = true ∧ (s.coreAt k).chans = [h] ∧ s.copyReady k h = true ∧ s.stopped (dieOf k) = false ∧
    (h.named = true → QuietCounter s h.vd h.gen (h.ctr.extractLsb' 0 16).toNat)

/-- The only copy of a core, with no word written yet. -/
def Sys2Proof.Claims.LastCopy (s : State) (k : Nat) (h : Chan) : Prop := OnlyCopy s k h ∧ s.mem.wf = true ∧ h.done = [] ∧ h.plan = none

/-- A copy has retired: its channel is free, and the counter it names is decremented (06 R124, 05 R89). -/
def Sys2Proof.Claims.CopyRetires (s t : State) (k : Nat) (h : Chan) : Prop :=
  (t.coreAt k).chans = [] ∧ (h.named = true → Decremented s t h.vd (h.ctr.extractLsb' 0 16).toNat)

/-- The runs that a codebook copy writes hold these n bytes at an offset. -/
def Sys2Proof.Claims.holdsRun (p : CopyPlan) (o n v : Nat) : Prop :=
  ∃ bs : List Byte, (o, bs.map fun b => (b, false)) ∈ p.runs ∧ bs.length = n ∧ leValue bs = v % 256 ^ n

/-- Fields of w bits side by side, the first lowest. -/
def Sys2Proof.Claims.packed (w : Nat) (f : Nat → Nat) : Nat → Nat
  | 0 => 0
  | n + 1 => packed w f n + f n % 2 ^ w * 2 ^ (w * n)

/-- The blocks of a codebook copy whose source is an index tensor: its field and header as read, clean, at row r, block q. -/
def Sys2Proof.Claims.indexBlock (s : State) (h : Chan) (x : SideAt) (sb r q : Nat) (field hdr : Nat) : Prop :=
  let w := (h.bnd.getD Binding.none).w
  let fo := sb + r * srcStep h + q * (4 * w)
  let ho := (((sb + r * srcStep h + 3 * q : Nat) : Int) + copyHoff h).toNat
  (∀ j < 4 * w, s.poisoned (sideByte x (fo + j)) = false) ∧ (∀ j < 3, s.poisoned (sideByte x (ho + j)) = false) ∧
  field = sideBytes s x fo (4 * w) ∧ hdr = sideBytes s x ho 3

/-- 06 R124, 13 R311, R312: a copy that passes its checks while a channel is free takes a channel with its operands as read at issue and
forks, no data moving yet; one into a circular buffer takes the slot at PIDX where it may start at once, and else waits for it with the buffer
as it was (06 R117); with all 16 channels busy its bundle waits; a failed check traps before anything moves, after the stop of a walk
that failed. 13 R313, Table 13-7: the bytes that a copy between places of the device leaves when it completes: CPY each row of its source,
CPYF its word in every aligned word, the rows in ascending order; a codebook copy its runs: CPYQ each block's indices and header as the
search finds them (08 R171), CPYD each index block's elements converted to its type, CPYM each index field as translated, stamped with the
binding's version. No other byte changes, and the counter it names is decremented as it retires. That HOFF is signed is the model's choice (log entry 17). -/
def Obligations.CopiesTakeAChannel : Prop :=
  (∀ (s : State) (h : Chan) (k : Nat) (dx : SideAt) (db : Nat), LastCopy s k h → s.chanDst k h = some (dx, db) → OnDevice dx →
    let moved (val : Nat → Nat → Byte) : Prop :=
      (∀ r < copyRows h, ∀ j < 4 * copyLen h, Roomy s (copyRows h * (4 * copyLen h)) (sideByte dx (db + r * dstStep h + j))) →
      ∃ t, exec (.copyCompletion k h.id.val) s = .next t ∧ CopyRetires s t k h ∧
        ∀ a, t.mem.get a = wroteAll s.mem.get ((List.range (copyRows h)).flatMap fun r => (List.range (4 * copyLen h)).map fun j =>
          (sideByte dx (db + r * dstStep h + j), val r j)) a
    (∀ sx sb, h.op = .cpy → s.chanSrc h = some (sx, sb) → OnDevice sx →
      (∀ r < copyRows h, ∀ j < 4 * copyLen h, s.poisoned (sideByte sx (sb + r * srcStep h + j)) = false) →
      moved fun r j => s.mem.get (sideByte sx (sb + r * srcStep h + j))) ∧
    (h.op = .cpyf → moved fun r j => leByte h.src.toNat ((db + r * dstStep h + j) % 4)) ∧
    (∀ sx sb s' p, h.op.coded = true → s.chanSrc h = some (sx, sb) → s.planCopy k h sx sb db = (s', .ok p) →
      (∀ u ∈ p.runs, (∀ y ∈ u.2, y.2 = false) ∧
        ∀ j < u.2.length, Roomy s (p.runs.map fun u => u.2.length).sum (sideByte dx (u.1 + j))) →
      ∃ t, exec (.copyCompletion k h.id.val) s = .next t ∧ CopyRetires s t k h ∧
        ∀ a, t.mem.get a = wroteAll s.mem.get (p.runs.flatMap fun u => (List.range u.2.length).map fun j =>
          (sideByte dx (u.1 + j), (u.2.getD j (0, false)).1)) a)) ∧
  (∀ (s s' : State) (h : Chan) (k : Nat) (x : SideAt) (sb db : Nat) (cp : CbsCopy) (fresh : Bool) (p : CopyPlan) (r q : Nat),
    OnDevice x → s.getCopy (clusterOf k) h.vd (h.bnd.getD Binding.none) h.needsMap = .ok (cp, fresh) →
    s.planCopy k h x sb db = (s', .ok p) → r < copyRows h → q < copyLen h →
    let b := h.bnd.getD Binding.none
    let n := (copyType h).width / 8
    let f := (floatOf (copyType h)).getD fmtF32
    let at' (row : Nat) : Nat := (((db + r * dstStep h + row : Nat) : Int) + copyHoff h).toNat
    (h.op = .cpyq → (∀ j < 32 * b.v * n, s.poisoned (sideByte x (sb + r * srcStep h + q * (32 * b.v * n) + j)) = false) →
      let vals := (List.range (32 * b.v)).map fun i => fdec f (sideBytes s x (sb + r * srcStep h + q * (32 * b.v * n) + n * i) n)
      let e := b.encodeRun cp.cw (amaxOf vals) vals
      holdsRun p (db + r * dstStep h + q * (4 * b.w)) (4 * b.w) (packed b.w (fun g => e.idx.getD g 0) 32) ∧
      holdsRun p (at' (3 * q)) 3 (e.exp * 65536 + b.ver.toNat)) ∧
    (h.op = .cpyd → ∀ field hdr, indexBlock s h x sb r q field hdr →
      ∃ is moved, b.stampCheck cp.map hdr (indices b.w field) = some (is, moved) ∧
        holdsRun p (db + r * dstStep h + q * (32 * b.v * n)) (32 * b.v * n) (packed (8 * n) (fun i =>
          (fconv f false (fdec fmtF32 (fround fmtF32 (b.value cp.cw (hdr / 65536 % 256) (is.getD (i / b.v) 0) (i % b.v))))).bits)
          (32 * b.v))) ∧
    (h.op = .cpym → ∀ field hdr, indexBlock s h x sb r q field hdr →
      ∃ is moved, ({ b with mode := true } : Binding).stampCheck cp.map hdr (indices b.w field) = some (is, moved) ∧
        holdsRun p (db + r * dstStep h + q * (4 * b.w)) (4 * b.w) (packed b.w (fun g => is.getD g 0) 32) ∧
        holdsRun p (at' (3 * q)) 3 (hdr / 65536 % 256 * 65536 + b.ver.toNat))) ∧
  ∀ (s : State) (i : Instr) (p : FReg) (op : CopyOp) (d a h t : SReg) (k : Task) (v : Vd) (l : List TlbEntry),
    Alone s → copyOf i = some (p, op, d, a, h, t) → s.readF p = true → s.c.task = some k → s.vd? k.vd = some v →
    let args := s.copyArgs op d a h t
    (s.c.chans.length < 16 → s.copyCheck s.cur k.vd v args (wordOf i) = .ok l →
      ∃ (u : State) (g : Chan), exec i s = .next u ∧ g ∈ u.c.chans ∧ u.c.chans.length = s.c.chans.length + 1 ∧ g.op = op ∧ g.dst = s.c.readS d ∧
        g.src = s.c.readS a ∧ g.shp = s.c.readS h ∧ g.ctr = (if t = 0 then 0 else s.c.readS t) ∧ g.named = (t != 0) ∧
        g.vd = k.vd ∧ g.ord = s.c.serial ∧ u.mem = s.mem ∧ u.ext = s.ext ∧ u.c.owed = s.c.owed ∧
        { u.c.regs with cb := s.c.regs.cb } = s.c.regs ∧
        ((∀ g ∈ s.c.chans, g.held = false ∧ g.ord < s.c.serial) → u.c.chans = s.c.chans ++ [g] ∧
          let q : CbReg := Fin.ofNat 16 ((s.c.readS d).toNat % 16)
          let b := s.c.regs.cb[q]
          if (s.c.readS h).extractLsb' 30 2 = 2 ∧ g.held = false then
            g.slot = some b.pidx ∧ u.c.regs.cb =
              s.c.regs.cb.set q { b with free := b.free - 1, pidx := (b.pidx + 1) % b.nslot, pheld := b.pheld + 1 }
          else g.slot = none ∧ u.c.regs.cb = s.c.regs.cb)) ∧
    (16 ≤ s.c.chans.length → exec i s = .next (s.block .channels)) ∧
    (∀ e, s.c.chans.length < 16 → s.copyCheck s.cur k.vd v args (wordOf i) = .error e →
      let walked := args.sides.any fun side => s.bitWalks v ((args.side side).toNat / 2 ^ 32) (args.pages (s.copyBinding args) side) e
      exec i s = .next (({ s with iss := { s.iss with walk := walked } } : State).precise { e with slot := 3 }))

/-- A partial sum accumulated into an element: one rounding to FP32 (08 R176). -/
def Sys2Proof.Claims.accumulate (acc : Nat) (v : FVal) : Nat := fround fmtF32 ((fdec fmtF32 acc).add v)

/-- The exact sum of products. -/
def Sys2Proof.Claims.exactSum : List FVal → FVal
  | [] => FVal.zero
  | x :: r => r.foldl FVal.add x

/-- 14 R321, 08 R176, Table 14-3: element (i, j) of MMD's tile from the element before: per step, the exact sum of the products of row i
of A and row j of B, accumulated; of an MX step the scaled value of R177. -/
def Sys2Proof.Claims.mmdElement (s : State) (a b : Nat) (f : MmdFmt) (i j old : Nat) : Nat :=
  match f with
  | .mx4 => accumulate old (fdec fmtF32 (mxStep (s.read a 544) (s.read b 544) i j).bits)
  | _ =>
    let (fa, fb) := mmdFormats f
    let n := match f with
      | .bf16 | .f16 => 2
      | _ => 1
    let c := match f with
      | .bf16 | .f16 => 8
      | _ => 16
    (List.range (32 / c)).foldl (fun acc st => accumulate acc (exactSum ((List.range c).map fun l =>
      (fdec fa (bytesAt s (a + n * (32 * i + st * c + l)) n)).mul (fdec fb (bytesAt s (b + n * (32 * j + st * c + l)) n))))) old

/-- The table entry that a cluster's tables hold for group i, index k, column n: base PBASE of 32 KiB each (14 R322, R323). -/
def Sys2Proof.Claims.tableCell (cl : Nat) (b : Binding) (pbase i k n : Nat) : Nat := pptBase cl + pbase * 32768 + 4 * (b.kcb * 32 * i + 32 * k + n)

/-- 08 R174: what a table entry adds under a block exponent. -/
def Sys2Proof.Claims.scaledEntry (p : FVal) (e : Nat) : Nat := if e = 255 then 0x7FC00000 else (fconv fmtF32 false (p.scale ((e : Int) - 127))).bits

/-- The address of row i's index field, moved by an offset (14 R323). -/
def Sys2Proof.Claims.rowField (a : Nat) (d : Word) (i : Nat) (off : Int) : Nat := (((a + 16 * (d.extractLsb' 14 18).toNat * i : Nat) : Int) + off).toNat

/-- The next command of a cluster completes in the state t, with the rest of the queue left, and the counter it names is decremented. -/
def Sys2Proof.Claims.CommandRuns (s : State) (k : Nat) (m : CmaCmd) (rest : List CmaCmd) (t : State) : Prop :=
  exec (.arrayCommandCompletion k) s = .next t ∧ (t.clusterAt k).cmds = rest ∧
    ∀ c, m.ctr = some c → QuietCounter s m.vd m.gen c.toNat → Decremented s t m.vd c.toNat

/-- A tile after a command: each element as said, every other tile and memory as it was (memory where no counter is decremented). -/
def Sys2Proof.Claims.TileBecomes (s t : State) (m : CmaCmd) (c : AcReg) (f : Nat → Nat → Lane → Lane) : Prop :=
  (∀ e : Fin 1024, ((t.coreAt m.core).regs.ac[c])[e] = f (e.val / 32) (e.val % 32) (((s.coreAt m.core).regs.ac[c])[e])) ∧
  (∀ c', c' ≠ c → (t.coreAt m.core).regs.ac[c'] = (s.coreAt m.core).regs.ac[c']) ∧ (m.ctr = none → t.mem = s.mem)

/-- Bytes of a kind 0 handle of a VD, none of them poisoned or in a window (06 R122). -/
def Sys2Proof.Claims.HandleHolds (s : State) (v hid off n : Nat) (bs : List Byte) : Prop :=
  ∃ d h, s.vd? v = some d ∧ lookup hid d.handles = some h ∧ h.kind = .device ∧ off + n ≤ h.size ∧ bs.length = n ∧
    ∀ j < n, ∃ p, h.pages[(off + j) / 65536]? = some (p, none) ∧ s.poisoned (p + (off + j) % 65536) = false ∧
      bs[j]? = some (s.mem.get (p + (off + j) % 65536))

/-- 08 R164, R167: the entry of a fill is one that the fill may read: not poisoned, well formed, published or superseded, and of the binding's
CBID, VER and GEN; a CBPRE names no GEN. -/
def Sys2Proof.Claims.EntryFits (s : State) (f : Fill) : Prop :=
  let e := PedEntry.ofBytes (s.read f.pa 64)
  s.poisoned f.pa = false ∧ e.ok = true ∧ e.cbid = f.bnd.cbid.toNat ∧ e.ver = f.bnd.ver.toNat ∧ (e.state = 1 ∨ e.state = 2) ∧
    (f.pre = false → e.gen = f.bnd.gen.toNat)

/-- What a fill that ends leaves in its cluster's CBS (08 R167): where its entry does not fit, or no handle holds its codewords, what was
there; where it fits, outside windows, and its arrays can be read, the one copy of that entry and GEN, with the arrays' bytes; no other copy
is new. -/
def Sys2Proof.Claims.FillEnds (s t : State) (cl : Nat) (f : Fill) : Prop :=
  let e := PedEntry.ofBytes (s.read f.pa 64)
  let b := if f.pre then e.binding f.bnd.entry.toNat false else f.bnd
  let before := (s.clusterAt cl).cbs
  let after := (t.clusterAt cl).cbs
  (¬ EntryFits s f ∨ (∀ d, s.vd? f.vd = some d → lookup e.cwhdl d.handles = none) → after = before) ∧
  (∀ cw map, EntryFits s f → (∀ w, s.ownerOf f.pa ≠ some (.win w)) → HandleHolds s f.vd e.cwhdl e.cwoff b.cwBytes cw →
    (match map with
      | none => f.map = false
      | some m => f.map = true ∧ HandleHolds s f.vd e.maphdl e.mapoff (2 * b.kcb) m) →
    let c : CbsCopy := ⟨f.pa, b.gen, cw, map⟩
    c ∈ after ∧ ∀ x ∈ after, x = c ∨ x ∈ before ∧ ¬ (x.key = c.key ∧ x.gen = c.gen))

/-- 06 R117: a copy into slot i of a circular buffer whose other producer-held slots are not complete is complete: FILLED counts it where it is
the oldest of them, and else not yet. -/
def Sys2Proof.Claims.SlotFilled (b b' : CbBuf) (i : Nat) : Prop :=
  0 < b.nslot → 0 < b.pheld → b.pheld ≤ b.nslot → b.done = [] →
    (i = (b.pidx + b.nslot - b.pheld) % b.nslot → b' = { b with filled := b.filled + 1, pheld := b.pheld - 1 }) ∧
    (i ≠ (b.pidx + b.nslot - b.pheld) % b.nslot → b' = { b with done := [i] })

/-- 06 R126, 14 R325: while the die's clocks run, the next command of a cluster's queue completes and leaves the queue; ACCZ clears every element of its tile.
14 R321, R323, R324: MMD, MMT and MMTD leave in every element of their tile what the products, or the table entries that the rows' indices
select under their exponents, in ascending order, come to; MMTD adds new less old of the groups its masks name; a poisoned row's elements
are the canonical NaN. R322: TBLD leaves each entry of its tables. R325: ACCLD loads its tile, a NaN as the canonical one, and ACCST leaves
its tile's elements, converted, in memory, where none of its words has been written before (07 R148).
06 R124: a copy that is ready completes and its channel is free again; 06 R117: the slot that it has filled is counted in its buffer.
08 R167, R169: the oldest fill a core has under way for a binding ends and leaves the cluster's list, with the copy that it has fetched, or
none; a copy that no executing command uses may be evicted, and every other stays; a release that nothing holds completes. 05 R89: the counter
that each names is decremented. -/
def Obligations.EngineOperationsComplete : Prop :=
  (∀ (s : State) (k : Nat) (m : CmaCmd) (rest : List CmaCmd), clusterOk k = true → s.clocked k = true →
     s.nextCma k = some (m, rest) →
     ∃ t, exec (.arrayCommandCompletion k) s = .next t ∧ (t.clusterAt k).cmds = rest ∧
       (∀ c, m.op = .accz c → TileBecomes s t m c fun _ _ _ => 0)) ∧
  (∀ (s : State) (k : Nat) (m : CmaCmd) (rest : List CmaCmd), clusterOk k = true → s.clocked k = true →
     s.nextCma k = some (m, rest) →
     (∀ c a b f, m.op = .mmd c a b f → ∃ t, CommandRuns s k m rest t ∧ TileBecomes s t m c fun i j old =>
       if s.mmdPoison a f i || s.mmdPoison b f j then nan32 else BitVec.ofNat 32 (mmdElement s a b f i j old.toNat)) ∧
     (∀ c a g, m.op = .accld c a g → ∃ t, CommandRuns s k m rest t ∧ TileBecomes s t m c fun i j _ =>
       let x := bytesAt s (a + 4 * (32 * i + j)) 4
       if s.poisonedRange (a + 128 * i) 128 || (fdec fmtF32 x).isNan then nan32 else BitVec.ofNat 32 x) ∧
     (∀ c a ty sat, m.op = .accst c a ty sat → m.done = [] → s.mem.wf = true → m.ctr = none → ((floatOf ty).isSome = true ∨ ty = .s32) →
       (∀ j < 1024 * (ty.width / 8), StorableByte s (a + j)) → ∃ t, CommandRuns s k m rest t ∧
         (t.coreAt m.core).regs.ac = (s.coreAt m.core).regs.ac ∧
         (∀ e : Fin 1024, bytesAt t (a + ty.width / 8 * e.val) (ty.width / 8) =
           converted ty sat (fdec fmtF32 (((s.coreAt m.core).regs.ac[c])[e]).toNat) % 2 ^ ty.width) ∧
         (∀ x, x < a ∨ a + 1024 * (ty.width / 8) ≤ x → t.mem.get x = s.mem.get x)) ∧
     (∀ (cp : CbsCopy) (b : Binding), m.bnd = some b →
       (∀ a d, m.op = .tbld a d → s.getCopy k m.vd b false = .ok (cp, false) → m.ctr = none → s.mem.wf = true →
         let g := (d.extractLsb' 0 4).toNat + 1
         let pb := (d.extractLsb' 4 4).toNat
         let nb := (g * b.v + 31) / 32
         pb * 32768 + g * b.kcb * 128 ≤ 524288 →
         (∀ j, j < g * b.kcb * 128 → s.poison.contains ((pptBase k + pb * 32768 + j) / 64) = false) →
         ∃ t, CommandRuns s k m rest t ∧ (t.coreAt m.core).regs.ac = (s.coreAt m.core).regs.ac ∧
           (∀ i < g, ∀ x < b.kcb, ∀ n < 32, bytesAt t (tableCell k b pb i x n) 4 =
             (let act := a + (32 * nb * n + i * b.v)
              let so := a + (1024 * nb + nb * n + i * b.v / 32)
              if s.poisonedRange act b.v || s.poisoned so then 0x7FC00000
              else (tableEntry b cp.cw (s.read a (1056 * nb)) x (act - a) (bytesAt s so 1)).bits % 2 ^ 32)) ∧
           (∀ y, y < tableCell k b pb 0 0 0 ∨ tableCell k b pb g 0 0 ≤ y → t.mem.get y = s.mem.get y)) ∧
       (s.getCopy k m.vd b b.needsMap = .ok (cp, false) →
         (∀ c a d rs, m.op = .mmt c a d → s.gatherRows b cp.map a d 0 = some rs →
           ∃ t, CommandRuns s k m rest t ∧ TileBecomes s t m c fun i j old =>
             let row := rs.getD i ⟨[], 0, true, false⟩
             if row.poison then nan32
             else BitVec.ofNat 32 ((List.range ((d.extractLsb' 5 5).toNat + 1)).foldl (fun acc x =>
               accumulate acc (fdec fmtF32 (scaledEntry (fdec fmtF32 (bytesAt s (tableCell k b (d.extractLsb' 10 4).toNat x
                 (row.idx.getD ((d.extractLsb' 0 5).toNat + x) 0) j) 4)) row.exp))) old.toNat)) ∧
         (∀ c a d e new old, m.op = .mmtd c a d e →
           let oldOff := (e.extractLsb' 0 32).toInt
           let mask (i : Nat) : Nat := rowField a d i (e.extractLsb' 32 32).toInt
           let skip (i : Nat) : Bool := s.poisoned (mask i) || s.rowPoison b a d 0 i || s.rowPoison b a d oldOff i
           s.gatherRows b cp.map a d 0 skip = some new → s.gatherRows b cp.map a d oldOff skip = some old →
           ∃ t, CommandRuns s k m rest t ∧ TileBecomes s t m c fun i j was =>
             if skip i then nan32
             else
               let side (r : GRow) (x : Nat) : FVal :=
                 if r.exp = 255 then .nan
                 else (fdec fmtF32 (bytesAt s (tableCell k b (d.extractLsb' 10 4).toNat x
                   (r.idx.getD ((d.extractLsb' 0 5).toNat + x) 0) j) 4)).scale ((r.exp : Int) - 127)
               let none' : GRow := ⟨[], 0, true, false⟩
               BitVec.ofNat 32 (((List.range ((d.extractLsb' 5 5).toNat + 1)).filter fun x =>
                   (bytesAt s (mask i) 4).testBit ((d.extractLsb' 0 5).toNat + x)).foldl (fun acc x =>
                 accumulate acc (fdec fmtF32
                   (fconv fmtF32 false ((side (new.getD i none') x).add (side (old.getD i none') x).neg)).bits)) was.toNat))))) ∧
  (∀ (s : State) (k : Nat) (h : Chan), OnlyCopy s k h →
     ∃ t, exec (.copyCompletion k h.id.val) s = .next t ∧ (t.coreAt k).chans = [] ∧
       (h.op.coded = false → CopyRetires s t k h) ∧
       ∀ i, h.slot = some i → h.held = false →
         let q : CbReg := Fin.ofNat 16 (h.dst.toNat % 16)
         SlotFilled ((s.coreAt k).regs.cb[q]) ((t.coreAt k).regs.cb[q]) i) ∧
  ((∀ (s : State) (core : Nat) (b : BReg) (f : Fill), coreOk core = true → s.clocked (clusterOf core) = true →
     (s.clusterAt (clusterOf core)).fills.find? (fun f => f.core == core && f.bn == b) = some f →
     (∀ c, f.ctr = some c → QuietCounter s f.vd f.gen c.toNat) →
     ∃ t, exec (.cbsRefill core b) s = .next t ∧
       (t.clusterAt (clusterOf core)).fills = (s.clusterAt (clusterOf core)).fills.erase f ∧ t.mem = s.mem ∧ t.c.regs = s.c.regs ∧
       FillEnds s t (clusterOf core) f ∧ ∀ c, f.ctr = some c → Decremented s t f.vd c.toNat) ∧
   (∀ (s : State) (m key : Nat) (gen : BitVec 32) (c : CbsCopy), clusterOk m = true → c ∈ (s.clusterAt m).cbs →
     c.key = key → c.gen = gen → s.copyInUse m key = false →
     ∃ t, exec (.cbsEviction m key gen) s = .next t ∧
       (∀ x, x ∈ (t.clusterAt m).cbs ↔ x ∈ (s.clusterAt m).cbs ∧ ¬ (x.key = key ∧ x.gen = gen)) ∧ t.mem = s.mem ∧ t.c = s.c) ∧
   (∀ (s : State) (k : Nat) (i : CbInv), s.cbinvs[k]? = some i → s.invReady i = true →
     (∀ c, i.ctr = some c → QuietCounter s i.vd i.gen c.toNat) →
     ∃ t, exec (.cbinvCompletion k) s = .next t ∧ t.cbinvs = s.cbinvs.eraseIdx k ∧ t.mem = s.mem ∧
       (∀ c, i.ctr = some c → Decremented s t i.vd c.toNat) ∧ ∀ m, ∀ x ∈ (t.clusterAt m).cbs, x.key ≠ i.key))
/-! ## Slot 0: tasks -/

/-- What a counter operation that leaves COUNT m makes of a VD (05 R88): a continuation that is named is readied at 0 and the name
ends, where a slot is free for it on the queue it goes to; otherwise the name stays; no other counter changes. -/
def Sys2Proof.Claims.CounterAt (t : State) (v ctr : Nat) (d : Vd) (m : Int) : Prop :=
  ∃ d', t.vd? v = some d' ∧ (∀ j, j ≠ ctr → d'.ctr j = d.ctr j) ∧
    ((d.ctr ctr).named = none ∨ m ≠ 0 → d'.ctr ctr = ⟨m, (d.ctr ctr).named⟩ ∧ d'.ready = d.ready ∧ d'.ovf = d.ovf) ∧
    (∀ k, (d.ctr ctr).named = some k → m = 0 → k.launch = false → d.ready.length < d.quota → d.overOf k.cls = [] →
      d'.ctr ctr = ⟨0, none⟩ ∧
      ∃ r, d'.ready = d.ready ++ [r] ∧ r.cont = k.onDie k.shepDie ∧ r.die = k.shepDie ∧ r.tile = none)

/-- No request of the core is outstanding: a release at .pkg has nothing to wait for (05 R89). -/
def Sys2Proof.Claims.NothingToRelease (s : State) : Prop := ∀ r ∈ s.c.lsu, r.op.counts = false

/-- The counter register, the amount and the predicate of a TDEP (14 R328). -/
def Sys2Proof.Claims.depOf (s : State) : Instr → Option (FReg × SReg × Int)
  | .tdep p a b => some (p, a, (s.c.readS b).toInt)
  | .tdepDec p a => some (p, a, -1)
  | _ => none

/-- The record a TSPAWN copies: the 64 bytes at its address, with the core's VD and its generation (14 R330). -/
def Sys2Proof.Claims.spawned (s : State) (pa : Nat) (k : Task) (d : Vd) : Cont :=
  { Cont.ofBytes (s.read pa 64) with vd := BitVec.ofNat 8 k.vd, gen := d.gen }

/-- 14 R328, 05 R88-R91: TDEP adds to its counter, and traps ILLEGAL, SUB 04h, or CTRBAD, with nothing changed; 14 R330: TSPAWN adds to
the counter it names and makes its record ready on the core's die, and TSPAWN.wait names it on the counter, ready at once at COUNT 0; a
counter operation that arrives, ADD, DEC or NAME, is applied if its generation and its counter are the VD's, and otherwise changes nothing;
while the clocks of its Shepherd's die are stopped (02 R27, R28) it waits there, which is the model's choice (log entry 76).
That a NAME arriving at a counter that has a name changes nothing is the model's choice (log entry 62), and so is the layout of SHEP that
the record's die is kept in (log entry 14). -/
def Obligations.TasksSpawnAndCountDependences : Prop :=
  (∀ (s : State) (i : Instr) (p : FReg) (a : SReg) (n : Int) (k : Task) (d : Vd), Alone s → depOf s i = some (p, a, n) →
    s.readF p = true → s.c.task = some k → s.vd? k.vd = some d →
    let x := (s.c.readS a).toNat
    s.stopped (x / 16384) = false →
    (65536 ≤ x → exec i s = .next (s.precise ⟨cILLEGAL, 4, 0, BitVec.ofNat 64 (wordOf i)⟩)) ∧
    (x < 65536 → NothingToRelease s → (¬ Allocated d x ∨ ¬ CountFits n ∨ ¬ CountFits ((d.ctr x).count + n)) →
      exec i s = .next (s.precise ⟨cCTRBAD, 0, 0, BitVec.ofNat 64 x⟩)) ∧
    (x < 65536 → NothingToRelease s → Allocated d x → CountFits n → CountFits ((d.ctr x).count + n) →
      ∃ t, exec i s = .next t ∧ CounterAt t k.vd x d ((d.ctr x).count + n) ∧ t.c.regs = s.c.regs ∧ t.c.owed = s.c.owed ∧
        ((d.ctr x).named = none ∨ (d.ctr x).count + n ≠ 0 → t.mem = s.mem))) ∧
  (∀ (s : State) (p : FReg) (a b : SReg) (k : Task) (d : Vd) (x : Xl), Alone s → s.readF p = true → s.c.task = some k →
    s.vd? k.vd = some d → NothingToRelease s →
    let va := (s.c.readS a).toNat
    let w := s.c.readS b
    let ctr := (w.extractLsb' 0 16).toNat
    let n := (w.extractLsb' 16 32).toInt
    let rec' := spawned s x.pa k d
    let die : Fin 4 := Fin.ofNat 4 (dieOf s.cur)
    w.extractLsb' 48 15 = 0 → va % 64 = 0 → s.xlateCore va .rd = .ok x → s.poisoned x.pa = false →
    s.recordCheck k.vd rec' true = none → rec'.launch = false → d.ready.length < d.quota → d.overOf rec'.cls = [] →
    (w[63] = false → ∃ (t : State) (d' : Vd) (r : Ready), exec (.tspawn p a b) s = .next t ∧ t.vd? k.vd = some d' ∧
      d'.ready = d.ready ++ [r] ∧ r.cont = rec'.onDie die ∧ r.die = die ∧ d'.ctrs = d.ctrs ∧ t.mem = s.mem ∧ t.c.regs = s.c.regs) ∧
    (w[63] = true → s.stopped (ctr / 16384) = false → Allocated d ctr → CountFits ((d.ctr ctr).count + n) → (d.ctr ctr).named = none →
      (∃ (t : State) (d' : Vd) (r : Ready), exec (.tspawn p a b) s = .next t ∧ t.vd? k.vd = some d' ∧
        d'.ready = d.ready ++ [r] ∧ r.cont = rec'.onDie die ∧ r.die = die ∧ d'.ctr ctr = ⟨(d.ctr ctr).count + n, none⟩ ∧
        t.mem = s.mem ∧ t.c.regs = s.c.regs) ∧
      ((∀ j ∈ d.cores, (s.coreAt j).wait = none) →
        ∃ (t : State) (d' : Vd), exec (.tspawnWait p a b) s = .next t ∧ t.vd? k.vd = some d' ∧ t.mem = s.mem ∧
          t.c.regs = s.c.regs ∧
          ((d.ctr ctr).count + n ≠ 0 → d'.ready = d.ready ∧ d'.ctr ctr = ⟨(d.ctr ctr).count + n, some (rec'.onDie die)⟩) ∧
          ((d.ctr ctr).count + n = 0 → d'.ctr ctr = ⟨0, none⟩ ∧
            ∃ r, d'.ready = d.ready ++ [r] ∧ r.cont = rec'.onDie die ∧ r.die = die)))) ∧
  (∀ (s : State) (v : Nat) (gen c : BitVec 16) (n : Int) (bund : Word) (d : Vd) (b : List Byte), s.vd? v = some d → CountFits n →
    b.length = 64 →
    let m := (d.ctr c.toNat).count
    let r := Cont.ofBytes b
    (s.stopped (c.toNat / 16384) = true → ∃ i, exec (.counterOperation v gen c (.add n) bund) s = .next { s with parked := s.parked ++ [i] } ∧
      i = .counterOperation v gen c (.add n) bund) ∧
    (s.stopped (c.toNat / 16384) = false →
    (gen ≠ d.gen ∨ ¬ Allocated d c.toNat →
      ∀ op ∈ [CtrOp.add n, CtrOp.dec, CtrOp.name b], exec (.counterOperation v gen c op bund) s = .next s) ∧
    (gen = d.gen → Allocated d c.toNat → (d.ctr c.toNat).named.isSome = true →
      exec (.counterOperation v gen c (.name b) bund) s = .next s) ∧
    (gen = d.gen → Allocated d c.toNat → (d.ctr c.toNat).named = none → m ≠ 0 →
      ∃ t, exec (.counterOperation v gen c (.name b) bund) s = .next t ∧ t.mem = s.mem ∧ t.c.regs = s.c.regs ∧
        ∃ d', t.vd? v = some d' ∧ d'.ctr c.toNat = ⟨m, some r⟩ ∧ d'.ready = d.ready) ∧
    (gen = d.gen → Allocated d c.toNat → (d.ctr c.toNat).named = none → m = 0 → r.launch = false → d.ready.length < d.quota →
      d.overOf r.cls = [] →
      ∃ t, exec (.counterOperation v gen c (.name b) bund) s = .next t ∧ t.mem = s.mem ∧ t.c.regs = s.c.regs ∧
        ∃ d' x, t.vd? v = some d' ∧ d'.ctr c.toNat = ⟨0, none⟩ ∧ d'.ready = d.ready ++ [x] ∧ x.cont = r.onDie r.shepDie ∧
          x.die = r.shepDie) ∧
    (gen = d.gen → Allocated d c.toNat → CountFits (m + n) →
      ∃ t, exec (.counterOperation v gen c (.add n) bund) s = .next t ∧
        CounterAt t v c.toNat d (m + n) ∧ t.c.regs = s.c.regs) ∧
    (gen = d.gen → Allocated d c.toNat → CountFits (m - 1) →
      ∃ t, exec (.counterOperation v gen c .dec bund) s = .next t ∧
        CounterAt t v c.toNat d (m - 1) ∧ t.c.regs = s.c.regs)))

/-- Nothing that the acting core's task started is under way any more. -/
def Sys2Proof.Claims.NothingUnderWay (s : State) : Prop :=
  s.c.owed = [] ∧ s.c.shadow = [] ∧ s.c.lsu = [] ∧ s.c.chans = [] ∧ s.c.again = [] ∧
  (∀ m ∈ (s.clusterAt (clusterOf s.cur)).cmds, m.core ≠ s.cur) ∧ ∀ k : CbReg, (s.c.regs.cb[k]).pheld = 0

/-- The core has no task: no result owed, no lease, no valid latch, no bound flag, no loop level, task mode. -/
def Sys2Proof.Claims.CoreIdle (c : Core) : Prop :=
  c.task = none ∧ c.owed = [] ∧ c.shadow = [] ∧ c.lease = .none ∧ c.csr.mode = false ∧ c.regs.loops = LoopState.none ∧
  (∀ k : Fin 4, c.regs.l[k] = none) ∧ ∀ j : FReg, c.regs.fbind[j] = none

/-- The whole context frame of a task is mapped, and what its core holds fits it (09 R193). -/
def Sys2Proof.Claims.FrameReady (s : State) (k : Task) : Prop :=
  (∀ o n, o + n ≤ 0xC000 → s.mappedVd k.vd (k.cont.frame.toNat + o) n = true) ∧
  (∀ j : Fin 16, (s.c.regs.q[j]).length ≤ 4) ∧ s.c.regs.stq.length ≤ 64

/-- A continuation that a suspension has written: where the task resumes and under which list (05 R84). -/
def Sys2Proof.Claims.SavedAt (k : Task) (r : Cont) (pc live : Nat) : Prop :=
  r.code = k.cont.code ∧ r.pc = BitVec.ofNat 32 pc ∧ r.live = BitVec.ofNat 16 live ∧ r.frame = k.cont.frame ∧ r.saved = true ∧
  r.prio = k.cont.prio ∧ r.wid = k.cont.wid ∧ r.dctr = k.cont.dctr

/-- The number that n bytes of a frame make in a memory, the frame's byte o lying at `base o`. -/
def Sys2Proof.Claims.frameNum (m : Nat → Byte) (base : Nat → Nat) (o n : Nat) : Nat := leValue ((List.range n).map fun j => m (base (o + j)))

/-- Table 11-6: two steps as a number. -/
def Sys2Proof.Claims.stepsImage (x : Steps) : Nat :=
  let one : Option (SReg × SReg) → Nat
    | some (d, a) => d.val + 32 * a.val + 1024
    | none => 0
  one x.s0 + 2048 * one x.s1

/-- Table 11-6: the 64 bytes of the loop state, as a number. -/
def Sys2Proof.Claims.loopImage (l : LoopState) : Nat :=
  ((List.range 4).map fun j => match l.levels[j]? with
    | some x => (x.start % 2 ^ 22 + x.lenM1 % 2 ^ 10 * 2 ^ 22 + x.count % 2 ^ 32 * 2 ^ 32 + stepsImage x.steps * 2 ^ 64) * 2 ^ (96 * j)
    | none => 0).sum + stepsImage l.armed * 2 ^ 384 + l.levels.length % 256 * 2 ^ 416

/-- Table 8-8: the 16 bytes of a binding, as a number. -/
def Sys2Proof.Claims.bindingImage (b : Binding) : Nat :=
  ((0 : BitVec 8) ++ b.prevver ++ b.scale ++ b.gen ++ (0 : BitVec 9) ++ BitVec.ofBool b.wide ++ b.vl ++ b.kc ++ BitVec.ofBool b.mode ++
    BitVec.ofBool b.valid ++ b.ver ++ b.cbid ++ b.entry).toNat

/-- Table 6-7: the 16 bytes of a statistics record, as a number. -/
def Sys2Proof.Claims.recordImage (r : StqRec) : Nat :=
  (r.count ++ r.kind ++ BitVec.ofNat 2 r.slot.val ++ r.bund).toNat + r.detail.toNat * 2 ^ 64

/-- Table 9-3: a frame holds the registers that a live-state mask names, the flags and the loop state among them, and N0-N3; Table 9-4: its
header holds the mask, STQCNT and QSTATE. -/
def Sys2Proof.Claims.FrameImage (m : Nat → Byte) (base : Nat → Nat) (mask : Word) (r : Regs) (flag : FReg → Bool) (loops : LoopState) : Prop :=
  let num := frameNum m base
  let live (k : Nat) : Prop := mask.getLsbD k = true
  (∀ j : SReg, j ≠ 0 → live (j.val - 1) → num (0x80 + 8 * (j.val - 1)) 8 = (r.s[j]).toNat) ∧
  (live 31 → (∀ j : FReg, (num 0x180 2).testBit j.val = flag j) ∧ ∀ j : Fin 4, num (0x188 + 4 * j.val) 4 = (r.m[j]).toNat) ∧
  (∀ j : Fin 4, num (0x1A0 + 8 * j.val) 8 = (r.n[j]).toNat) ∧
  (live 59 → num 0x1C0 64 = loopImage loops) ∧
  (∀ j : BReg, live (48 + j.val) → num (0x200 + 16 * j.val) 16 = bindingImage r.b[j]) ∧
  (live 56 → ∀ j : FrReg, num (0x280 + 16 * j.val) 16 = (r.fr[j]).lo.toNat + (r.fr[j]).hi.toNat * 2 ^ 64) ∧
  (live 57 → ∀ j : AgReg, num (0x300 + 64 * j.val) 64 = (r.ag[j]).toNat) ∧
  (live 58 → ∀ j : CbReg, num (0x480 + 32 * j.val) 32 = bufferImage r.cb[j]) ∧
  (live 60 → ∀ i x, r.stq[i]? = some x → num (0xA80 + 16 * i) 16 = recordImage x) ∧
  (∀ j : Fin 16, live (32 + j.val) → ∀ i e, (r.q[j])[i]? = some e →
    (num (0x60 + j.val) 1).testBit (3 + i) = e.data.isSome ∧ ∀ v, e.data = some v → num (0xE80 + 0x200 * j.val + 0x80 * i) 128 = v.toNat) ∧
  (∀ j : Fin 16, num (0x60 + j.val) 1 < 128 ∧ num (0x60 + j.val) 1 % 8 = if mask.getLsbD (32 + j.val) then (r.q[j]).length else 0) ∧
  num 0x50 8 = mask.toNat % 2 ^ 61 ∧ num 0x58 8 = r.stq.length + r.lost.toNat * 2 ^ 16

/-- What a VD's translation looks at in it: its slots, clusters and windows. -/
def Sys2Proof.Claims.SameSpace (d d' : Vd) : Prop := d'.slots = d.slots ∧ d'.clusters = d.clusters ∧ d'.winmap = d.winmap ∧ d'.tableDie = d.tableDie

/-- The frame at an address of a VD lies at the physical bytes `base`, which writes reach, no two of them the same, whatever the frame itself
holds (04 R54, 06 R119). -/
def Sys2Proof.Claims.FrameAt (s : State) (v : Nat) (fr : Word) (base : Nat → Nat) : Prop :=
  (∀ o, o < 0xC000 → Roomy s 0xC000 (base o)) ∧ (∀ o o', o < 0xC000 → o' < 0xC000 → base o = base o' → o = o') ∧
  ∀ u : State, u.wins = s.wins → u.owners = s.owners → u.poison = s.poison → u.failed = s.failed → u.pkg.bring = s.pkg.bring →
    (∀ d, s.vd? v = some d → ∃ d', u.vd? v = some d' ∧ SameSpace d d') →
    (∀ a, (∀ o, o < 0xC000 → a ≠ base o) → u.mem.get a = s.mem.get a) →
    ∀ o, o < 0xC000 → ∃ x, u.xlateVd v (fr.toNat + o) .rd = .ok x ∧ x.pa = base o

/-- The record at the start of a frame (05 Table 5-1), without RSV and SHEP. -/
def Sys2Proof.Claims.RecordImage (m : Nat → Byte) (base : Nat → Nat) (r : Cont) : Prop :=
  let num := frameNum m base
  num 0 4 = r.code.toNat ∧ num 4 4 = r.pc.toNat ∧ num 8 8 = r.wid.toNat ∧ num 0x10 8 = r.frame.toNat ∧ num 0x18 2 = r.dctr.toNat ∧
  num 0x1A 2 = r.live.toNat ∧ num 0x1C 1 = r.prio.toNat ∧ num 0x1D 1 = r.vd.toNat ∧ num 0x1E 2 = r.gen.toNat ∧
  num 0x20 2 = r.flags.toNat ∧ num 0x28 8 = r.arg.toNat

/-- 09 R190, R193, Tables 9-3, 9-4, R335: a safe-point save under a live-state mask has filled the frame: its record, its header with KIND,
POISON and the counts zero and STATUS as it stood, the areas the mask names; ACCMASK, ACCTAG, the areas that the mask does not name or that a
safe point does not save, and every byte outside the frame are as they were. -/
def Sys2Proof.Claims.SafePointSaved (s t : State) (fr : Word) (v : Nat) (r : Cont) (mask : Word) : Prop :=
  ∀ base, FrameAt s v fr base → s.mem.wf = true →
    let num := frameNum t.mem.get base
    FrameImage t.mem.get base mask s.c.regs (s.readFof s.c) s.c.regs.loops ∧ RecordImage t.mem.get base r ∧
    num 0x40 2 = 0 ∧ num 0x43 3 = 0 ∧ num 0x70 16 = 0 ∧
    (s.c.csr.timecmp = 0 → num 0x48 8 =
      (if s.c.csr.slend then 2 else 0) + (if s.c.csr.ipTimer then 256 else 0) + (if s.c.csr.ipIpi then 512 else 0)) ∧
    (∀ o, o = 0x42 ∨ o = 0x46 ∨ o = 0x47 ∨ 0x2E80 ≤ o ∧ o < 0xC000 → t.mem.get (base o) = s.mem.get (base o)) ∧
    (∀ (j : SReg) (o : Nat), j ≠ 0 → mask.getLsbD (j.val - 1) = false → o < 8 →
      t.mem.get (base (0x80 + 8 * (j.val - 1) + o)) = s.mem.get (base (0x80 + 8 * (j.val - 1) + o))) ∧
    ∀ a, (∀ o, o < 0xC000 → a ≠ base o) → t.mem.get a = s.mem.get a

/-- The task has suspended, saved under a live-state mask, and waits at the tail of its class queue on its core's die. -/
def Sys2Proof.Claims.SuspendsInItsQueue (s t : State) (k : Task) (d : Vd) (live : Nat) : Prop :=
  CoreIdle t.c ∧
  (FrameReady s k → d.ready.length < d.quota → d.overOf k.cont.cls = [] → k.cont.launch = false →
    ∃ (d' : Vd) (r : Ready), t.vd? k.vd = some d' ∧ d'.ready = d.ready ++ [r] ∧ SavedAt k r.cont (s.c.pc + 1) live ∧
      r.die.val = dieOf s.cur % 4 ∧ ∀ o mask, d.code? k.cont.code = some o → o.live[live]? = some mask →
        SafePointSaved s t k.cont.frame k.vd r.cont mask)

/-- 14 R329, R331, 05 R97, R100, 09 R183, R190, R196: CWAIT binds its flag to its counter and waits for COUNT 0; CWAIT.y goes on at COUNT 0
and otherwise suspends, named on the counter; TSUSP, and SAFEPT with a slice end pending, suspend to the task's class queue, SAFEPT
without one does nothing; what a suspension saves fills the task's frame (R193, Tables 9-3, 9-4); TEXIT retires the task, decrements DCTR when SIG is 1 and releases accumulators it owns; a TEXIT
with SIG 1 whose DCTR is not allocated traps CTRBAD; in supervisor mode the suspending forms trap PRIV; a LIVE that the object lacks traps
ILLEGAL. -/
def Obligations.TasksWaitSuspendAndExit : Prop :=
  ∀ (s : State) (p fb : FReg) (a : SReg) (live : BitVec 12) (k : Task) (d : Vd) (o : CodeObj),
    Alone s → s.readF p = true → s.c.task = some k → s.vd? k.vd = some d → d.code? s.c.code = some o →
    let x := (s.c.readS a).toNat
    (fb ≠ 0 → x < 65536 → Allocated d x → CountFits (d.ctr x).count →
      let bound : State := { s with c := { s.c with regs := { s.c.regs with
        fbind := s.c.regs.fbind.set fb (some (.ctr (x / 16384) (x % 16384))) } } }
      ((d.ctr x).count = 0 → exec (.cwait p a fb) s = .next bound) ∧
      ((d.ctr x).count ≠ 0 → exec (.cwait p a fb) s = .next bound.blockFlags)) ∧
    (s.c.csr.mode = false → o.live.length ≤ live.toNat →
      exec (.tsusp p live) s = .next (s.precise ⟨cILLEGAL, 4, 0, BitVec.ofNat 64 (wordOf (.tsusp p live))⟩) ∧
      exec (.safept p live) s = .next (s.precise ⟨cILLEGAL, 4, 0, BitVec.ofNat 64 (wordOf (.safept p live))⟩) ∧
      exec (.cwaitYield p a live) s =
        .next (s.precise ⟨cILLEGAL, 4, 0, BitVec.ofNat 64 (wordOf (.cwaitYield p a live))⟩)) ∧
    (s.c.csr.mode = true → live.toNat < o.live.length →
      exec (.tsusp p live) s = .next (s.precise ⟨cPRIV, 0, 0, 0⟩) ∧ exec (.safept p live) s = .next (s.precise ⟨cPRIV, 0, 0, 0⟩) ∧
      (x < 65536 → exec (.cwaitYield p a live) s = .next (s.precise ⟨cPRIV, 0, 0, 0⟩))) ∧
    (s.c.csr.mode = false → live.toNat < o.live.length → s.c.csr.slend = false → exec (.safept p live) s = .next s) ∧
    (s.c.csr.mode = false → live.toNat < o.live.length → NothingUnderWay s → NoLoopEnd s →
      (∃ u, exec (.tsusp p live) s = .next u ∧ SuspendsInItsQueue s u.endBundle k d live.toNat) ∧
      (s.c.csr.slend = true → ∃ u, exec (.safept p live) s = .next u ∧ SuspendsInItsQueue s u.endBundle k d live.toNat) ∧
      (x < 65536 → s.stopped (x / 16384) = false → Allocated d x → CountFits (d.ctr x).count → (d.ctr x).named = none → (∀ j ∈ d.cores, (s.coreAt j).wait = none) →
        ∃ u, exec (.cwaitYield p a live) s = .next u ∧
          ((d.ctr x).count = 0 → u.endBundle.c.task = some k ∧ u.endBundle.c.pc = s.c.pc + 1 ∧ u.endBundle.c.regs = s.c.regs) ∧
          ((d.ctr x).count ≠ 0 → CoreIdle u.endBundle.c ∧
            (FrameReady s k → ∃ (d' : Vd) (r : Cont), u.endBundle.vd? k.vd = some d' ∧ d'.ready = d.ready ∧
              d'.ctr x = ⟨(d.ctr x).count, some r⟩ ∧ SavedAt k r (s.c.pc + 1) live.toNat ∧
              ∀ o mask, d.code? k.cont.code = some o → o.live[live.toNat]? = some mask →
                SafePointSaved s u.endBundle k.cont.frame k.vd r mask)))) ∧
    (k.cont.sig = true → ¬ Allocated d k.cont.dctr.toNat →
      exec (.texit p) s = .next (s.precise ⟨cCTRBAD, 0, 0, k.cont.dctr.zeroExtend 64⟩)) ∧
    (NothingUnderWay s → NoLoopEnd s → (∀ q ∈ s.others, ∀ r ∈ q.2.lsu, r.task ≠ s.c.taskId) →
      (k.cont.sig = true → Allocated d k.cont.dctr.toNat) →
      ∃ u, exec (.texit p) s = .next u ∧ CoreIdle u.endBundle.c ∧
        u.endBundle.c.csr.accdirty = (if s.c.csr.accown.getLsbD 58 ∧ s.c.csr.accown.toNat % 2 ^ 58 = k.cont.frame.toNat / 64 then 0
          else s.c.csr.accdirty) ∧
        u.endBundle.c.regs.ac = s.c.regs.ac ∧
        (k.cont.sig = true → k.tiles = 0 → k.gen = d.gen → s.stopped (k.cont.dctr.toNat / 16384) = false →
          CountFits ((d.ctr k.cont.dctr.toNat).count - 1) → (d.ctr k.cont.dctr.toNat).named = none →
          ∃ d', u.endBundle.vd? k.vd = some d' ∧ d'.ctr k.cont.dctr.toNat = ⟨(d.ctr k.cont.dctr.toNat).count - 1, none⟩))

/-- TNEXT answers that a core has asked for and that have not landed. -/
def Sys2Proof.Claims.answersOwed (c : Core) : Nat := ((c.owed ++ c.shadow).filter fun e => match e.dest with
  | .next _ => true
  | _ => false).length

/-- 14 R332, 05 R101: TNEXT asks for one tile: its answer, when it comes, lands 8 core cycles on in S1 and in the register of the
rotation that follows the answers received and asked for; in supervisor mode it traps PRIV. The answer of a task that no launch
created is all ones; so is that of a launch with no tile left to generate or to hand out; a tile that is ready is handed out, and
leaves its queue. -/
def Obligations.TnextAsksAndIsAnswered : Prop :=
  (∀ (s : State) (p : FReg) (k : Task), Alone s → s.readF p = true → s.c.task = some k →
    (s.c.csr.mode = true → exec (.tnext p) s = .next (s.precise ⟨cPRIV, 0, 0, 0⟩)) ∧
    (s.c.csr.mode = false → exec (.tnext p) s = .next { s with c := { s.c with
      serial := s.c.serial + 1
      owed := s.c.owed ++ [⟨s.c.serial, s.c.csr.cycle + 8, 0, .next (Fin.ofNat 4 (k.count + answersOwed s.c)), none, false, 0, false,
        0, none, [], none⟩] } })) ∧
  (∀ (s : State) (core : Nat) (e : Owed) (j : Fin 4) (k : Task) (d : Vd), coreOk core = true → (s.coreAt core).task = some k →
    s.vd? k.vd = some d → s.stopped (dieOf core) = false → (s.coreAt core).owed = [e] → (s.coreAt core).shadow = [] → e.dest = .next j → e.data = none → e.poison = false →
    (k.cont.shepCursor = none →
      ∃ t, exec (.tnextAnswer core) s = .next t ∧ t.mem = s.mem ∧ t.vds = s.vds ∧
        (t.coreAt core).owed = [{ e with data := some 0xFFFFFFFFFFFFFFFF }] ∧ (t.coreAt core).task = some k) ∧
    (∀ id c, k.cont.shepCursor = some id → d.ready = [] → d.cursors.find? (fun c => c.id == id) = some c → c.next = c.total →
      ∃ t, exec (.tnextAnswer core) s = .next t ∧ t.mem = s.mem ∧ t.vds = s.vds ∧
        (t.coreAt core).owed = [{ e with data := some 0xFFFFFFFFFFFFFFFF }] ∧ (t.coreAt core).task = some k) ∧
    (∀ id n r, k.cont.shepCursor = some id → d.ready = [r] → r.tile = some (id, n) → r.cont.live = 0xFFFF →
      r.cont.wid ≠ 0xFFFFFFFFFFFFFFFF → r.die.val = dieOf core → dieOf core < 4 → d.ovf = [] →
      s.reservedFor d r.cont = none → (d.quota ≠ 1 ∨ ∀ c ∈ d.cursors, c.next = c.total) →
      ∃ t d', exec (.tnextAnswer core) s = .next t ∧ t.mem = s.mem ∧ t.vd? k.vd = some d' ∧ d'.ready = [] ∧
        (t.coreAt core).owed = [{ e with data := some (r.cont.wid.zeroExtend 1024) }] ∧
        (t.coreAt core).task = some { k with tiles := k.tiles + 1 }))

/-! ## Traps, interrupts, supervisor mode -/

/-- The EPC, EVAL and EVEC form of a bundle of a code object: the index in [21:0], the handle in [63:32] (09 R184). -/
def Sys2Proof.Claims.bundleAddress (code : BitVec 32) (pc : Nat) : Word := code ++ (0 : BitVec 10) ++ BitVec.ofNat 22 pc

/-- CAUSE of a trap: CODE, IMPR, SUB, SLOT (Table 9-1). -/
def Sys2Proof.Claims.causeOf (t : Trap) (impr : Bool) : Word :=
  (0 : BitVec 38) ++ BitVec.ofNat 2 t.slot.val ++ BitVec.ofNat 8 t.sub ++ (0 : BitVec 7) ++ BitVec.ofBool impr ++ BitVec.ofNat 8 t.code

/-- 06 R128, Table 6-9: the statistics queue and LOST after records enter one by one: a full queue discards a record and LOST counts it. -/
def Sys2Proof.Claims.queued : List StqRec → BitVec 16 → List StqRec → List StqRec × BitVec 16
  | q, lost, [] => (q, lost)
  | q, lost, r :: rest =>
    if q.length < 64 then queued (q ++ [r]) lost rest else queued q (if lost = 0xFFFF then lost else lost + 1) rest

/-- 09 R189, R336: a trap that the task of s takes enters the supervisor that EVEC names: what is owed is held with its distance,
latches and loop state are set aside, CAUSE, EPC and EVAL are written, and the first handler bundle issues four cycles on. That the statistics
records of the results held enter the queue, or count in LOST, at this entry is the model's choice (log entry 52). -/
def Sys2Proof.Claims.EntersSupervisor (s t : State) (trap : Trap) (impr : Bool) : Prop :=
  ∀ k h e, s.c.task = some k → s.c.csr.mode = false → s.supervisor k.vd s.c.csr.evec = some (h, e) →
    t.c.csr.mode = true ∧ t.c.code = h ∧ t.c.pc = e ∧ t.c.csr.cycle = s.c.csr.cycle + 4 ∧ t.c.csr.bundles = s.c.csr.bundles ∧
    SameCsrsButTime t.c.csr { s.c.csr with
      mode := true, cause := causeOf trap impr, epc := bundleAddress s.c.code s.c.pc, eval := trap.eval } ∧
    t.c.owed = [] ∧
    t.c.shadow = (s.c.owed.filter fun r => !(r.dest == .latch && r.latch.isNone)).map
      (fun r => { r with due := r.due - s.c.csr.cycle, recs := [] }) ∧
    t.c.srbL = s.c.regs.l ∧ t.c.setAside = s.c.regs.loops ∧ t.c.leaseAtTrap = s.c.lease ∧ t.c.wait = none ∧
    { t.c.regs with stq := s.c.regs.stq, lost := s.c.regs.lost } = { s.c.regs with loops := LoopState.none } ∧
    (t.c.regs.stq, t.c.regs.lost) = queued s.c.regs.stq s.c.regs.lost (sortBy (fun a b => decide (a.kind.toNat ≤ b.kind.toNat))
      ((s.c.owed.filter fun r => !(r.dest == .latch && r.latch.isNone)).flatMap (·.recs))) ∧
    { t.c with
      regs := s.c.regs, csr := s.c.csr, dieCyc := s.c.dieCyc, owed := s.c.owed, shadow := s.c.shadow, srbL := s.c.srbL
      setAside := s.c.setAside, leaseAtTrap := s.c.leaseAtTrap, trapPc := s.c.trapPc, code := s.c.code, pc := s.c.pc, wait := s.c.wait
      lateStop := s.c.lateStop, empty := s.c.empty } = s.c ∧
    t = { s with c := t.c, iss := t.iss }

/-- SUB of ILLEGAL (Table 9-2). -/
def Sys2Proof.Claims.illegalSub : IllegalSub → Nat
  | .opcode => 1
  | .reserved => 2
  | .twice => 3
  | .value => 4

/-- The acting core stands at a boundary of task mode: it has a task, no result is due, no empty cycle or held copy to be reissued is left, and
its domain issues or waits for flags, the clocks of its die running (09 R188, 11 R254, 06 R104, R118; 02 R27). -/
def Sys2Proof.Claims.AtTaskBoundary (s : State) : Prop :=
  s.c.task.isSome = true ∧ s.c.csr.mode = false ∧ Quiet s 0 ∧ s.c.empty = 0 ∧ s.c.again = [] ∧ s.stopped (dieOf s.cur) = false ∧
    (s.c.wait = none ∨ ∃ f, s.c.wait = some (.flags f))

/-- 09 R186-R189, R220, R221: a precise trap of a task enters the supervisor at its bundle, no slot having executed; a word that is no
instruction traps ILLEGAL with its SUB, its slot and the word; TRAP and EBRK enter it after their bundle, EPC naming the bundle that
would have issued next; at a boundary of task mode a report comes first, with IMPR and its command's bundle, then TIMER, with CYCLE,
then IPI. When the records of the held results enter the statistics queue is the model's choice (log entry 52). -/
def Obligations.TrapsEnterTheSupervisor : Prop :=
  (∀ (s : State) (t : Trap), Quiet s 0 → t.code ≠ 0 →
    (s.iss.walk = false → EntersSupervisor s (s.precise t) t false) ∧
    (s.iss.walk = true → EntersSupervisor s.freezeOpen (s.precise t) t false)) ∧
  (∀ (s : State) (slot : Fin 4) (why : IllegalSub) (word : BitVec 32), Quiet s 0 → s.iss.walk = false →
    ∃ t, exec (.illegalSlotWord slot why word) s = .next t ∧
      EntersSupervisor s t ⟨cILLEGAL, illegalSub why, slot, word.zeroExtend 64⟩ false) ∧
  (∀ (s : State) (p : FReg) (imm : BitVec 16), Alone s → s.readF p = true → Quiet s 1 →
    (∃ u, exec (.trap p imm) s = .next u ∧ EntersSupervisor s.endBundle u.endBundle ⟨cSYSCALL, 0, 0, imm.zeroExtend 64⟩ false) ∧
    (∃ u, exec (.ebrk p) s = .next u ∧ EntersSupervisor s.endBundle u.endBundle ⟨cBREAK, 0, 0, 0⟩ false)) ∧
  (∀ (s : State), AtTaskBoundary s →
    (∀ r rest, s.c.reports = r :: rest → ∃ t, exec .impreciseReport s = .next t ∧
      EntersSupervisor { s with c := { s.c with reports := rest } } t ⟨r.cause.toNat, r.sub.toNat, r.slot, r.bund⟩ true) ∧
    (s.c.reports = [] → s.c.csr.ipTimer = true → ∃ t, exec .timerInterrupt s = .next t ∧
      EntersSupervisor s t ⟨cTIMER, 0, 0, BitVec.ofNat 64 s.c.csr.cycle⟩ false) ∧
    (s.c.reports = [] → s.c.csr.ipTimer = false → s.c.csr.ipIpi = true → ∃ t, exec .ipiInterrupt s = .next t ∧
      EntersSupervisor s t ⟨cIPI, 0, 0, 0⟩ false))

/-- 09 R189, R336: ERET in supervisor mode returns: four cycles after its issue the bundle at EPC issues in task mode, latches and loop
state are what trap entry set aside, and each held result is due at its distance from then on; nothing else changes. In task mode it
traps PRIV. -/
def Obligations.EretReturnsToTheTask : Prop :=
  ∀ (s : State) (p : FReg), Alone s → s.readF p = true →
    (s.c.csr.mode = false → exec (.eret p) s = .next (s.precise ⟨cPRIV, 0, 0, 0⟩)) ∧
    (s.c.csr.mode = true → Quiet s 4 → NoLoopEnd s → s.c.stop = none → (∀ e ∈ s.c.shadow, 0 < e.due) →
      ∃ u, exec (.eret p) s = .next u ∧
        let c := u.endBundle.c
        c.csr.mode = false ∧ c.pc = (s.c.csr.epc.extractLsb' 0 22).toNat ∧ c.code = s.c.csr.epc.extractLsb' 32 32 ∧
        c.csr.cycle = s.c.csr.cycle + 4 ∧ c.csr.bundles = s.c.csr.bundles + 1 ∧
        SameCsrsButTime c.csr { s.c.csr with mode := false } ∧
        c.regs = { s.c.regs with l := s.c.srbL, loops := s.c.setAside } ∧
        c.owed = s.c.shadow.map (fun e => { e with due := s.c.csr.cycle + 4 + e.due }) ++ s.c.owed ∧ c.shadow = [] ∧
        c.lsu = s.c.lsu ∧ c.chans = s.c.chans ∧ c.reports = s.c.reports ∧ c.lease = s.c.lease ∧
        u.endBundle = { s with c := c, iss := Issue.none })

/-- An event of class 3 that a VD's pending queue holds, with its code and its first payload bytes (03 Table 3-10). -/
def Sys2Proof.Claims.Class3 (d : Vd) (code : Nat) (payload : List Byte) : Prop :=
  ∃ e ∈ d.pend, e.cls = 3 ∧ e.code = BitVec.ofNat 8 code ∧ e.payload.take payload.length = payload

/-- Eight bytes of a word, the lowest first. -/
def Sys2Proof.Claims.wordBytes (w : Word) : List Byte := (List.range 8).map fun j => leByte w.toNat j

/-- 09 R182, R183, R202: a trap in supervisor mode, or of a task without a supervisor, is a double trap: the core leaves its task, a
class 3 event gives the cause, EVAL and, in supervisor mode, the bundle that raised it, and firmware pauses the VD. R192: a debug halt
stops a task in task mode, and waits for the end of supervisor mode; that the core then takes no task is the model's choice (log entry 54).
05 R98: a quantum that has expired while another task of its class is ready, spilled or not, makes a slice end pend, unless the die's clocks are stopped
(02 R27). -/
def Obligations.DoubleTrapsAndStopsTakeTheTaskAway : Prop :=
  (∀ (s : State) (t : Trap) (k : Task) (d : Vd), t.code ≠ 0 → s.c.task = some k → s.vd? k.vd = some d → d.life = none →
    d.pend.length + s.c.reports.length < 200 → NothingUnderWay s →
    (s.c.csr.mode = true → CoreIdle (s.precise t).c ∧ ∃ d', (s.precise t).vd? k.vd = some d' ∧ d'.life = some .firmware ∧
      Class3 d' t.code (wordBytes t.eval ++ wordBytes (bundleAddress s.c.code s.c.pc))) ∧
    (s.c.csr.mode = false → s.supervisor k.vd s.c.csr.evec = none → CoreIdle (s.precise t).c ∧
      ∃ d', (s.precise t).vd? k.vd = some d' ∧ d'.life = some .firmware ∧
        Class3 d' t.code (wordBytes t.eval ++ wordBytes 0))) ∧
  (∀ (s : State), (∀ l, s.c.wait ≠ some (.leave l)) →
    (s.c.task = none → ∃ t, exec .debugHalt s = .next t ∧ t.c = { s.c with debug := true } ∧ t.mem = s.mem) ∧
    (s.c.task.isSome = true → s.c.csr.mode = true → ∃ t, exec .debugHalt s = .next t ∧ t.c.stop = some .debug ∧
      t.c.task = s.c.task ∧ t.c.regs = s.c.regs ∧ t.mem = s.mem) ∧
    (s.c.task.isSome = true → s.c.csr.mode = false → s.stopped (dieOf s.cur) = false → NothingUnderWay s →
      ∃ t, exec .debugHalt s = .next t ∧ CoreIdle t.c ∧ t.c.debug = true)) ∧
  (∀ (s : State) (core : Nat) (k : Task) (d : Vd) (r : Ready), coreOk core = true → (s.coreAt core).task = some k →
    s.vd? k.vd = some d → s.stopped (dieOf core) = false → (s.coreAt core).csr.slend = false → k.since + 262144 ≤ (s.coreAt core).dieCyc →
    r ∈ d.ready ∨ r ∈ d.ovf → r.die.val = dieOf core → r.cont.cls = k.cont.cls → r.cont.launch = false →
    exec (.quantumExpiry core) s =
      .next (s.setCore core { s.coreAt core with csr := { (s.coreAt core).csr with slend := true } }))

/-- Whether a 64-byte line overlaps n bytes from an address (14 R334). -/
def Sys2Proof.Claims.lineOverlaps (a n line : Nat) : Prop := n = 2 ^ 64 - 1 ∨ line < a + n ∧ a < line + 64 ∧ n ≠ 0

/-- 14 R334, 07 R155: ISYNC takes two empty cycles and lets no bundle be fetched that was invalidated before; IINV invalidates exactly
the lines its range overlaps. 06 R121: a write of TLBINV drops the entries that cover its address, all ones every entry; Table 9-1: a
write of TIMECMP stores it and clears IPEND bit 8, one of IPISEND makes IPI pend on the logical core it names; in task mode the three
trap PRIV. 06 R120, R121: a page walk that succeeds puts its translation in the TLB, one that fails traps after its stop. -/
def Obligations.InstructionCacheAndTlbOperations : Prop :=
  (∀ (s : State) (p : FReg), Alone s → s.readF p = true → Quiet s 3 → NoLoopEnd s →
    ∃ u, exec (.isync p) s = .next u ∧ u.endBundle.c.icache = ⟨s.c.icache.lines, []⟩ ∧ u.endBundle.c.pc = s.c.pc + 1 ∧
      u.endBundle.c.csr.cycle = s.c.csr.cycle + 3 ∧ u.endBundle.c.csr.bundles = s.c.csr.bundles + 1 ∧
      u.endBundle.c.regs = s.c.regs ∧ u.endBundle.c.owed = s.c.owed ∧ u.endBundle.mem = s.mem) ∧
  (∀ (s : State) (p : FReg) (a b : SReg), Alone s → s.readF p = true → (∀ l ∈ s.c.icache.lines, l.1 % 64 = 0) →
    ∃ ic, exec (.iinv p a b) s = .next { s with c := { s.c with icache := ic } } ∧
      (∀ l, l ∈ ic.lines ↔ l ∈ s.c.icache.lines ∧ ¬ lineOverlaps (s.c.readS a).toNat (s.c.readS b).toNat l.1)) ∧
  (∀ (s : State) (v : Word),
    (s.c.csr.mode = false → exec (.tlbinv v) s = .next (s.precise ⟨cPRIV, 0, 0, 0⟩) ∧
      exec (.timecmpWrite v) s = .next (s.precise ⟨cPRIV, 0, 0, 0⟩) ∧ exec (.ipisend v) s = .next (s.precise ⟨cPRIV, 0, 0, 0⟩)) ∧
    (s.c.csr.mode = true →
      (∃ l, exec (.tlbinv v) s = .next { s with c := { s.c with tlb := l } } ∧
        ∀ e, e ∈ l ↔ e ∈ s.c.tlb ∧ v ≠ BitVec.allOnes 64 ∧ e.covers v.toNat = false) ∧
      exec (.timecmpWrite v) s = .next { s with c := { s.c with csr := { s.c.csr with timecmp := v, ipTimer := false } } } ∧
      ∀ d, s.vdOf s.c = some d →
        (∀ k, d.globalCore (v.extractLsb' 0 9).toNat = some k → exec (.ipisend v) s =
          .next (s.setCore k { s.coreAt k with csr := { (s.coreAt k).csr with ipIpi := true } })) ∧
        (d.globalCore (v.extractLsb' 0 9).toNat = none → exec (.ipisend v) s = .next s))) ∧
  (∀ (s : State) (va : Word) (acc : AccKind) (d : Vd), s.vdOf s.c = some d → hbmBase + frameSize ≤ va.toNat → va.toNat < hbmTop →
    d.winAt va.toNat = none → (∀ e ∈ s.c.tlb, e.covers va.toNat = false) →
    (∀ x, s.xlateCore va.toNat acc = .ok x → ∃ t, exec (.pageWalk va acc) s = .next t ∧ t.mem = s.mem ∧ t.c.regs = s.c.regs ∧
      ∃ e ∈ t.c.tlb, e.covers va.toNat = true ∧ e.phys va.toNat = x.pa) ∧
    (∀ e, s.xlateCore va.toNat acc = .error e →
      exec (.pageWalk va acc) s = .next (({ s with iss := { s.iss with walk := true } } : State).precise e)))

/-! ## Events of the package: bring-up, heat, links -/

/-- The steps of Table 1-6 that must have ended before a work item starts: the links and the stacks wait for step 1, step 4 for steps
1 to 3, step 5 for all of them. -/
def Sys2Proof.Claims.waitsFor : BringItem → BringItem → Bool
  | .root, _ => false
  | .pcie _, x | .hbm _, x => x == .root
  | .mpe, x => x != .mpe && x != .service
  | .service, x => x != .service

/-- A work item of bring-up is under way: power is on, it has not ended, what comes before it has, and bring-up has not stopped, but for
the links, which train also then (01 R22). -/
def Sys2Proof.Claims.UnderWay (s : State) (w : BringItem) : Prop :=
  s.pkg.on = true ∧ w ∈ s.pkg.bring.todo ∧ (∀ x ∈ s.pkg.bring.todo, waitsFor w x = false) ∧
  (s.pkg.bring.fail = true → ∃ k, w = .pcie k)

/-- The device has started from nothing: cores scrubbed, no VD, no window, no frame assigned, memory unwritten; what lies outside it is
as it was. -/
def Sys2Proof.Claims.StartsAfresh (s t : State) : Prop :=
  t.c = Core.reset ∧ t.others = [] ∧ t.vds = [] ∧ t.wins = [] ∧ t.owners = [] ∧ t.mem = [] ∧ t.poison = [] ∧ t.clusters = [] ∧
  t.ext = s.ext ∧ t.inputs = s.inputs ∧ t.outbox = s.outbox

/-- 01 R22-R24, Tables 1-6, 1-7: power-on and a fundamental reset start bring-up with no step done; a work item that completes shows in
HBMOK, PCIEUP, or READY with DEGR for an excluded stack; one that times out shows in HBMFAIL, or stops bring-up with FAIL and FSTEP; a
link may train later; a function answers Retry Status until step 5 has ended or bring-up has stopped. That a reset leaves nothing of the
state before it but what lies outside the device is the model's choice (log entry 32). -/
def Obligations.BringUpGoesStepByStep : Prop :=
  (∀ (s : State), s.pkg.on = false → ∃ t, exec .powerOn s = .next t ∧ StartsAfresh s t ∧ t.pkg = Pkg.reset) ∧
  (∀ (s : State), s.pkg.on = true →
    (∃ t, exec .pcieFundamentalReset s = .next t ∧ StartsAfresh s t ∧ t.pkg = Pkg.reset) ∧
    (∃ t, exec .powerOff s = .next t ∧ StartsAfresh s t ∧ t.pkg.on = false)) ∧
  (∀ (s : State) (w : BringItem), UnderWay s w →
    let b := s.pkg.bring
    let left := b.todo.filter (· != w)
    (∃ b', exec (.bringupStepComplete w) s = .next { s with pkg := { s.pkg with bring := b' } } ∧ b'.todo = left ∧
      b'.hbmok = (match w with | .hbm k => b.hbmok ||| BitVec.twoPow 8 k.val | _ => b.hbmok) ∧
      b'.pcieup = (match w with | .pcie k => b.pcieup ||| BitVec.twoPow 2 k.val | _ => b.pcieup) ∧
      b'.ready = (b.ready || w == .service) ∧ b'.degr = (if w = .service then b.hbmfail != 0 else b.degr) ∧
      b'.hbmfail = b.hbmfail ∧ b'.fail = b.fail ∧ b'.fstep = b.fstep ∧ b'.ethup = b.ethup) ∧
    (∃ b', exec (.bringupTimeout w) s = .next { s with pkg := { s.pkg with bring := b' } } ∧ b'.todo = left ∧
      b'.hbmfail = (match w with | .hbm k => b.hbmfail ||| BitVec.twoPow 8 k.val | _ => b.hbmfail) ∧
      b'.fail = (b.fail || w == .root || w == .mpe || w == .service) ∧
      b'.fstep = (if w = .root then 1 else if w = .mpe then 2 else if w = .service then 3 else b.fstep) ∧
      b'.hbmok = b.hbmok ∧ b'.pcieup = b.pcieup ∧ b'.ready = b.ready ∧ b'.degr = b.degr ∧ b'.ethup = b.ethup)) ∧
  (∀ (s : State) (k : Fin 2), s.pkg.on = true → .pcie k ∉ s.pkg.bring.todo → s.pkg.bring.pcieup.getLsbD k.val = false →
    exec (.pcieLinkTrained k) s = .next { s with pkg := { s.pkg with bring := { s.pkg.bring with
      pcieup := s.pkg.bring.pcieup ||| BitVec.twoPow 2 k.val } } }) ∧
  (∀ (s : State) (fn : PciFn), s.pkg.on = true →
    exec (.configRequest fn) s = .next { s with outbox := s.outbox ++
      [if s.pkg.bring.ready = true ∨ s.pkg.bring.fail = true then .cfgDone fn else .cfgRetry fn] })

/-- Degrees as the sensors count them, in 1/16 °C (Table 2-2). -/
def Sys2Proof.Claims.deg (n : Int) : Int := 16 * n

/-- 02 R26: the die temperature of eight sensors: the largest valid one, or the trip point when none is valid. -/
def Sys2Proof.Claims.DieTemp (temps : Vector (BitVec 16 × Bool) 8) (t : Int) : Prop :=
  ((∃ i : Fin 8, (temps[i]).2 = true ∧ (temps[i]).1.toInt = t) ∧
    ∀ i : Fin 8, (temps[i]).2 = true → (temps[i]).1.toInt ≤ t) ∨
  ((∀ i : Fin 8, (temps[i]).2 = false) ∧ t = deg 120)

/-- Table 2-3: the level after a sample. -/
def Sys2Proof.Claims.levelAfter (level : Nat) (t : Int) (hot : Prop) [Decidable hot] : Nat :=
  if level = 3 then 3
  else if deg 120 ≤ t ∨ hot then 3
  else if deg 112 ≤ t then 2
  else if level = 2 then (if t < deg 108 then 1 else 2)
  else if deg 105 ≤ t then 1
  else if level = 1 ∧ deg 102 ≤ t then 1
  else 0

/-- Table 2-5, R30: the refresh rate after a sample of a stack: raised above a threshold, lowered only 2 °C below it. -/
def Sys2Proof.Claims.rateAfter (cur : Nat) (t : Int) : Nat :=
  if deg 95 < t ∨ cur = 2 ∧ deg 93 < t then 2
  else if deg 85 < t ∨ 1 ≤ cur ∧ deg 83 < t then 1
  else 0

/-- A die's own state changes and nothing else does. -/
def Sys2Proof.Claims.heatSet (s : State) (die : Fin 4) (h : DieHeat) : State := { s with pkg := { s.pkg with heat := s.pkg.heat.set die h } }

/-- 02 R26-R32, Tables 2-3, 2-5, 2-6: a sample sets the die's level, level 2 its clock to 350 MHz, and entering level 3 tells root firmware
and halts the running VDs on the die; the clock steps by 100 MHz in levels 1 and 0; only below 95 °C a trip ends; each stack's refresh
rate follows its temperature with 2 °C of hysteresis, and a refresh lets only time pass; a counter operation that waited at the Shepherd of a
die without clocks comes first once the trip is cleared; a power measurement admits or withholds ballast
and moves the cap, when EN is 1; PWRCTL is written only through a physical function, by whom it is allowed, SETPT at most 2,400, and
gives running ballast a pending slice end where it withholds it. The model's choice are that operation's wait (log entry 76), which side of its temperature a threshold belongs
to (log entry 38), from which clock a measurement lowers a die's (log entry 83), what the notice of a trip holds (log entry 39), and level 0 and a clock of at most 1.4 GHz after a trip (log entry
37). -/
def Obligations.HeatAndPowerFollowTheirTables : Prop :=
  (∀ (s : State) (die : Fin 4) (temps : Vector (BitVec 16 × Bool) 8) (t : Int), s.pkg.on = true → DieTemp temps t →
    let h := s.pkg.heat[die]
    let hot : Prop := deg 105 < h.stack[0] ∨ deg 105 < h.stack[1]
    let l := levelAfter h.level t hot
    ∃ u, exec (.thermalSample die temps) s = .next u ∧
      u.pkg.heat[die] = { h with
        sensors := temps, temp := t, level := l
        clkT := if l = 2 ∧ h.level ≠ 2 then 35 else h.clkT
        hard := h.hard || decide (l = 2 ∧ h.level ≠ 2)
        tripped := h.tripped || decide (l = 3 ∧ h.level ≠ 3)
        stktrip := h.stktrip || decide (l = 3 ∧ h.level ≠ 3 ∧ hot) } ∧
      (¬ (l = 3 ∧ h.level ≠ 3) → u = heatSet s die u.pkg.heat[die]) ∧
      (l = 3 → h.level ≠ 3 → .rootNotice 0 die.val ∈ u.outbox ∧
        ∀ v d, s.vd? v = some d → d.onDie die.val = true → d.life = none → d.state = .running →
          ∃ d', u.vd? v = some d' ∧ d'.life = some .firmware)) ∧
  (∀ (s : State) (die : Fin 4), s.pkg.on = true → ∃ c, exec (.throttleClockStep die) s =
      .next (heatSet s die { s.pkg.heat[die] with clkT := c }) ∧
    ((s.pkg.heat[die]).level = 1 → 70 ≤ (s.pkg.heat[die]).clkT → c = Nat.max 70 ((s.pkg.heat[die]).clkT - 10)) ∧
    ((s.pkg.heat[die]).level = 1 → (s.pkg.heat[die]).clkT < 70 → c = (s.pkg.heat[die]).clkT) ∧
    ((s.pkg.heat[die]).level = 0 → (s.pkg.heat[die]).clkT ≤ 140 → c = Nat.min 140 ((s.pkg.heat[die]).clkT + 10)) ∧
    (2 ≤ (s.pkg.heat[die]).level → c = (s.pkg.heat[die]).clkT)) ∧
  (∀ (s : State) (die : Fin 4), s.pkg.on = true → (s.pkg.heat[die]).level = 3 → (s.pkg.heat[die]).temp < deg 95 →
    (s.pkg.heat[die]).stack[0] < deg 95 → (s.pkg.heat[die]).stack[1] < deg 95 →
    ∃ c t, c ≤ 140 ∧ exec (.thermalTripClear die) s = .next t ∧
      ((∀ p ∈ s.vds, p.2.homeDie = die.val → p.2.ovf = [] ∧ p.2.cursors = [] ∧ ∀ r ∈ p.2.ready, r.cont.launch = false) →
        t.pkg.heat[die] = { s.pkg.heat[die] with level := 0, clkT := c } ∧
        t.mem = s.mem ∧ t.vds = s.vds ∧ t.c = s.c ∧ (s.parked = [] → t.inputs = s.inputs) ∧
        ∀ v gen ctr op bund, s.parked = [.counterOperation v gen ctr op bund] → (s.vd? v).isSome = true → ctr.toNat / 16384 = die.val →
          t.parked = [] ∧ t.inputs = .event (.counterOperation v gen ctr op bund) :: s.inputs)) ∧
  (∀ (s : State) (die : Fin 4) (k : Fin 2) (temp : Int), s.pkg.on = true → s.pkg.bring.hbmok.getLsbD (2 * die.val + k.val) = true →
    let st : Fin 8 := Fin.ofNat 8 (2 * die.val + k.val)
    let h := s.pkg.heat[die]
    (h.refr[k] ≤ 2 → exec (.hbmTempSample st temp) s = .next (heatSet s die { h with
      stack := h.stack.set k temp, refr := h.refr.set k (rateAfter h.refr[k] temp) })) ∧
    ∀ bank, ∃ n, exec (.hbmRefresh st bank) s =
      .next { s with fresh := s.fresh + 1, pkg := { s.pkg with timeNs := s.pkg.timeNs + n } }) ∧
  (∀ (s : State) (w : BitVec 12), s.pkg.on = true →
    let p := s.pkg
    let ballast (k : Nat) : Prop := ∃ t, (s.coreAt k).task = some t ∧ t.cont.cls = 7
    ∃ u, exec (.powerMeasurement w) s = .next u ∧ u.pkg.pkgw = w.toNat ∧ u.mem = s.mem ∧ u.vds = s.vds ∧
      (p.en = false → u = { s with pkg := { p with pkgw := w.toNat } }) ∧
      (p.en = true → w.toNat + p.band < p.setpt → u.pkg.balrun = true ∧ u.c = s.c ∧
        ∀ die : Fin 4, u.pkg.heat[die] = { p.heat[die] with clkP := Nat.min 140 ((p.heat[die]).clkP + 10) }) ∧
      (p.en = true → p.setpt ≤ w.toNat + p.band → w.toNat ≤ p.setpt → u = { s with pkg := { p with pkgw := w.toNat } }) ∧
      (p.en = true → p.setpt < w.toNat → u.pkg.balrun = false ∧
        (ballast s.cur → u.c = { s.c with csr := { s.c.csr with slend := true } } ∧ u.pkg.heat = p.heat) ∧
        ((∀ k, ¬ ballast k) → p.setpt + p.band < w.toNat →
          ∀ die : Fin 4, u.pkg.heat[die] = { p.heat[die] with clkP := Nat.max 70 ((p.heat[die]).clkP - 10) }) ∧
        (w.toNat ≤ p.setpt + p.band → u.pkg.heat = p.heat))) ∧
  (∀ (s : State) (link : Fin 2) (v : BitVec 32), s.pkg.on = true → s.pkg.bring.ready = true →
    (∃ t, exec (.pwrctlWrite (.pf link) true v) s = .next t ∧ t.pkg.setpt = Nat.min 2400 (v.extractLsb' 0 12).toNat ∧
      t.pkg.band = (v.extractLsb' 16 8).toNat ∧ t.pkg.en = v[24] ∧ t.mem = s.mem ∧ t.vds = s.vds ∧
      t.c = (if v[24] = true ∧ s.pkg.balrun = false ∧ ∃ k, s.c.task = some k ∧ k.cont.cls = 7 then
        { s.c with csr := { s.c.csr with slend := true } } else s.c)) ∧
    exec (.pwrctlWrite (.pf link) false v) s = .next s ∧
    ∀ vf, exec (.pwrctlWrite (.vf link vf) true v) s = .next s)

/-- A data flit of a Falyth port (Table 1-3): its SEQ, the last SEQ received in ACK, the credits it returns, and the request it carries. -/
def Sys2Proof.Claims.dataFlit (p : FalPort) (x : TxFlit) : List Byte :=
  flitBytes (flitHeader 1 x.seq p.rxLast false x.req.vc.val x.crd x.crdvc.val) x.req.payload

/-- A flit that its port sends, for the first time or again. -/
def Sys2Proof.Claims.sentAgain (port : Fin 24) (p : FalPort) (x : TxFlit) : Msg := .flit port.val (dataFlit p x)

/-- What an acknowledged request sends on: the bytes of a copy's write go to the peer. -/
def Sys2Proof.Claims.goesOn : TxOp → List Msg
  | .write chip handle off bs => [.peerWrite chip handle off bs]
  | _ => []

/-- A copy of a core has lost n bytes from an offset of peer memory at a port (01 R18). -/
def Sys2Proof.Claims.CopyLost (s t : State) (core ord off n : Nat) : Prop :=
  ∀ h, (s.coreAt core).chans.find? (fun g => g.ord == ord) = some h →
    ∃ g ∈ (t.coreAt core).chans, g.ord = ord ∧ g.id = h.id ∧ g.lost = h.lost ++ [(off, n)]

/-- 01 R18, Table 1-4: what must agree at both ends in PARAM. -/
def Sys2Proof.Claims.PartnersAgree (p : FalPort) (q : FalPartner) : Prop :=
  q.lanes = p.lanes ∧ q.depth = 512 ∧ q.reduces = true ∧ q.credits.length = 4 ∧ ∀ n ∈ q.credits, 16 ≤ n ∧ n ≤ 1024

/-- The neighbours of Table 1-1: two dies that one link joins, the horizontal or the vertical one. -/
def Sys2Proof.Claims.Linked (a b : Fin 4) : Prop := a.val ^^^ b.val = 1 ∨ a.val ^^^ b.val = 2

/-- A port as one of the state's ports. -/
def Sys2Proof.Claims.portSet (s : State) (port : Fin 24) (p : FalPort) : State := { s with pkg := { s.pkg with ports := s.pkg.ports.set port p } }

/-- The phase that follows a phase whose exit condition is met (Table 1-4). -/
def Sys2Proof.Claims.phaseAfter : FalPhase → Option FalPhase
  | .detect => some .signal
  | .signal => some .equalize
  | .equalize => some .align
  | .align => some .param
  | .param => some .active
  | _ => none

/-- 01 R10, R14-R21, Tables 1-3, 1-4: a die-to-die link counts the retries of a transfer and, after sixteen, goes down with UE to root
firmware and a halt of the VDs on either end; four damaged bytes of a Falyth flit are corrected; a flit that fails its CRC is answered by
NAK with the last good number, a data flit in order by its ACK and one credit, which a data flit that waits takes along; an ACK frees the
flits up to it; a credit sends a request that waits, with the next number, into the replay buffer; a timeout replays all that is
unacknowledged, and after eight replays without progress the port retrains; training goes phase by phase to a partner that agrees, fails back to DETECT, whereby a contribution that was unacknowledged fails at its issuer and a copy has lost its bytes,
and after four failures goes down and is reported; a completed line of a reduction window is freed and its contributions leave their cores;
a rejected contribution leaves its core; the lanes of an Ethernet port come up. The model's choice are the count of a new transfer and the
layout of the notice (log entry 33), which flits a receiver accepts after a failure and what must agree in PARAM (log entry 34), and that
the ranks of other packages are supplied (log entry 36), and that requests not yet sent wait on (log entry 81). -/
def Obligations.LinksRetryTrainAndReduce : Prop :=
  (∀ (s : State) (a b : Fin 4), s.pkg.on = true → Linked a b →
    let l := (Nat.min a.val b.val, Nat.max a.val b.val)
    l ∉ s.pkg.d2dDown →
    (∃ t, exec (.d2dTransferRetry a ⟨b, true⟩) s = .next t ∧ t.linkTries l = 1 ∧
      t = { s with pkg := { s.pkg with d2dTries := t.pkg.d2dTries } }) ∧
    (1 ≤ s.linkTries l → s.linkTries l < 16 → ∃ t, exec (.d2dTransferRetry a ⟨b, false⟩) s = .next t ∧
      t.linkTries l = s.linkTries l + 1 ∧ t = { s with pkg := { s.pkg with d2dTries := t.pkg.d2dTries } }) ∧
    (s.linkTries l = 16 → ∃ t, exec (.d2dLinkDown a b) s = .next t ∧ l ∈ t.pkg.d2dDown ∧ t.mem = s.mem ∧ t.c = s.c ∧
      (∃ n, .rootNotice 0x16 n ∈ t.outbox) ∧
      ∀ v d, s.vd? v = some d → d.onDie a.val = true ∨ d.onDie b.val = true → d.life = none → d.state = .running →
        ∃ d', t.vd? v = some d' ∧ d'.life = some .firmware)) ∧
  (∀ (s : State) (port : Fin 24) (sent : List Byte) (errs : List (Nat × Byte)), s.pkg.on = true → (s.pkg.ports[port]).phase = .active →
    let p := s.pkg.ports[port]
    (errs.length ≤ 4 → exec (.falythFlitReceive port sent errs) s = exec (.falythFlitReceive port sent []) s) ∧
    (flitBad (corrected sent errs) = true → exec (.falythFlitReceive port sent errs) s =
      .next { portSet s port { p with dropping := true } with
        outbox := s.outbox ++ [.flit port.val (flitBytes (flitHeader 2 0 p.rxLast true 0 0 0) [])] })) ∧
  (∀ (s : State) (port : Fin 24) (ack : Nat) (vc crdvc : Fin 4) (crd : Nat) (payload : List Byte), s.pkg.on = true →
    (s.pkg.ports[port]).phase = .active → ack < 4096 → crd < 256 → payload.length ≤ 116 →
    let p := s.pkg.ports[port]
    let seq := (p.rxLast + 1) % 4096
    let data := flitBytes (flitHeader 1 seq ack false vc.val crd crdvc.val) payload
    let answer : List Msg := [.flit port.val (flitBytes (flitHeader 2 0 seq false 0 1 vc.val) [])]
    (p.queue = [] → ∃ t q, exec (.falythFlitReceive port data []) s = .next t ∧ t.pkg.ports[port] = q ∧ q.rxLast = seq ∧ q.dropping = false ∧
        q.credits[crdvc] = p.credits[crdvc] + crd ∧
        (∀ x rest, p.replay = x :: rest → x.seq = ack → q.replay = rest ∧ t.outbox = s.outbox ++ goesOn x.req.op ++ answer) ∧
        ((∀ x ∈ p.replay, x.seq ≠ ack) → q.replay = p.replay ∧ t.outbox = s.outbox ++ answer)) ∧
    (∀ x, p.queue = [x] → p.replay = [] → 0 < p.credits[x.vc] →
      ∃ t q, exec (.falythFlitReceive port data []) s = .next t ∧ t.pkg.ports[port] = q ∧ q.rxLast = seq ∧ q.queue = [] ∧
        q.replay = [⟨p.nextSeq, x, 1, vc⟩] ∧ t.outbox = s.outbox ++ [sentAgain port q ⟨p.nextSeq, x, 1, vc⟩]) ∧
    (∀ x, p.queue = [x] → p.replay = [] → p.dropping = false → 0 < p.credits[x.vc] + crd → crdvc = x.vc →
      exec (.falythFlitReceive port (flitBytes (flitHeader 2 0 ack false 0 crd crdvc.val) []) []) s =
        .next { portSet s port { p with
            queue := [], replay := [⟨p.nextSeq, x, 0, 0⟩], nextSeq := (p.nextSeq + 1) % 4096
            credits := p.credits.set x.vc (p.credits[x.vc] + crd - 1) } with
          outbox := s.outbox ++ [sentAgain port p ⟨p.nextSeq, x, 0, 0⟩] }) ∧
    (p.replay ≠ [] → p.stalls < 8 → exec (.falythAckTimeout port) s =
      .next { portSet s port { p with stalls := p.stalls + 1 } with outbox := s.outbox ++ p.replay.map (sentAgain port p) }) ∧
    (8 ≤ p.stalls → exec (.falythReplayLimit port) s =
      .next (portSet s port { p with phase := .equalize, kept := true, stalls := 0 }))) ∧
  (∀ (s : State) (port : Fin 24) (lanes : Fin 3) (q : FalPartner) (ph : FalPhase), s.pkg.on = true → s.pkg.bring.ready = true →
    let p := s.pkg.ports[port]
    phaseAfter p.phase = some ph → (p.phase = .signal → lanes ≠ 0) → (p.phase = .param → PartnersAgree p q) → p.queue = [] →
    ∃ t, exec (.falythPhaseExit port lanes q) s = .next t ∧ (t.pkg.ports[port]).phase = ph ∧
      (p.phase = .signal → (t.pkg.ports[port]).lanes = lanes.val) ∧ (p.phase ≠ .signal → (t.pkg.ports[port]).lanes = p.lanes) ∧
      (ph ≠ .active → (t.pkg.ports[port]).replay = p.replay) ∧
      (ph = .param → t.outbox = s.outbox ++ [.param port.val ⟨port.val, false, p.lanes, 512, true, [256, 256, 128, 32]⟩]) ∧
      (ph = .active → p.kept = true → (t.pkg.ports[port]).replay = p.replay ∧ (t.pkg.ports[port]).credits = p.credits ∧
        t.outbox = s.outbox ++ p.replay.map (sentAgain port p)) ∧
      (ph = .active → p.kept = false → (t.pkg.ports[port]).replay = [] ∧ (t.pkg.ports[port]).rxLast = 4095 ∧
        ∀ k : Fin 4, (t.pkg.ports[port]).credits[k] = q.credits.getD k.val 0)) ∧
  (∀ (s : State) (port : Fin 24), s.pkg.on = true →
    let p := s.pkg.ports[port]
    (p.phase = .signal ∨ p.phase = .equalize ∨ p.phase = .align ∨ p.phase = .param →
      ∃ t, exec (.falythTrainingTimeout port) s = .next t ∧ (t.pkg.ports[port]).fails = p.fails + 1 ∧
        (t.pkg.ports[port]).replay = [] ∧ t.mem = s.mem ∧
        (∀ f, p.replay = [f] → coreOk f.req.core = true →
          let x := f.req
          (∀ v home line rank epoch r, x.op = .red v home line rank epoch → (s.coreAt x.core).request x.ord = some r →
            (∀ y ∈ (t.coreAt x.core).lsu, y.ord ≠ x.ord) ∧
            ((s.coreAt x.core).task.isSome = true → (s.coreAt x.core).taskId = r.task → (s.coreAt x.core).reports.length < 8 →
              ∃ e ∈ (t.coreAt x.core).reports, e.cause.toNat = cUE ∧ e.bund = r.bund)) ∧
          (∀ off n, x.op = .read off n → CopyLost s t x.core x.ord off n) ∧
          (∀ chip handle off bs, x.op = .write chip handle off bs → CopyLost s t x.core x.ord off bs.length)) ∧
        (p.fails + 1 < 4 → (t.pkg.ports[port]).phase = .detect ∧ t.outbox = s.outbox) ∧
        (4 ≤ p.fails + 1 → (t.pkg.ports[port]).phase = .down ∧ t.outbox = s.outbox ++ [.serviceNotice port.val])) ∧
    (s.pkg.bring.ready = true → p.phase = .detect →
      exec (.falythDetectRetry port true) s = .next (portSet s port { p with phase := .signal }) ∧
      exec (.falythDetectRetry port false) s = .next s)) ∧
  (∀ (s : State) (w off : Nat) (x : RedWindow) (l : Nat × Nat × List Contribution), lookup w s.reds = some x → l ∈ x.lines →
    l.1 = off → (∀ m ∈ x.lines, m.1 = off → m = l) → (∀ r ∈ x.ranks, ∃ c ∈ l.2.2, c.rank = r) →
    ∃ t y, exec (.reductionResultWrite w off) s = .next t ∧ lookup w t.reds = some y ∧ (∀ m, m ∈ y.lines ↔ m ∈ x.lines ∧ m ≠ l) ∧
      ∀ c ∈ l.2.2, ∀ q ∈ (t.coreAt c.core).lsu, q.ord ≠ c.seq) ∧
  (∀ (s : State) (core seq : Nat) (r : Req), coreOk core = true → (s.coreAt core).request seq = some r → r.rejected = true →
    ∃ t, exec (.reductionReject core seq) s = .next t ∧ (∀ q ∈ (t.coreAt core).lsu, q.ord ≠ seq) ∧ t.mem = s.mem) ∧
  (∀ (s : State) (lane : Fin 16) (n : Nat), s.pkg.on = true → s.pkg.bring.ready = true → n = 1 ∨ n = 4 ∨ n = 8 → lane.val % n = 0 →
    s.pkg.ethGroup = none ∨ s.pkg.ethGroup = some n →
    ∃ m, exec (.ethernetLinkTraining lane n) s =
        .next { s with pkg := { s.pkg with ethGroup := some n, bring := { s.pkg.bring with ethup := m } } } ∧
      ∀ j : Nat, j < 16 → m.getLsbD j = (s.pkg.bring.ethup.getLsbD j || decide (lane.val ≤ j ∧ j < lane.val + n)))

/-! ## The host's accesses -/

/-- The device answers its functions: power is on and bring-up has ended (01 R23). -/
def Sys2Proof.Claims.HostUp (s : State) : Prop := s.pkg.on = true ∧ s.pkg.bring.ready = true

/-- A VD's state changes and nothing else does. -/
def Sys2Proof.Claims.vdSet (s : State) (v : Nat) (d : Vd) : State := { s with vds := put v d s.vds }

/-- The registers of a VD change and nothing else does. -/
def Sys2Proof.Claims.vdRegs (s : State) (v : Nat) (d : Vd) (r : VdRegs) : State := vdSet s v { d with regs := r }

/-- The mailbox of a link changes and nothing else does. -/
def Sys2Proof.Claims.boxSet (s : State) (link : Fin 2) (b : Mailbox) : State := { s with pkg := { s.pkg with boxes := s.pkg.boxes.set link b } }

/-- One more access to an unassigned offset (03 R35). -/
def Sys2Proof.Claims.oneMgmterr (s : State) : State := { s with pkg := { s.pkg with mgmterr := s.pkg.mgmterr + 1 } }

/-- The registers of a physical function that a write does not change (Table 3-2): BRINGST, MGMTERR, PWRSTAT, TSENS. -/
def Sys2Proof.Claims.pfReadOnly (off : Nat) : Prop := 0x100 ≤ off ∧ off < 0x110 ∨ 0x208 ≤ off ∧ off < 0x20C ∨ 0x400 ≤ off ∧ off < 0x480

/-- The offsets of a physical function that Table 3-2 assigns. -/
def Sys2Proof.Claims.pfAssigned (off : Nat) : Prop :=
  pfReadOnly off ∨ 0x200 ≤ off ∧ off < 0x204 ∨ 0x300 ≤ off ∧ off < 0x310 ∨ 0x10000 ≤ off ∧ off < 0x10008 ∨
  0x10100 ≤ off ∧ off < 0x11100

/-- The offsets of a virtual function that Table 3-3 assigns. -/
def Sys2Proof.Claims.vfAssigned (off : Nat) : Prop :=
  off < 0x1050 ∨ 0x2000 ≤ off ∧ off < 0x2400 ∨ 0x3000 ≤ off ∧ off < 0x3008

/-- Table 3-4: the registers of a VD after a write of a whole one at an offset from 1000h; EVTAIL apart. -/
def Sys2Proof.Claims.vdRegAfter (r : VdRegs) (off : Nat) (x : Word) : VdRegs :=
  if off = 0x18 then (if r.en then r else { r with evhdl := x.extractLsb' 0 32, evoff := x.extractLsb' 44 20 ++ (0 : BitVec 12) })
  else if off = 0x20 then { r with
    log2n := if r.en then r.log2n else if 6 ≤ (x.extractLsb' 0 5).toNat ∧ (x.extractLsb' 0 5).toNat ≤ 16 then (x.extractLsb' 0 5).toNat
      else 6
    modus := x.extractLsb' 8 8
    en := x[16] }
  else if off = 0x40 then { r with vec := Vector.ofFn fun k => x.extractLsb' (8 * k.val) 6 }
  else if off = 0x48 then { r with win := x.extractLsb' 32 9 }
  else r

/-- 03 R34-R37, R49, Tables 2-4, 3-2 to 3-4: what a write of a register does: nothing in a read-only one or in a function that no VD is
bound to; THSTAT's three sticky bits clear by a one; MBCTL.GO hands the mailbox over, and MBBUF takes bytes, while it is not busy; a VD's
registers take what Table 3-4 lets them, EVTAIL only a value between TAIL and HEAD while EN is 1; an offset that no table assigns counts in
MGMTERR. The model's choice are that a register takes only a write of its whole width (log entry 31), which tails lie between TAIL and
HEAD and that GO is ignored while BUSY (log entry 42), and a vector that the host has not written (log entry 12). -/
def Obligations.RegisterWritesActAsTheirTablesSay : Prop :=
  (∀ (s : State) (link : Fin 2) (off size : Nat) (v : Word), HostUp s → 0 < size → size ≤ 8 →
    let b := s.pkg.boxes[link]
    (pfReadOnly off → exec (.registerWrite (.pf link) off size v) s = .next s) ∧
    (¬ pfAssigned off → exec (.registerWrite (.pf link) off size v) s = .next (oneMgmterr s)) ∧
    (∀ die : Fin 4, off = 0x300 + 4 * die.val → size = 4 → exec (.registerWrite (.pf link) off size v) s =
      .next (heatSet s die { s.pkg.heat[die] with
        hard := (s.pkg.heat[die]).hard && !v[12]
        tripped := (s.pkg.heat[die]).tripped && !v[13]
        stktrip := (s.pkg.heat[die]).stktrip && !v[14] })) ∧
    (off = 0x10000 → size = 8 → b.busy = true ∨ v[0] = false → exec (.registerWrite (.pf link) off size v) s = .next s) ∧
    (off = 0x10000 → size = 8 → b.busy = false → v[0] = true →
      ((∀ k, s.pkg.waiting.head? = some k → (s.pkg.boxes[k]).known = true) → (s.pkg.waiting = [] → b.known = true) →
        exec (.registerWrite (.pf link) off size v) s = .next { s with pkg := { s.pkg with
          boxes := s.pkg.boxes.set link { b with busy := true }, waiting := s.pkg.waiting ++ [link] } }) ∧
      (s.pkg.waiting = [] → b.known = false → ∃ t, exec (.registerWrite (.pf link) off size v) s = .next t ∧
        t.pkg.waiting = [] ∧ t.pkg.boxes = s.pkg.boxes.set link { b with busy := false, status := 1 } ∧ t.vds = s.vds)) ∧
    (0x10100 ≤ off → off + size ≤ 0x11100 → b.busy = true → exec (.registerWrite (.pf link) off size v) s = .next s) ∧
    (0x10100 ≤ off → off + size ≤ 0x11100 → b.busy = false → ∃ buf, exec (.registerWrite (.pf link) off size v) s =
        .next (boxSet s link { b with buf := buf }) ∧
      ∀ j, buf.getD j 0 = if off - 0x10100 ≤ j ∧ j < off - 0x10100 + size then leByte v.toNat (j - (off - 0x10100)) else b.buf.getD j 0)) ∧
  (∀ (s : State) (link : Fin 2) (n : Fin 64) (off size : Nat) (x : Word), HostUp s → 0 < size → size ≤ 8 →
    (s.vdOfVf link n = none → exec (.registerWrite (.vf link n) off size x) s = .next s ∧ exec (.evtailWrite link n x) s = .next s) ∧
    ∀ v d, s.vdOfVf link n = some v → s.vd? v = some d →
      (¬ vfAssigned off → exec (.registerWrite (.vf link n) off size x) s = .next (oneMgmterr s)) ∧
      (0x1000 ≤ off → off < 0x1050 → off % 8 = 0 → off ≠ 0x1030 → size = 8 → exec (.registerWrite (.vf link n) off size x) s =
        .next (vdRegs s v d (vdRegAfter d.regs (off - 0x1000) x))) ∧
      (0x3000 ≤ off → off < 0x3008 → exec (.registerWrite (.vf link n) off size x) s = .next s) ∧
      (0x2000 ≤ off → off < 0x2400 → size = 4 ∨ size = 8 → off % size = 0 →
        let k := (off - 0x2000) / 16
        let o := off % 16
        ∃ e, exec (.registerWrite (.vf link n) off size x) s = .next (vdSet s v { d with msix := put k e d.msix }) ∧
          (∀ j, j < 12 → e.bytes.getD j 0 =
            if o ≤ j ∧ j < o + size then leByte x.toNat (j - o) else (d.msixAtEntry k).bytes.getD j 0) ∧
          e.ctl = if o + size = 16 then (if x.getLsbD (8 * (12 - o)) then 1 else 0) else (d.msixAtEntry k).ctl &&& 1) ∧
      exec (.evtailWrite link n x) s = .next (vdRegs s v d { d.regs with tail :=
        if d.regs.en = false ∨ (x.extractLsb' 0 32 - d.regs.tail).toNat ≤ (d.regs.head - d.regs.tail).toNat then x.extractLsb' 0 32
        else d.regs.tail }) ∧
      exec (.unassignedOffsetAccess (.vf link n)) s = .next (oneMgmterr s)) ∧
  (∀ (s : State) (link : Fin 2), HostUp s → exec (.unassignedOffsetAccess (.pf link)) s = .next (oneMgmterr s))

/-- An event stands in the pending queue of a VD: its class, its code, its generation, and the bytes of its payload that the class states
(03 Table 3-10). -/
def Sys2Proof.Claims.Posted (d : Vd) (cls code : Nat) (payload : List Byte) : Prop :=
  ∃ e ∈ d.pend, e.cls = BitVec.ofNat 8 cls ∧ e.code = BitVec.ofNat 8 code ∧ e.gen = d.gen ∧ e.payload.take payload.length = payload

/-- The priorities a VD may use (03 Table 3-5, 03h): 7, or one of 0 to 3 not below its bound. -/
def Sys2Proof.Claims.PrioAllowed (d : Vd) (p : Nat) : Prop := p = 7 ∨ p ≤ 3 ∧ d.maxprio ≤ p

/-- The reasons of Table 3-5 from 02h to 07h that hold of a record. -/
def Sys2Proof.Claims.RecordFails (s : State) (v : Nat) (d : Vd) (c : Cont) : Nat → Prop
  | 2 => d.code? c.code = none
  | 3 => ¬ PrioAllowed d (c.prio.toNat % 8)
  | 4 => c.flags[2] = true ∧ ¬ Allocated d c.dctr.toNat
  | 5 => c.flags[0] = false ∧ ∃ o, d.code? c.code = some o ∧ o.nbund ≤ c.pc.toNat
  | 6 => c.flags[0] = true ∧ s.parseLaunch v c.frame.toNat 0 0 = none
  | 7 => 8 ≤ c.prio.toNat ∨ 64 ≤ c.vd.toNat ∨ 8 ≤ c.flags.toNat ∨ c.rsv ≠ 0 ∨ c.live ≠ 0xFFFF ∨ c.flags[1] = true ∨ c.shep ≠ 0
  | _ => False

/-- 03 R38, R39, Table 3-5: an access through BAR 2 reads or writes the memory of the function's VD at APBASE and its offset; one that does
not translate posts class 3 with the address, reads as all ones and writes nothing; a function that no VD is bound to reads as all ones.
A record that is injected with a wrong size or alignment, or that fails a check, counts in REJ, shows in LAST and posts class 1 with its first
16 bytes; one that passes becomes ready on the home die while the VD runs, is held while it is paused or migrating, 256 at most, and is
dropped otherwise. 04 R73, R75: an access to a window that a request past its re-key point holds is made after it (log entry 44). That REJ and
DROP wrap is the model's choice (log entry 79). -/
def Obligations.HostReachesMemoryAndInjectsRecords : Prop :=
  (∀ (s : State) (link : Fin 2) (n : Fin 64) (off len : Nat) (bs : List Byte), s.pkg.on = true → 0 < len → off < 2 ^ 32 →
    off % 4096 + len ≤ 4096 → bs.length = len →
    (s.vdOfVf link n = none → (len ≤ 512 → exec (.apertureAccess link n off true len bs) s = .next s) ∧
      exec (.apertureAccess link n off false len []) s =
        .next { s with outbox := s.outbox ++ [.read (.vf link n) (List.replicate len 0xFF)] }) ∧
    ∀ v d, s.vdOfVf link n = some v → s.vd? v = some d →
      let va := 0x20000000000 + d.regs.win.toNat * 2 ^ 32 + off
      let held : Prop := ∃ m, d.winAt va = some m ∧ s.frozenWin m.win = true
      (held → len ≤ 512 → exec (.apertureAccess link n off true len bs) s =
        .next { s with deferred := s.deferred ++ [.apertureAccess link n off true len bs] }) ∧
      (held → exec (.apertureAccess link n off false len []) s =
        .next { s with deferred := s.deferred ++ [.apertureAccess link n off false len []] }) ∧
      (∀ x, ¬ held → s.xlateVd v va .rd = .ok x → s.poisonedRange x.pa len = false →
        ∃ t r, exec (.apertureAccess link n off false len []) s = .next t ∧ t = { s with outbox := s.outbox ++ [.read (.vf link n) r] } ∧
          r.length = len ∧ (s.mem.wf = true → ∀ j, j < len → r.getD j 0 = s.mem.get (x.pa + j))) ∧
      (∀ x, ¬ held → len ≤ 512 → s.xlateVd v va .wr = .ok x → s.mem.wf = true → (∀ j, j < len → StorableByte s (x.pa + j)) →
        ∃ t, exec (.apertureAccess link n off true len bs) s = .next t ∧
          (∀ a, t.mem.get a = if x.pa ≤ a ∧ a < x.pa + len then bs.getD (a - x.pa) 0 else s.mem.get a) ∧
          t.c = s.c ∧ t.vds = s.vds ∧ t.outbox = s.outbox) ∧
      (∀ e wr, ¬ held → (wr = true → len ≤ 512) → s.xlateVd v va (if wr then .wr else .rd) = .error e → d.pend.length < 256 →
        ∃ t d', exec (.apertureAccess link n off wr len (if wr then bs else [])) s = .next t ∧ t.mem = s.mem ∧ t.vd? v = some d' ∧
          Posted d' 3 e.code (wordBytes (BitVec.ofNat 64 va)) ∧
          t.outbox = s.outbox ++ (if wr then [] else [.read (.vf link n) (List.replicate len 0xFF)]))) ∧
  (∀ (s : State) (link : Fin 2) (n : Fin 64) (off : Nat) (b : List Byte), s.pkg.on = true → off < 4096 →
    (s.vdOfVf link n = none → exec (.continuationInjection link n off b) s = .next s) ∧
    ∀ v d, s.vdOfVf link n = some v → s.vd? v = some d →
      let c : Cont := { Cont.ofBytes b with vd := BitVec.ofNat 8 v, gen := d.gen }
      let shaped : Prop := b.length = 64 ∧ off % 64 = 0
      (∀ r, ¬ shaped ∧ r = 1 ∨ shaped ∧ RecordFails s v d c r ∧ (∀ q, q < r → ¬ RecordFails s v d c q) → d.pend.length < 256 →
        ∃ t d', exec (.continuationInjection link n off b) s = .next t ∧ t.mem = s.mem ∧ t.c = s.c ∧ t.vd? v = some d' ∧
          d'.regs = { d.regs with rej := d.regs.rej + 1, last := BitVec.ofNat 8 r } ∧ Posted d' 1 r (b.take 16) ∧
          d'.ready = d.ready ∧ d'.ovf = d.ovf ∧ d'.hold = d.hold) ∧
      (shaped → (∀ r, ¬ RecordFails s v d c r) →
        (d.state = .running → c.flags[0] = false → d.ready.length < d.quota → d.overOf (c.prio.toNat % 8) = [] →
          ∃ (t : State) (d' : Vd) (r : Ready), exec (.continuationInjection link n off b) s = .next t ∧ t.mem = s.mem ∧
            t.vd? v = some d' ∧ d'.regs = { d.regs with acc := d.regs.acc + 1 } ∧ d'.ready = d.ready ++ [r] ∧
            r.die = Fin.ofNat 4 d.homeDie ∧ r.cont = c.onDie r.die ∧ r.tile = none) ∧
        (d.state = .paused ∨ d.state = .migrating → d.hold.length < 256 →
          exec (.continuationInjection link n off b) s = .next (vdSet s v { d with hold := d.hold ++ [c.toBytes] })) ∧
        (d.state = .resetting ∨ (d.state = .paused ∨ d.state = .migrating) ∧ 256 ≤ d.hold.length →
          exec (.continuationInjection link n off b) s = .next (vdRegs s v d { d.regs with drop := d.regs.drop + 1 }))))

/-! ## Root and service firmware -/

/-- A number of n bytes at an offset of a buffer, the lowest byte first. -/
def Sys2Proof.Claims.num (b : List Byte) (o n : Nat) : Nat := leValue ((List.range n).map fun j => b.getD (o + j) 0)

/-- The request of a link is the one that root firmware serves next (03 R36, R49; 04 R76): the mailbox is busy with a command, its turn has
come, and no lifecycle or window request is under way. -/
def Sys2Proof.Claims.RequestStands (s : State) (link : Fin 2) (cmd : Nat) : Prop :=
  s.pkg.bring.ready = true ∧ (∀ p ∈ s.vds, p.2.life = none) ∧ s.winOp = none ∧ s.pkg.waiting.head? = some link ∧ (s.pkg.boxes[link]).busy = true ∧
  num (s.pkg.boxes[link]).buf 0 2 = cmd

/-- LENGTH of the request of a link. -/
def Sys2Proof.Claims.requestLength (s : State) (link : Fin 2) : Nat := num (s.pkg.boxes[link]).buf 2 2

/-- The request of a link has completed with a STATUS, and the driver of the physical function is told (03 R49) by vector 0 of its table, which
pends while it is masked (01 R13; an entry that the host has not written is masked, log entry 40). -/
def Sys2Proof.Claims.Completed (t : State) (link : Fin 2) (status : Nat) : Prop :=
  (t.pkg.boxes[link]).busy = false ∧ (t.pkg.boxes[link]).status = BitVec.ofNat 8 status ∧ link ∉ t.pkg.waiting ∧
  let e := (lookup (2048 * link.val) t.pkg.pfMsix).getD ⟨0, 0, 1⟩
  if e.ctl[0] then 2048 * link.val ∈ t.pkg.pfPba else .msix (.pf link) 0 e.addr e.data ∈ t.outbox

/-- A VD runs no task and has nothing under way (04 R77). -/
def Sys2Proof.Claims.VdIdle (s : State) (d : Vd) : Prop :=
  (∀ k ∈ d.cores, (s.coreAt k).task = none ∧ (s.coreAt k).wait = none ∧ (s.coreAt k).owed = [] ∧ (s.coreAt k).shadow = [] ∧
    (s.coreAt k).lsu = [] ∧ (s.coreAt k).chans = []) ∧
  ∀ m ∈ d.clusters, (s.clusterAt m).cmds = [] ∧ (s.clusterAt m).fills = []

/-- n bytes of memory from an address read as zero. -/
def Sys2Proof.Claims.ReadsZero (t : State) (pa n : Nat) : Prop := ∀ j, j < n → t.mem.get (pa + j) = 0

/-- A VD's clusters are scrubbed and its frames read as zero (04 R59, R65). -/
def Sys2Proof.Claims.Scrubbed (t : State) (clusters : List Nat) (frames : List (Nat × Nat)) : Prop :=
  (∀ m ∈ clusters, t.clusterAt m = Cluster.idle ∧ ∀ j : Fin 4, t.coreAt (4 * m + j.val) = Core.reset ∧
    ReadsZero t (sliceBase (4 * m + j.val)) sliceSize) ∧
  ∀ p ∈ frames, ReadsZero t (frameBase p.1 p.2) frameSize

/-- The clusters of the mask at an offset of a request. -/
def Sys2Proof.Claims.maskClusters (b : List Byte) (o : Nat) : List Nat := (List.range 128).filter fun m => (num b o 16).testBit m

/-- 04 R53: what a VD_CREATE request must hold: a free VD number and VF, free clusters, counters and frames that are there, legal fields. -/
def Sys2Proof.Claims.CreateOk (s : State) (b : List Byte) : Prop :=
  num b 8 1 < 64 ∧ s.vd? (num b 8 1) = none ∧ num b 9 1 ≤ 3 ∧ 1 ≤ num b 0xA 1 ∧ num b 0xB 1 = 0 ∧ num b 0xC 2 / 64 % 512 = 0 ∧
  num b 0xE 2 = 0 ∧ (∀ p ∈ s.vds, ¬ (p.2.link.val = num b 0xC 2 / 32768 ∧ p.2.vf.val = num b 0xC 2 % 64)) ∧
  maskClusters b 0x10 ≠ [] ∧ (∀ m ∈ maskClusters b 0x10, ∀ p ∈ s.vds, m ∉ p.2.clusters) ∧
  (∀ die : Fin 4, num b (0x20 + 4 * die.val) 4 = 0 ∨ s.degraded die.val = false ∧
    (s.freeFrames die.val (num b (0x20 + 4 * die.val) 4)).length = num b (0x20 + 4 * die.val) 4) ∧
  (∀ die : Fin 4, (s.vds.map fun p => p.2.ctrsN[die]).sum + num b (0x30 + 2 * die.val) 2 ≤ 16384) ∧
  1 ≤ num b (0x20 + 4 * ((maskClusters b 0x10).headD 0 / 32)) 4 ∧ num b 0x3C 4 = 0 ∧ num b 0x40 8 % 64 = 0 ∧
  1 ≤ num b 0x48 4 ∧ num b 0x48 4 ≤ 65536 ∧ num b 0x50 1 ≤ 3 ∧ num b 0x51 7 = 0

/-- The commands whose LENGTH is fixed, and it (04 R53, R77-R81; 06 Table 6-6; 04 Table 4-8). -/
def Sys2Proof.Claims.fixedLength : List (Nat × Nat × (Fin 2 → Instr)) :=
  [(1, 0x58, .vdCreate), (2, 9, .vdDestroy), (3, 9, .vdPause), (4, 9, .vdResume), (5, 9, .vdReset), (0x30, 0x28, .handleMake)]

/-- The VD that byte 8 of a request names. -/
def Sys2Proof.Claims.Named (s : State) (link : Fin 2) (v : Nat) (d : Vd) : Prop := num (s.pkg.boxes[link]).buf 8 1 = v ∧ s.vd? v = some d

/-- 04 R52, R53, R59, R65, R76-R81: VD_CREATE gives the VD its clusters scrubbed, its frames owned and zero, and its fields; on an idle VD
VD_PAUSE gives state paused with every accumulator spilled, VD_RESET the next generation with nothing of the old one, VD_DESTROY
frees all it had, once it has left its windows one after another (R81, R75), VD_MIGRATE gives its clusters exchanged, and VD_RESUME lets a
paused one run; a request of another LENGTH completes with STATUS 02h and one that names no VD with 03h, nothing else changed. -/
def Obligations.LifecycleRequestsRun : Prop :=
  (∀ (s : State) (link : Fin 2) (x : Nat × Nat × (Fin 2 → Instr)), x ∈ fixedLength → RequestStands s link x.1 →
    requestLength s link ≠ x.2.1 → ∃ t, exec (x.2.2 link) s = .next t ∧ Completed t link 2 ∧ t.vds = s.vds ∧ t.mem = s.mem ∧ t.c = s.c) ∧
  (∀ (s : State) (link : Fin 2) (x : Nat × Nat × (Fin 2 → Instr)), x ∈ fixedLength → 2 ≤ x.1 → x.1 ≤ 5 → RequestStands s link x.1 →
    requestLength s link = x.2.1 → s.vd? (num (s.pkg.boxes[link]).buf 8 1) = none →
    ∃ t, exec (x.2.2 link) s = .next t ∧ Completed t link 3 ∧ t.vds = s.vds ∧ t.mem = s.mem ∧ t.c = s.c) ∧
  (∀ (s : State) (link : Fin 2), RequestStands s link 1 → requestLength s link = 0x58 → CreateOk s (s.pkg.boxes[link]).buf →
    let b := (s.pkg.boxes[link]).buf
    ∃ t d, exec (.vdCreate link) s = .next t ∧ Completed t link 0 ∧ t.vd? (num b 8 1) = some d ∧ d.state = .running ∧ d.gen = 0 ∧
      d.maxprio = num b 9 1 ∧ d.weight = num b 0xA 1 ∧ d.link.val = num b 0xC 2 / 32768 ∧ d.vf.val = num b 0xC 2 % 64 ∧
      d.clusters = maskClusters b 0x10 ∧ d.quota = num b 0x38 4 ∧ d.pedbase.toNat = num b 0x40 8 ∧ d.pedn = num b 0x48 4 ∧
      d.qosns = num b 0x4C 4 ∧ d.qosp = num b 0x50 1 ∧ d.regs = VdRegs.reset ∧
      (∀ die : Fin 4, d.ctrsN[die] = num b (0x30 + 2 * die.val) 2 ∧
        (d.slots.filter fun p => p.1.1 == die.val).length = num b (0x20 + 4 * die.val) 4) ∧
      (∀ p ∈ d.slots, lookup (p.2.1 * dieFrames + p.2.2) s.owners = none ∧ lookup (p.2.1 * dieFrames + p.2.2) t.owners = some (.vd (num b 8 1))) ∧
      Scrubbed t d.clusters (d.slots.map (·.2)) ∧ ∀ u, u ≠ num b 8 1 → t.vd? u = s.vd? u) ∧
  (∀ (s : State) (link : Fin 2) (v : Nat) (d : Vd), Named s link v d → VdIdle s d →
    (RequestStands s link 3 → requestLength s link = 9 → d.state = .running →
      ∃ t d', exec (.vdPause link) s = .next t ∧ Completed t link 0 ∧ t.vd? v = some d' ∧ d'.state = .paused ∧ d'.life = none ∧
        d'.gen = d.gen ∧ (∀ k ∈ d.cores, (t.coreAt k).csr.accdirty = 0 ∧ (t.coreAt k).csr.accown.getLsbD 58 = false) ∧
        ((∀ k ∈ d.cores, (s.coreAt k).csr.accdirty = 0) → d.pend.length < 256 → Posted d' 6 1 [] ∧ t.mem = s.mem)) ∧
    (RequestStands s link 4 → requestLength s link = 9 → d.state = .paused →
      ∃ t d', exec (.vdResume link) s = .next t ∧ Completed t link 0 ∧ t.vd? v = some d' ∧ d'.state = .running ∧ d'.hold = [] ∧
        d'.gen = d.gen ∧ (d.hold = [] → d.ovf = [] → d.pend.length < 256 → Posted d' 6 2 [] ∧ t.mem = s.mem)) ∧
    (RequestStands s link 5 → requestLength s link = 9 → d.state = .running ∨ d.state = .paused →
      ∃ t d', exec (.vdReset link) s = .next t ∧ Completed t link 0 ∧ t.vd? v = some d' ∧ d'.state = .running ∧ d'.gen = d.gen + 1 ∧
        d'.life = none ∧ d'.handles = [] ∧ d'.codes = [] ∧ d'.ctrs = [] ∧ d'.ready = [] ∧ d'.ovf = [] ∧ d'.cursors = [] ∧ d'.hold = [] ∧
        d'.regs.en = false ∧ d'.meas2 = d.meas2c ∧ d'.measured = 0 ∧ d'.clusters = d.clusters ∧ d'.slots = d.slots ∧
        Posted d' 6 4 [] ∧ Scrubbed t d.clusters (d.slots.map (·.2))) ∧
    (RequestStands s link 2 → requestLength s link = 9 → d.state ≠ .migrating →
      ((∀ p ∈ s.wins, v ∉ p.2.holders) → ∃ t, exec (.vdDestroy link) s = .next t ∧ Completed t link 0 ∧ t.vd? v = none ∧
        (∀ p ∈ t.owners, p.2 ≠ .vd v) ∧ Scrubbed t d.clusters (d.slots.map (·.2)) ∧ ∀ u, u ≠ v → t.vd? u = s.vd? u) ∧
      ((∃ p ∈ s.wins, v ∈ p.2.holders) → ∃ t d', exec (.vdDestroy link) s = .next t ∧ t.vd? v = some d' ∧ d'.life = some (.leaving link) ∧
        d'.gen = d.gen + 1 ∧ d'.handles = [] ∧ d'.codes = [])) ∧
    (RequestStands s link 6 →
      let b := (s.pkg.boxes[link]).buf
      requestLength s link = 0x28 + 8 * num b 0x20 4 → d.state = .running ∨ d.state = .paused → num b 9 7 = 0 → num b 0x24 4 = 0 →
      num b 0x20 4 ≤ 240 → s.migrateOk v d b = true →
      ∃ t d', exec (.vdMigrate link) s = .next t ∧ Completed t link 0 ∧ t.vd? v = some d' ∧ d'.clusters = maskClusters b 0x10 ∧
        d'.state = d.state ∧ d'.gen = d.gen ∧ d'.life = none)) ∧
  (∀ (s : State) (link : Fin 2) (v : Nat) (d : Vd), s.inputs = [] → s.late = [] → s.vds = [(v, d)] → d.life = some (.leaving link) →
    s.winOp = none → (∀ p ∈ s.wins, v ∉ p.2.holders) → ∃ t, step s = .next t ∧ Completed t link 0 ∧ t.vd? v = none ∧ t.wins = s.wins)

/-- A digest, a nonce or another number as its bytes, the lowest first. -/
def Sys2Proof.Claims.bytesLe (n x : Nat) : List Byte := (List.range n).map (leByte x)

/-- 03 R51: a report: nonce, VDID and generation, the three measurements, the count of code objects, and the signature of all of it. -/
def Sys2Proof.Claims.report (v : Nat) (d : Vd) (nonce : List Byte) : List Byte :=
  let m := nonce ++ bytesLe 1 v ++ bytesLe 2 d.gen.toNat ++ bytesLe 48 Config.meas0.toNat ++ bytesLe 48 Config.meas1.toNat
    ++ bytesLe 48 d.meas2.toNat ++ bytesLe 4 d.measured
  m ++ bytesLe 96 (Config.ecdsaSign (sha384 m)).toNat

/-- A VD that may be named in a request for code or windows: it is not being moved or reset (04 R72, R76). -/
def Sys2Proof.Claims.Standing (s : State) (v : Nat) (d : Vd) : Prop := s.vd? v = some d ∧ d.state ≠ .migrating ∧ d.state ≠ .resetting

/-- 06 Table 6-6, R122; 19 R342: what a HANDLE_MAKE request of a VD must hold: pages of its own HBM, of the host, or of a peer. -/
def Sys2Proof.Claims.HandleOk (s : State) (link : Fin 2) (v : Nat) (d : Vd) (b : List Byte) : Prop :=
  num b 8 1 ≤ 2 ∧ num b 9 1 < 8 ∧ num b 0xA 2 = 0 ∧ num b 0x25 3 = 0 ∧ 1 ≤ num b 0xC 4 ∧ num b 0xC 4 ≤ 65536 ∧
  num b 0x18 8 % 8 = 0 ∧ ((num b 9 1).testBit 2 = true → num b 8 1 = 1 ∧ link = d.link) ∧
  (num b 0x20 4 = 0 ∨ lookup (num b 0x20 4) d.handles = none) ∧
  (num b 8 1 ≠ 2 → num b 0x10 8 % 65536 = 0) ∧
  (num b 8 1 = 0 → hbmBase ≤ num b 0x10 8 ∧ num b 0x10 8 + 65536 * num b 0xC 4 ≤ hbmTop ∧
    ∀ i, i < num b 0xC 4 → ∃ x, s.xlate v d false [] (num b 0x10 8 + 65536 * i) .rd = .ok x) ∧
  (num b 8 1 = 1 → ∀ i, i < num b 0xC 4 → Config.hostRangeAssigned link.val d.vf.val (num b 0x10 8 + 65536 * i) = true) ∧
  (num b 8 1 = 2 → num b 0x10 8 < 2 ^ 48)

/-- 04 R71-R75: windows are created with frames that were free and are zero and a new key, change their holders under a new key, and are
freed, when their holders are idle. 03 R45, 06 R122: CODE_PLACE loads an object that passes its checks under a handle that is not 0 and no
object of the VD has, compares it with the one the driver has rewritten where it must be, and refuses one that fails with STATUS 03h, the
failed check and the bundle it names; CODE_UNLOAD refuses an object that something names; HANDLE_MAKE makes a
handle. 03 R50, R51: reports over DOE and ATTEST. TELEMETRY answers. The model's choice are what an event row of a request without a layout
holds (log entry 40), what becomes of the page tables and of MEAS2 (log entries 57, 73), and where a refusal stands in MBBUF (log entry
72). -/
def Obligations.WindowsCodeHandlesAndReportsAreServed : Prop :=
  (∀ (s : State) (link : Fin 2), RequestStands s link 0x20 → requestLength s link = 0x28 →
    let b := (s.pkg.boxes[link]).buf
    let w := num b 9 1
    let new : List (Nat × Nat) := if num b 0xB 1 = 0xFF then [(num b 0xA 1, num b 0x18 8)]
      else [(num b 0xA 1, num b 0x18 8), (num b 0xB 1, num b 0x20 8)]
    let n := num b 0x10 4
    let die := num b 0xC 1
    (num b 8 1 = 0 → w < 128 → lookup w s.wins = none → 1 ≤ n → n ≤ 8192 → die < 4 → num b 0xD 3 = 0 → num b 0x14 4 = 0 →
      s.holdersOk [] new n = true → s.degraded die = false →
      (∃ f, f + n ≤ dieFrames ∧ ∀ i, i < n → lookup (die * dieFrames + (f + i)) s.owners = none) →
      ∃ t x, exec (.winCreate link) s = .next t ∧ Completed t link 0 ∧ lookup w t.wins = some x ∧ x.holders = new.map (·.1) ∧ x.n = n ∧
        x.die.val = die ∧ x.first + n ≤ dieFrames ∧
        (∀ i, i < n → lookup (die * dieFrames + (x.first + i)) s.owners = none ∧
          lookup (die * dieFrames + (x.first + i)) t.owners = some (.win w) ∧ ReadsZero t (frameBase die (x.first + i)) frameSize) ∧
        ∀ p ∈ new, ∃ d', t.vd? p.1 = some d' ∧ ⟨p.2, n * frameSize, w⟩ ∈ d'.winmap) ∧
    (∀ x, lookup w s.wins = some x → (∀ v ∈ x.holders, ∃ d, Standing s v d ∧ VdIdle s d) →
      (num b 8 1 = 1 → num b 0xC 12 = 0 → (∀ p ∈ new, ∃ d, Standing s p.1 d ∧ VdIdle s d) → s.holdersOk x.holders new x.n = true →
        ∃ t y, exec (.winRekey link) s = .next t ∧ Completed t link 0 ∧ lookup w t.wins = some y ∧
          y = { x with holders := new.map (·.1), keyGen := x.keyGen + 1 } ∧ t.mem = s.mem ∧
          ∀ v ∈ x.holders ++ new.map (·.1), ∀ d, s.vd? v = some d → d.pend.length < 256 → ∃ d', t.vd? v = some d' ∧ Posted d' 6 5 []) ∧
      (num b 8 1 = 2 → num b 0xA 30 = 0 →
        ∃ t, exec (.winFree link) s = .next t ∧ Completed t link 0 ∧ lookup w t.wins = none ∧
          ∀ i, i < x.n → lookup (x.die.val * dieFrames + x.first + i) t.owners = none ∧
            ReadsZero t (frameBase x.die.val (x.first + i)) frameSize))) ∧
  (∀ (s : State) (link : Fin 2) (v : Nat) (d : Vd) (va : Word) (obj : List Byte) (driver : Option (List Byte)), RequestStands s link 0x10 →
    Standing s v d →
    (∀ e, loaderCheck d obj driver = .error e → ∃ t, exec (.codePlace link v va ⟨obj, driver⟩) s = .next t ∧ Completed t link 3 ∧
      t.vds = s.vds ∧ t.mem = s.mem ∧ (e.code < 2 ^ 32 → num (t.pkg.boxes[link]).buf 8 4 = e.code) ∧
      ∀ k, e.bundle = some k → k < 2 ^ 32 → num (t.pkg.boxes[link]).buf 0xC 4 = k) ∧
    (∀ q bs, loaderCheck d obj driver = .ok (q, bs) → s.pagesMapped v d va.toNat bs.length = true → d.codes.length < 2 ^ 32 - 1 →
      ∃ (t : State) (d' : Vd) (o : CodeObj), exec (.codePlace link v va ⟨obj, driver⟩) s = .next t ∧ Completed t link 0 ∧ t.vd? v = some d' ∧
        d'.codes = d.codes ++ [o] ∧ o.handle ≠ 0 ∧ (∀ x ∈ d.codes, x.handle ≠ o.handle) ∧ o.va = va.toNat ∧
        o.nbund = num q 8 4 ∧ num (t.pkg.boxes[link]).buf 8 4 = o.handle.toNat ∧
        (q = obj → d'.measured = d.measured + 1 ∧
          d'.meas2 = sha384 (bytesLe 48 d.meas2.toNat ++ bytesLe 48 (objHash obj).toNat)) ∧
        (q ≠ obj → d'.measured = d.measured + 2 ∧
          d'.meas2 = sha384 (bytesLe 48 (sha384 (bytesLe 48 d.meas2.toNat ++ bytesLe 48 (objHash obj).toNat)).toNat
            ++ bytesLe 48 (objHash q).toNat)))) ∧
  (∀ (s : State) (link : Fin 2) (v : Nat) (d : Vd) (h : BitVec 32), RequestStands s link 0x11 → s.vd? v = some d →
    ((∃ o ∈ d.codes, o.handle = h) → s.codeNamed v d h = false →
      ∃ t d', exec (.codeUnload link v h) s = .next t ∧ Completed t link 0 ∧ t.vd? v = some d' ∧
        ∀ o, o ∈ d'.codes ↔ o ∈ d.codes ∧ o.handle ≠ h) ∧
    (s.codeNamed v d h = true → ∃ t, exec (.codeUnload link v h) s = .next t ∧ Completed t link 3 ∧ t.vds = s.vds)) ∧
  (∀ (s : State) (link : Fin 2) (d : Vd),
    let b := (s.pkg.boxes[link]).buf
    let v := num b 0x24 1
    RequestStands s link 0x30 → requestLength s link = 0x28 → s.vd? v = some d → HandleOk s link v d b →
    ∃ (t : State) (d' : Vd) (id : Nat) (h : Handle), exec (.handleMake link) s = .next t ∧ Completed t link 0 ∧ t.vd? v = some d' ∧
      d' = { d with handles := put id h d.handles } ∧ id ≠ 0 ∧ lookup id d.handles = none ∧ (num b 0x20 4 ≠ 0 → id = num b 0x20 4) ∧
      (id < 2 ^ 32 → num (t.pkg.boxes[link]).buf 8 4 = id) ∧ h.kind = (if num b 8 1 = 0 then .device else if num b 8 1 = 1 then .host else .peer) ∧
      h.rd = (num b 9 1).testBit 0 ∧ h.wr = (num b 9 1).testBit 1 ∧ h.htso = (num b 9 1).testBit 2 ∧ h.npage = num b 0xC 4 ∧
      h.target.toNat = num b 0x10 8 ∧ h.pbmp.toNat = num b 0x18 8 ∧ h.link = link ∧
      (num b 8 1 = 0 → ∀ i x, i < num b 0xC 4 → s.xlate v d false [] (num b 0x10 8 + 65536 * i) .rd = .ok x →
        h.pages[i]? = some (x.pa, x.win))) ∧
  (∀ (s : State) (link : Fin 2) (v : Nat) (d : Vd) (nonce : List Byte), s.vd? v = some d → nonce.length = 32 →
    (RequestStands s link 0x40 → ∃ t, exec (.attest link v nonce) s = .next t ∧ Completed t link 0 ∧ t.vds = s.vds ∧
      ∀ j, j < 279 → (t.pkg.boxes[link]).buf.getD (8 + j) 0 = (report v d nonce).getD j 0) ∧
    (s.pkg.bring.ready = true →
      (exec (.doeAttestation (.pf link) v nonce false) s = .next { s with outbox := s.outbox ++ [.doe (.pf link) (report v d nonce)] }) ∧
      (∀ n, exec (.doeAttestation (.vf link n) v nonce false) s = .next { s with outbox := s.outbox ++
        [.doe (.vf link n) (if s.vdOfVf link n = some v then report v d nonce else [])] }) ∧
      ∀ fn, exec (.doeAttestation fn v nonce true) s = .next { s with outbox := s.outbox ++ [.doe fn Config.certChain] })) ∧
  (∀ (s : State) (link : Fin 2), RequestStands s link 0x50 → ∃ t, exec (.telemetry link) s = .next t ∧ Completed t link 0 ∧
    t.vds = s.vds ∧ t.mem = s.mem)

/-- The 32 bytes of an event record (03 Table 3-10): class, code, generation, sequence number with PHASE in bit 31, time, payload. -/
def Sys2Proof.Claims.eventRecord (e : Event) (phase : Bool) : List Byte :=
  bytesLe 1 e.cls.toNat ++ bytesLe 1 e.code.toNat ++ bytesLe 2 e.gen.toNat ++ bytesLe 4 (e.seq.toNat + (if phase then 2 ^ 31 else 0))
    ++ bytesLe 8 e.time.toNat ++ (List.range 16).map fun j => e.payload.getD j 0

/-- 03 R46, R47: an event waits at the end of the pending queue with the next sequence number, and where the queue holds 256 and the area takes
none it is counted in LOST; the
oldest is delivered where the area can take it: its record is written there, HEAD moves, and the message of its class's vector is owed, once
only where that vector is masked (log entry 12); one of an older generation is discarded and counted in STALE; that LOST and STALE wrap is the
model's choice (log entry 79); the oldest message of a class
whose vector is not masked is sent with its table entry, and is owed no longer. -/
def Obligations.EventsReachTheHost : Prop :=
  (∀ (s : State) (v : Nat) (d : Vd) (cls code : BitVec 8) (payload : List Byte), s.vd? v = some d → cls.toNat < 8 → payload.length ≤ 16 →
    d.regs.en = false →
    (d.pend.length < 256 → d.due7 = false → ∃ (t : State) (d' : Vd) (e : Event), exec (.eventPost v cls code payload) s = .next t ∧
      t.vd? v = some d' ∧ d' = { d with pend := d.pend ++ [e], seq := d.seq + 1 } ∧ e.cls = cls ∧ e.code = code ∧ e.gen = d.gen ∧
      e.seq = d.seq ∧ e.payload.take payload.length = payload ∧ t.mem = s.mem ∧ t.ext = s.ext ∧ t.c = s.c) ∧
    (256 ≤ d.pend.length → ∃ t d', exec (.eventPost v cls code payload) s = .next t ∧ t.vd? v = some d' ∧ d'.pend = d.pend ∧
      d'.regs.lost = d.regs.lost + 1 ∧ d'.seq = d.seq + 1)) ∧
  (∀ (s : State) (v : Nat) (d : Vd) (e : Event) (rest : List Event) (h : Handle) (o : Nat), s.vd? v = some d →
    d.state = .running ∨ d.state = .resetting → d.pend = e :: rest →
    s.areaSlot v d = some (h, o) → d.due7 = false →
    (e.gen ≠ d.gen → ∃ t, exec (.eventPendingDelivery v) s = .next t ∧
      t.vd? v = some { d with pend := rest, regs := { d.regs with stale := d.regs.stale + 1 } } ∧ t.mem = s.mem ∧ t.ext = s.ext) ∧
    (e.gen = d.gen → e.cls.toNat < 8 →
      let told : Vd := { d with
        pend := rest
        regs := { d.regs with head := d.regs.head + 1 }
        msgs :=
          let m := (Fin.ofNat 8 e.cls.toNat, d.regs.vec[Fin.ofNat 8 e.cls.toNat])
          if (d.msixAtEntry m.2.toNat).ctl[0] = true ∧ (∃ c, (c, m.2) ∈ d.msgs) then d.msgs else d.msgs ++ [m] }
      let rec' := eventRecord e (d.regs.head.toNat / 2 ^ d.regs.log2n % 2 = 0)
      (h.kind = .host → s.ext.wf = true → h.target.toNat + o + 32 ≤ 2 ^ 64 →
        ∃ t, exec (.eventPendingDelivery v) s = .next t ∧ t.vd? v = some told ∧ t.mem = s.mem ∧
          ∀ a, t.ext.get a = if hostKey h.link.val (h.target.toNat + o) ≤ a ∧ a < hostKey h.link.val (h.target.toNat + o) + 32
            then rec'.getD (a - hostKey h.link.val (h.target.toNat + o)) 0 else s.ext.get a) ∧
      (∀ pa w, h.kind = .device → h.phys o = some (pa, w) → o % 64 + 32 ≤ 64 → s.mem.wf = true → pa % 64 + 32 ≤ 64 → StorableByte s pa →
        ∃ t, exec (.eventPendingDelivery v) s = .next t ∧ t.vd? v = some told ∧ t.ext = s.ext ∧
          ∀ a, t.mem.get a = if pa ≤ a ∧ a < pa + 32 then rec'.getD (a - pa) 0 else s.mem.get a))) ∧
  (∀ (s : State) (v : Nat) (d : Vd) (cls : Fin 8), s.vd? v = some d → d.state = .running ∨ d.state = .resetting →
    ∀ (before after : List (Fin 8 × BitVec 6)) (vec : BitVec 6), d.msgs = before ++ (cls, vec) :: after →
    (∀ m ∈ before, m.1 = cls → (d.msixAtEntry m.2.toNat).ctl[0] = true) →
    let k := vec.toNat
    (d.msixAtEntry k).ctl[0] = false →
    ∃ t d', exec (.msixSend v cls) s = .next t ∧ t.outbox = s.outbox ++ [.msix (.vf d.link d.vf) k (d.msixAtEntry k).addr (d.msixAtEntry k).data] ∧
      t.vd? v = some d' ∧ d'.msgs = before ++ after ∧
      (∀ at0, d.msixAt = some at0 → at0 + d.regs.modus.toNat * 1000 ≤ t.pkg.timeNs) ∧ d'.pend = d.pend ∧ d'.regs = d.regs)

/-! ## The Memory Protection Engine and the Shepherd -/

/-- A VD is the only one, and its only ready entry may go to core k of its die: the die's clocks run, no class or window holds it back, no
accumulators are reserved, and k is the core it last ran on, or the first idle one where it ran on none (05 R93, R98; 09 R198; 02 R27). -/
def Sys2Proof.Claims.OnlyEntry (s : State) (die : Fin 4) (v k : Nat) (d : Vd) (r : Ready) : Prop :=
  s.vds = [(v, d)] ∧ d.state = .running ∧ d.life = none ∧ (s.pkg.heat[die]).level ≠ 3 ∧ s.winOp = none ∧ d.ready = [r] ∧ d.ovf = [] ∧
  d.cursors = [] ∧ r.die = die ∧ r.cont.cls ≤ 3 ∧ r.cont.launch = false ∧ (∀ j ∈ d.cores, (s.coreAt j).csr.accown.getLsbD 58 = false) ∧
  (r.cont.shepLast = none ∧ (s.idleCores d die.val).head? = some k ∨ r.cont.shepLast = some k ∧ k ∈ s.idleCores d die.val)

/-- The task that a VD's only ready entry starts, fresh, on a core of its die (05 R83, R93; 09 R194). -/
def Sys2Proof.Claims.StartsFresh (s t : State) (v k : Nat) (d : Vd) (r : Ready) : Prop :=
  ∃ x : Task, (t.coreAt k).task = some x ∧ x.cont = r.cont ∧ x.vd = v ∧ x.gen = d.gen ∧ (t.coreAt k).pc = r.cont.pc.toNat ∧
    (t.coreAt k).code = r.cont.code ∧ (t.coreAt k).csr.mode = false ∧ (t.coreAt k).csr.slend = false ∧
    (t.coreAt k).owed = [] ∧ (t.coreAt k).lease = .none ∧
    (t.coreAt k).readS 1 = r.cont.wid ∧ (t.coreAt k).readS 2 = r.cont.frame ∧ (t.coreAt k).readS 3 = r.cont.arg ∧
    (∀ j : Fin 4, (t.coreAt k).regs.n[j] = 0xFFFFFFFFFFFFFFFF) ∧ (t.coreAt k).regs.ac = (s.coreAt k).regs.ac

/-- The registers that a frame gives back as they are (Tables 9-3, 7-2, 11-6, 13-2, 13-3): reserved bits zero, numbers within their fields. -/
def Sys2Proof.Claims.FitsFrame (r : Regs) : Prop :=
  (∀ j : FrReg, (r.fr[j]).lo.extractLsb' 0 6 = 0 ∧ (r.fr[j]).hi.extractLsb' 2 4 = 0) ∧
  (∀ j : AgReg, (r.ag[j]).extractLsb' 69 3 = 0 ∧ (r.ag[j]).extractLsb' 74 6 = 0) ∧
  (∀ j : CbReg, let b := r.cb[j]; b.slotsz < 2 ^ 32 ∧ b.nslot < 2 ^ 16 ∧ b.free < 2 ^ 16 ∧ b.filled < 2 ^ 16 ∧ b.pidx < 2 ^ 16 ∧
    b.cidx < 2 ^ 16 ∧ b.pheld < 2 ^ 16 ∧ b.cheld < 2 ^ 16 ∧ b.done = []) ∧
  r.loops.levels.length ≤ 4 ∧ (∀ l ∈ r.loops.levels, l.start < 2 ^ 22 ∧ l.lenM1 < 2 ^ 10 ∧ l.count < 2 ^ 32) ∧
  (∀ j : Fin 16, (r.q[j]).length ≤ 4) ∧ r.stq.length ≤ 64

/-- 09 R191: a restore under a live-state mask: what the mask names is as it was saved, N0-N3 always, every other register scrubbed; no latch is
valid; accumulators, their tags and barriers are the core's own. -/
def Sys2Proof.Claims.RestoredRegs (mask : Word) (r old new : Regs) : Prop :=
  let live (k : Nat) : Prop := mask.getLsbD k = true
  let z := Regs.scrubbed
  (∀ j : SReg, j ≠ 0 → new.s[j] = if live (j.val - 1) then r.s[j] else 0) ∧
  (∀ j : FReg, j ≠ 0 → new.f[j] = (decide (live 31) && r.f[j])) ∧ (∀ j : FReg, new.fbind[j] = none) ∧
  new.m = (if live 31 then r.m else z.m) ∧ new.n = r.n ∧ new.loops = (if live 59 then r.loops else LoopState.none) ∧
  (∀ j : BReg, new.b[j] = if live (48 + j.val) then r.b[j] else Binding.none) ∧ new.fr = (if live 56 then r.fr else z.fr) ∧
  new.ag = (if live 57 then r.ag else z.ag) ∧ new.cb = (if live 58 then r.cb else z.cb) ∧
  (∀ j : Fin 16, (new.q[j]).map (·.data) = if live (32 + j.val) then (r.q[j]).map (·.data) else []) ∧
  new.stq = (if live 60 then r.stq else []) ∧ new.lost = (if live 60 then r.lost else 0) ∧ (∀ j : Fin 4, new.l[j] = none) ∧
  new.ac = old.ac ∧ new.tag = old.tag ∧ new.bars = old.bars

/-- The task that a VD's only ready entry resumes on core k of its die: its record, as its frame holds it, its pc and its registers (05 R84; 09
R191). -/
def Sys2Proof.Claims.Resumes (s t : State) (v k : Nat) (d : Vd) (rec : Cont) (mask : Word) (r : Regs) (status : Nat) : Prop :=
  ∃ x : Task, (t.coreAt k).task = some x ∧ x.cont = rec ∧ x.vd = v ∧ x.gen = d.gen ∧ (t.coreAt k).pc = rec.pc.toNat ∧
    (t.coreAt k).code = rec.code ∧ (t.coreAt k).csr.mode = false ∧ (t.coreAt k).csr.slend = false ∧
    (t.coreAt k).csr.ipTimer = status.testBit 8 ∧ (t.coreAt k).csr.ipIpi = status.testBit 9 ∧
    (t.coreAt k).owed = [] ∧ (t.coreAt k).shadow = [] ∧ (t.coreAt k).lease = .none ∧ (t.coreAt k).again = [] ∧
    RestoredRegs mask r (s.coreAt k).regs (t.coreAt k).regs

/-- The bits of a WID that the fields before and with one take (05 R85). -/
def Sys2Proof.Claims.widthsUpTo (fw : List Nat) (i : Nat) : Nat := (fw.take (i + 1)).sum

/-- 05 R85: the WID of a tile: each field's value at its place from the top. -/
def Sys2Proof.Claims.widSum (fw w : List Nat) : Nat := ((List.range fw.length).map fun i => w.getD i 0 * 2 ^ (64 - widthsUpTo fw i)).sum

/-- 05 R85: the fields of a tile index, the last one counting fastest. -/
def Sys2Proof.Claims.fieldsOf : List Nat → Nat → List Nat
  | [], _ => []
  | e :: r, t => (t / r.prod % e) :: fieldsOf r t

/-- 04 R63, R69, R70: a read of the MPE without a failure changes no memory; a data block whose check fails is poisoned, and every VD of its
domain is told with class 2, root firmware too; a write within a block stores its bytes. 05 R85: the next tile of a launch takes its
fields from its index. R93: a die's Shepherd gives the only continuation that waits
to the core it last ran on, where that is idle, else to the first idle core of its VD; a fresh one starts there, and a suspended one goes on
with the record and the registers that its frame holds (09 R191). R102: the
queue-latency window ends with no sample, and posts class 5 exactly where enough samples have a percentile above the bound. Which accesses
of the MPE are reported, and as which kind, is the model's choice where the spec names none (log entries 48, 86). -/
def Obligations.MemoryProtectionAndShepherdSteps : Prop :=
  (∀ (s : State) (blk : Nat),
    (∃ t, exec (.mpeRead blk none) s = .next t ∧ t.mem = s.mem ∧ t.poison = s.poison ∧ t.c = s.c ∧ t.vds = s.vds) ∧
    ∀ v d die f off, physArea (blk * 64) = .hbmData die f off → s.degraded die = false → lookup (die * dieFrames + f) s.owners = some (.vd v) →
      s.vd? v = some d → s.poisoned (blk * 64) = false → countAt blk s.mpe.minor ≠ 0 → d.pend.length < 256 →
      ∃ t d', exec (.mpeRead blk (some .data)) s = .next t ∧ t.poisoned (blk * 64) = true ∧
        (∀ b, b ≠ blk → t.poison.contains b = s.poison.contains b) ∧ t.mem = s.mem ∧ t.vd? v = some d' ∧ Posted d' 2 0x17 [] ∧
        .rootNotice 0x17 (blk * 64) ∈ t.outbox) ∧
  (∀ (s : State) (a : Nat) (bs : List Byte), s.mem.wf = true → 0 < bs.length → a % 64 + bs.length ≤ 64 → StorableByte s a →
    (∀ die f off, physArea a = .hbmData die f off → (lookup (die * dieFrames + f) s.owners).isSome = true) →
    ∃ t, exec (.mpeWrite a bs) s = .next t ∧
      (∀ x, t.mem.get x = if a ≤ x ∧ x < a + bs.length then bs.getD (x - a) 0 else s.mem.get x) ∧
      t.poison.contains (a / 64) = false ∧ t.c = s.c ∧ t.vds = s.vds) ∧
  (∀ (s : State) (v : Nat) (d : Vd) (c : Cursor), s.vd? v = some d → d.state = .running →
    s.stopped d.homeDie = false → d.ready.length < d.quota → d.ovf = [] →
    d.cursors = [c] → c.next < c.total → c.ext.length = c.fw.length →
    ∃ (t : State) (d' : Vd) (r : Ready) (c' : Cursor), exec (.tileGenerate v c.id) s = .next t ∧ t.vd? v = some d' ∧ t.mem = s.mem ∧
      d'.ready = d.ready ++ [r] ∧ r.tile = some (c.id, c.next) ∧ r.cont.code = c.code ∧ r.cont.pc = c.entry ∧
      r.cont.wid = BitVec.ofNat 64 (widSum c.fw (fieldsOf c.ext c.next)) ∧
      r.cont.frame = c.frame + BitVec.ofNat 64 (c.next * c.stride) ∧ r.cont.dctr = c.donectr ∧ r.cont.live = 0xFFFF ∧ r.cont.prio = c.prio ∧
      r.cont.flags = 4 ∧ r.cont.arg = c.hdr ∧ d'.cursors = [c'] ∧ c'.next = c.next + 1 ∧ c'.id = c.id ∧ c'.total = c.total ∧
      (d.clusters ≠ [] → (∀ m ∈ d.clusters, m < 128) → d.onDie r.die.val = true)) ∧
  (∀ (s : State) (die : Fin 4) (v k : Nat) (d : Vd) (r : Ready) (o : CodeObj), OnlyEntry s die v k d r →
    (r.cont.live = 0xFFFF → d.code? r.cont.code = some o → (∀ n m, n + m ≤ 0x80 → s.mappedVd v (r.cont.frame.toNat + n) m = true) →
      ∃ t d', exec (.shepherdDispatch die) s = .next t ∧ StartsFresh s t v k d r ∧ t.vd? v = some d' ∧ d'.ready = [] ∧
        ∀ j, j ≠ k → (t.coreAt j).task = (s.coreAt j).task) ∧
    (∀ (base : Nat → Nat) (mask : Word) (x : Regs), r.cont.live ≠ 0xFFFF → FrameAt s v r.cont.frame base → s.mem.wf = true → s.late = [] →
      let num := frameNum s.mem.get base
      let record := Cont.ofBytes ((List.range 64).map fun j => s.mem.get (base j))
      s.recordCheck v record false = none → record.live ≠ 0xFFFF → record.frame = r.cont.frame → d.code? record.code = some o →
      num 0x40 2 = 0 → num 0x43 3 = 0 → FitsFrame x → FrameImage s.mem.get base mask x (fun j => j == 0 || x.f[j]) x.loops →
      ∃ t d', exec (.shepherdDispatch die) s = .next t ∧ t.mem = s.mem ∧ t.vd? v = some d' ∧ d'.ready = [] ∧
        Resumes s t v k d { record with vd := r.cont.vd, gen := r.cont.gen, shep := r.cont.shep } mask x (num 0x48 8) ∧
        ∀ j, j ≠ k → (t.coreAt j).task = (s.coreAt j).task)) ∧
  (∀ (s : State) (v : Nat) (d : Vd), s.vd? v = some d → d.qosns ≠ 0 → d.pend.length < 256 →
    ∃ t d', exec (.qosWindowEnd v) s = .next t ∧ t.vd? v = some d' ∧ d'.hist = [] ∧ t.mem = s.mem ∧ t.c = s.c ∧
      (d.hist = [] → d'.pend = d.pend) ∧
      ∀ k n, d.hist = [(k, n)] → k % 4 = 0 → k < 63 →
        let least := if d.qosp = 0 then 2 else if d.qosp = 1 then 10 else if d.qosp = 2 then 100 else 1000
        (least ≤ n → d.qosns < 64 * 2 ^ (k / 4) → ∃ e ∈ d'.pend, e.cls = 5 ∧
          e.payload.take 13 = bytesLe 8 (64 * 2 ^ (k / 4)) ++ bytesLe 4 n ++ bytesLe 1 d.qosp) ∧
        (n < least ∨ 64 * 2 ^ (k / 4) ≤ d.qosns → d'.pend = d.pend))

/-! ## The step -/

/-- The acting core is about to issue its next bundle: no input waits, nor a write to be applied, no lifecycle or window request goes on, it
has a task and waits for nothing, its die's clocks run, no result is due, no empty cycle and no held copy to be reissued is left, and in task mode its boundary brings no
stop, report, interrupt or slice end (06 R103, R118; 09 R188, R192; 05 R98; 02 R27). -/
def Sys2Proof.Claims.ReadyToIssue (s : State) : Prop :=
  s.inputs = [] ∧ s.late = [] ∧ s.lifeDue = none ∧ s.winDue = false ∧ s.c.task.isSome = true ∧ s.c.wait = none ∧ s.c.lateStop = false ∧
  s.c.empty = 0 ∧ s.c.again = [] ∧ (s.pkg.heat[Fin.ofNat 4 (dieOf s.cur)]).level ≠ 3 ∧
  Quiet s 0 ∧ (s.c.csr.mode = false → s.c.stop = none ∧ s.c.reports = [] ∧ s.c.csr.ipTimer = false ∧ s.c.csr.ipIpi = false ∧
    s.quantumDue s.cur = false)

/-- The live-state lists that an instruction names are there in an object (14 R329, R331). -/
def Sys2Proof.Claims.ListsThere (o : CodeObj) : Instr → Prop
  | .cwaitYield _ _ live | .tsusp _ live | .safept _ live => live.toNat < o.live.length
  | _ => True

/-- What a step makes of the outcome of a bundle. -/
def Sys2Proof.Claims.bundleEnds (o : Out) : Out :=
  match o with
  | .next t => .next t.endBundle
  | .fault r => .fault r
  | .refused r => .refused r

/-- 10 R203, R204, R220; 06 R103, R121; 07 R155: a step of a core that is about to issue fetches the 16 bytes of the bundle at its pc through
its translation, fills the instruction cache's line where none is held, and runs what they decode to: the one slot's instruction, a NOP, the
illegal slot once the slots below it are checked, or all slots; then the bundle ends. A LIVE that the object lacks is an illegal word whatever its
predicate (10 R221). A pc at or beyond NBUND is an illegal word, and a fetch that does not translate traps after the stop of its walk. An
input of the environment comes before all this, and then a write that some die has not applied: this order is the model's choice (log entries 1,
6), and so are that a fetch of poisoned memory traps UE and that the instruction cache keeps the line it read (log entry 29). -/
def Obligations.StepRunsTheDecodedInstruction : Prop :=
  (∀ (s : State) (i : Instr) (r : List Input) (t : State), s.inputs = .event i :: r → exec i { s with inputs := r } = .next t →
    Sys2Proof.Machine.step s = .next { t with iss := Issue.none }) ∧
  (∀ (s : State) (i : Instr) (r : List Input) (e : Fault), s.inputs = .event i :: r → exec i { s with inputs := r } = .fault e →
    Sys2Proof.Machine.step s = .fault e) ∧
  (∀ (s : State) (w : Late) (r : List Late), s.inputs = [] → s.late = w :: r → Sys2Proof.Machine.step s = .next (s.applyAt [w.id] 0xF)) ∧
  (∀ (s : State) (d : Vd) (o : CodeObj), ReadyToIssue s → s.vdOf s.c = some d → d.code? s.c.code = some o →
    let va := o.va + o.off + 16 * s.c.pc
    (o.nbund ≤ s.c.pc → Sys2Proof.Machine.step s = bundleEnds (exec (.illegalSlotWord 0 .opcode 0) { s with iss := Issue.none })) ∧
    let trapped (e : Trap) : State := { ({ s with iss := { Issue.none with walk := s.misses va } } : State).precise e with iss := Issue.none }
    (∀ e, s.c.pc < o.nbund → s.xlateCore va .fetch = .error e → Sys2Proof.Machine.step s = .next (trapped e)) ∧
    (∀ x, s.c.pc < o.nbund → s.xlateCore va .fetch = .ok x → s.poisoned x.pa = true →
      Sys2Proof.Machine.step s = .next (trapped ⟨cUE, 0, 0, BitVec.ofNat 64 va⟩)) ∧
    (∀ x, s.c.pc < o.nbund → s.xlateCore va .fetch = .ok x → s.poisoned x.pa = false → s.mem.wf = true →
      va % 16 = 0 → x.pa % 64 = va % 64 → s.torn = [] → (∀ l ∈ s.c.icache.lines ++ s.c.icache.stale, l.1 ≠ va / 64 * 64) →
      let line := (va / 64 * 64, s.mem.bytes (x.pa / 64 * 64) 64)
      let u : State := ({ s with iss := Issue.none } : State).afterXlate x
      let f : State := { u with c := { u.c with icache := ⟨line :: s.c.icache.lines, s.c.icache.stale⟩ } }
      let b := decodeBytes ((List.range 16).map fun j => s.mem.get (x.pa + j))
      (∀ k i, b = .slots [(k, i)] → ListsThere o i → Sys2Proof.Machine.step s = bundleEnds (exec i f)) ∧
      (∀ k i, b = .slots [(k, i)] → ¬ ListsThere o i →
        Sys2Proof.Machine.step s = bundleEnds (exec (.illegalSlotWord k .value (BitVec.ofNat 32 (wordOf i))) f)) ∧
      (b = .slots [] → Sys2Proof.Machine.step s = bundleEnds (exec .nop f)) ∧
      (∀ k why w below, b = .illegal k why w below → (∀ p ∈ below, ListsThere o p.2) → Sys2Proof.Machine.step s = bundleEnds (f.issueIllegal k why w below)) ∧
      (∀ k why w, b = .illegal k why w [] → Sys2Proof.Machine.step s = bundleEnds (exec (.illegalSlotWord k why w) f)) ∧
      (∀ is, b = .slots is → 2 ≤ is.length → (∀ p ∈ is, ListsThere o p.2) → Sys2Proof.Machine.step s = bundleEnds (f.issueMany is))))

/-! ## Encodings -/

/-- Slot words of the spec's own examples, with their slot, header and lent bits, and the instruction each stands for. -/
def Sys2Proof.Claims.specWords : List (Nat × SReg × Bool × Nat × Nat × Instr) :=
  [ (0, 0, false, 0, 0x04064283, .mulh 0 3 4 5), (0, 0, false, 0, 0x10084FFF, .addi 0 4 4 0xFFF), (0, 0, false, 0, 0x300A4408, .extz 0 5 4 16 8),
    (0, 0, false, 0, 0x34080200, .li 0 4 512), (0, 0, false, 0, 0x3C14C760, .cmp 0 5 6 7 .ltn), (0, 0, false, 0, 0x480A4802, .lds 0 5 4 .b4 false 2),
    (0, 0, false, 0, 0x580C4FA6, .ldt64 0 6 4 250 true .pkg), (0, 0, false, 0, 0x603FFFF8, .br 0 (-8)), (0, 0, false, 0, 0x6407FFFD, .brf 0 1 (-3)),
    (0, 0, false, 0, 0x78003C02, .loop 0 15 2), (0, 0, false, 0, 0x88000000, .lbrk 0), (0, 0, false, 0, 0x8C000300, .waitf 0 0xC false),
    (0, 0, false, 0, 0xB0009600, .fence 0 2 .rel .pkg), (0, 0, false, 0, 0xB4085400, .tspawnWait 0 4 5), (0, 0, false, 0, 0xC8000000, .tnext 0),
    (1, 0, false, 0, 0x04042002, .vld 0 (.q 2) 4 2), (1, 0, false, 0, 0x28100000, .cbrel 0 4),
    (2, 0, false, 0, 0x10040002, .vfma 0 ⟨false, 0⟩ (.q 2) (.q 0 false) (.q 0 false) (.q 1 false) false),
    (2, 0, false, 0, 0x88061201, .vqz 0 ⟨false, 0⟩ (.q 3) (.q 2 false) (.q 8 false) 1),
    (3, 0, false, 0, 0x28112600, .cbbind 0 2 4 true 6), (3, 0, false, 0, 0x30010600, .cbinv 0 4 6) ]

/-- The spec's own example words decode to the instructions they stand for (10 R203-R221; 11 R230-R253; 12 R265, R280; 13 R290, R310; 14 R326,
R327, R330, R332). -/
def Obligations.WordsDecodeAsTheSpecWritesThem : Prop :=
  ∀ x ∈ specWords, decodeSlot x.1 x.2.1 x.2.2.1 x.2.2.2.1 x.2.2.2.2.1 = .ok x.2.2.2.2.2

/-- Every well-formed instruction that has an encoding, with every operand at every value the encoding admits, is what the decoder reads
from its words. -/
def Obligations.DecodeOfEncodeIsTheInstruction : Prop :=
  ∀ (i : Instr) (e : Enc), i.wf = true → encode i = some e → e.word < 2 ^ 32 ∧ decodeEnc e = .ok i

/-! ## Reset and the invariant -/

/-- 01 R22, Tables 1-7, 2-2, 2-4, 3-2, 3-12: after power-on bring-up has ended no step and the management registers hold their reset values.
04 R59, R63, R65, Tables 6-3, 6-9, 6-10, 9-1: every core is scrubbed: its registers, queues, latches, accumulators and CSRs are empty or zero,
F0 alone reads 1; no VD or window exists, and every byte of memory reads zero in its canonical form. That memory beyond the package reads zero
where the environment has put nothing is the model's choice (log entry 11), and so are the values of what the spec gives no reset value (log
entry 10). -/
def Obligations.ResetHoldsItsValues : Prop :=
  let s := State.reset
  State.MemoryCanonical s ∧ (∀ a, s.mem.get a = 0) ∧ s.vds = [] ∧ s.wins = [] ∧ s.owners = [] ∧ s.poison = [] ∧ s.failed = [] ∧
  s.torn = [] ∧ s.parked = [] ∧
  s.pkg.on = true ∧ s.pkg.bring.ready = false ∧ s.pkg.bring.fail = false ∧ s.pkg.bring.hbmok = 0 ∧ s.pkg.bring.pcieup = 0 ∧
  s.pkg.mgmterr = 0 ∧ s.pkg.setpt = 2400 ∧ s.pkg.band = 50 ∧ s.pkg.en = false ∧
  (∀ die : Fin 4, (s.pkg.heat[die]).level = 0 ∧ (s.pkg.heat[die]).hard = false ∧ (s.pkg.heat[die]).tripped = false) ∧
  (∀ link : Fin 2, (s.pkg.boxes[link]).busy = false ∧ (s.pkg.boxes[link]).status = 0) ∧
  (∀ port : Fin 24, (s.pkg.ports[port]).phase = .detect) ∧
  ∀ k : Nat, (s.coreAt k).task = none ∧ (s.coreAt k).csr.mode = false ∧ (∀ r, (s.coreAt k).readS r = 0) ∧
    (∀ r : FReg, s.readFof (s.coreAt k) r = decide (r = 0)) ∧ (∀ j : Fin 16, (s.coreAt k).regs.q[j] = []) ∧
    (∀ j : Fin 4, (s.coreAt k).regs.l[j] = none ∧ (s.coreAt k).regs.m[j] = 0 ∧ (s.coreAt k).regs.n[j] = 0 ∧
      (s.coreAt k).regs.ac[j] = Vector.replicate 1024 0) ∧ (s.coreAt k).regs.loops.levels = [] ∧ (s.coreAt k).regs.stq = [] ∧
    (s.coreAt k).csr.cause = 0 ∧ (s.coreAt k).csr.epc = 0 ∧ (s.coreAt k).csr.eval = 0 ∧ (s.coreAt k).csr.timecmp = 0 ∧
    (s.coreAt k).csr.accown = 0 ∧ (s.coreAt k).csr.accdirty = 0 ∧ (s.coreAt k).csr.cycle = 0 ∧ (s.coreAt k).csr.bundles = 0 ∧
    (s.coreAt k).owed = [] ∧ (s.coreAt k).lsu = [] ∧ (s.coreAt k).chans = []

/-- Every step keeps the memories in their canonical form, so that equal memories are equal data: in every state, whatever the step does. -/
def Obligations.StepKeepsMemoryCanonical : Prop := Kept State.MemoryCanonical
end

