-- ==== Sys2Proof/Machine/BaroldText.lean ====
section
/-! DEFINITION. Barold, the assembler, first part: the lexical rules, numbers and expressions of a source line
(20_assembler_grammar.md R345, R346). Barold runs on the host's side: no step of the machine calls it. It is modelled because
the specification fixes, line by line, which words a program's text becomes. -/

namespace Sys2Proof.Machine

/-- Why Barold refuses a line. -/
inductive AsmErr where
  | character        -- not printable ASCII, a space or a tab, or more than 1,024 characters (R345)
  | token            -- no token begins here, or a malformed number (R345)
  | lineForm         -- no form of Table 20-1
  | expression       -- no expression (R346)
  | unknownLabel     -- a name that is no label of the object
  | reservedLabel    -- a reserved word as a label (R345)
  | labelTwice       -- a label defined twice in one object (R346)
  | mnemonic         -- no mnemonic
  | suffix           -- a suffix the entry does not list, twice one kind, or a required one missing (R349)
  | operand          -- an operand of another form than the entry gives (R223, R347)
  | range            -- a value that does not fit its field (R346)
  | target           -- a branch, call or loop target outside the object (R352)
  | relocation       -- a relocated immediate where none is allowed (R350)
  | illegalWord      -- an operand value the instruction's entry does not accept
  | predicateOnNop   -- (R348)
  | slotTaken        -- two statements naming one slot, or no slot left for a nop (R348)
  | headerSlot       -- a header is needed and slot 0 is claimed (R224, R348)
  | broadcast        -- two broadcast operands naming different registers (R223)
  | beforeCodeobj    -- a line before the first .codeobj (R351)
  | directive        -- no directive, or one with wrong operands (R351)
  | placement        -- a bundle or directive outside its section (R347, R351)
  | latency          -- .latency twice or after the first bundle (R351)
  | procedure        -- nested, unclosed or unopened .proc (R351)
  | overlap          -- data bytes overlap (R351)
  | live             -- a malformed or repeated .live, or an unknown list (R333)
  | noTargets        -- JR or CALLR without a target list (R351)
  | bundleCount      -- no bundles, or more than 4,194,304 (R352)
  | safePath         -- a path that fails check 04h (R352)
deriving DecidableEq, Repr

/-- The tokens of R345. -/
inductive Tok where
  | id (s : String)
  | num (n : Nat)
  | comma | colon | bar | lp | rp | lb | rb | plus | minus | bang | eq | dot
deriving DecidableEq, Repr

def isLower (c : Char) : Bool := decide (97 ≤ c.toNat ∧ c.toNat ≤ 122)
def isUpper (c : Char) : Bool := decide (65 ≤ c.toNat ∧ c.toNat ≤ 90)
def isDec (c : Char) : Bool := decide (48 ≤ c.toNat ∧ c.toNat ≤ 57)
/-- A character that begins an identifier. -/
def isIdStart (c : Char) : Bool := isLower c || isUpper c || c == '_'
/-- A character of an identifier or a number. -/
def isIdChar (c : Char) : Bool := isIdStart c || isDec c
/-- A character a source line may hold. -/
def isSourceChar (c : Char) : Bool := decide (32 ≤ c.toNat ∧ c.toNat ≤ 126) || c.toNat == 9

/-- The value of a digit of a base up to 16. -/
def digitOf (base : Nat) (c : Char) : Option Nat :=
  let v := if isDec c then c.toNat - 48 else if isLower c then c.toNat - 87 else if isUpper c then c.toNat - 55 else 99
  if v < base then some v else none

/-- The value of digits with underscores between them; `prev` says the character before was a digit. -/
def digitsVal (base : Nat) : Bool → Nat → List Char → Option Nat
  | prev, acc, [] => if prev then some acc else none
  | prev, acc, c :: r =>
    if c == '_' then (if prev then digitsVal base false acc r else none)
    else match digitOf base c with
      | some d => digitsVal base true (acc * base + d) r
      | none => none

/-- A number token: h marks hexadecimal, b binary when only 0s and 1s stand before it, else decimal (R345). -/
def numberOf (w : List Char) : Option Nat :=
  match w.getLast? with
  | some 'h' => digitsVal 16 false 0 w.dropLast
  | some 'b' => digitsVal 2 false 0 w.dropLast
  | _ => digitsVal 10 false 0 w

/-- The single-character tokens. -/
def punct (c : Char) : Option Tok :=
  if c == ',' then some .comma else if c == ':' then some .colon else if c == '(' then some .lp
  else if c == ')' then some .rp else if c == '[' then some .lb else if c == ']' then some .rb
  else if c == '+' then some .plus else if c == '-' then some .minus else if c == '!' then some .bang
  else if c == '=' then some .eq else if c == '.' then some .dot else none

/-- The tokens of a line; each step takes one token, one space or the comment. -/
def lexFrom : Nat → List Char → Except AsmErr (List Tok)
  | _, [] => .ok []
  | 0, _ :: _ => .error .token
  | n + 1, c :: r =>
    if c == ' ' || c.toNat == 9 then lexFrom n r
    else if isIdStart c then
      (lexFrom n (r.dropWhile isIdChar)).map fun l => .id (String.ofList (c :: r.takeWhile isIdChar)) :: l
    else if isDec c then
      match numberOf (c :: r.takeWhile isIdChar) with
      | some v => (lexFrom n (r.dropWhile isIdChar)).map fun l => .num v :: l
      | none => .error .token
    else match c, r with
      | '/', '/' :: _ => .ok []
      | '|', '|' :: r' => (lexFrom n r').map fun l => .bar :: l
      | _, _ => match punct c with
        | some t => (lexFrom n r).map fun l => t :: l
        | none => .error .token

/-- The tokens of one source line (R345). -/
def lexLine (cs : List Char) : Except AsmErr (List Tok) :=
  if cs.length ≤ 1024 ∧ cs.all isSourceChar then lexFrom cs.length cs else .error .character

/-- The lines of a source file. -/
def splitLines : List Char → List (List Char)
  | [] => [[]]
  | c :: r =>
    match c == '\n', splitLines r with
    | true, ls => [] :: ls
    | false, l :: ls => (c :: l) :: ls
    | false, [] => [[c]]

/-- The parts of a token list between separators. -/
def splitToks (sep : Tok) : List Tok → List (List Tok)
  | [] => [[]]
  | t :: r =>
    match t == sep, splitToks sep r with
    | true, ls => [] :: ls
    | false, l :: ls => (t :: l) :: ls
    | false, [] => [[t]]

/-! ## Names -/

/-- What follows a prefix. -/
def afterPrefix : List Char → List Char → Option (List Char)
  | [], r => some r
  | _ :: _, [] => none
  | p :: ps, c :: r => if p == c then afterPrefix ps r else none

/-- The number of a numbered register name such as s12: the prefix, then a decimal without leading zeros, below n. -/
def regNum (pre : String) (n : Nat) (s : String) : Option Nat :=
  match afterPrefix pre.toList s.toList with
  | some (c :: r) =>
    if (c :: r).all isDec && (c != '0' || r.isEmpty) then
      (digitsVal 10 false 0 (c :: r)).bind fun k => if k < n then some k else none
    else none
  | _ => none

/-- The bare type names, in the order of their codes (Table 10-5). -/
def tyNames : List String :=
  ["s32", "n32", "s16", "n16", "s8", "n8", "f32", "f16", "bf16", "e4m3", "e5m2", "mx4", "mxi8", "ix4", "ix8", "ix12"]

/-- The CSR names (Table 10-12). -/
def csrNames : List (String × Csr) :=
  [("status", .status), ("cause", .cause), ("epc", .epc), ("eval", .eval), ("evec", .evec), ("scratch", .scratch),
   ("timecmp", .timecmp), ("ipisend", .ipisend), ("tlbinv", .tlbinv), ("accown", .accown), ("accdirty", .accdirty),
   ("latprof", .latprof), ("tstat0", .tstat 0), ("tstat1", .tstat 1), ("tstat2", .tstat 2), ("tstat3", .tstat 3),
   ("ctxid", .ctxid), ("vdid", .vdid), ("coreid", .coreid), ("cycle", .cycle), ("bundles", .bundles),
   ("freezecnt", .freezecnt), ("bankstall", .bankstall), ("stqcnt", .stqcnt)]

/-- The directive names. -/
def directiveNames : List String :=
  ["codeobj", "latency", "text", "data", "proc", "endproc", "align", "word", "vec", "cbook", "safepoint", "live", "targets"]

/-- The register names of R223. -/
def registerNames : List (String × Nat) :=
  [("s", 32), ("f", 16), ("m", 4), ("q", 16), ("l", 4), ("p", 6), ("ac", 4), ("b", 8), ("n", 4)]

/-- A reserved word other than a mnemonic (R345). -/
def reservedName (s : String) : Bool :=
  ["s", "m", "v", "e", "arr", "core", "clu", "die", "mesh"].contains s || directiveNames.contains s || tyNames.contains s
  || csrNames.any (fun x => x.1 == s) || registerNames.any (fun x => (regNum x.1 x.2 s).isSome)

/-! ## Expressions -/

/-- A label: its name, whether it names a bundle, and its value (R346). -/
structure AsmLabel where
  name : String
  text : Bool
  val  : Nat
deriving DecidableEq, Repr

/-- What is read next of an expression: a whole sum, one term, or the rest of a sum after its value so far. -/
inductive ExprPart where
  | sum
  | term
  | rest (v : Word)
deriving DecidableEq, Repr

/-- Read an expression from the head of the tokens: its value modulo 2^64 and the tokens left (R346). -/
def exprFrom (ls : List AsmLabel) : Nat → ExprPart → List Tok → Except AsmErr (Word × List Tok)
  | 0, _, _ => .error .expression
  | n + 1, .sum, ts => match exprFrom ls n .term ts with
    | .ok (v, r) => exprFrom ls n (.rest v) r
    | .error e => .error e
  | n + 1, .rest v, .plus :: ts => match exprFrom ls n .term ts with
    | .ok (x, r) => exprFrom ls n (.rest (v + x)) r
    | .error e => .error e
  | n + 1, .rest v, .minus :: ts => match exprFrom ls n .term ts with
    | .ok (x, r) => exprFrom ls n (.rest (v - x)) r
    | .error e => .error e
  | _ + 1, .rest v, ts => .ok (v, ts)
  | _ + 1, .term, .num k :: ts => .ok (BitVec.ofNat 64 k, ts)
  | _ + 1, .term, .id s :: ts => match ls.find? (fun l => l.name == s) with
    | some l => .ok (BitVec.ofNat 64 l.val, ts)
    | none => .error .unknownLabel
  | n + 1, .term, .minus :: ts => match exprFrom ls n .term ts with
    | .ok (x, r) => .ok (-x, r)
    | .error e => .error e
  | n + 1, .term, .lp :: ts => match exprFrom ls n .sum ts with
    | .ok (x, .rp :: r) => .ok (x, r)
    | .ok _ => .error .expression
    | .error e => .error e
  | _ + 1, .term, _ => .error .expression

/-- The value of tokens that are one whole expression. -/
def exprVal (ls : List AsmLabel) (ts : List Tok) : Except AsmErr Word :=
  match exprFrom ls (3 * ts.length + 3) .sum ts with
  | .ok (v, []) => .ok v
  | .ok _ => .error .expression
  | .error e => .error e

/-- The value of an expression as a signed number that lies from lo to hi: the check against a field comes after the
evaluation modulo 2^64 (R346). -/
def exprIn (ls : List AsmLabel) (lo hi : Int) (ts : List Tok) : Except AsmErr Int :=
  match exprVal ls ts with
  | .ok v => if lo ≤ v.toInt ∧ v.toInt ≤ hi then .ok v.toInt else .error .range
  | .error e => .error e

end Sys2Proof.Machine
end

