-- ==== Sys2Proof/Machine/BaroldTable.lean ====
section
/-! DEFINITION. Barold, second part: the assembly form of every instruction, as its own entry gives it (chapters 11 to 14;
suffix kinds 20_assembler_grammar.md R349, operand forms 10_isa_formats_and_opcode_map.md R223). -/

namespace Sys2Proof.Machine

/-! ## Suffixes -/

/-- One kind of suffix of an entry: whether it is required, and its spellings with the codes they stand for. -/
structure SufKind where
  req  : Bool
  opts : List (String × Nat)
deriving DecidableEq, Repr

/-- Spellings with the codes 0, 1, 2 and so on. -/
def coded (l : List String) : List (String × Nat) := l.zipIdx

def kTy : SufKind := ⟨true, coded tyNames⟩
def kCond : SufKind := ⟨true, coded ["eq", "ne", "lt", "le", "gt", "ge", "ltn", "len", "gtn", "gen", "un"]⟩
def kScope : SufKind := ⟨true, coded ["core", "clu", "die", "pkg", "sys"]⟩
/-- The scope of a store, .core when none is written (11 R240, 13 R289). -/
def kScopeOpt : SufKind := ⟨false, kScope.opts⟩
def kScope2 : SufKind := ⟨true, coded ["clu", "die", "pkg", "sys"]⟩
def kOrd : SufKind := ⟨false, [("acq", 1), ("rel", 2), ("acqrel", 3)]⟩
/-- A suffix that is only written or not. -/
def kFlag (s : String) : SufKind := ⟨false, [(s, 1)]⟩
/-- A suffix that tells two forms of one mnemonic apart. -/
def kMark (s : String) : SufKind := ⟨true, [(s, 1)]⟩
def kMask : SufKind := ⟨false, coded ["m0", "m1", "m2", "m3"]⟩
/-- An integer access type, as 2 × SZ + SGN; .s64 and .n64 have SGN 0 (11 R238). -/
def kInt : SufKind :=
  ⟨true, [("n8", 0), ("s8", 1), ("n16", 2), ("s16", 3), ("n32", 4), ("s32", 5), ("n64", 6), ("s64", 6)]⟩
/-- The size of an atomic (13 R301). -/
def kSz64 : SufKind := ⟨true, [("n32", 0), ("s32", 0), ("n64", 1), ("s64", 1)]⟩
def kAmo : SufKind := ⟨true, coded ["swap", "add", "and", "or", "xor", "min", "max", "minn", "maxn"]⟩
def kRedOp : SufKind := ⟨true, coded ["add", "min", "max"]⟩
def kRedTy : SufKind := ⟨true, coded ["f32", "bf16", "s32", "s64", "n32", "n64"]⟩
def kVRed : SufKind := ⟨true, coded ["add", "min", "max", "and", "or", "xor"]⟩
def kXSrc : SufKind := ⟨true, coded ["s4", "n4", "e2m1", "e2m3", "e3m2"]⟩
def kMmd : SufKind := ⟨true, coded ["bf16", "f16", "e4m3", "e4e5", "e5e4", "e5m2", "mx4"]⟩
def kTyf : SufKind := ⟨true, [("f32", 0), ("bf16", 1)]⟩
def kF32 : SufKind := ⟨true, [("f32", 0)]⟩
def kFence : SufKind := ⟨true, coded ["acq", "rel", "full"]⟩

/-- Give one written suffix to its kind: the first kind that has the spelling; a kind takes one suffix. -/
def giveSuffix (s : String) : List (SufKind × Option Nat) → Option (List (SufKind × Option Nat))
  | [] => none
  | (k, v) :: r =>
    match k.opts.find? (fun o => o.1 == s), v with
    | some o, none => some ((k, some o.2) :: r)
    | some _, some _ => none
    | none, _ => (giveSuffix s r).map fun r' => (k, v) :: r'

/-- The codes of the written suffixes, one for each kind of the entry; none where a suffix is not of the entry, a kind stands
twice or a required kind is missing (R349). -/
def suffixCodes (ks : List SufKind) (written : List String) : Option (List (Option Nat)) :=
  match written.foldl (fun acc s => acc.bind (giveSuffix s)) (some (ks.map fun k => (k, none))) with
  | some l => if l.all (fun x => !x.1.req || x.2.isSome) then some (l.map (·.2)) else none
  | none => none

/-! ## Operands -/

/-- The operand forms of R223, with the limits the entries give. -/
inductive OpForm where
  | s | f | m | ac | b          -- a register by its name
  | q                           -- a vector destination
  | v                           -- a vector source
  | at                          -- [sk]
  | atD (unit lo hi : Int)      -- [sk+d], d a multiple of the unit, d / unit from lo to hi
  | atZ (lo hi : Int)           -- the same, the unit being the access size
  | arr (hi : Int)              -- arr=N
  | i (lo hi : Int)             -- a number
  | rel (lo hi : Int) (wid : Nat)  -- an immediate of format SI, SL or SCI: it may be relocated (R350)
  | c                           -- a counter register, or -
  | csr
  | ty                          -- a bare type name
  | live                        -- a live-state list, by name or number
  | to (back : Int) (lo hi : Int)  -- a bundle label; its index minus the bundle's own minus `back`
  | fs                          -- one or more flags, to the end of the line
deriving DecidableEq, Repr

/-- A read operand. -/
inductive OpVal where
  | n (k : Int)
  | src (x : VSrc)
  | dst (d : VDst)
  | csr (c : Csr)
deriving DecidableEq, Repr

/-- The suffix codes and operands of a statement, and the accessors the entries below use. -/
structure Opds where
  gs : List (Option Nat)
  vs : List OpVal
deriving DecidableEq, Repr

def Opds.int (o : Opds) (i : Nat) : Int := match o.vs[i]? with
  | some (.n k) => k
  | _ => 0
def Opds.nat (o : Opds) (i : Nat) : Nat := (o.int i).toNat
def Opds.s (o : Opds) (i : Nat) : SReg := Fin.ofNat 32 (o.nat i)
def Opds.f (o : Opds) (i : Nat) : FReg := Fin.ofNat 16 (o.nat i)
def Opds.m (o : Opds) (i : Nat) : MReg := Fin.ofNat 4 (o.nat i)
def Opds.ac (o : Opds) (i : Nat) : AcReg := Fin.ofNat 4 (o.nat i)
def Opds.b (o : Opds) (i : Nat) : BReg := Fin.ofNat 8 (o.nat i)
def Opds.bv (o : Opds) (w i : Nat) : BitVec w := BitVec.ofInt w (o.int i)
def Opds.q (o : Opds) (i : Nat) : VDst := match o.vs[i]? with
  | some (.dst d) => d
  | _ => .q 0
def Opds.v (o : Opds) (i : Nat) : VSrc := match o.vs[i]? with
  | some (.src x) => x
  | _ => .q 0 false
def Opds.csr (o : Opds) (i : Nat) : Csr := match o.vs[i]? with
  | some (.csr c) => c
  | _ => .status
/-- The code of suffix kind i, 0 where it is not written. -/
def Opds.g (o : Opds) (i : Nat) : Nat := ((o.gs[i]?).join).getD 0
/-- Whether suffix kind i is written. -/
def Opds.has (o : Opds) (i : Nat) : Bool := ((o.gs[i]?).join).isSome
def Opds.merge (o : Opds) (i : Nat) : Merge := ⟨o.has i, Fin.ofNat 4 (o.g i)⟩
def Opds.ty (o : Opds) (i : Nat) : VTy := VTy.ofCode (o.g i)
def Opds.cond (o : Opds) (i : Nat) : Cond := (Cond.ofCode (o.g i)).getD .eq
def Opds.scope (o : Opds) (i : Nat) : Scope := (Scope.ofCode (o.g i)).getD .core
def Opds.scope2 (o : Opds) (i : Nat) : Scope2 := Scope2.ofCode (o.g i)
def Opds.ord (o : Opds) (i : Nat) : Ord := Ord.ofCode (o.g i)
/-- The size and sign of an integer access type. -/
def Opds.sz (o : Opds) (i : Nat) : Size := Size.ofCode (o.g i / 2)
def Opds.sgn (o : Opds) (i : Nat) : Bool := o.g i % 2 == 1

/-! ## The entries -/

/-- One assembly form of a mnemonic. -/
structure AsmForm where
  name : String
  kinds : List SufKind
  ops : List OpForm
  build : FReg → Opds → Instr

/-- `mnemonic sd, sa, sb` (11 R228). -/
def asmAlu (name : String) (mk : FReg → SReg → SReg → SReg → Instr) : AsmForm :=
  ⟨name, [], [.s, .s, .s], fun p o => mk p (o.s 0) (o.s 1) (o.s 2)⟩
/-- `mnemonic sd, sa`. -/
def asmAlu2 (name : String) (mk : FReg → SReg → SReg → Instr) : AsmForm :=
  ⟨name, [], [.s, .s], fun p o => mk p (o.s 0) (o.s 1)⟩
/-- `mnemonic sd, sa, imm` of format SI (11 R230). -/
def asmImm (name : String) (mk : FReg → SReg → SReg → BitVec 12 → Instr) : AsmForm :=
  ⟨name, [], [.s, .s, .rel (-2048) 2047 12], fun p o => mk p (o.s 0) (o.s 1) (o.bv 12 2)⟩
/-- `mnemonic sd, sa, n`, a shift. -/
def asmShift (name : String) (mk : FReg → SReg → SReg → Fin 64 → Instr) : AsmForm :=
  ⟨name, [], [.s, .s, .rel 0 63 6], fun p o => mk p (o.s 0) (o.s 1) (Fin.ofNat 64 (o.nat 2))⟩
/-- A word without operands. -/
def asmBare (name : String) (mk : FReg → Instr) : AsmForm := ⟨name, [], [], fun p _ => mk p⟩
/-- `mnemonic.ty[.mk] qd, a, b`. -/
def asmVA (name : String) (mk : FReg → Merge → VDst → VSrc → VSrc → VTy → Instr) : AsmForm :=
  ⟨name, [kTy, kMask], [.q, .v, .v], fun p o => mk p (o.merge 1) (o.q 0) (o.v 1) (o.v 2) (o.ty 0)⟩
/-- `mnemonic[.mk] qd, a, b`. -/
def asmVL (name : String) (mk : FReg → Merge → VDst → VSrc → VSrc → Instr) : AsmForm :=
  ⟨name, [kMask], [.q, .v, .v], fun p o => mk p (o.merge 0) (o.q 0) (o.v 1) (o.v 2)⟩
/-- `mnemonic.ty[.mk] qd, a`. -/
def asmVU (name : String) (mk : FReg → Merge → VDst → VSrc → VTy → Instr) : AsmForm :=
  ⟨name, [kTy, kMask], [.q, .v], fun p o => mk p (o.merge 1) (o.q 0) (o.v 1) (o.ty 0)⟩
/-- `mnemonic.ty[.mk] qd, a, k`. -/
def asmVK (name : String) (mk : FReg → Merge → VDst → VSrc → Fin 64 → VTy → Instr) : AsmForm :=
  ⟨name, [kTy, kMask], [.q, .v, .i 0 63],
    fun p o => mk p (o.merge 1) (o.q 0) (o.v 1) (Fin.ofNat 64 (o.nat 2)) (o.ty 0)⟩
/-- `mnemonic.f32[.mk] qd, a` (12 R275). -/
def asmVF (name : String) (mk : FReg → Merge → VDst → VSrc → Instr) : AsmForm :=
  ⟨name, [kF32, kMask], [.q, .v], fun p o => mk p (o.merge 1) (o.q 0) (o.v 1)⟩
/-- `mnemonic[.mk] qd, a, b, mk` (12 R269). -/
def asmVS (name : String) (mk : FReg → Merge → VDst → VSrc → VSrc → MReg → Instr) : AsmForm :=
  ⟨name, [kMask], [.q, .v, .v, .m], fun p o => mk p (o.merge 0) (o.q 0) (o.v 1) (o.v 2) (o.m 3)⟩
/-- `mnemonic.ty[.mk] qd, a, b, c` (12 R264). -/
def asmVT (name : String) (mk : FReg → Merge → VDst → VSrc → VSrc → VSrc → Bool → Instr) : AsmForm :=
  ⟨name, [kTyf, kMask], [.q, .v, .v, .v],
    fun p o => mk p (o.merge 1) (o.q 0) (o.v 1) (o.v 2) (o.v 3) (o.g 0 == 1)⟩
/-- `mnemonic[.mk] qd, a, b, bk` (12 R280, R281). -/
def asmVB (name : String) (mk : FReg → Merge → VDst → VSrc → VSrc → BReg → Instr) : AsmForm :=
  ⟨name, [kMask], [.q, .v, .v, .b], fun p o => mk p (o.merge 0) (o.q 0) (o.v 1) (o.v 2) (o.b 3)⟩
/-- `mnemonic dst, src, shp, ctr` (13 R313). -/
def asmCopy (name : String) (mk : FReg → SReg → SReg → SReg → SReg → Instr) : AsmForm :=
  ⟨name, [], [.s, .s, .s, .c], fun p o => mk p (o.s 0) (o.s 1) (o.s 2) (o.s 3)⟩

/-- Arithmetic and flags of slot 0 (11 R228 to R236). -/
def asmScalar : List AsmForm :=
  [asmAlu "add" .add, asmAlu "sub" .sub, asmAlu "mul" .mul, asmAlu "mulh" .mulh, asmAlu "mulhn" .mulhn, asmAlu "div" .div,
   asmAlu "divn" .divn, asmAlu "rem" .rem, asmAlu "remn" .remn, asmAlu "and" .and, asmAlu "or" .or, asmAlu "xor" .xor,
   asmAlu "shl" .shl, asmAlu "shr" .shr, asmAlu "sra" .sra, asmAlu "min" .min, asmAlu "max" .max, asmAlu "minn" .minn,
   asmAlu "maxn" .maxn, asmAlu2 "clz" .clz, asmAlu2 "ctz" .ctz, asmAlu2 "popc" .popc,
   ⟨"addx", [], [.s, .s, .s, .i 0 7], fun p o => .addx p (o.s 0) (o.s 1) (o.s 2) (Fin.ofNat 8 (o.nat 3))⟩,
   ⟨"sel", [], [.s, .s, .s, .f], fun p o => .sel p (o.s 0) (o.s 1) (o.s 2) (o.f 3)⟩,
   asmImm "addi" .addi, asmImm "andi" .andi, asmImm "ori" .ori, asmImm "xori" .xori,
   asmShift "shli" .shli, asmShift "shri" .shri, asmShift "srai" .srai,
   ⟨"exts", [], [.s, .s, .i 0 63, .i 1 64],
     fun p o => .exts p (o.s 0) (o.s 1) (Fin.ofNat 64 (o.nat 2)) (Fin.ofNat 64 (o.nat 3 - 1))⟩,
   ⟨"extz", [], [.s, .s, .i 0 63, .i 1 64],
     fun p o => .extz p (o.s 0) (o.s 1) (Fin.ofNat 64 (o.nat 2)) (Fin.ofNat 64 (o.nat 3 - 1))⟩,
   ⟨"li", [], [.s, .rel (-65536) 65535 17], fun p o => .li p (o.s 0) (o.bv 17 1)⟩,
   ⟨"lih", [], [.s, .rel 0 65535 16], fun p o => .lih p (o.s 0) (o.bv 16 1)⟩,
   ⟨"cmp", [kCond], [.f, .s, .s], fun p o => .cmp p (o.f 0) (o.s 1) (o.s 2) (o.cond 0)⟩,
   ⟨"cmpi", [kCond], [.f, .s, .rel (-256) 255 9], fun p o => .cmpi p (o.f 0) (o.s 1) (o.cond 0) (o.bv 9 2)⟩,
   ⟨"fset", [], [.f], fun p o => .fset p (o.f 0)⟩,
   ⟨"fclr", [], [.f], fun p o => .fclr p (o.f 0)⟩,
   ⟨"fand", [], [.f, .f, .f], fun p o => .fand p (o.f 0) (o.f 1) (o.f 2)⟩,
   ⟨"for", [], [.f, .f, .f], fun p o => .forr p (o.f 0) (o.f 1) (o.f 2)⟩,
   ⟨"fnot", [], [.f, .f], fun p o => .fnot p (o.f 0) (o.f 1)⟩]

/-- Memory, control and CSRs of slot 0 (11 R238 to R256). -/
def asmControl : List AsmForm :=
  [⟨"lds", [kInt], [.s, .atZ (-256) 255], fun p o => .lds p (o.s 0) (o.s 1) (o.sz 0) (o.sgn 0) (o.bv 9 2)⟩,
   ⟨"ldt", [kInt, kFlag "acq", kScope2], [.s, .at, .arr 255], fun p o => match o.sz 0 with
     | .b1 => .ldt8 p (o.s 0) (o.s 1) (o.bv 8 2) (o.sgn 0) (o.has 1) (o.scope2 2)
     | .b2 => .ldt16 p (o.s 0) (o.s 1) (o.bv 8 2) (o.sgn 0) (o.has 1) (o.scope2 2)
     | .b4 => .ldt32 p (o.s 0) (o.s 1) (o.bv 8 2) (o.sgn 0) (o.has 1) (o.scope2 2)
     | .b8 => .ldt64 p (o.s 0) (o.s 1) (o.bv 8 2) (o.has 1) (o.scope2 2)⟩,
   ⟨"st", [kInt, kFlag "rel", kScopeOpt], [.s, .atZ (-32) 31],
     fun p o => .st p (o.s 0) (o.s 1) (o.sz 0) (o.has 1) (o.scope 2) (o.bv 6 2)⟩,
   ⟨"br", [], [.to 0 (-2097152) 2097151], fun p o => .br p (o.bv 22 0)⟩,
   ⟨"brf", [], [.f, .to 0 (-131072) 131071], fun p o => .brf p (o.f 0) (o.bv 18 1)⟩,
   ⟨"jr", [], [.s], fun p o => .jr p (o.s 0)⟩,
   ⟨"call", [], [.to 0 (-2097152) 2097151], fun p o => .call p (o.bv 22 0)⟩,
   ⟨"callr", [], [.s], fun p o => .callr p (o.s 0)⟩,
   asmBare "ret" .ret,
   ⟨"loop", [], [.i 1 4096, .to 1 0 1023], fun p o => .loop p (BitVec.ofInt 12 (o.int 0 - 1)) (o.bv 10 1)⟩,
   ⟨"loops", [], [.s, .to 1 0 1023], fun p o => .loops p (o.s 0) (o.bv 10 1)⟩,
   ⟨"loopp", [], [.s, .s, .to 1 0 1023], fun p o => .loopp p (o.s 0) (o.s 1) (o.bv 10 2)⟩,
   ⟨"lstep", [], [.s, .s], fun p o => .lstep p (o.s 0) (o.s 1)⟩,
   asmBare "lbrk" .lbrk,
   ⟨"waitf", [kFlag "any"], [.fs], fun p o => .waitf p (o.bv 16 0) (o.has 0)⟩,
   ⟨"crd", [], [.s, .csr], fun p o => .crd p (o.s 0) (o.csr 1)⟩,
   ⟨"cwr", [], [.s, .csr], fun p o => .cwr p (o.s 0) (o.csr 1)⟩,
   ⟨"stqpop", [kFlag "h"], [.s], fun p o => .stqpop p (o.s 0) (o.has 0)⟩]

/-- Atomics, reductions, barriers, fences, tasks and system of slot 0 (13 R301 to R310, 14 R328 to R334). -/
def asmSystem : List AsmForm :=
  [⟨"amo", [kAmo, kSz64, kOrd, kScope], [.s, .at],
     fun p o => .amo p (o.s 0) (o.s 1) ((AmoOp.ofCode (o.g 0)).getD .swap) (o.ord 2) (o.scope 3) (o.g 1 == 1)⟩,
   ⟨"cas", [kSz64, kOrd, kScope], [.s, .at, .s],
     fun p o => .cas p (o.s 0) (o.s 1) (o.s 2) (o.ord 1) (o.scope 2) (o.g 0 == 1)⟩,
   ⟨"red", [kRedOp, kRedTy, kScope], [.at, .s],
     fun p o => .red p (o.s 0) (o.s 1) ((RedOp.ofCode (o.g 0)).getD .add) ((RedTy.ofCode (o.g 1)).getD .f32) (o.scope 2)⟩,
   ⟨"red", [kMark "win"], [.at, .s], fun p o => .redWin p (o.s 0) (o.s 1)⟩,
   ⟨"barinit", [], [.i 0 511, .s], fun p o => .barinit p (Fin.ofNat 512 (o.nat 0)) (o.s 1)⟩,
   ⟨"bararr", [], [.i 0 511, .s], fun p o => .bararr p (Fin.ofNat 512 (o.nat 0)) (o.s 1)⟩,
   ⟨"barwait", [], [.i 0 511, .f, .i 0 1], fun p o => .barwait p (Fin.ofNat 512 (o.nat 0)) (o.int 2 == 1) (o.f 1)⟩,
   ⟨"frset", [], [.i 0 7, .s, .s], fun p o => .frset p (Fin.ofNat 8 (o.nat 0)) (o.s 1) (o.s 2)⟩,
   ⟨"fence", [kFence, kScope], [.i 0 255],
     fun p o => .fence p (o.bv 8 0) ((FenceKind.ofCode (o.g 0)).getD .acq) (o.scope 1)⟩,
   ⟨"tspawn", [], [.at, .s], fun p o => .tspawn p (o.s 0) (o.s 1)⟩,
   ⟨"tspawn", [kMark "wait"], [.at, .s], fun p o => .tspawnWait p (o.s 0) (o.s 1)⟩,
   ⟨"tdep", [], [.s, .s], fun p o => .tdep p (o.s 0) (o.s 1)⟩,
   ⟨"tdep", [kMark "dec"], [.s], fun p o => .tdepDec p (o.s 0)⟩,
   ⟨"cwait", [], [.s, .f], fun p o => .cwait p (o.s 0) (o.f 1)⟩,
   ⟨"cwait", [kMark "y"], [.s, .live], fun p o => .cwaitYield p (o.s 0) (o.bv 12 1)⟩,
   ⟨"tsusp", [], [.live], fun p o => .tsusp p (o.bv 12 0)⟩,
   asmBare "texit" .texit, asmBare "tnext" .tnext,
   ⟨"safept", [], [.live], fun p o => .safept p (o.bv 12 0)⟩,
   ⟨"trap", [], [.i 0 65535], fun p o => .trap p (o.bv 16 0)⟩,
   asmBare "eret" .eret, asmBare "ebrk" .ebrk, asmBare "isync" .isync,
   ⟨"iinv", [], [.s, .s], fun p o => .iinv p (o.s 0) (o.s 1)⟩]

/-- Slot 1 (13 R287 to R300). -/
def asmVMem : List AsmForm :=
  [⟨"vld", [], [.q, .atD 128 (-131072) 131071], fun p o => .vld p (o.q 0) (o.s 1) (o.bv 18 2)⟩,
   ⟨"vldt", [kFlag "acq", kScope2], [.q, .at, .arr 32767],
     fun p o => .vldt p (o.q 0) (o.s 1) (o.bv 15 2) (o.has 0) (o.scope2 1)⟩,
   ⟨"vst", [kFlag "rel", kMask, kScopeOpt], [.v, .atD 128 (-1024) 1023],
     fun p o => .vst p (o.v 0) (o.s 1) (o.scope 2) (o.has 0) (o.has 1) (Fin.ofNat 4 (o.g 1)) (o.bv 11 2)⟩,
   ⟨"vldx", [], [.q, .at, .v], fun p o => .vldx p (o.q 0) (o.s 1) (o.v 2)⟩,
   ⟨"vstx", [kMask], [.v, .at, .v], fun p o => .vstx p (o.v 0) (o.s 1) (o.v 2) (o.has 0) (Fin.ofNat 4 (o.g 0))⟩,
   ⟨"vstq", [], [.v, .at, .at, .b], fun p o => .vstq p (o.v 0) (o.s 1) (o.s 2) (o.b 3)⟩,
   ⟨"agset", [kFlag "save"], [.i 0 5, .s], fun p o => .agset p (Fin.ofNat 6 (o.nat 0)) (o.s 1)⟩,
   ⟨"cbset", [kFlag "save"], [.i 0 15, .s], fun p o => .cbset p (Fin.ofNat 16 (o.nat 0)) (o.s 1)⟩,
   ⟨"cbacq", [], [.s, .i 0 15, .f], fun p o => .cbacq p (Fin.ofNat 16 (o.nat 1)) (o.s 0) (o.f 2)⟩,
   ⟨"cbrel", [], [.i 0 15], fun p o => .cbrel p (Fin.ofNat 16 (o.nat 0))⟩]

/-- Slot 2 (12 R263 to R285). -/
def asmVector : List AsmForm :=
  [asmVA "vadd" .vadd, asmVA "vsub" .vsub, asmVA "vmul" .vmul, asmVT "vfma" .vfma, asmVT "vfms" .vfms,
   asmVA "vmin" .vmin, asmVA "vmax" .vmax, asmVU "vabs" .vabs, asmVU "vneg" .vneg,
   asmVL "vand" .vand, asmVL "vor" .vor, asmVL "vxor" .vxor,
   ⟨"vnot", [kMask], [.q, .v], fun p o => .vnot p (o.merge 0) (o.q 0) (o.v 1)⟩,
   asmVA "vshl" .vshl, asmVA "vshr" .vshr, asmVA "vsra" .vsra,
   ⟨"vcmp", [kCond, kTy], [.m, .v, .v], fun p o => .vcmp p (o.m 0) (o.v 1) (o.v 2) (o.cond 0) (o.ty 1)⟩,
   asmVS "vsel" .vsel,
   ⟨"vmov", [kMask], [.q, .v], fun p o => .vmov p (o.merge 0) (o.q 0) (o.v 1)⟩,
   asmVK "vbc" .vbc, asmVA "vperm" .vperm, asmVK "vrot" .vrot, asmVA "vshuf" .vshuf,
   ⟨"vred", [kVRed, kTy, kMask], [.q, .v],
     fun p o => .vred p (o.merge 2) (o.q 0) (o.v 1) ((VRedOp.ofCode (o.g 0)).getD .add) (o.ty 1)⟩,
   ⟨"vscan", [kRedOp, kFlag "excl", kTy, kMask], [.q, .v],
     fun p o => .vscan p (o.merge 3) (o.q 0) (o.v 1) ((VScanOp.ofCode (o.g 0)).getD .add) (o.has 1) (o.ty 2)⟩,
   ⟨"vext", [kTy], [.s, .v, .i 0 63], fun p o => .vext p (o.s 0) (o.v 1) (Fin.ofNat 64 (o.nat 2)) (o.ty 0)⟩,
   asmVF "vexp2" .vexp2, asmVF "vlog2" .vlog2, asmVF "vrcp" .vrcp, asmVF "vrsq" .vrsq,
   ⟨"vcvt", [kFlag "sat", kTy, kMask], [.q, .v, .ty],
     fun p o => .vcvt p (o.merge 2) (o.q 0) (o.v 1) (o.has 0) false (o.ty 1) (VTy.ofCode (o.nat 2))⟩,
   ⟨"vcvt", [kFlag "sat", kTy, kMask], [.q, .v, .ty, .i 0 1],
     fun p o => .vcvt p (o.merge 2) (o.q 0) (o.v 1) (o.has 0) (o.int 3 == 1) (o.ty 1) (VTy.ofCode (o.nat 2))⟩,
   ⟨"vxpand", [kXSrc, kFlag "hi", kMask], [.q, .v],
     fun p o => .vxpand p (o.merge 2) (o.q 0) (o.v 1) ((VXSrc.ofCode (o.g 0)).getD .s4) (o.has 1)⟩,
   asmVA "vmx" .vmx, asmVB "vqz" .vqz, asmVB "vdq" .vdq,
   ⟨"vdiff", [kTy], [.m, .v, .v], fun p o => .vdiff p (o.m 0) (o.v 1) (o.v 2) (o.ty 0)⟩,
   asmVS "vcompact" .vcompact, asmVS "vexpand" .vexpand, asmVU "vpopc" .vpopc, asmVU "vclz" .vclz,
   ⟨"vtrp", [kFlag "rst"], [.v], fun p o => .vtrp p (o.v 0) (o.has 0)⟩,
   ⟨"vtrc", [kFlag "rst", kMask], [.q], fun p o => .vtrc p (o.merge 1) (o.q 0) (o.has 0)⟩,
   ⟨"mset", [], [.m, .s], fun p o => .mset p (o.m 0) (o.s 1)⟩,
   ⟨"mand", [], [.m, .m, .m], fun p o => .mand p (o.m 0) (o.m 1) (o.m 2)⟩,
   ⟨"mor", [], [.m, .m, .m], fun p o => .mor p (o.m 0) (o.m 1) (o.m 2)⟩,
   ⟨"mnot", [], [.m, .m], fun p o => .mnot p (o.m 0) (o.m 1)⟩]

/-- Slot 3 (13 R313, 14 R319 to R327). -/
def asmEngine : List AsmForm :=
  [asmBare "lease" .lease, asmBare "lfree" .lfree,
   ⟨"mmd", [kMmd], [.ac, .at, .at, .c],
     fun p o => .mmd p (o.ac 0) (o.s 1) (o.s 2) (o.s 3) ((MmdFmt.ofCode (o.g 0)).getD .bf16)⟩,
   ⟨"tbld", [], [.b, .at, .s, .c], fun p o => .tbld p (o.b 0) (o.s 1) (o.s 2) (o.s 3)⟩,
   ⟨"mmt", [], [.ac, .b, .at, .s, .c], fun p o => .mmt p (o.ac 0) (o.b 1) (o.s 2) (o.s 3) (o.s 4)⟩,
   ⟨"mmtd", [], [.ac, .b, .at, .s, .c], fun p o => .mmtd p (o.ac 0) (o.b 1) (o.s 2) (o.s 3) (o.s 4)⟩,
   ⟨"accz", [], [.ac], fun p o => .accz p (o.ac 0) 0⟩,
   ⟨"accz", [], [.ac, .c], fun p o => .accz p (o.ac 0) (o.s 1)⟩,
   ⟨"accld", [], [.ac, .at, .i 0 15, .c], fun p o => .accld p (o.ac 0) (o.s 1) (Fin.ofNat 16 (o.nat 2)) (o.s 3)⟩,
   ⟨"accst", [kFlag "sat", kTy], [.at, .ac, .c], fun p o => .accst p (o.ac 1) (o.s 0) (o.ty 1) (o.has 0) (o.s 2)⟩,
   ⟨"cbbind", [kFlag "tr"], [.b, .s, .c], fun p o => .cbbind p (o.b 0) (o.s 1) (o.has 0) (o.s 2)⟩,
   ⟨"cbfree", [], [.b], fun p o => .cbfree p (o.b 0)⟩,
   ⟨"cbinv", [], [.s, .c], fun p o => .cbinv p (o.s 0) (o.s 1)⟩,
   ⟨"cbpre", [], [.s], fun p o => .cbpre p (o.s 0)⟩,
   asmCopy "cpy" .cpy, asmCopy "cpyq" .cpyq, asmCopy "cpyd" .cpyd, asmCopy "cpym" .cpym, asmCopy "cpyf" .cpyf]

/-- Every assembly form; `nop` has rules of its own (R348). -/
def asmForms : List AsmForm := asmScalar ++ asmControl ++ asmSystem ++ asmVMem ++ asmVector ++ asmEngine

/-- A reserved word (R345): none of them is a label. -/
def reservedWord (s : String) : Bool := s == "nop" || reservedName s || asmForms.any fun f => f.name == s

end Sys2Proof.Machine
end

