-- ==== Sys2Proof/Machine/Barold.lean ====
section
/-! DEFINITION. Barold, third part: statements, bundles and headers (10_isa_formats_and_opcode_map.md R222 to R224,
20_assembler_grammar.md R347 to R350), the directives (R225, R333, R351) and the objects it emits (R352). -/

namespace Sys2Proof.Machine

/-! ## Statements -/

/-- What a statement may name: the object's labels and live-state lists, its bundle count, and the statement's own index. -/
structure AsmEnv where
  labels : List AsmLabel
  lives  : List String
  nbund  : Nat
  idx    : Nat
deriving DecidableEq, Repr

/-- A read operand or operand list, with the width and KIND of each relocated immediate. -/
abbrev OpRead := List OpVal × List (Nat × Nat)

/-- A register operand. -/
def readReg (pre : String) (n : Nat) : List Tok → Except AsmErr OpRead
  | [.id s] => match regNum pre n s with
    | some k => .ok ([.n k], [])
    | none => .error .operand
  | _ => .error .operand

/-- A vector destination: a queue, with ! for no write-back, or P4 or P5 (10 R209, R223). -/
def readDst : List Tok → Except AsmErr OpRead
  | [.id s] => match regNum "q" 16 s with
    | some k => .ok ([.dst (.q (Fin.ofNat 16 k))], [])
    | none => if s == "p4" then .ok ([.dst .p4], []) else if s == "p5" then .ok ([.dst .p5], []) else .error .operand
  | [.id s, .bang] => match regNum "q" 16 s with
    | some k => .ok ([.dst (.nwb (Fin.ofNat 16 k))], [])
    | none => .error .operand
  | _ => .error .operand

/-- A vector source; a scalar register is the broadcast source, and .pk stands only on a queue or a port (R349). -/
def readSrc : List Tok → Except AsmErr OpRead
  | .id s :: r =>
    let pk := r == [.dot, .id "pk"]
    if !(pk || r.isEmpty) then .error .operand
    else match regNum "q" 16 s, regNum "p" 4 s with
      | some k, _ => .ok ([.src (.q (Fin.ofNat 16 k) pk)], [])
      | none, some k => .ok ([.src (.p (Fin.ofNat 4 k) pk)], [])
      | none, none =>
        if pk then .error .operand
        else match regNum "l" 4 s, regNum "s" 32 s with
          | some k, _ => .ok ([.src (.l (Fin.ofNat 4 k))], [])
          | none, some k => .ok ([.src (.bc (Fin.ofNat 32 k))], [])
          | none, none => .error .operand
  | _ => .error .operand

/-- A memory operand: its register and the tokens of its displacement, a sign first ([sk-e] stands for [sk+(-e)], R347). -/
def readMem : List Tok → Except AsmErr (Nat × List Tok)
  | .lb :: .id s :: r => match regNum "s" 32 s, r.getLast? with
    | some k, some .rb => match r.dropLast with
      | .plus :: d => .ok (k, d)
      | d => .ok (k, d)
    | _, _ => .error .operand
  | _ => .error .operand

/-- A memory operand with a displacement in units. -/
def readDisp (env : AsmEnv) (unit lo hi : Int) (ts : List Tok) : Except AsmErr OpRead :=
  match readMem ts with
  | .error e => .error e
  | .ok (k, []) => if ts.length = 3 then .ok ([.n k, .n 0], []) else .error .operand
  | .ok (k, d) =>
    if d.head? == some .minus || ts.length = d.length + 4 then
      match exprVal env.labels d with
      | .ok v => if v.toInt % unit = 0 ∧ lo ≤ v.toInt / unit ∧ v.toInt / unit ≤ hi then .ok ([.n k, .n (v.toInt / unit)], [])
        else .error .range
      | .error e => .error e
    else .error .operand

/-- The KIND of a relocation word (R350, 04 Table 4-3). -/
def relocKind (s : String) : Option Nat := ["core", "clu", "die", "mesh"].findIdx? (fun x => x == s)

/-- A number. -/
def readNum (env : AsmEnv) (lo hi : Int) (ts : List Tok) : Except AsmErr OpRead :=
  match exprIn env.labels lo hi ts with
  | .ok v => .ok ([.n v], [])
  | .error e => .error e

/-- An immediate that may be relocated: core(e), clu(e), die(e) or mesh(e), with nothing else in the operand (R350). -/
def readRel (env : AsmEnv) (lo hi : Int) (wid : Nat) : List Tok → Except AsmErr OpRead
  | .id s :: .lp :: r => match relocKind s, exprFrom env.labels (3 * r.length + 6) .term (.lp :: r) with
    | some k, .ok (v, []) => if lo ≤ v.toInt ∧ v.toInt ≤ hi then .ok ([.n v.toInt], [(wid, k)]) else .error .range
    | some _, .error e => .error e
    | _, _ => .error .operand
  | ts => readNum env lo hi ts

/-- A counter register, or - for none; S0 is no counter (10 R209). -/
def readCtr : List Tok → Except AsmErr OpRead
  | [.minus] => .ok ([.n 0], [])
  | [.id s] => match regNum "s" 32 s with
    | some (k + 1) => .ok ([.n (k + 1)], [])
    | _ => .error .operand
  | _ => .error .operand

/-- A live-state list, by its name or by its number (R333, 14 R329). -/
def readLive (env : AsmEnv) (ts : List Tok) : Except AsmErr OpRead :=
  match ts with
  | [.id s] => match env.lives.findIdx? (fun x => x == s) with
    | some k => .ok ([.n k], [])
    | none => .error .live
  | _ => readNum env 0 4095 ts

/-- A target: a label of a bundle of the object (11 R244, R247; R352). -/
def readTarget (env : AsmEnv) (back lo hi : Int) : List Tok → Except AsmErr OpRead
  | [.id s] => match env.labels.find? (fun l => l.name == s) with
    | some l =>
      let d := (l.val : Int) - env.idx - back
      if !(l.text && decide (l.val < env.nbund)) then .error .target
      else if lo ≤ d ∧ d ≤ hi then .ok ([.n d], []) else .error .range
    | none => .error .unknownLabel
  | _ => .error .operand

/-- One operand, read under its form; `size` is the access size of the statement's type suffix in bytes. -/
def readOp (env : AsmEnv) (size : Nat) (form : OpForm) (ts : List Tok) : Except AsmErr OpRead :=
  match form with
  | .s => readReg "s" 32 ts
  | .f => readReg "f" 16 ts
  | .m => readReg "m" 4 ts
  | .ac => readReg "ac" 4 ts
  | .b => readReg "b" 8 ts
  | .q => readDst ts
  | .v => readSrc ts
  | .at => match readMem ts with
    | .ok (k, []) => if ts.length = 3 then .ok ([.n k], []) else .error .operand
    | .ok _ => .error .operand
    | .error e => .error e
  | .atD unit lo hi => readDisp env unit lo hi ts
  | .atZ lo hi => readDisp env size lo hi ts
  | .arr hi => match ts with
    | .id s :: .eq :: r => if s == "arr" then readNum env 8 hi r else .error .operand
    | _ => .error .operand
  | .i lo hi => match ts with
    | .id s :: .lp :: _ => if (relocKind s).isSome then .error .relocation else .error .operand
    | _ => readNum env lo hi ts
  | .rel lo hi wid => readRel env lo hi wid ts
  | .c => readCtr ts
  | .csr => match ts with
    | [.id s] => match csrNames.find? (fun x => x.1 == s) with
      | some x => .ok ([.csr x.2], [])
      | none => .error .operand
    | _ => .error .operand
  | .ty => match ts with
    | [.id s] => match tyNames.findIdx? (fun x => x == s) with
      | some k => .ok ([.n k], [])
      | none => .error .operand
    | _ => .error .operand
  | .live => readLive env ts
  | .to back lo hi => readTarget env back lo hi ts
  | .fs => readReg "f" 16 ts

/-- The mask of listed flags. -/
def readFlags : List (List Tok) → Except AsmErr Nat
  | [] => .ok 0
  | o :: r => match readReg "f" 16 o, readFlags r with
    | .ok ([.n k], _), .ok m => .ok (m ||| 2 ^ k.toNat)
    | .error e, _ => .error e
    | _, .error e => .error e
    | _, _ => .error .operand

/-- The operands of a statement, in the order of its form. -/
def readOps (env : AsmEnv) (size : Nat) : List OpForm → List (List Tok) → Except AsmErr OpRead
  | [], [] => .ok ([], [])
  | [.fs], o :: r => (readFlags (o :: r)).map fun m => ([.n m], [])
  | form :: forms, o :: r => match readOp env size form o with
    | .ok x => match readOps env size forms r with
      | .ok y => .ok (x.1 ++ y.1, x.2 ++ y.2)
      | .error e => .error e
    | .error e => .error e
  | _, _ => .error .operand

/-- A statement read whole: its instruction, its words, the registers it broadcasts and its relocated immediates. -/
structure AsmStmt where
  instr : Instr
  enc   : Enc
  bcs   : List SReg
  rels  : List (Nat × Nat)
deriving DecidableEq, Repr

/-- The registers broadcast operands name. -/
def bcNames : List OpVal → List SReg
  | [] => []
  | .src (.bc s) :: r => s :: bcNames r
  | _ :: r => bcNames r

/-- A statement read under one assembly form. -/
def readForm (env : AsmEnv) (p : FReg) (sufs : List String) (ops : List (List Tok)) (f : AsmForm) : Except AsmErr AsmStmt :=
  match suffixCodes f.kinds sufs with
  | none => .error .suffix
  | some gs =>
    match readOps env (2 ^ (((gs.head?).join).getD 0 / 2)) f.ops ops with
    | .error e => .error e
    | .ok (vs, rels) =>
      let i := f.build p ⟨gs, vs⟩
      match encode i with
      | some e => if i.wf then .ok ⟨i, e, bcNames vs, rels⟩ else .error .illegalWord
      | none => .error .illegalWord

/-- The first form that reads the statement; else what the last one refused it for. -/
def firstForm (env : AsmEnv) (p : FReg) (sufs : List String) (ops : List (List Tok)) :
    AsmErr → List AsmForm → Except AsmErr AsmStmt
  | e, [] => .error e
  | _, f :: fs => match readForm env p sufs ops f with
    | .ok x => .ok x
    | .error e => firstForm env p sufs ops e fs

/-- The suffixes after a mnemonic, and the tokens of the operands. -/
def takeSuffixes : List Tok → List String × List Tok
  | .dot :: .id s :: r => let x := takeSuffixes r; (s :: x.1, x.2)
  | r => ([], r)

/-- The operands between commas. -/
def splitOps : List Tok → List (List Tok)
  | [] => []
  | ts => splitToks .comma ts

/-- A statement's predicate and the tokens after it. -/
def takePred : List Tok → Except AsmErr (Option FReg × List Tok)
  | .lp :: .id s :: .rp :: r => match regNum "f" 16 s with
    | some k => .ok (some (Fin.ofNat 16 k), r)
    | none => .error .operand
  | r => .ok (none, r)

/-- A statement of a line: an instruction, a bare nop, or a nop that names its slot. -/
inductive LineStmt where
  | ins (x : AsmStmt)
  | bareNop
  | nopAt (slot : Nat)
deriving DecidableEq, Repr

/-- A nop (R348). -/
def readNop (p : Option FReg) : List Tok → Except AsmErr LineStmt
  | r => if p.isSome then .error .predicateOnNop else match r with
    | [] => .ok .bareNop
    | [.dot, .id s] => match ["s", "m", "v", "e"].findIdx? (fun x => x == s) with
      | some k => .ok (.nopAt k)
      | none => .error .suffix
    | _ => .error .operand

/-- `[(fk)] mnemonic{.suffix} [operand {, operand}]` (R347). -/
def readStmt (env : AsmEnv) (ts : List Tok) : Except AsmErr LineStmt :=
  match takePred ts with
  | .error e => .error e
  | .ok (p, .id s :: r) =>
    if s == "nop" then readNop p r
    else
      let x := takeSuffixes r
      (firstForm env (p.getD 0) x.1 (splitOps x.2) .mnemonic (asmForms.filter fun f => f.name == s)).map .ins
  | .ok _ => .error .lineForm

def readStmts (env : AsmEnv) : List (List Tok) → Except AsmErr (List LineStmt)
  | [] => .ok []
  | s :: r => match readStmt env s with
    | .ok x => (readStmts env r).map (x :: ·)
    | .error e => .error e

/-! ## Bundles -/

/-- Who claims a slot. -/
inductive Claim where
  | nop
  | ins (x : AsmStmt)
deriving DecidableEq, Repr

/-- A slot claimed once (R348). -/
def claim (k : Nat) (c : Claim) (l : List (Nat × Claim)) : Except AsmErr (List (Nat × Claim)) :=
  if l.any (fun x => x.1 == k) then .error .slotTaken else .ok ((k, c) :: l)

/-- The claims of a line's statements, its bare nops apart. -/
def claims : List LineStmt → List (Nat × Claim) → Except AsmErr (List (Nat × Claim))
  | [], l => .ok l
  | .bareNop :: r, l => claims r l
  | .nopAt k :: r, l => match claim k .nop l with
    | .ok l' => claims r l'
    | .error e => .error e
  | .ins x :: r, l => match claim x.enc.slot (.ins x) l with
    | .ok l' => claims r l'
    | .error e => .error e

/-- Each bare nop takes the lowest-numbered slot that is left (R348). -/
def claimBare : Nat → List (Nat × Claim) → Except AsmErr (List (Nat × Claim))
  | 0, l => .ok l
  | n + 1, l => match (List.range 4).find? fun k => !(l.any fun x => x.1 == k) with
    | some k => claimBare n ((k, .nop) :: l)
    | none => .error .slotTaken

/-- The bits an instruction's slot is lent when the bundle has a header: a displacement of VLD or VST has its upper bits there
whether or not they alone would need it (10 Table 10-3). -/
def lentBits (x : AsmStmt) : Nat := match x.instr with
  | .vld _ _ _ disp => disp.toNat / 2048
  | .vst _ s _ _ _ _ _ disp => b2n s.pk * 64 + disp.toNat / 32
  | _ => x.enc.ext

/-- A bundle as Barold makes it: its 128-bit value, its instructions by slot, its relocation entries. -/
structure AsmBundle where
  value : Nat
  slots : List (Nat × Instr)
  rels  : List Nat
deriving DecidableEq, Repr

/-- The claims that are instructions. -/
def claimStmts : List (Nat × Claim) → List (Nat × AsmStmt)
  | [] => []
  | (k, .ins x) :: r => (k, x) :: claimStmts r
  | (_, .nop) :: r => claimStmts r

/-- A relocation entry: BUND, SLOT, POS 0, WID and KIND (04 Table 4-3, R350); every immediate of the three formats begins at
bit 0 of its word. -/
def relocEntry (idx slot wid kind : Nat) : Nat := idx + slot * 2 ^ 22 + wid * 2 ^ 29 + kind * 2 ^ 34

/-- The bundle of a line's statements; `safe` is the list of a preceding .safepoint, whose SAFEPT stands in slot 0 (R333). A
header is formed where R224 says, and it too claims slot 0. -/
def makeBundle (env : AsmEnv) (safe : Option Nat) (stmts : List LineStmt) : Except AsmErr AsmBundle :=
  match claims stmts [] with
  | .error e => .error e
  | .ok l =>
    match claimBare (stmts.countP fun x => x == .bareNop) l with
    | .error e => .error e
    | .ok l' =>
      let ins := claimStmts l'
      let bcs := ins.flatMap fun x => x.2.bcs
      let bc := bcs.headD 0
      let need := ins.any (fun x => x.2.enc.hdr)
      let taken := l'.any fun x => x.1 == 0
      let lent (k : Nat) : Nat := ((ins.find? fun x => x.1 == k).map fun x => lentBits x.2).getD 0
      let word' (k : Nat) : Nat := ((ins.find? fun x => x.1 == k).map fun x => x.2.enc.word).getD 0
      let header := 0x3F * 2 ^ 26 + bc.val * 2 ^ 21 + lent 3 * 2 ^ 14 + lent 2 * 2 ^ 7 + lent 1
      let sp := safe.map fun live => Instr.safept 0 (BitVec.ofNat 12 live)
      let spWord := (sp.bind encode).elim 0 (·.word)
      if bcs.any (fun x => x != bc) then .error .broadcast
      else if (need && taken) || (need && safe.isSome) || (taken && safe.isSome) then .error .headerSlot
      else .ok
        { value := (if need then header else if safe.isSome then spWord else word' 0) + word' 1 * 2 ^ 32 + word' 2 * 2 ^ 64
            + word' 3 * 2 ^ 96
          slots := (sp.toList.map fun i => (0, i)) ++ ins.map fun x => (x.1, x.2.instr)
          rels := ins.flatMap fun x => x.2.rels.map fun r => relocEntry env.idx x.1 r.1 r.2 }

/-- The bundle of the statements of one line. -/
def assembleStmts (env : AsmEnv) (safe : Option Nat) (stmts : List (List Tok)) : Except AsmErr AsmBundle :=
  if 4 < stmts.length then .error .lineForm
  else match readStmts env stmts with
    | .ok l => makeBundle env safe l
    | .error e => .error e

/-- One line assembled on its own (20 Table 20-3). -/
def assembleLine (cs : List Char) : Except AsmErr Nat :=
  match lexLine cs with
  | .ok ts => (assembleStmts ⟨[], [], 1, 0⟩ none (splitToks .bar ts)).map (·.value)
  | .error e => .error e

/-! ## Objects under construction -/

/-- A bundle still to be assembled: its source line, the list of a preceding .safepoint and its statements; a padding bundle
of .align has none. -/
structure CodeItem where
  line  : Nat
  safe  : Option String
  stmts : List (List Tok)
deriving DecidableEq, Repr

/-- Data still to be evaluated: its source line, its address, its length in bytes, the width of each value in bits and the
values. -/
structure DataItem where
  line  : Nat
  addr  : Nat
  len   : Nat
  width : Nat
  vals  : List (List Tok)
deriving DecidableEq, Repr

/-- An object while its lines are read. `known` are labels that an earlier reading of the file has placed; in a `lax` reading a label that
neither reading has placed yet is no error: what follows it has no known place, as `lostData` and `lostText` say, nor have the labels
`unsure`. -/
structure AsmObj where
  name    : String
  ncore   : Nat
  latency : Option (Nat × Bool) := none
  inText  : Bool := true
  addr    : Nat := 0
  code    : List CodeItem := []
  data    : List DataItem := []
  labels  : List AsmLabel := []
  lives   : List (String × Nat) := []
  pending : Option String := none
  inProc  : Bool := false
  codeword : Option Nat := none       -- elements of the .cbook line just before
  targets : List (Nat × String) := []
  known   : List AsmLabel := []
  lax     : Bool := false
  unsure  : List String := []
  lostData : Bool := false
  lostText : Bool := false
deriving DecidableEq, Repr

/-- Define a label at the place the next bundle or data byte has (R346, Table 20-1). -/
def AsmObj.label (o : AsmObj) (s : String) : Except AsmErr AsmObj :=
  if reservedWord s then .error .reservedLabel
  else if o.labels.any (fun l => l.name == s) then .error .labelTwice
  else .ok { o with
    labels := o.labels ++ [⟨s, o.inText, if o.inText then o.code.length else o.addr⟩]
    unsure := if (if o.inText then o.lostText else o.lostData) then s :: o.unsure else o.unsure }

/-- The labels whose places are known. -/
def AsmObj.sure (o : AsmObj) : List AsmLabel := o.labels.filter fun l => !o.unsure.contains l.name

/-- Add a bundle; a pending .safepoint goes into it. -/
def AsmObj.addBundle (o : AsmObj) (line : Nat) (stmts : List (List Tok)) : AsmObj :=
  { o with code := o.code ++ [⟨line, o.pending, stmts⟩], pending := none, codeword := none }

/-- Add data at the data address. -/
def AsmObj.addData (o : AsmObj) (line len width : Nat) (vals : List (List Tok)) : Except AsmErr AsmObj :=
  if o.inText then .error .placement
  else .ok { o with data := o.data ++ [⟨line, o.addr, len, width, vals⟩], addr := o.addr + len }

/-- A power of two. -/
def isPow2 (n : Nat) : Bool := (List.range 64).any fun k => n == 2 ^ k

/-- The bits of one .live item (R333). -/
def liveItem : List Tok → Option Nat
  | [.id s] => match regNum "s" 32 s, regNum "q" 16 s, regNum "b" 8 s with
    | some (k + 1), _, _ => some (2 ^ k)
    | none, some k, _ => some (2 ^ (32 + k))
    | none, none, some k => some (2 ^ (48 + k))
    | _, _, _ => (([("flags", 31), ("fr", 56), ("ag", 57), ("cb", 58), ("loop", 59), ("stq", 60)] : List (String × Nat)).find?
        fun x => x.1 == s).map fun x => 2 ^ x.2
  | [.id a, .minus, .id b] => match regNum "s" 32 a, regNum "s" 32 b with
    | some (j + 1), some (k + 1) => if j ≤ k then some (2 ^ (k + 1) - 2 ^ j) else none
    | _, _ => none
  | _ => none

/-- The mask of .live items. -/
def liveMask : List (List Tok) → Option Nat
  | [] => some 0
  | o :: r => match liveItem o, liveMask r with
    | some a, some m => some (a ||| m)
    | _, _ => none

/-- The operand of a directive that is one name. -/
def oneName : List (List Tok) → Except AsmErr String
  | [[.id s]] => .ok s
  | _ => .error .directive

/-- The value of an expression that places what follows, over the labels known; none where a lax reading lacks one of them (R346; log entry
65). -/
def placeExpr (ls : List AsmLabel) (lax : Bool) (ts : List Tok) : Except AsmErr (Option Word) :=
  match exprVal ls ts with
  | .ok v => .ok (some v)
  | .error .unknownLabel => if lax then .ok none else .error .unknownLabel
  | .error e => .error e

/-- The operand of a directive that is one expression. -/
def oneExpr (o : AsmObj) : List (List Tok) → Except AsmErr (Option Nat)
  | [ts] => (placeExpr (o.sure ++ o.known) o.lax ts).map fun v => v.map (·.toNat)
  | _ => .error .directive

/-- `.align n` (10 Table 10-14). -/
def AsmObj.align (o : AsmObj) (line n : Nat) : Except AsmErr AsmObj :=
  if !isPow2 n then .error .directive
  else if o.inText then
    let pad := (n - o.code.length % n) % n
    if 4194304 < o.code.length + pad then .error .bundleCount
    else .ok ((List.range pad).foldl (fun o _ => o.addBundle line []) o)
  else o.addData line ((n - o.addr % n) % n) 8 []

/-- `.latency 6`, `.latency 4`, `.latency 4, compat`: once, before the first bundle (R351). -/
def AsmObj.setLatency (o : AsmObj) (ops : List (List Tok)) : Except AsmErr AsmObj :=
  if o.latency.isSome || !o.code.isEmpty then .error .latency
  else if ops == [[.num 6]] then .ok { o with latency := some (6, false) }
  else if ops == [[.num 4]] then .ok { o with latency := some (4, false) }
  else if ops == [[.num 4], [.id "compat"]] then .ok { o with latency := some (4, true) }
  else .error .directive

/-- `.cbook` and `.cbook.wide`: one codeword, as long as the one on the line before. -/
def AsmObj.addCodeword (o : AsmObj) (line width : Nat) (ops : List (List Tok)) : Except AsmErr AsmObj :=
  if ops.isEmpty || (o.codeword.isSome && o.codeword != some ops.length) then .error .directive
  else (o.addData line (ops.length * width / 8) width ops).map fun o' => { o' with codeword := some ops.length }

/-- `.live name, item, …`: the next entry of the live-state list table (R333). -/
def AsmObj.addLive (o : AsmObj) : List (List Tok) → Except AsmErr AsmObj
  | [.id s] :: items => match liveMask items with
    | some m => if o.lives.any (fun x => x.1 == s) || 4096 ≤ o.lives.length then .error .live
      else .ok { o with lives := o.lives ++ [(s, m)] }
    | none => .error .live
  | _ => .error .live

/-- The names of a .targets list. -/
def nameList : List (List Tok) → Option (List String)
  | [] => some []
  | [.id s] :: r => (nameList r).map (s :: ·)
  | _ :: _ => none

/-- A directive other than .codeobj (Table 20-2). -/
def AsmObj.directive (o : AsmObj) (line : Nat) (d : String) (sufs : List String) (ops : List (List Tok)) :
    Except AsmErr AsmObj :=
  let o' : AsmObj := if d == "cbook" then o else { o with codeword := none }
  match d, sufs with
  | "latency", [] => o'.setLatency ops
  | "text", [] => if ops.isEmpty then .ok { o' with inText := true } else .error .directive
  | "data", [] => (oneExpr o' ops).map fun a => { o' with inText := false, addr := a.getD 0, lostData := a.isNone }
  | "proc", [] => match oneName ops with
    | .ok s => if !o'.inText then .error .placement else if o'.inProc then .error .procedure
      else ({ o' with inProc := true } : AsmObj).label s
    | .error e => .error e
  | "endproc", [] => if !o'.inText then .error .placement
    else if ops.isEmpty && o'.inProc then .ok { o' with inProc := false } else .error .procedure
  | "align", [] => match oneExpr o' ops with
    | .ok (some n) => o'.align line n
    | .ok none => .ok (if o'.inText then { o' with lostText := true } else { o' with lostData := true })
    | .error e => .error e
  | "word", [] => if ops.isEmpty then .error .directive else o'.addData line (8 * ops.length) 64 ops
  | "vec", [t] => match tyNames.findIdx? (fun x => x == t) with
    | some k => let w := (VTy.ofCode k).width
      if w = 0 ∨ 1024 < w * ops.length then .error .directive else o'.addData line 128 w ops
    | none => .error .directive
  | "cbook", [] => o'.addCodeword line 8 ops
  | "cbook", ["wide"] => o'.addCodeword line 16 ops
  | "live", [] => o'.addLive ops
  | "safepoint", [] => match oneName ops with
    | .ok s => if !o'.inText then .error .placement else if o'.pending.isSome then .error .headerSlot
      else .ok { o' with pending := some s }
    | .error e => .error e
  | "targets", [] => match ops.isEmpty, nameList ops with
    | false, some l => .ok { o' with targets := o'.targets ++ l.map fun s => (line, s) }
    | _, _ => .error .directive
  | _, _ => .error .directive

/-- One reading of a file: whether it is lax, and the labels of each object that earlier readings have placed. -/
structure AsmPass where
  lax   : Bool
  known : List (List AsmLabel)
deriving DecidableEq, Repr

/-- `.codeobj name, n`, the k-th of the file (R351). -/
def newObj (p : AsmPass) (k : Nat) : List (List Tok) → Except AsmErr AsmObj
  | [[.id s], ts] =>
    let ls := p.known.getD k []
    (placeExpr ls p.lax ts).bind fun v => match v with
      | some n => if 1 ≤ n.toInt ∧ n.toInt ≤ 512 then .ok { name := s, ncore := n.toNat, known := ls, lax := p.lax } else .error .range
      | none => .ok { name := s, ncore := 1, known := ls, lax := p.lax }
  | _ => .error .directive

/-- The label at the head of a line, and the rest. -/
def takeLabel : List Tok → Option String × List Tok
  | .id s :: .colon :: r => (some s, r)
  | r => (none, r)

/-- A label, where there is one. -/
def AsmObj.labelIf (o : AsmObj) : Option String → Except AsmErr AsmObj
  | some s => o.label s
  | none => .ok o

/-- One line of an object (Table 20-1). A label before .data or .text names the place after it. -/
def AsmObj.line (o : AsmObj) (n : Nat) (lab : Option String) : List Tok → Except AsmErr AsmObj
  | [] => o.labelIf lab
  | .dot :: .id d :: r =>
    let x := takeSuffixes r
    if d == "data" || d == "text" then (o.directive n d x.1 (splitOps x.2)).bind fun o' => o'.labelIf lab
    else (o.labelIf lab).bind fun o' => o'.directive n d x.1 (splitOps x.2)
  | ts => match o.labelIf lab with
    | .ok o' => if o'.inText then .ok (o'.addBundle n (splitToks .bar ts)) else .error .placement
    | .error e => .error e

/-- One line of the file: the objects so far, the newest first. -/
def asmLine (p : AsmPass) (n : Nat) (os : List AsmObj) (ts : List Tok) : Except AsmErr (List AsmObj) :=
  match takeLabel ts, os with
  | (none, []), _ => .ok os
  | (lab, .dot :: .id "codeobj" :: r), _ =>
    ((newObj p os.length (splitOps r)).bind fun o => o.labelIf lab).map (· :: os)
  | _, [] => .error .beforeCodeobj
  | (lab, r), o :: rest => (o.line n lab r).map (· :: rest)

/-! ## The emitted object (R352) -/

/-- One emitted object: its name, the bytes of Table 3-8 and the data images by address. -/
structure AsmOut where
  name : String
  obj  : List Byte
  data : List (Nat × List Byte)
deriving DecidableEq, Repr

/-- The safe-point table entry of a bundle (R333). -/
def safeEntry (idx : Nat) (i : Instr) : Option Nat := match i with
  | .safept _ l => some (idx + l.toNat * 2 ^ 22)
  | .tsusp _ l => some (idx + l.toNat * 2 ^ 22 + 2 ^ 34)
  | .cwaitYield _ _ l => some (idx + l.toNat * 2 ^ 22 + 2 * 2 ^ 34)
  | .texit _ => some (idx + 3 * 2 ^ 34)
  | _ => none

/-- An indirect branch. -/
def isIndirect : Instr → Bool
  | .jr _ _ | .callr _ _ => true
  | _ => false

/-- The value of a data word: it lies in the field's signed or its unsigned range (R351). -/
def dataVal (ls : List AsmLabel) (w : Nat) (ts : List Tok) : Except AsmErr Nat :=
  match exprVal ls ts with
  | .ok v => if v.toNat < 2 ^ w ∨ (-(2 ^ (w - 1) : Int) ≤ v.toInt ∧ v.toInt < 0) then .ok (v.toNat % 2 ^ w) else .error .range
  | .error e => .error e

/-- The bytes of data values. -/
def dataBytes (ls : List AsmLabel) (w : Nat) : List (List Tok) → Except AsmErr (List Byte)
  | [] => .ok []
  | v :: r => match dataVal ls w v, dataBytes ls w r with
    | .ok x, .ok bs => .ok (bytesOf (w / 8) x ++ bs)
    | .error e, _ => .error e
    | _, .error e => .error e

/-- A data image; bytes no value fills are zero. -/
def DataItem.image (ls : List AsmLabel) (d : DataItem) : Except AsmErr (Nat × List Byte) :=
  (dataBytes ls d.width d.vals).map fun bs => (d.addr, bs ++ List.replicate (d.len - bs.length) 0)

/-- Two data items share a byte. -/
def DataItem.meets (a b : DataItem) : Bool := decide (Max.max a.addr b.addr < Min.min (a.addr + a.len) (b.addr + b.len))

/-- The first data item that overlaps one before it. -/
def firstOverlap : List DataItem → List DataItem → Option Nat
  | _, [] => none
  | seen, d :: r => if seen.any (fun x => x.meets d) then some d.line else firstOverlap (d :: seen) r

/-- The list a .safepoint names. -/
def AsmObj.safeList (o : AsmObj) : Option String → Except AsmErr (Option Nat)
  | none => .ok none
  | some s => match o.lives.findIdx? (fun x => x.1 == s) with
    | some k => .ok (some k)
    | none => .error .live

/-- One bundle of the object. -/
def AsmObj.bundle (o : AsmObj) (idx : Nat) (c : CodeItem) : Except AsmErr AsmBundle :=
  (o.safeList c.safe).bind fun safe => assembleStmts ⟨o.labels, o.lives.map (·.1), o.code.length, idx⟩ safe c.stmts

/-- The bundles of the object, each error with its line. -/
def AsmObj.bundles (o : AsmObj) : Nat → List CodeItem → Except (Nat × AsmErr) (List (AsmBundle × Nat))
  | _, [] => .ok []
  | idx, c :: r => match o.bundle idx c with
    | .ok b => (o.bundles (idx + 1) r).map ((b, c.line) :: ·)
    | .error e => .error (c.line, e)

/-- The bundle indices of the target list, once each. -/
def AsmObj.targetList (o : AsmObj) : List Nat → List (Nat × String) → Except (Nat × AsmErr) (List Nat)
  | acc, [] => .ok acc
  | acc, (line, s) :: r => match o.labels.find? fun l => l.name == s with
    | some l => if !(l.text && decide (l.val < o.code.length)) then .error (line, .target)
      else o.targetList (if acc.contains l.val then acc else acc ++ [l.val]) r
    | none => .error (line, .unknownLabel)

/-- The data images of the object. -/
def dataImages (ls : List AsmLabel) : List DataItem → Except (Nat × AsmErr) (List (Nat × List Byte))
  | [] => .ok []
  | d :: r => match d.image ls with
    | .ok x => (dataImages ls r).map (x :: ·)
    | .error e => .error (d.line, e)

/-- A header of Table 3-8 with a given HASH; the tables stand one after another behind the bundles. -/
def objHeader (profile flags nbund ncore : Nat) (counts : List Nat) (hash : BitVec 384) : List Byte :=
  let off (k : Nat) : Nat := 0x80 + 16 * nbund + 8 * (counts.take k).sum
  let pair (k : Nat) : List Byte := bytesOf 4 (off k) ++ bytesOf 4 (counts.getD k 0)
  bytesOf 4 0x524D554E ++ bytesOf 2 3 ++ bytesOf 1 profile ++ bytesOf 1 flags ++ bytesOf 4 nbund ++ bytesOf 4 0x80
    ++ pair 0 ++ pair 1 ++ pair 2 ++ pair 3 ++ bytesOf 2 ncore ++ List.replicate 14 0 ++ bytesOf 48 hash.toNat
    ++ List.replicate 16 0

/-- The bytes of an object from its bundles and tables (R352): HASH is computed last, over the object with HASH zero. -/
def emitObject (profile flags ncore : Nat) (code : List Nat) (safe live rel tgt : List Nat) : List Byte :=
  let body := code.flatMap (bytesOf 16) ++ (safe ++ live ++ rel ++ tgt).flatMap (bytesOf 8)
  let hd := objHeader profile flags code.length ncore [safe.length, live.length, rel.length, tgt.length]
  hd (sha384 (hd 0 ++ body)) ++ body

/-- Finish an object: R351's checks of the whole object and R352's emission. -/
def AsmObj.finish (o : AsmObj) (last : Nat) : Except (Nat × AsmErr) AsmOut :=
  if o.inProc then .error (last, .procedure)
  else if o.pending.isSome then .error (last, .lineForm)
  else if o.code.isEmpty || decide (4194304 < o.code.length) then .error (last, .bundleCount)
  else match firstOverlap [] o.data with
    | some l => .error (l, .overlap)
    | none =>
      match o.bundles 0 o.code, o.targetList [] o.targets, dataImages o.labels o.data with
      | .ok bs, .ok tgt, .ok data =>
        let safe := (bs.zipIdx.flatMap fun x => x.1.1.slots.filterMap fun y => safeEntry x.2 y.2)
        let rels := bs.flatMap fun x => x.1.rels
        let ind := bs.find? fun x => x.1.slots.any fun y => isIndirect y.2
        let lat := o.latency.getD (6, false)
        let obj := emitObject lat.1 (b2n lat.2) o.ncore (bs.map (·.1.value)) safe (o.lives.map (·.2)) rels tgt
        match ind, tgt with
        | some x, [] => .error (x.2, .noTargets)
        | _, _ => if (fails04 obj).isNone then .ok ⟨o.name, obj, data⟩ else .error (last, .safePath)
      | .error e, _, _ => .error e
      | _, .error e, _ => .error e
      | _, _, .error e => .error e

/-- Read the lines of a file. -/
def asmLines (p : AsmPass) : Nat → List AsmObj → List (List Char) → Except (Nat × AsmErr) (List AsmObj)
  | _, os, [] => .ok os
  | n, os, l :: r => match (lexLine l).bind (asmLine p n os) with
    | .ok os' => asmLines p (n + 1) os' r
    | .error e => .error (n, e)

/-- The labels that lax readings place, each with those of the readings before it, until no more are; the fuel is the number of lines. -/
def placeLabels (ls : List (List Char)) : Nat → List (List AsmLabel) → List (List AsmLabel)
  | 0, k => k
  | n + 1, k => match asmLines ⟨true, k⟩ 1 [] ls with
    | .ok os =>
      let k' := os.reverse.map AsmObj.sure
      if k' = k then k else placeLabels ls n k'
    | .error _ => k

/-- Finish the objects in order. -/
def finishAll (last : Nat) : List AsmObj → Except (Nat × AsmErr) (List AsmOut)
  | [] => .ok []
  | o :: r => match o.finish last with
    | .ok x => (finishAll last r).map (x :: ·)
    | .error e => .error e

/-- Barold: one source file to its objects, or the line and the first error found. Where a directive names a label before its line, the
labels are placed first (R346). -/
def assemble (source : List Char) : Except (Nat × AsmErr) (List AsmOut) :=
  let ls := splitLines source
  let done (x : Except (Nat × AsmErr) (List AsmObj)) : Except (Nat × AsmErr) (List AsmOut) := match x with
    | .ok os => finishAll ls.length os.reverse
    | .error e => .error e
  match asmLines ⟨false, []⟩ 1 [] ls with
  | .error (_, .unknownLabel) => done (asmLines ⟨false, placeLabels ls (ls.length + 1) []⟩ 1 [] ls)
  | x => done x

end Sys2Proof.Machine
end

