-- ==== Sys2Proof/Laws/Barold.lean ====
section
/-! SUPPORT. What Barold's readers can answer: a statement that is read is a well-formed instruction with its own words, and a
slot is claimed once. -/

namespace Sys2Proof.Machine

/-- A statement Barold reads holds an instruction its entry accepts, with that instruction's encoding. -/
theorem readForm_encodes {env : AsmEnv} {p : FReg} {sufs : List String} {ops : List (List Tok)} {f : AsmForm} {x : AsmStmt}
    (h : readForm env p sufs ops f = .ok x) : x.instr.wf = true ∧ encode x.instr = some x.enc := by
  unfold readForm at h
  split at h
  · cases h
  · split at h
    · cases h
    · dsimp only at h
      split at h
      · rename_i e he
        split at h
        · rename_i hw; cases h; exact ⟨hw, he⟩
        · cases h
      · cases h

theorem firstForm_encodes {env : AsmEnv} {p : FReg} {sufs : List String} {ops : List (List Tok)} {x : AsmStmt} :
    ∀ {fs : List AsmForm} {e : AsmErr}, firstForm env p sufs ops e fs = .ok x → x.instr.wf = true ∧ encode x.instr = some x.enc
  | [], _, h => by cases h
  | f :: fs, e, h => by
    unfold firstForm at h
    split at h
    · rename_i y hy; cases h; exact readForm_encodes hy
    · exact firstForm_encodes h

/-- A claimed slot was free. -/
theorem claim_free {k : Nat} {c : Claim} {l l' : List (Nat × Claim)} (h : claim k c l = .ok l') :
    l' = (k, c) :: l ∧ ∀ x ∈ l, x.1 ≠ k := by
  unfold claim at h
  split at h
  · cases h
  · rename_i hn
    cases h
    refine ⟨rfl, fun x hx hk => hn ?_⟩
    simp only [List.any_eq_true, beq_iff_eq]
    exact ⟨x, hx, hk⟩

/-- The claims of a line's statements name each slot once. -/
theorem claims_nodup : ∀ {ss : List LineStmt} {l l' : List (Nat × Claim)}, (l.map (·.1)).Nodup → claims ss l = .ok l' →
    (l'.map (·.1)).Nodup
  | [], l, l', hl, h => by cases h; exact hl
  | .bareNop :: r, l, l', hl, h => claims_nodup (ss := r) hl h
  | .nopAt k :: r, l, l', hl, h => by
    simp only [claims] at h
    split at h
    · rename_i m hm
      obtain ⟨rfl, hf⟩ := claim_free hm
      refine claims_nodup (ss := r) ?_ h
      simp only [List.map_cons, List.nodup_cons, List.mem_map, not_exists, not_and]
      exact ⟨fun x hx => hf x hx, hl⟩
    · cases h
  | .ins y :: r, l, l', hl, h => by
    simp only [claims] at h
    split at h
    · rename_i m hm
      obtain ⟨rfl, hf⟩ := claim_free hm
      refine claims_nodup (ss := r) ?_ h
      simp only [List.map_cons, List.nodup_cons, List.mem_map, not_exists, not_and]
      exact ⟨fun x hx => hf x hx, hl⟩
    · cases h

end Sys2Proof.Machine
end

