-- ==== Sys2Proof/Laws/State.lean ====
section
/-! SUPPORT. What each named update of the state leaves alone and what it writes: one lemma per field per update, so that no later
proof unfolds a record update. -/

namespace Sys2Proof.Machine

/-! ## A result owed -/

@[simp] theorem Core.owe_regs (c : Core) (lat : Nat) (slot : Fin 4) (d : Dest) (v : Vec) (l : Option (Fin 2)) (rs : List StqRec) : (c.owe lat slot d v l rs).regs = c.regs := rfl
@[simp] theorem Core.owe_csr (c : Core) (lat : Nat) (slot : Fin 4) (d : Dest) (v : Vec) (l : Option (Fin 2)) (rs : List StqRec) : (c.owe lat slot d v l rs).csr = c.csr := rfl
@[simp] theorem Core.owe_dieCyc (c : Core) (lat : Nat) (slot : Fin 4) (d : Dest) (v : Vec) (l : Option (Fin 2)) (rs : List StqRec) : (c.owe lat slot d v l rs).dieCyc = c.dieCyc := rfl
@[simp] theorem Core.owe_shadow (c : Core) (lat : Nat) (slot : Fin 4) (d : Dest) (v : Vec) (l : Option (Fin 2)) (rs : List StqRec) : (c.owe lat slot d v l rs).shadow = c.shadow := rfl
@[simp] theorem Core.owe_srbL (c : Core) (lat : Nat) (slot : Fin 4) (d : Dest) (v : Vec) (l : Option (Fin 2)) (rs : List StqRec) : (c.owe lat slot d v l rs).srbL = c.srbL := rfl
@[simp] theorem Core.owe_setAside (c : Core) (lat : Nat) (slot : Fin 4) (d : Dest) (v : Vec) (l : Option (Fin 2)) (rs : List StqRec) : (c.owe lat slot d v l rs).setAside = c.setAside := rfl
@[simp] theorem Core.owe_trapPc (c : Core) (lat : Nat) (slot : Fin 4) (d : Dest) (v : Vec) (l : Option (Fin 2)) (rs : List StqRec) : (c.owe lat slot d v l rs).trapPc = c.trapPc := rfl
@[simp] theorem Core.owe_lsu (c : Core) (lat : Nat) (slot : Fin 4) (d : Dest) (v : Vec) (l : Option (Fin 2)) (rs : List StqRec) : (c.owe lat slot d v l rs).lsu = c.lsu := rfl
@[simp] theorem Core.owe_chans (c : Core) (lat : Nat) (slot : Fin 4) (d : Dest) (v : Vec) (l : Option (Fin 2)) (rs : List StqRec) : (c.owe lat slot d v l rs).chans = c.chans := rfl
@[simp] theorem Core.owe_tlb (c : Core) (lat : Nat) (slot : Fin 4) (d : Dest) (v : Vec) (l : Option (Fin 2)) (rs : List StqRec) : (c.owe lat slot d v l rs).tlb = c.tlb := rfl
@[simp] theorem Core.owe_icache (c : Core) (lat : Nat) (slot : Fin 4) (d : Dest) (v : Vec) (l : Option (Fin 2)) (rs : List StqRec) : (c.owe lat slot d v l rs).icache = c.icache := rfl
@[simp] theorem Core.owe_lease (c : Core) (lat : Nat) (slot : Fin 4) (d : Dest) (v : Vec) (l : Option (Fin 2)) (rs : List StqRec) : (c.owe lat slot d v l rs).lease = c.lease := rfl
@[simp] theorem Core.owe_leaseAtTrap (c : Core) (lat : Nat) (slot : Fin 4) (d : Dest) (v : Vec) (l : Option (Fin 2)) (rs : List StqRec) : (c.owe lat slot d v l rs).leaseAtTrap = c.leaseAtTrap := rfl
@[simp] theorem Core.owe_grace (c : Core) (lat : Nat) (slot : Fin 4) (d : Dest) (v : Vec) (l : Option (Fin 2)) (rs : List StqRec) : (c.owe lat slot d v l rs).grace = c.grace := rfl
@[simp] theorem Core.owe_reports (c : Core) (lat : Nat) (slot : Fin 4) (d : Dest) (v : Vec) (l : Option (Fin 2)) (rs : List StqRec) : (c.owe lat slot d v l rs).reports = c.reports := rfl
@[simp] theorem Core.owe_task (c : Core) (lat : Nat) (slot : Fin 4) (d : Dest) (v : Vec) (l : Option (Fin 2)) (rs : List StqRec) : (c.owe lat slot d v l rs).task = c.task := rfl
@[simp] theorem Core.owe_code (c : Core) (lat : Nat) (slot : Fin 4) (d : Dest) (v : Vec) (l : Option (Fin 2)) (rs : List StqRec) : (c.owe lat slot d v l rs).code = c.code := rfl
@[simp] theorem Core.owe_pc (c : Core) (lat : Nat) (slot : Fin 4) (d : Dest) (v : Vec) (l : Option (Fin 2)) (rs : List StqRec) : (c.owe lat slot d v l rs).pc = c.pc := rfl
@[simp] theorem Core.owe_stop (c : Core) (lat : Nat) (slot : Fin 4) (d : Dest) (v : Vec) (l : Option (Fin 2)) (rs : List StqRec) : (c.owe lat slot d v l rs).stop = c.stop := rfl
@[simp] theorem Core.owe_debug (c : Core) (lat : Nat) (slot : Fin 4) (d : Dest) (v : Vec) (l : Option (Fin 2)) (rs : List StqRec) : (c.owe lat slot d v l rs).debug = c.debug := rfl
@[simp] theorem Core.owe_wait (c : Core) (lat : Nat) (slot : Fin 4) (d : Dest) (v : Vec) (l : Option (Fin 2)) (rs : List StqRec) : (c.owe lat slot d v l rs).wait = c.wait := rfl
@[simp] theorem Core.owe_lastCtx (c : Core) (lat : Nat) (slot : Fin 4) (d : Dest) (v : Vec) (l : Option (Fin 2)) (rs : List StqRec) : (c.owe lat slot d v l rs).lastCtx = c.lastCtx := rfl
@[simp] theorem Core.owe_seen (c : Core) (lat : Nat) (slot : Fin 4) (d : Dest) (v : Vec) (l : Option (Fin 2)) (rs : List StqRec) : (c.owe lat slot d v l rs).seen = c.seen := rfl
@[simp] theorem Core.owe_past (c : Core) (lat : Nat) (slot : Fin 4) (d : Dest) (v : Vec) (l : Option (Fin 2)) (rs : List StqRec) : (c.owe lat slot d v l rs).past = c.past := rfl
@[simp] theorem Core.owe_lateStop (c : Core) (lat : Nat) (slot : Fin 4) (d : Dest) (v : Vec) (l : Option (Fin 2)) (rs : List StqRec) : (c.owe lat slot d v l rs).lateStop = c.lateStop := rfl
@[simp] theorem Core.owe_empty (c : Core) (lat : Nat) (slot : Fin 4) (d : Dest) (v : Vec) (l : Option (Fin 2)) (rs : List StqRec) : (c.owe lat slot d v l rs).empty = c.empty := rfl
@[simp] theorem Core.owe_leavePc (c : Core) (lat : Nat) (slot : Fin 4) (d : Dest) (v : Vec) (l : Option (Fin 2)) (rs : List StqRec) : (c.owe lat slot d v l rs).leavePc = c.leavePc := rfl
@[simp] theorem Core.owe_serial (c : Core) (lat : Nat) (slot : Fin 4) (d : Dest) (v : Vec) (l : Option (Fin 2)) (rs : List StqRec) : (c.owe lat slot d v l rs).serial = c.serial + 1 := rfl
theorem Core.owe_owed (c : Core) (lat : Nat) (slot : Fin 4) (d : Dest) (v : Vec) (l : Option (Fin 2)) (rs : List StqRec) : (c.owe lat slot d v l rs).owed =
    c.owed ++ [⟨c.serial, c.csr.cycle + lat, slot, d, some v, false, 0, false, 0, l, rs, none⟩] := rfl
theorem Core.oweS_eq (c : Core) (lat : Nat) (slot : Fin 4) (r : SReg) (v : Word) :
    c.oweS lat slot r v = c.owe lat slot (.sreg r) (v.setWidth 1024) := rfl
theorem Core.oweF_eq (c : Core) (slot : Fin 4) (r : FReg) (v : Bool) :
    c.oweF slot r v = c.owe 1 slot (.flag r) (if v then 1 else 0) := rfl

/-! ## Cycles that pass -/

@[simp] theorem Core.pass_regs (c : Core) (n : Nat) : (c.pass n).regs = c.regs := rfl
@[simp] theorem Core.pass_serial (c : Core) (n : Nat) : (c.pass n).serial = c.serial := rfl
@[simp] theorem Core.pass_owed (c : Core) (n : Nat) : (c.pass n).owed = c.owed := rfl
@[simp] theorem Core.pass_shadow (c : Core) (n : Nat) : (c.pass n).shadow = c.shadow := rfl
@[simp] theorem Core.pass_srbL (c : Core) (n : Nat) : (c.pass n).srbL = c.srbL := rfl
@[simp] theorem Core.pass_setAside (c : Core) (n : Nat) : (c.pass n).setAside = c.setAside := rfl
@[simp] theorem Core.pass_trapPc (c : Core) (n : Nat) : (c.pass n).trapPc = c.trapPc := rfl
@[simp] theorem Core.pass_lsu (c : Core) (n : Nat) : (c.pass n).lsu = c.lsu := rfl
@[simp] theorem Core.pass_chans (c : Core) (n : Nat) : (c.pass n).chans = c.chans := rfl
@[simp] theorem Core.pass_tlb (c : Core) (n : Nat) : (c.pass n).tlb = c.tlb := rfl
@[simp] theorem Core.pass_icache (c : Core) (n : Nat) : (c.pass n).icache = c.icache := rfl
@[simp] theorem Core.pass_lease (c : Core) (n : Nat) : (c.pass n).lease = c.lease := rfl
@[simp] theorem Core.pass_leaseAtTrap (c : Core) (n : Nat) : (c.pass n).leaseAtTrap = c.leaseAtTrap := rfl
@[simp] theorem Core.pass_grace (c : Core) (n : Nat) : (c.pass n).grace = c.grace := rfl
@[simp] theorem Core.pass_reports (c : Core) (n : Nat) : (c.pass n).reports = c.reports := rfl
@[simp] theorem Core.pass_task (c : Core) (n : Nat) : (c.pass n).task = c.task := rfl
@[simp] theorem Core.pass_code (c : Core) (n : Nat) : (c.pass n).code = c.code := rfl
@[simp] theorem Core.pass_pc (c : Core) (n : Nat) : (c.pass n).pc = c.pc := rfl
@[simp] theorem Core.pass_stop (c : Core) (n : Nat) : (c.pass n).stop = c.stop := rfl
@[simp] theorem Core.pass_debug (c : Core) (n : Nat) : (c.pass n).debug = c.debug := rfl
@[simp] theorem Core.pass_wait (c : Core) (n : Nat) : (c.pass n).wait = c.wait := rfl
@[simp] theorem Core.pass_lastCtx (c : Core) (n : Nat) : (c.pass n).lastCtx = c.lastCtx := rfl
@[simp] theorem Core.pass_seen (c : Core) (n : Nat) : (c.pass n).seen = c.seen := rfl
@[simp] theorem Core.pass_past (c : Core) (n : Nat) : (c.pass n).past = c.past := rfl
@[simp] theorem Core.pass_lateStop (c : Core) (n : Nat) : (c.pass n).lateStop = c.lateStop := rfl
@[simp] theorem Core.pass_empty (c : Core) (n : Nat) : (c.pass n).empty = c.empty := rfl
@[simp] theorem Core.pass_leavePc (c : Core) (n : Nat) : (c.pass n).leavePc = c.leavePc := rfl
@[simp] theorem Core.pass_dieCyc (c : Core) (n : Nat) : (c.pass n).dieCyc = c.dieCyc + n := rfl
@[simp] theorem Core.pass_mode (c : Core) (n : Nat) : (c.pass n).csr.mode = c.csr.mode := rfl
@[simp] theorem Core.pass_slend (c : Core) (n : Nat) : (c.pass n).csr.slend = c.csr.slend := rfl
@[simp] theorem Core.pass_ipIpi (c : Core) (n : Nat) : (c.pass n).csr.ipIpi = c.csr.ipIpi := rfl
@[simp] theorem Core.pass_cause (c : Core) (n : Nat) : (c.pass n).csr.cause = c.csr.cause := rfl
@[simp] theorem Core.pass_epc (c : Core) (n : Nat) : (c.pass n).csr.epc = c.csr.epc := rfl
@[simp] theorem Core.pass_eval (c : Core) (n : Nat) : (c.pass n).csr.eval = c.csr.eval := rfl
@[simp] theorem Core.pass_evec (c : Core) (n : Nat) : (c.pass n).csr.evec = c.csr.evec := rfl
@[simp] theorem Core.pass_scratch (c : Core) (n : Nat) : (c.pass n).csr.scratch = c.csr.scratch := rfl
@[simp] theorem Core.pass_timecmp (c : Core) (n : Nat) : (c.pass n).csr.timecmp = c.csr.timecmp := rfl
@[simp] theorem Core.pass_accown (c : Core) (n : Nat) : (c.pass n).csr.accown = c.csr.accown := rfl
@[simp] theorem Core.pass_accdirty (c : Core) (n : Nat) : (c.pass n).csr.accdirty = c.csr.accdirty := rfl
@[simp] theorem Core.pass_compat (c : Core) (n : Nat) : (c.pass n).csr.compat = c.csr.compat := rfl
@[simp] theorem Core.pass_cfrz (c : Core) (n : Nat) : (c.pass n).csr.cfrz = c.csr.cfrz := rfl
@[simp] theorem Core.pass_bundles (c : Core) (n : Nat) : (c.pass n).csr.bundles = c.csr.bundles := rfl
@[simp] theorem Core.pass_freezecnt (c : Core) (n : Nat) : (c.pass n).csr.freezecnt = c.csr.freezecnt := rfl
@[simp] theorem Core.pass_bankstall (c : Core) (n : Nat) : (c.pass n).csr.bankstall = c.csr.bankstall := rfl
@[simp] theorem Core.pass_cycle (c : Core) (n : Nat) : (c.pass n).csr.cycle = c.csr.cycle + n := rfl
@[simp] theorem Core.freeze_regs (c : Core) (n : Nat) : (c.freeze n).regs = c.regs := rfl
@[simp] theorem Core.freeze_serial (c : Core) (n : Nat) : (c.freeze n).serial = c.serial := rfl
@[simp] theorem Core.freeze_owed (c : Core) (n : Nat) : (c.freeze n).owed = c.owed := rfl
@[simp] theorem Core.freeze_shadow (c : Core) (n : Nat) : (c.freeze n).shadow = c.shadow := rfl
@[simp] theorem Core.freeze_srbL (c : Core) (n : Nat) : (c.freeze n).srbL = c.srbL := rfl
@[simp] theorem Core.freeze_setAside (c : Core) (n : Nat) : (c.freeze n).setAside = c.setAside := rfl
@[simp] theorem Core.freeze_trapPc (c : Core) (n : Nat) : (c.freeze n).trapPc = c.trapPc := rfl
@[simp] theorem Core.freeze_lsu (c : Core) (n : Nat) : (c.freeze n).lsu = c.lsu := rfl
@[simp] theorem Core.freeze_chans (c : Core) (n : Nat) : (c.freeze n).chans = c.chans := rfl
@[simp] theorem Core.freeze_tlb (c : Core) (n : Nat) : (c.freeze n).tlb = c.tlb := rfl
@[simp] theorem Core.freeze_icache (c : Core) (n : Nat) : (c.freeze n).icache = c.icache := rfl
@[simp] theorem Core.freeze_lease (c : Core) (n : Nat) : (c.freeze n).lease = c.lease := rfl
@[simp] theorem Core.freeze_leaseAtTrap (c : Core) (n : Nat) : (c.freeze n).leaseAtTrap = c.leaseAtTrap := rfl
@[simp] theorem Core.freeze_grace (c : Core) (n : Nat) : (c.freeze n).grace = c.grace := rfl
@[simp] theorem Core.freeze_reports (c : Core) (n : Nat) : (c.freeze n).reports = c.reports := rfl
@[simp] theorem Core.freeze_task (c : Core) (n : Nat) : (c.freeze n).task = c.task := rfl
@[simp] theorem Core.freeze_code (c : Core) (n : Nat) : (c.freeze n).code = c.code := rfl
@[simp] theorem Core.freeze_pc (c : Core) (n : Nat) : (c.freeze n).pc = c.pc := rfl
@[simp] theorem Core.freeze_stop (c : Core) (n : Nat) : (c.freeze n).stop = c.stop := rfl
@[simp] theorem Core.freeze_debug (c : Core) (n : Nat) : (c.freeze n).debug = c.debug := rfl
@[simp] theorem Core.freeze_wait (c : Core) (n : Nat) : (c.freeze n).wait = c.wait := rfl
@[simp] theorem Core.freeze_lastCtx (c : Core) (n : Nat) : (c.freeze n).lastCtx = c.lastCtx := rfl
@[simp] theorem Core.freeze_seen (c : Core) (n : Nat) : (c.freeze n).seen = c.seen := rfl
@[simp] theorem Core.freeze_past (c : Core) (n : Nat) : (c.freeze n).past = c.past := rfl
@[simp] theorem Core.freeze_lateStop (c : Core) (n : Nat) : (c.freeze n).lateStop = c.lateStop := rfl
@[simp] theorem Core.freeze_empty (c : Core) (n : Nat) : (c.freeze n).empty = c.empty := rfl
@[simp] theorem Core.freeze_leavePc (c : Core) (n : Nat) : (c.freeze n).leavePc = c.leavePc := rfl
@[simp] theorem Core.freeze_dieCyc (c : Core) (n : Nat) : (c.freeze n).dieCyc = c.dieCyc + n := rfl
@[simp] theorem Core.freeze_mode (c : Core) (n : Nat) : (c.freeze n).csr.mode = c.csr.mode := rfl
@[simp] theorem Core.freeze_slend (c : Core) (n : Nat) : (c.freeze n).csr.slend = c.csr.slend := rfl
@[simp] theorem Core.freeze_ipIpi (c : Core) (n : Nat) : (c.freeze n).csr.ipIpi = c.csr.ipIpi := rfl
@[simp] theorem Core.freeze_cause (c : Core) (n : Nat) : (c.freeze n).csr.cause = c.csr.cause := rfl
@[simp] theorem Core.freeze_epc (c : Core) (n : Nat) : (c.freeze n).csr.epc = c.csr.epc := rfl
@[simp] theorem Core.freeze_eval (c : Core) (n : Nat) : (c.freeze n).csr.eval = c.csr.eval := rfl
@[simp] theorem Core.freeze_evec (c : Core) (n : Nat) : (c.freeze n).csr.evec = c.csr.evec := rfl
@[simp] theorem Core.freeze_scratch (c : Core) (n : Nat) : (c.freeze n).csr.scratch = c.csr.scratch := rfl
@[simp] theorem Core.freeze_timecmp (c : Core) (n : Nat) : (c.freeze n).csr.timecmp = c.csr.timecmp := rfl
@[simp] theorem Core.freeze_accown (c : Core) (n : Nat) : (c.freeze n).csr.accown = c.csr.accown := rfl
@[simp] theorem Core.freeze_accdirty (c : Core) (n : Nat) : (c.freeze n).csr.accdirty = c.csr.accdirty := rfl
@[simp] theorem Core.freeze_compat (c : Core) (n : Nat) : (c.freeze n).csr.compat = c.csr.compat := rfl
@[simp] theorem Core.freeze_cfrz (c : Core) (n : Nat) : (c.freeze n).csr.cfrz = c.csr.cfrz := rfl
@[simp] theorem Core.freeze_bundles (c : Core) (n : Nat) : (c.freeze n).csr.bundles = c.csr.bundles := rfl
@[simp] theorem Core.freeze_bankstall (c : Core) (n : Nat) : (c.freeze n).csr.bankstall = c.csr.bankstall := rfl
@[simp] theorem Core.freeze_cycle (c : Core) (n : Nat) : (c.freeze n).csr.cycle = c.csr.cycle := rfl
@[simp] theorem Core.freeze_ipTimer (c : Core) (n : Nat) : (c.freeze n).csr.ipTimer = c.csr.ipTimer := rfl
@[simp] theorem Core.freeze_tstat (c : Core) (n : Nat) : (c.freeze n).csr.tstat = c.csr.tstat := rfl
@[simp] theorem Core.freeze_freezecnt (c : Core) (n : Nat) : (c.freeze n).csr.freezecnt = c.csr.freezecnt + n := rfl

/-! ## Register writes -/

@[simp] theorem Core.setS_csr (c : Core) (r : SReg) (v : Word) : (c.setS r v).csr = c.csr := by
  unfold Core.setS; split <;> rfl
@[simp] theorem Core.setS_dieCyc (c : Core) (r : SReg) (v : Word) : (c.setS r v).dieCyc = c.dieCyc := by
  unfold Core.setS; split <;> rfl
@[simp] theorem Core.setS_serial (c : Core) (r : SReg) (v : Word) : (c.setS r v).serial = c.serial := by
  unfold Core.setS; split <;> rfl
@[simp] theorem Core.setS_owed (c : Core) (r : SReg) (v : Word) : (c.setS r v).owed = c.owed := by
  unfold Core.setS; split <;> rfl
@[simp] theorem Core.setS_shadow (c : Core) (r : SReg) (v : Word) : (c.setS r v).shadow = c.shadow := by
  unfold Core.setS; split <;> rfl
@[simp] theorem Core.setS_srbL (c : Core) (r : SReg) (v : Word) : (c.setS r v).srbL = c.srbL := by
  unfold Core.setS; split <;> rfl
@[simp] theorem Core.setS_setAside (c : Core) (r : SReg) (v : Word) : (c.setS r v).setAside = c.setAside := by
  unfold Core.setS; split <;> rfl
@[simp] theorem Core.setS_trapPc (c : Core) (r : SReg) (v : Word) : (c.setS r v).trapPc = c.trapPc := by
  unfold Core.setS; split <;> rfl
@[simp] theorem Core.setS_lsu (c : Core) (r : SReg) (v : Word) : (c.setS r v).lsu = c.lsu := by
  unfold Core.setS; split <;> rfl
@[simp] theorem Core.setS_chans (c : Core) (r : SReg) (v : Word) : (c.setS r v).chans = c.chans := by
  unfold Core.setS; split <;> rfl
@[simp] theorem Core.setS_tlb (c : Core) (r : SReg) (v : Word) : (c.setS r v).tlb = c.tlb := by
  unfold Core.setS; split <;> rfl
@[simp] theorem Core.setS_icache (c : Core) (r : SReg) (v : Word) : (c.setS r v).icache = c.icache := by
  unfold Core.setS; split <;> rfl
@[simp] theorem Core.setS_lease (c : Core) (r : SReg) (v : Word) : (c.setS r v).lease = c.lease := by
  unfold Core.setS; split <;> rfl
@[simp] theorem Core.setS_leaseAtTrap (c : Core) (r : SReg) (v : Word) : (c.setS r v).leaseAtTrap = c.leaseAtTrap := by
  unfold Core.setS; split <;> rfl
@[simp] theorem Core.setS_grace (c : Core) (r : SReg) (v : Word) : (c.setS r v).grace = c.grace := by
  unfold Core.setS; split <;> rfl
@[simp] theorem Core.setS_reports (c : Core) (r : SReg) (v : Word) : (c.setS r v).reports = c.reports := by
  unfold Core.setS; split <;> rfl
@[simp] theorem Core.setS_task (c : Core) (r : SReg) (v : Word) : (c.setS r v).task = c.task := by
  unfold Core.setS; split <;> rfl
@[simp] theorem Core.setS_code (c : Core) (r : SReg) (v : Word) : (c.setS r v).code = c.code := by
  unfold Core.setS; split <;> rfl
@[simp] theorem Core.setS_pc (c : Core) (r : SReg) (v : Word) : (c.setS r v).pc = c.pc := by
  unfold Core.setS; split <;> rfl
@[simp] theorem Core.setS_stop (c : Core) (r : SReg) (v : Word) : (c.setS r v).stop = c.stop := by
  unfold Core.setS; split <;> rfl
@[simp] theorem Core.setS_debug (c : Core) (r : SReg) (v : Word) : (c.setS r v).debug = c.debug := by
  unfold Core.setS; split <;> rfl
@[simp] theorem Core.setS_wait (c : Core) (r : SReg) (v : Word) : (c.setS r v).wait = c.wait := by
  unfold Core.setS; split <;> rfl
@[simp] theorem Core.setS_lastCtx (c : Core) (r : SReg) (v : Word) : (c.setS r v).lastCtx = c.lastCtx := by
  unfold Core.setS; split <;> rfl
@[simp] theorem Core.setS_seen (c : Core) (r : SReg) (v : Word) : (c.setS r v).seen = c.seen := by
  unfold Core.setS; split <;> rfl
@[simp] theorem Core.setS_past (c : Core) (r : SReg) (v : Word) : (c.setS r v).past = c.past := by
  unfold Core.setS; split <;> rfl
@[simp] theorem Core.setS_lateStop (c : Core) (r : SReg) (v : Word) : (c.setS r v).lateStop = c.lateStop := by
  unfold Core.setS; split <;> rfl
@[simp] theorem Core.setS_empty (c : Core) (r : SReg) (v : Word) : (c.setS r v).empty = c.empty := by
  unfold Core.setS; split <;> rfl
@[simp] theorem Core.setS_leavePc (c : Core) (r : SReg) (v : Word) : (c.setS r v).leavePc = c.leavePc := by
  unfold Core.setS; split <;> rfl
@[simp] theorem Core.setF_csr (c : Core) (r : FReg) (v : Bool) : (c.setF r v).csr = c.csr := by
  unfold Core.setF; split <;> rfl
@[simp] theorem Core.setF_dieCyc (c : Core) (r : FReg) (v : Bool) : (c.setF r v).dieCyc = c.dieCyc := by
  unfold Core.setF; split <;> rfl
@[simp] theorem Core.setF_serial (c : Core) (r : FReg) (v : Bool) : (c.setF r v).serial = c.serial := by
  unfold Core.setF; split <;> rfl
@[simp] theorem Core.setF_owed (c : Core) (r : FReg) (v : Bool) : (c.setF r v).owed = c.owed := by
  unfold Core.setF; split <;> rfl
@[simp] theorem Core.setF_shadow (c : Core) (r : FReg) (v : Bool) : (c.setF r v).shadow = c.shadow := by
  unfold Core.setF; split <;> rfl
@[simp] theorem Core.setF_srbL (c : Core) (r : FReg) (v : Bool) : (c.setF r v).srbL = c.srbL := by
  unfold Core.setF; split <;> rfl
@[simp] theorem Core.setF_setAside (c : Core) (r : FReg) (v : Bool) : (c.setF r v).setAside = c.setAside := by
  unfold Core.setF; split <;> rfl
@[simp] theorem Core.setF_trapPc (c : Core) (r : FReg) (v : Bool) : (c.setF r v).trapPc = c.trapPc := by
  unfold Core.setF; split <;> rfl
@[simp] theorem Core.setF_lsu (c : Core) (r : FReg) (v : Bool) : (c.setF r v).lsu = c.lsu := by
  unfold Core.setF; split <;> rfl
@[simp] theorem Core.setF_chans (c : Core) (r : FReg) (v : Bool) : (c.setF r v).chans = c.chans := by
  unfold Core.setF; split <;> rfl
@[simp] theorem Core.setF_tlb (c : Core) (r : FReg) (v : Bool) : (c.setF r v).tlb = c.tlb := by
  unfold Core.setF; split <;> rfl
@[simp] theorem Core.setF_icache (c : Core) (r : FReg) (v : Bool) : (c.setF r v).icache = c.icache := by
  unfold Core.setF; split <;> rfl
@[simp] theorem Core.setF_lease (c : Core) (r : FReg) (v : Bool) : (c.setF r v).lease = c.lease := by
  unfold Core.setF; split <;> rfl
@[simp] theorem Core.setF_leaseAtTrap (c : Core) (r : FReg) (v : Bool) : (c.setF r v).leaseAtTrap = c.leaseAtTrap := by
  unfold Core.setF; split <;> rfl
@[simp] theorem Core.setF_grace (c : Core) (r : FReg) (v : Bool) : (c.setF r v).grace = c.grace := by
  unfold Core.setF; split <;> rfl
@[simp] theorem Core.setF_reports (c : Core) (r : FReg) (v : Bool) : (c.setF r v).reports = c.reports := by
  unfold Core.setF; split <;> rfl
@[simp] theorem Core.setF_task (c : Core) (r : FReg) (v : Bool) : (c.setF r v).task = c.task := by
  unfold Core.setF; split <;> rfl
@[simp] theorem Core.setF_code (c : Core) (r : FReg) (v : Bool) : (c.setF r v).code = c.code := by
  unfold Core.setF; split <;> rfl
@[simp] theorem Core.setF_pc (c : Core) (r : FReg) (v : Bool) : (c.setF r v).pc = c.pc := by
  unfold Core.setF; split <;> rfl
@[simp] theorem Core.setF_stop (c : Core) (r : FReg) (v : Bool) : (c.setF r v).stop = c.stop := by
  unfold Core.setF; split <;> rfl
@[simp] theorem Core.setF_debug (c : Core) (r : FReg) (v : Bool) : (c.setF r v).debug = c.debug := by
  unfold Core.setF; split <;> rfl
@[simp] theorem Core.setF_wait (c : Core) (r : FReg) (v : Bool) : (c.setF r v).wait = c.wait := by
  unfold Core.setF; split <;> rfl
@[simp] theorem Core.setF_lastCtx (c : Core) (r : FReg) (v : Bool) : (c.setF r v).lastCtx = c.lastCtx := by
  unfold Core.setF; split <;> rfl
@[simp] theorem Core.setF_seen (c : Core) (r : FReg) (v : Bool) : (c.setF r v).seen = c.seen := by
  unfold Core.setF; split <;> rfl
@[simp] theorem Core.setF_past (c : Core) (r : FReg) (v : Bool) : (c.setF r v).past = c.past := by
  unfold Core.setF; split <;> rfl
@[simp] theorem Core.setF_lateStop (c : Core) (r : FReg) (v : Bool) : (c.setF r v).lateStop = c.lateStop := by
  unfold Core.setF; split <;> rfl
@[simp] theorem Core.setF_empty (c : Core) (r : FReg) (v : Bool) : (c.setF r v).empty = c.empty := by
  unfold Core.setF; split <;> rfl
@[simp] theorem Core.setF_leavePc (c : Core) (r : FReg) (v : Bool) : (c.setF r v).leavePc = c.leavePc := by
  unfold Core.setF; split <;> rfl
@[simp] theorem Core.setM_csr (c : Core) (r : MReg) (v : Lane) : (c.setM r v).csr = c.csr := rfl
@[simp] theorem Core.setM_dieCyc (c : Core) (r : MReg) (v : Lane) : (c.setM r v).dieCyc = c.dieCyc := rfl
@[simp] theorem Core.setM_serial (c : Core) (r : MReg) (v : Lane) : (c.setM r v).serial = c.serial := rfl
@[simp] theorem Core.setM_owed (c : Core) (r : MReg) (v : Lane) : (c.setM r v).owed = c.owed := rfl
@[simp] theorem Core.setM_shadow (c : Core) (r : MReg) (v : Lane) : (c.setM r v).shadow = c.shadow := rfl
@[simp] theorem Core.setM_srbL (c : Core) (r : MReg) (v : Lane) : (c.setM r v).srbL = c.srbL := rfl
@[simp] theorem Core.setM_setAside (c : Core) (r : MReg) (v : Lane) : (c.setM r v).setAside = c.setAside := rfl
@[simp] theorem Core.setM_trapPc (c : Core) (r : MReg) (v : Lane) : (c.setM r v).trapPc = c.trapPc := rfl
@[simp] theorem Core.setM_lsu (c : Core) (r : MReg) (v : Lane) : (c.setM r v).lsu = c.lsu := rfl
@[simp] theorem Core.setM_chans (c : Core) (r : MReg) (v : Lane) : (c.setM r v).chans = c.chans := rfl
@[simp] theorem Core.setM_tlb (c : Core) (r : MReg) (v : Lane) : (c.setM r v).tlb = c.tlb := rfl
@[simp] theorem Core.setM_icache (c : Core) (r : MReg) (v : Lane) : (c.setM r v).icache = c.icache := rfl
@[simp] theorem Core.setM_lease (c : Core) (r : MReg) (v : Lane) : (c.setM r v).lease = c.lease := rfl
@[simp] theorem Core.setM_leaseAtTrap (c : Core) (r : MReg) (v : Lane) : (c.setM r v).leaseAtTrap = c.leaseAtTrap := rfl
@[simp] theorem Core.setM_grace (c : Core) (r : MReg) (v : Lane) : (c.setM r v).grace = c.grace := rfl
@[simp] theorem Core.setM_reports (c : Core) (r : MReg) (v : Lane) : (c.setM r v).reports = c.reports := rfl
@[simp] theorem Core.setM_task (c : Core) (r : MReg) (v : Lane) : (c.setM r v).task = c.task := rfl
@[simp] theorem Core.setM_code (c : Core) (r : MReg) (v : Lane) : (c.setM r v).code = c.code := rfl
@[simp] theorem Core.setM_pc (c : Core) (r : MReg) (v : Lane) : (c.setM r v).pc = c.pc := rfl
@[simp] theorem Core.setM_stop (c : Core) (r : MReg) (v : Lane) : (c.setM r v).stop = c.stop := rfl
@[simp] theorem Core.setM_debug (c : Core) (r : MReg) (v : Lane) : (c.setM r v).debug = c.debug := rfl
@[simp] theorem Core.setM_wait (c : Core) (r : MReg) (v : Lane) : (c.setM r v).wait = c.wait := rfl
@[simp] theorem Core.setM_lastCtx (c : Core) (r : MReg) (v : Lane) : (c.setM r v).lastCtx = c.lastCtx := rfl
@[simp] theorem Core.setM_seen (c : Core) (r : MReg) (v : Lane) : (c.setM r v).seen = c.seen := rfl
@[simp] theorem Core.setM_past (c : Core) (r : MReg) (v : Lane) : (c.setM r v).past = c.past := rfl
@[simp] theorem Core.setM_lateStop (c : Core) (r : MReg) (v : Lane) : (c.setM r v).lateStop = c.lateStop := rfl
@[simp] theorem Core.setM_empty (c : Core) (r : MReg) (v : Lane) : (c.setM r v).empty = c.empty := rfl
@[simp] theorem Core.setM_leavePc (c : Core) (r : MReg) (v : Lane) : (c.setM r v).leavePc = c.leavePc := rfl
@[simp] theorem Core.setN_csr (c : Core) (k : Fin 4) (v : Word) : (c.setN k v).csr = c.csr := rfl
@[simp] theorem Core.setN_dieCyc (c : Core) (k : Fin 4) (v : Word) : (c.setN k v).dieCyc = c.dieCyc := rfl
@[simp] theorem Core.setN_serial (c : Core) (k : Fin 4) (v : Word) : (c.setN k v).serial = c.serial := rfl
@[simp] theorem Core.setN_owed (c : Core) (k : Fin 4) (v : Word) : (c.setN k v).owed = c.owed := rfl
@[simp] theorem Core.setN_shadow (c : Core) (k : Fin 4) (v : Word) : (c.setN k v).shadow = c.shadow := rfl
@[simp] theorem Core.setN_srbL (c : Core) (k : Fin 4) (v : Word) : (c.setN k v).srbL = c.srbL := rfl
@[simp] theorem Core.setN_setAside (c : Core) (k : Fin 4) (v : Word) : (c.setN k v).setAside = c.setAside := rfl
@[simp] theorem Core.setN_trapPc (c : Core) (k : Fin 4) (v : Word) : (c.setN k v).trapPc = c.trapPc := rfl
@[simp] theorem Core.setN_lsu (c : Core) (k : Fin 4) (v : Word) : (c.setN k v).lsu = c.lsu := rfl
@[simp] theorem Core.setN_chans (c : Core) (k : Fin 4) (v : Word) : (c.setN k v).chans = c.chans := rfl
@[simp] theorem Core.setN_tlb (c : Core) (k : Fin 4) (v : Word) : (c.setN k v).tlb = c.tlb := rfl
@[simp] theorem Core.setN_icache (c : Core) (k : Fin 4) (v : Word) : (c.setN k v).icache = c.icache := rfl
@[simp] theorem Core.setN_lease (c : Core) (k : Fin 4) (v : Word) : (c.setN k v).lease = c.lease := rfl
@[simp] theorem Core.setN_leaseAtTrap (c : Core) (k : Fin 4) (v : Word) : (c.setN k v).leaseAtTrap = c.leaseAtTrap := rfl
@[simp] theorem Core.setN_grace (c : Core) (k : Fin 4) (v : Word) : (c.setN k v).grace = c.grace := rfl
@[simp] theorem Core.setN_reports (c : Core) (k : Fin 4) (v : Word) : (c.setN k v).reports = c.reports := rfl
@[simp] theorem Core.setN_task (c : Core) (k : Fin 4) (v : Word) : (c.setN k v).task = c.task := rfl
@[simp] theorem Core.setN_code (c : Core) (k : Fin 4) (v : Word) : (c.setN k v).code = c.code := rfl
@[simp] theorem Core.setN_pc (c : Core) (k : Fin 4) (v : Word) : (c.setN k v).pc = c.pc := rfl
@[simp] theorem Core.setN_stop (c : Core) (k : Fin 4) (v : Word) : (c.setN k v).stop = c.stop := rfl
@[simp] theorem Core.setN_debug (c : Core) (k : Fin 4) (v : Word) : (c.setN k v).debug = c.debug := rfl
@[simp] theorem Core.setN_wait (c : Core) (k : Fin 4) (v : Word) : (c.setN k v).wait = c.wait := rfl
@[simp] theorem Core.setN_lastCtx (c : Core) (k : Fin 4) (v : Word) : (c.setN k v).lastCtx = c.lastCtx := rfl
@[simp] theorem Core.setN_seen (c : Core) (k : Fin 4) (v : Word) : (c.setN k v).seen = c.seen := rfl
@[simp] theorem Core.setN_past (c : Core) (k : Fin 4) (v : Word) : (c.setN k v).past = c.past := rfl
@[simp] theorem Core.setN_lateStop (c : Core) (k : Fin 4) (v : Word) : (c.setN k v).lateStop = c.lateStop := rfl
@[simp] theorem Core.setN_empty (c : Core) (k : Fin 4) (v : Word) : (c.setN k v).empty = c.empty := rfl
@[simp] theorem Core.setN_leavePc (c : Core) (k : Fin 4) (v : Word) : (c.setN k v).leavePc = c.leavePc := rfl
@[simp] theorem Core.setQ_csr (c : Core) (k : Fin 16) (l : List QEntry) : (c.setQ k l).csr = c.csr := rfl
@[simp] theorem Core.setQ_dieCyc (c : Core) (k : Fin 16) (l : List QEntry) : (c.setQ k l).dieCyc = c.dieCyc := rfl
@[simp] theorem Core.setQ_serial (c : Core) (k : Fin 16) (l : List QEntry) : (c.setQ k l).serial = c.serial := rfl
@[simp] theorem Core.setQ_owed (c : Core) (k : Fin 16) (l : List QEntry) : (c.setQ k l).owed = c.owed := rfl
@[simp] theorem Core.setQ_shadow (c : Core) (k : Fin 16) (l : List QEntry) : (c.setQ k l).shadow = c.shadow := rfl
@[simp] theorem Core.setQ_srbL (c : Core) (k : Fin 16) (l : List QEntry) : (c.setQ k l).srbL = c.srbL := rfl
@[simp] theorem Core.setQ_setAside (c : Core) (k : Fin 16) (l : List QEntry) : (c.setQ k l).setAside = c.setAside := rfl
@[simp] theorem Core.setQ_trapPc (c : Core) (k : Fin 16) (l : List QEntry) : (c.setQ k l).trapPc = c.trapPc := rfl
@[simp] theorem Core.setQ_lsu (c : Core) (k : Fin 16) (l : List QEntry) : (c.setQ k l).lsu = c.lsu := rfl
@[simp] theorem Core.setQ_chans (c : Core) (k : Fin 16) (l : List QEntry) : (c.setQ k l).chans = c.chans := rfl
@[simp] theorem Core.setQ_tlb (c : Core) (k : Fin 16) (l : List QEntry) : (c.setQ k l).tlb = c.tlb := rfl
@[simp] theorem Core.setQ_icache (c : Core) (k : Fin 16) (l : List QEntry) : (c.setQ k l).icache = c.icache := rfl
@[simp] theorem Core.setQ_lease (c : Core) (k : Fin 16) (l : List QEntry) : (c.setQ k l).lease = c.lease := rfl
@[simp] theorem Core.setQ_leaseAtTrap (c : Core) (k : Fin 16) (l : List QEntry) : (c.setQ k l).leaseAtTrap = c.leaseAtTrap := rfl
@[simp] theorem Core.setQ_grace (c : Core) (k : Fin 16) (l : List QEntry) : (c.setQ k l).grace = c.grace := rfl
@[simp] theorem Core.setQ_reports (c : Core) (k : Fin 16) (l : List QEntry) : (c.setQ k l).reports = c.reports := rfl
@[simp] theorem Core.setQ_task (c : Core) (k : Fin 16) (l : List QEntry) : (c.setQ k l).task = c.task := rfl
@[simp] theorem Core.setQ_code (c : Core) (k : Fin 16) (l : List QEntry) : (c.setQ k l).code = c.code := rfl
@[simp] theorem Core.setQ_pc (c : Core) (k : Fin 16) (l : List QEntry) : (c.setQ k l).pc = c.pc := rfl
@[simp] theorem Core.setQ_stop (c : Core) (k : Fin 16) (l : List QEntry) : (c.setQ k l).stop = c.stop := rfl
@[simp] theorem Core.setQ_debug (c : Core) (k : Fin 16) (l : List QEntry) : (c.setQ k l).debug = c.debug := rfl
@[simp] theorem Core.setQ_wait (c : Core) (k : Fin 16) (l : List QEntry) : (c.setQ k l).wait = c.wait := rfl
@[simp] theorem Core.setQ_lastCtx (c : Core) (k : Fin 16) (l : List QEntry) : (c.setQ k l).lastCtx = c.lastCtx := rfl
@[simp] theorem Core.setQ_seen (c : Core) (k : Fin 16) (l : List QEntry) : (c.setQ k l).seen = c.seen := rfl
@[simp] theorem Core.setQ_past (c : Core) (k : Fin 16) (l : List QEntry) : (c.setQ k l).past = c.past := rfl
@[simp] theorem Core.setQ_lateStop (c : Core) (k : Fin 16) (l : List QEntry) : (c.setQ k l).lateStop = c.lateStop := rfl
@[simp] theorem Core.setQ_empty (c : Core) (k : Fin 16) (l : List QEntry) : (c.setQ k l).empty = c.empty := rfl
@[simp] theorem Core.setQ_leavePc (c : Core) (k : Fin 16) (l : List QEntry) : (c.setQ k l).leavePc = c.leavePc := rfl
@[simp] theorem Core.setS_regs_f (c : Core) (r : SReg) (v : Word) : (c.setS r v).regs.f = c.regs.f := by
  unfold Core.setS; split <;> rfl
@[simp] theorem Core.setS_regs_fbind (c : Core) (r : SReg) (v : Word) : (c.setS r v).regs.fbind = c.regs.fbind := by
  unfold Core.setS; split <;> rfl
@[simp] theorem Core.setS_regs_m (c : Core) (r : SReg) (v : Word) : (c.setS r v).regs.m = c.regs.m := by
  unfold Core.setS; split <;> rfl
@[simp] theorem Core.setS_regs_n (c : Core) (r : SReg) (v : Word) : (c.setS r v).regs.n = c.regs.n := by
  unfold Core.setS; split <;> rfl
@[simp] theorem Core.setS_regs_q (c : Core) (r : SReg) (v : Word) : (c.setS r v).regs.q = c.regs.q := by
  unfold Core.setS; split <;> rfl
@[simp] theorem Core.setS_regs_l (c : Core) (r : SReg) (v : Word) : (c.setS r v).regs.l = c.regs.l := by
  unfold Core.setS; split <;> rfl
@[simp] theorem Core.setS_regs_ac (c : Core) (r : SReg) (v : Word) : (c.setS r v).regs.ac = c.regs.ac := by
  unfold Core.setS; split <;> rfl
@[simp] theorem Core.setS_regs_tag (c : Core) (r : SReg) (v : Word) : (c.setS r v).regs.tag = c.regs.tag := by
  unfold Core.setS; split <;> rfl
@[simp] theorem Core.setS_regs_fr (c : Core) (r : SReg) (v : Word) : (c.setS r v).regs.fr = c.regs.fr := by
  unfold Core.setS; split <;> rfl
@[simp] theorem Core.setS_regs_b (c : Core) (r : SReg) (v : Word) : (c.setS r v).regs.b = c.regs.b := by
  unfold Core.setS; split <;> rfl
@[simp] theorem Core.setS_regs_ag (c : Core) (r : SReg) (v : Word) : (c.setS r v).regs.ag = c.regs.ag := by
  unfold Core.setS; split <;> rfl
@[simp] theorem Core.setS_regs_cb (c : Core) (r : SReg) (v : Word) : (c.setS r v).regs.cb = c.regs.cb := by
  unfold Core.setS; split <;> rfl
@[simp] theorem Core.setS_regs_loops (c : Core) (r : SReg) (v : Word) : (c.setS r v).regs.loops = c.regs.loops := by
  unfold Core.setS; split <;> rfl
@[simp] theorem Core.setS_regs_tr (c : Core) (r : SReg) (v : Word) : (c.setS r v).regs.tr = c.regs.tr := by
  unfold Core.setS; split <;> rfl
@[simp] theorem Core.setS_regs_stq (c : Core) (r : SReg) (v : Word) : (c.setS r v).regs.stq = c.regs.stq := by
  unfold Core.setS; split <;> rfl
@[simp] theorem Core.setS_regs_lost (c : Core) (r : SReg) (v : Word) : (c.setS r v).regs.lost = c.regs.lost := by
  unfold Core.setS; split <;> rfl
@[simp] theorem Core.setS_regs_bars (c : Core) (r : SReg) (v : Word) : (c.setS r v).regs.bars = c.regs.bars := by
  unfold Core.setS; split <;> rfl
@[simp] theorem Core.setF_regs_s (c : Core) (r : FReg) (v : Bool) : (c.setF r v).regs.s = c.regs.s := by
  unfold Core.setF; split <;> rfl
@[simp] theorem Core.setF_regs_m (c : Core) (r : FReg) (v : Bool) : (c.setF r v).regs.m = c.regs.m := by
  unfold Core.setF; split <;> rfl
@[simp] theorem Core.setF_regs_n (c : Core) (r : FReg) (v : Bool) : (c.setF r v).regs.n = c.regs.n := by
  unfold Core.setF; split <;> rfl
@[simp] theorem Core.setF_regs_q (c : Core) (r : FReg) (v : Bool) : (c.setF r v).regs.q = c.regs.q := by
  unfold Core.setF; split <;> rfl
@[simp] theorem Core.setF_regs_l (c : Core) (r : FReg) (v : Bool) : (c.setF r v).regs.l = c.regs.l := by
  unfold Core.setF; split <;> rfl
@[simp] theorem Core.setF_regs_ac (c : Core) (r : FReg) (v : Bool) : (c.setF r v).regs.ac = c.regs.ac := by
  unfold Core.setF; split <;> rfl
@[simp] theorem Core.setF_regs_tag (c : Core) (r : FReg) (v : Bool) : (c.setF r v).regs.tag = c.regs.tag := by
  unfold Core.setF; split <;> rfl
@[simp] theorem Core.setF_regs_fr (c : Core) (r : FReg) (v : Bool) : (c.setF r v).regs.fr = c.regs.fr := by
  unfold Core.setF; split <;> rfl
@[simp] theorem Core.setF_regs_b (c : Core) (r : FReg) (v : Bool) : (c.setF r v).regs.b = c.regs.b := by
  unfold Core.setF; split <;> rfl
@[simp] theorem Core.setF_regs_ag (c : Core) (r : FReg) (v : Bool) : (c.setF r v).regs.ag = c.regs.ag := by
  unfold Core.setF; split <;> rfl
@[simp] theorem Core.setF_regs_cb (c : Core) (r : FReg) (v : Bool) : (c.setF r v).regs.cb = c.regs.cb := by
  unfold Core.setF; split <;> rfl
@[simp] theorem Core.setF_regs_loops (c : Core) (r : FReg) (v : Bool) : (c.setF r v).regs.loops = c.regs.loops := by
  unfold Core.setF; split <;> rfl
@[simp] theorem Core.setF_regs_tr (c : Core) (r : FReg) (v : Bool) : (c.setF r v).regs.tr = c.regs.tr := by
  unfold Core.setF; split <;> rfl
@[simp] theorem Core.setF_regs_stq (c : Core) (r : FReg) (v : Bool) : (c.setF r v).regs.stq = c.regs.stq := by
  unfold Core.setF; split <;> rfl
@[simp] theorem Core.setF_regs_lost (c : Core) (r : FReg) (v : Bool) : (c.setF r v).regs.lost = c.regs.lost := by
  unfold Core.setF; split <;> rfl
@[simp] theorem Core.setF_regs_bars (c : Core) (r : FReg) (v : Bool) : (c.setF r v).regs.bars = c.regs.bars := by
  unfold Core.setF; split <;> rfl
@[simp] theorem Core.setM_regs_s (c : Core) (r : MReg) (v : Lane) : (c.setM r v).regs.s = c.regs.s := rfl
@[simp] theorem Core.setM_regs_f (c : Core) (r : MReg) (v : Lane) : (c.setM r v).regs.f = c.regs.f := rfl
@[simp] theorem Core.setM_regs_fbind (c : Core) (r : MReg) (v : Lane) : (c.setM r v).regs.fbind = c.regs.fbind := rfl
@[simp] theorem Core.setM_regs_n (c : Core) (r : MReg) (v : Lane) : (c.setM r v).regs.n = c.regs.n := rfl
@[simp] theorem Core.setM_regs_q (c : Core) (r : MReg) (v : Lane) : (c.setM r v).regs.q = c.regs.q := rfl
@[simp] theorem Core.setM_regs_l (c : Core) (r : MReg) (v : Lane) : (c.setM r v).regs.l = c.regs.l := rfl
@[simp] theorem Core.setM_regs_ac (c : Core) (r : MReg) (v : Lane) : (c.setM r v).regs.ac = c.regs.ac := rfl
@[simp] theorem Core.setM_regs_tag (c : Core) (r : MReg) (v : Lane) : (c.setM r v).regs.tag = c.regs.tag := rfl
@[simp] theorem Core.setM_regs_fr (c : Core) (r : MReg) (v : Lane) : (c.setM r v).regs.fr = c.regs.fr := rfl
@[simp] theorem Core.setM_regs_b (c : Core) (r : MReg) (v : Lane) : (c.setM r v).regs.b = c.regs.b := rfl
@[simp] theorem Core.setM_regs_ag (c : Core) (r : MReg) (v : Lane) : (c.setM r v).regs.ag = c.regs.ag := rfl
@[simp] theorem Core.setM_regs_cb (c : Core) (r : MReg) (v : Lane) : (c.setM r v).regs.cb = c.regs.cb := rfl
@[simp] theorem Core.setM_regs_loops (c : Core) (r : MReg) (v : Lane) : (c.setM r v).regs.loops = c.regs.loops := rfl
@[simp] theorem Core.setM_regs_tr (c : Core) (r : MReg) (v : Lane) : (c.setM r v).regs.tr = c.regs.tr := rfl
@[simp] theorem Core.setM_regs_stq (c : Core) (r : MReg) (v : Lane) : (c.setM r v).regs.stq = c.regs.stq := rfl
@[simp] theorem Core.setM_regs_lost (c : Core) (r : MReg) (v : Lane) : (c.setM r v).regs.lost = c.regs.lost := rfl
@[simp] theorem Core.setM_regs_bars (c : Core) (r : MReg) (v : Lane) : (c.setM r v).regs.bars = c.regs.bars := rfl
@[simp] theorem Core.setN_regs_s (c : Core) (k : Fin 4) (v : Word) : (c.setN k v).regs.s = c.regs.s := rfl
@[simp] theorem Core.setN_regs_f (c : Core) (k : Fin 4) (v : Word) : (c.setN k v).regs.f = c.regs.f := rfl
@[simp] theorem Core.setN_regs_fbind (c : Core) (k : Fin 4) (v : Word) : (c.setN k v).regs.fbind = c.regs.fbind := rfl
@[simp] theorem Core.setN_regs_m (c : Core) (k : Fin 4) (v : Word) : (c.setN k v).regs.m = c.regs.m := rfl
@[simp] theorem Core.setN_regs_q (c : Core) (k : Fin 4) (v : Word) : (c.setN k v).regs.q = c.regs.q := rfl
@[simp] theorem Core.setN_regs_l (c : Core) (k : Fin 4) (v : Word) : (c.setN k v).regs.l = c.regs.l := rfl
@[simp] theorem Core.setN_regs_ac (c : Core) (k : Fin 4) (v : Word) : (c.setN k v).regs.ac = c.regs.ac := rfl
@[simp] theorem Core.setN_regs_tag (c : Core) (k : Fin 4) (v : Word) : (c.setN k v).regs.tag = c.regs.tag := rfl
@[simp] theorem Core.setN_regs_fr (c : Core) (k : Fin 4) (v : Word) : (c.setN k v).regs.fr = c.regs.fr := rfl
@[simp] theorem Core.setN_regs_b (c : Core) (k : Fin 4) (v : Word) : (c.setN k v).regs.b = c.regs.b := rfl
@[simp] theorem Core.setN_regs_ag (c : Core) (k : Fin 4) (v : Word) : (c.setN k v).regs.ag = c.regs.ag := rfl
@[simp] theorem Core.setN_regs_cb (c : Core) (k : Fin 4) (v : Word) : (c.setN k v).regs.cb = c.regs.cb := rfl
@[simp] theorem Core.setN_regs_loops (c : Core) (k : Fin 4) (v : Word) : (c.setN k v).regs.loops = c.regs.loops := rfl
@[simp] theorem Core.setN_regs_tr (c : Core) (k : Fin 4) (v : Word) : (c.setN k v).regs.tr = c.regs.tr := rfl
@[simp] theorem Core.setN_regs_stq (c : Core) (k : Fin 4) (v : Word) : (c.setN k v).regs.stq = c.regs.stq := rfl
@[simp] theorem Core.setN_regs_lost (c : Core) (k : Fin 4) (v : Word) : (c.setN k v).regs.lost = c.regs.lost := rfl
@[simp] theorem Core.setN_regs_bars (c : Core) (k : Fin 4) (v : Word) : (c.setN k v).regs.bars = c.regs.bars := rfl
@[simp] theorem Core.setQ_regs_s (c : Core) (k : Fin 16) (l : List QEntry) : (c.setQ k l).regs.s = c.regs.s := rfl
@[simp] theorem Core.setQ_regs_f (c : Core) (k : Fin 16) (l : List QEntry) : (c.setQ k l).regs.f = c.regs.f := rfl
@[simp] theorem Core.setQ_regs_fbind (c : Core) (k : Fin 16) (l : List QEntry) : (c.setQ k l).regs.fbind = c.regs.fbind := rfl
@[simp] theorem Core.setQ_regs_m (c : Core) (k : Fin 16) (l : List QEntry) : (c.setQ k l).regs.m = c.regs.m := rfl
@[simp] theorem Core.setQ_regs_n (c : Core) (k : Fin 16) (l : List QEntry) : (c.setQ k l).regs.n = c.regs.n := rfl
@[simp] theorem Core.setQ_regs_l (c : Core) (k : Fin 16) (l : List QEntry) : (c.setQ k l).regs.l = c.regs.l := rfl
@[simp] theorem Core.setQ_regs_ac (c : Core) (k : Fin 16) (l : List QEntry) : (c.setQ k l).regs.ac = c.regs.ac := rfl
@[simp] theorem Core.setQ_regs_tag (c : Core) (k : Fin 16) (l : List QEntry) : (c.setQ k l).regs.tag = c.regs.tag := rfl
@[simp] theorem Core.setQ_regs_fr (c : Core) (k : Fin 16) (l : List QEntry) : (c.setQ k l).regs.fr = c.regs.fr := rfl
@[simp] theorem Core.setQ_regs_b (c : Core) (k : Fin 16) (l : List QEntry) : (c.setQ k l).regs.b = c.regs.b := rfl
@[simp] theorem Core.setQ_regs_ag (c : Core) (k : Fin 16) (l : List QEntry) : (c.setQ k l).regs.ag = c.regs.ag := rfl
@[simp] theorem Core.setQ_regs_cb (c : Core) (k : Fin 16) (l : List QEntry) : (c.setQ k l).regs.cb = c.regs.cb := rfl
@[simp] theorem Core.setQ_regs_loops (c : Core) (k : Fin 16) (l : List QEntry) : (c.setQ k l).regs.loops = c.regs.loops := rfl
@[simp] theorem Core.setQ_regs_tr (c : Core) (k : Fin 16) (l : List QEntry) : (c.setQ k l).regs.tr = c.regs.tr := rfl
@[simp] theorem Core.setQ_regs_stq (c : Core) (k : Fin 16) (l : List QEntry) : (c.setQ k l).regs.stq = c.regs.stq := rfl
@[simp] theorem Core.setQ_regs_lost (c : Core) (k : Fin 16) (l : List QEntry) : (c.setQ k l).regs.lost = c.regs.lost := rfl
@[simp] theorem Core.setQ_regs_bars (c : Core) (k : Fin 16) (l : List QEntry) : (c.setQ k l).regs.bars = c.regs.bars := rfl

/-! ## Named updates of the machine -/

@[simp] theorem State.draw_cur (s : State)  : (s.draw).cur = s.cur := rfl
@[simp] theorem State.draw_c (s : State)  : (s.draw).c = s.c := rfl
@[simp] theorem State.draw_others (s : State)  : (s.draw).others = s.others := rfl
@[simp] theorem State.draw_clusters (s : State)  : (s.draw).clusters = s.clusters := rfl
@[simp] theorem State.draw_mem (s : State)  : (s.draw).mem = s.mem := rfl
@[simp] theorem State.draw_ext (s : State)  : (s.draw).ext = s.ext := rfl
@[simp] theorem State.draw_poison (s : State)  : (s.draw).poison = s.poison := rfl
@[simp] theorem State.draw_failed (s : State)  : (s.draw).failed = s.failed := rfl
@[simp] theorem State.draw_mpe (s : State)  : (s.draw).mpe = s.mpe := rfl
@[simp] theorem State.draw_owners (s : State)  : (s.draw).owners = s.owners := rfl
@[simp] theorem State.draw_vds (s : State)  : (s.draw).vds = s.vds := rfl
@[simp] theorem State.draw_wins (s : State)  : (s.draw).wins = s.wins := rfl
@[simp] theorem State.draw_reds (s : State)  : (s.draw).reds = s.reds := rfl
@[simp] theorem State.draw_cbinvs (s : State)  : (s.draw).cbinvs = s.cbinvs := rfl
@[simp] theorem State.draw_arrivals (s : State)  : (s.draw).arrivals = s.arrivals := rfl
@[simp] theorem State.draw_pkg (s : State)  : (s.draw).pkg = s.pkg := rfl
@[simp] theorem State.draw_inputs (s : State)  : (s.draw).inputs = s.inputs := rfl
@[simp] theorem State.draw_outbox (s : State)  : (s.draw).outbox = s.outbox := rfl
@[simp] theorem State.draw_disp (s : State)  : (s.draw).disp = s.disp := rfl
@[simp] theorem State.draw_late (s : State)  : (s.draw).late = s.late := rfl
@[simp] theorem State.draw_writes (s : State)  : (s.draw).writes = s.writes := rfl
@[simp] theorem State.draw_winOp (s : State)  : (s.draw).winOp = s.winOp := rfl
@[simp] theorem State.draw_deferred (s : State)  : (s.draw).deferred = s.deferred := rfl
@[simp] theorem State.draw_iss (s : State)  : (s.draw).iss = s.iss := rfl
@[simp] theorem State.draw_fresh (s : State) : s.draw.fresh = s.fresh + 1 := rfl
@[simp] theorem State.tick_cur (s : State)  : (s.tick).cur = s.cur := rfl
@[simp] theorem State.tick_c (s : State)  : (s.tick).c = s.c := rfl
@[simp] theorem State.tick_others (s : State)  : (s.tick).others = s.others := rfl
@[simp] theorem State.tick_clusters (s : State)  : (s.tick).clusters = s.clusters := rfl
@[simp] theorem State.tick_mem (s : State)  : (s.tick).mem = s.mem := rfl
@[simp] theorem State.tick_ext (s : State)  : (s.tick).ext = s.ext := rfl
@[simp] theorem State.tick_poison (s : State)  : (s.tick).poison = s.poison := rfl
@[simp] theorem State.tick_failed (s : State)  : (s.tick).failed = s.failed := rfl
@[simp] theorem State.tick_mpe (s : State)  : (s.tick).mpe = s.mpe := rfl
@[simp] theorem State.tick_owners (s : State)  : (s.tick).owners = s.owners := rfl
@[simp] theorem State.tick_vds (s : State)  : (s.tick).vds = s.vds := rfl
@[simp] theorem State.tick_wins (s : State)  : (s.tick).wins = s.wins := rfl
@[simp] theorem State.tick_reds (s : State)  : (s.tick).reds = s.reds := rfl
@[simp] theorem State.tick_cbinvs (s : State)  : (s.tick).cbinvs = s.cbinvs := rfl
@[simp] theorem State.tick_arrivals (s : State)  : (s.tick).arrivals = s.arrivals := rfl
@[simp] theorem State.tick_inputs (s : State)  : (s.tick).inputs = s.inputs := rfl
@[simp] theorem State.tick_outbox (s : State)  : (s.tick).outbox = s.outbox := rfl
@[simp] theorem State.tick_disp (s : State)  : (s.tick).disp = s.disp := rfl
@[simp] theorem State.tick_late (s : State)  : (s.tick).late = s.late := rfl
@[simp] theorem State.tick_writes (s : State)  : (s.tick).writes = s.writes := rfl
@[simp] theorem State.tick_winOp (s : State)  : (s.tick).winOp = s.winOp := rfl
@[simp] theorem State.tick_deferred (s : State)  : (s.tick).deferred = s.deferred := rfl
@[simp] theorem State.tick_iss (s : State)  : (s.tick).iss = s.iss := rfl
@[simp] theorem State.send_cur (s : State) (m : Msg) : (s.send m).cur = s.cur := rfl
@[simp] theorem State.send_c (s : State) (m : Msg) : (s.send m).c = s.c := rfl
@[simp] theorem State.send_others (s : State) (m : Msg) : (s.send m).others = s.others := rfl
@[simp] theorem State.send_clusters (s : State) (m : Msg) : (s.send m).clusters = s.clusters := rfl
@[simp] theorem State.send_mem (s : State) (m : Msg) : (s.send m).mem = s.mem := rfl
@[simp] theorem State.send_ext (s : State) (m : Msg) : (s.send m).ext = s.ext := rfl
@[simp] theorem State.send_poison (s : State) (m : Msg) : (s.send m).poison = s.poison := rfl
@[simp] theorem State.send_failed (s : State) (m : Msg) : (s.send m).failed = s.failed := rfl
@[simp] theorem State.send_mpe (s : State) (m : Msg) : (s.send m).mpe = s.mpe := rfl
@[simp] theorem State.send_owners (s : State) (m : Msg) : (s.send m).owners = s.owners := rfl
@[simp] theorem State.send_vds (s : State) (m : Msg) : (s.send m).vds = s.vds := rfl
@[simp] theorem State.send_wins (s : State) (m : Msg) : (s.send m).wins = s.wins := rfl
@[simp] theorem State.send_reds (s : State) (m : Msg) : (s.send m).reds = s.reds := rfl
@[simp] theorem State.send_cbinvs (s : State) (m : Msg) : (s.send m).cbinvs = s.cbinvs := rfl
@[simp] theorem State.send_arrivals (s : State) (m : Msg) : (s.send m).arrivals = s.arrivals := rfl
@[simp] theorem State.send_pkg (s : State) (m : Msg) : (s.send m).pkg = s.pkg := rfl
@[simp] theorem State.send_inputs (s : State) (m : Msg) : (s.send m).inputs = s.inputs := rfl
@[simp] theorem State.send_fresh (s : State) (m : Msg) : (s.send m).fresh = s.fresh := rfl
@[simp] theorem State.send_disp (s : State) (m : Msg) : (s.send m).disp = s.disp := rfl
@[simp] theorem State.send_late (s : State) (m : Msg) : (s.send m).late = s.late := rfl
@[simp] theorem State.send_writes (s : State) (m : Msg) : (s.send m).writes = s.writes := rfl
@[simp] theorem State.send_winOp (s : State) (m : Msg) : (s.send m).winOp = s.winOp := rfl
@[simp] theorem State.send_deferred (s : State) (m : Msg) : (s.send m).deferred = s.deferred := rfl
@[simp] theorem State.send_iss (s : State) (m : Msg) : (s.send m).iss = s.iss := rfl
@[simp] theorem State.send_outbox (s : State) (m : Msg) : (s.send m).outbox = s.outbox ++ [m] := rfl
@[simp] theorem State.markPoison_cur (s : State) (b : Nat) : (s.markPoison b).cur = s.cur := rfl
@[simp] theorem State.markPoison_c (s : State) (b : Nat) : (s.markPoison b).c = s.c := rfl
@[simp] theorem State.markPoison_others (s : State) (b : Nat) : (s.markPoison b).others = s.others := rfl
@[simp] theorem State.markPoison_clusters (s : State) (b : Nat) : (s.markPoison b).clusters = s.clusters := rfl
@[simp] theorem State.markPoison_mem (s : State) (b : Nat) : (s.markPoison b).mem = s.mem := rfl
@[simp] theorem State.markPoison_ext (s : State) (b : Nat) : (s.markPoison b).ext = s.ext := rfl
@[simp] theorem State.markPoison_failed (s : State) (b : Nat) : (s.markPoison b).failed = s.failed := rfl
@[simp] theorem State.markPoison_mpe (s : State) (b : Nat) : (s.markPoison b).mpe = s.mpe := rfl
@[simp] theorem State.markPoison_owners (s : State) (b : Nat) : (s.markPoison b).owners = s.owners := rfl
@[simp] theorem State.markPoison_vds (s : State) (b : Nat) : (s.markPoison b).vds = s.vds := rfl
@[simp] theorem State.markPoison_wins (s : State) (b : Nat) : (s.markPoison b).wins = s.wins := rfl
@[simp] theorem State.markPoison_reds (s : State) (b : Nat) : (s.markPoison b).reds = s.reds := rfl
@[simp] theorem State.markPoison_cbinvs (s : State) (b : Nat) : (s.markPoison b).cbinvs = s.cbinvs := rfl
@[simp] theorem State.markPoison_arrivals (s : State) (b : Nat) : (s.markPoison b).arrivals = s.arrivals := rfl
@[simp] theorem State.markPoison_pkg (s : State) (b : Nat) : (s.markPoison b).pkg = s.pkg := rfl
@[simp] theorem State.markPoison_inputs (s : State) (b : Nat) : (s.markPoison b).inputs = s.inputs := rfl
@[simp] theorem State.markPoison_outbox (s : State) (b : Nat) : (s.markPoison b).outbox = s.outbox := rfl
@[simp] theorem State.markPoison_fresh (s : State) (b : Nat) : (s.markPoison b).fresh = s.fresh := rfl
@[simp] theorem State.markPoison_disp (s : State) (b : Nat) : (s.markPoison b).disp = s.disp := rfl
@[simp] theorem State.markPoison_late (s : State) (b : Nat) : (s.markPoison b).late = s.late := rfl
@[simp] theorem State.markPoison_writes (s : State) (b : Nat) : (s.markPoison b).writes = s.writes := rfl
@[simp] theorem State.markPoison_winOp (s : State) (b : Nat) : (s.markPoison b).winOp = s.winOp := rfl
@[simp] theorem State.markPoison_deferred (s : State) (b : Nat) : (s.markPoison b).deferred = s.deferred := rfl
@[simp] theorem State.markPoison_iss (s : State) (b : Nat) : (s.markPoison b).iss = s.iss := rfl
@[simp] theorem State.endIssue_cur (s : State)  : (s.endIssue).cur = s.cur := rfl
@[simp] theorem State.endIssue_c (s : State)  : (s.endIssue).c = s.c := rfl
@[simp] theorem State.endIssue_others (s : State)  : (s.endIssue).others = s.others := rfl
@[simp] theorem State.endIssue_clusters (s : State)  : (s.endIssue).clusters = s.clusters := rfl
@[simp] theorem State.endIssue_mem (s : State)  : (s.endIssue).mem = s.mem := rfl
@[simp] theorem State.endIssue_ext (s : State)  : (s.endIssue).ext = s.ext := rfl
@[simp] theorem State.endIssue_poison (s : State)  : (s.endIssue).poison = s.poison := rfl
@[simp] theorem State.endIssue_failed (s : State)  : (s.endIssue).failed = s.failed := rfl
@[simp] theorem State.endIssue_mpe (s : State)  : (s.endIssue).mpe = s.mpe := rfl
@[simp] theorem State.endIssue_owners (s : State)  : (s.endIssue).owners = s.owners := rfl
@[simp] theorem State.endIssue_vds (s : State)  : (s.endIssue).vds = s.vds := rfl
@[simp] theorem State.endIssue_wins (s : State)  : (s.endIssue).wins = s.wins := rfl
@[simp] theorem State.endIssue_reds (s : State)  : (s.endIssue).reds = s.reds := rfl
@[simp] theorem State.endIssue_cbinvs (s : State)  : (s.endIssue).cbinvs = s.cbinvs := rfl
@[simp] theorem State.endIssue_arrivals (s : State)  : (s.endIssue).arrivals = s.arrivals := rfl
@[simp] theorem State.endIssue_pkg (s : State)  : (s.endIssue).pkg = s.pkg := rfl
@[simp] theorem State.endIssue_inputs (s : State)  : (s.endIssue).inputs = s.inputs := rfl
@[simp] theorem State.endIssue_outbox (s : State)  : (s.endIssue).outbox = s.outbox := rfl
@[simp] theorem State.endIssue_fresh (s : State)  : (s.endIssue).fresh = s.fresh := rfl
@[simp] theorem State.endIssue_disp (s : State)  : (s.endIssue).disp = s.disp := rfl
@[simp] theorem State.endIssue_late (s : State)  : (s.endIssue).late = s.late := rfl
@[simp] theorem State.endIssue_writes (s : State)  : (s.endIssue).writes = s.writes := rfl
@[simp] theorem State.endIssue_winOp (s : State)  : (s.endIssue).winOp = s.winOp := rfl
@[simp] theorem State.endIssue_deferred (s : State)  : (s.endIssue).deferred = s.deferred := rfl
@[simp] theorem State.applyAt_cur (s : State) (ids : List Nat) (dies : BitVec 4) : (s.applyAt ids dies).cur = s.cur := rfl
@[simp] theorem State.applyAt_c (s : State) (ids : List Nat) (dies : BitVec 4) : (s.applyAt ids dies).c = s.c := rfl
@[simp] theorem State.applyAt_others (s : State) (ids : List Nat) (dies : BitVec 4) : (s.applyAt ids dies).others = s.others := rfl
@[simp] theorem State.applyAt_clusters (s : State) (ids : List Nat) (dies : BitVec 4) : (s.applyAt ids dies).clusters = s.clusters := rfl
@[simp] theorem State.applyAt_mem (s : State) (ids : List Nat) (dies : BitVec 4) : (s.applyAt ids dies).mem = s.mem := rfl
@[simp] theorem State.applyAt_ext (s : State) (ids : List Nat) (dies : BitVec 4) : (s.applyAt ids dies).ext = s.ext := rfl
@[simp] theorem State.applyAt_poison (s : State) (ids : List Nat) (dies : BitVec 4) : (s.applyAt ids dies).poison = s.poison := rfl
@[simp] theorem State.applyAt_failed (s : State) (ids : List Nat) (dies : BitVec 4) : (s.applyAt ids dies).failed = s.failed := rfl
@[simp] theorem State.applyAt_mpe (s : State) (ids : List Nat) (dies : BitVec 4) : (s.applyAt ids dies).mpe = s.mpe := rfl
@[simp] theorem State.applyAt_owners (s : State) (ids : List Nat) (dies : BitVec 4) : (s.applyAt ids dies).owners = s.owners := rfl
@[simp] theorem State.applyAt_vds (s : State) (ids : List Nat) (dies : BitVec 4) : (s.applyAt ids dies).vds = s.vds := rfl
@[simp] theorem State.applyAt_wins (s : State) (ids : List Nat) (dies : BitVec 4) : (s.applyAt ids dies).wins = s.wins := rfl
@[simp] theorem State.applyAt_reds (s : State) (ids : List Nat) (dies : BitVec 4) : (s.applyAt ids dies).reds = s.reds := rfl
@[simp] theorem State.applyAt_cbinvs (s : State) (ids : List Nat) (dies : BitVec 4) : (s.applyAt ids dies).cbinvs = s.cbinvs := rfl
@[simp] theorem State.applyAt_arrivals (s : State) (ids : List Nat) (dies : BitVec 4) : (s.applyAt ids dies).arrivals = s.arrivals := rfl
@[simp] theorem State.applyAt_pkg (s : State) (ids : List Nat) (dies : BitVec 4) : (s.applyAt ids dies).pkg = s.pkg := rfl
@[simp] theorem State.applyAt_inputs (s : State) (ids : List Nat) (dies : BitVec 4) : (s.applyAt ids dies).inputs = s.inputs := rfl
@[simp] theorem State.applyAt_outbox (s : State) (ids : List Nat) (dies : BitVec 4) : (s.applyAt ids dies).outbox = s.outbox := rfl
@[simp] theorem State.applyAt_fresh (s : State) (ids : List Nat) (dies : BitVec 4) : (s.applyAt ids dies).fresh = s.fresh := rfl
@[simp] theorem State.applyAt_disp (s : State) (ids : List Nat) (dies : BitVec 4) : (s.applyAt ids dies).disp = s.disp := rfl
@[simp] theorem State.applyAt_writes (s : State) (ids : List Nat) (dies : BitVec 4) : (s.applyAt ids dies).writes = s.writes := rfl
@[simp] theorem State.applyAt_winOp (s : State) (ids : List Nat) (dies : BitVec 4) : (s.applyAt ids dies).winOp = s.winOp := rfl
@[simp] theorem State.applyAt_deferred (s : State) (ids : List Nat) (dies : BitVec 4) : (s.applyAt ids dies).deferred = s.deferred := rfl
@[simp] theorem State.applyAt_iss (s : State) (ids : List Nat) (dies : BitVec 4) : (s.applyAt ids dies).iss = s.iss := rfl
@[simp] theorem State.flush_cur (s : State) (p : Late → Bool) : (s.flush p).cur = s.cur := rfl
@[simp] theorem State.flush_c (s : State) (p : Late → Bool) : (s.flush p).c = s.c := rfl
@[simp] theorem State.flush_others (s : State) (p : Late → Bool) : (s.flush p).others = s.others := rfl
@[simp] theorem State.flush_clusters (s : State) (p : Late → Bool) : (s.flush p).clusters = s.clusters := rfl
@[simp] theorem State.flush_mem (s : State) (p : Late → Bool) : (s.flush p).mem = s.mem := rfl
@[simp] theorem State.flush_ext (s : State) (p : Late → Bool) : (s.flush p).ext = s.ext := rfl
@[simp] theorem State.flush_poison (s : State) (p : Late → Bool) : (s.flush p).poison = s.poison := rfl
@[simp] theorem State.flush_failed (s : State) (p : Late → Bool) : (s.flush p).failed = s.failed := rfl
@[simp] theorem State.flush_mpe (s : State) (p : Late → Bool) : (s.flush p).mpe = s.mpe := rfl
@[simp] theorem State.flush_owners (s : State) (p : Late → Bool) : (s.flush p).owners = s.owners := rfl
@[simp] theorem State.flush_vds (s : State) (p : Late → Bool) : (s.flush p).vds = s.vds := rfl
@[simp] theorem State.flush_wins (s : State) (p : Late → Bool) : (s.flush p).wins = s.wins := rfl
@[simp] theorem State.flush_reds (s : State) (p : Late → Bool) : (s.flush p).reds = s.reds := rfl
@[simp] theorem State.flush_cbinvs (s : State) (p : Late → Bool) : (s.flush p).cbinvs = s.cbinvs := rfl
@[simp] theorem State.flush_arrivals (s : State) (p : Late → Bool) : (s.flush p).arrivals = s.arrivals := rfl
@[simp] theorem State.flush_pkg (s : State) (p : Late → Bool) : (s.flush p).pkg = s.pkg := rfl
@[simp] theorem State.flush_inputs (s : State) (p : Late → Bool) : (s.flush p).inputs = s.inputs := rfl
@[simp] theorem State.flush_outbox (s : State) (p : Late → Bool) : (s.flush p).outbox = s.outbox := rfl
@[simp] theorem State.flush_fresh (s : State) (p : Late → Bool) : (s.flush p).fresh = s.fresh := rfl
@[simp] theorem State.flush_disp (s : State) (p : Late → Bool) : (s.flush p).disp = s.disp := rfl
@[simp] theorem State.flush_writes (s : State) (p : Late → Bool) : (s.flush p).writes = s.writes := rfl
@[simp] theorem State.flush_winOp (s : State) (p : Late → Bool) : (s.flush p).winOp = s.winOp := rfl
@[simp] theorem State.flush_deferred (s : State) (p : Late → Bool) : (s.flush p).deferred = s.deferred := rfl
@[simp] theorem State.flush_iss (s : State) (p : Late → Bool) : (s.flush p).iss = s.iss := rfl
@[simp] theorem State.catchUp_cur (s : State) (die : Nat) (bs : List Nat) : (s.catchUp die bs).cur = s.cur := rfl
@[simp] theorem State.catchUp_c (s : State) (die : Nat) (bs : List Nat) : (s.catchUp die bs).c = s.c := rfl
@[simp] theorem State.catchUp_others (s : State) (die : Nat) (bs : List Nat) : (s.catchUp die bs).others = s.others := rfl
@[simp] theorem State.catchUp_clusters (s : State) (die : Nat) (bs : List Nat) : (s.catchUp die bs).clusters = s.clusters := rfl
@[simp] theorem State.catchUp_mem (s : State) (die : Nat) (bs : List Nat) : (s.catchUp die bs).mem = s.mem := rfl
@[simp] theorem State.catchUp_ext (s : State) (die : Nat) (bs : List Nat) : (s.catchUp die bs).ext = s.ext := rfl
@[simp] theorem State.catchUp_poison (s : State) (die : Nat) (bs : List Nat) : (s.catchUp die bs).poison = s.poison := rfl
@[simp] theorem State.catchUp_failed (s : State) (die : Nat) (bs : List Nat) : (s.catchUp die bs).failed = s.failed := rfl
@[simp] theorem State.catchUp_mpe (s : State) (die : Nat) (bs : List Nat) : (s.catchUp die bs).mpe = s.mpe := rfl
@[simp] theorem State.catchUp_owners (s : State) (die : Nat) (bs : List Nat) : (s.catchUp die bs).owners = s.owners := rfl
@[simp] theorem State.catchUp_vds (s : State) (die : Nat) (bs : List Nat) : (s.catchUp die bs).vds = s.vds := rfl
@[simp] theorem State.catchUp_wins (s : State) (die : Nat) (bs : List Nat) : (s.catchUp die bs).wins = s.wins := rfl
@[simp] theorem State.catchUp_reds (s : State) (die : Nat) (bs : List Nat) : (s.catchUp die bs).reds = s.reds := rfl
@[simp] theorem State.catchUp_cbinvs (s : State) (die : Nat) (bs : List Nat) : (s.catchUp die bs).cbinvs = s.cbinvs := rfl
@[simp] theorem State.catchUp_arrivals (s : State) (die : Nat) (bs : List Nat) : (s.catchUp die bs).arrivals = s.arrivals := rfl
@[simp] theorem State.catchUp_pkg (s : State) (die : Nat) (bs : List Nat) : (s.catchUp die bs).pkg = s.pkg := rfl
@[simp] theorem State.catchUp_inputs (s : State) (die : Nat) (bs : List Nat) : (s.catchUp die bs).inputs = s.inputs := rfl
@[simp] theorem State.catchUp_outbox (s : State) (die : Nat) (bs : List Nat) : (s.catchUp die bs).outbox = s.outbox := rfl
@[simp] theorem State.catchUp_fresh (s : State) (die : Nat) (bs : List Nat) : (s.catchUp die bs).fresh = s.fresh := rfl
@[simp] theorem State.catchUp_disp (s : State) (die : Nat) (bs : List Nat) : (s.catchUp die bs).disp = s.disp := rfl
@[simp] theorem State.catchUp_writes (s : State) (die : Nat) (bs : List Nat) : (s.catchUp die bs).writes = s.writes := rfl
@[simp] theorem State.catchUp_winOp (s : State) (die : Nat) (bs : List Nat) : (s.catchUp die bs).winOp = s.winOp := rfl
@[simp] theorem State.catchUp_deferred (s : State) (die : Nat) (bs : List Nat) : (s.catchUp die bs).deferred = s.deferred := rfl
@[simp] theorem State.catchUp_iss (s : State) (die : Nat) (bs : List Nat) : (s.catchUp die bs).iss = s.iss := rfl
@[simp] theorem State.supersede_cur (s : State) (a n : Nat) : (s.supersede a n).cur = s.cur := rfl
@[simp] theorem State.supersede_c (s : State) (a n : Nat) : (s.supersede a n).c = s.c := rfl
@[simp] theorem State.supersede_others (s : State) (a n : Nat) : (s.supersede a n).others = s.others := rfl
@[simp] theorem State.supersede_clusters (s : State) (a n : Nat) : (s.supersede a n).clusters = s.clusters := rfl
@[simp] theorem State.supersede_mem (s : State) (a n : Nat) : (s.supersede a n).mem = s.mem := rfl
@[simp] theorem State.supersede_ext (s : State) (a n : Nat) : (s.supersede a n).ext = s.ext := rfl
@[simp] theorem State.supersede_poison (s : State) (a n : Nat) : (s.supersede a n).poison = s.poison := rfl
@[simp] theorem State.supersede_failed (s : State) (a n : Nat) : (s.supersede a n).failed = s.failed := rfl
@[simp] theorem State.supersede_mpe (s : State) (a n : Nat) : (s.supersede a n).mpe = s.mpe := rfl
@[simp] theorem State.supersede_owners (s : State) (a n : Nat) : (s.supersede a n).owners = s.owners := rfl
@[simp] theorem State.supersede_vds (s : State) (a n : Nat) : (s.supersede a n).vds = s.vds := rfl
@[simp] theorem State.supersede_wins (s : State) (a n : Nat) : (s.supersede a n).wins = s.wins := rfl
@[simp] theorem State.supersede_reds (s : State) (a n : Nat) : (s.supersede a n).reds = s.reds := rfl
@[simp] theorem State.supersede_cbinvs (s : State) (a n : Nat) : (s.supersede a n).cbinvs = s.cbinvs := rfl
@[simp] theorem State.supersede_arrivals (s : State) (a n : Nat) : (s.supersede a n).arrivals = s.arrivals := rfl
@[simp] theorem State.supersede_pkg (s : State) (a n : Nat) : (s.supersede a n).pkg = s.pkg := rfl
@[simp] theorem State.supersede_inputs (s : State) (a n : Nat) : (s.supersede a n).inputs = s.inputs := rfl
@[simp] theorem State.supersede_outbox (s : State) (a n : Nat) : (s.supersede a n).outbox = s.outbox := rfl
@[simp] theorem State.supersede_fresh (s : State) (a n : Nat) : (s.supersede a n).fresh = s.fresh := rfl
@[simp] theorem State.supersede_disp (s : State) (a n : Nat) : (s.supersede a n).disp = s.disp := rfl
@[simp] theorem State.supersede_writes (s : State) (a n : Nat) : (s.supersede a n).writes = s.writes := rfl
@[simp] theorem State.supersede_winOp (s : State) (a n : Nat) : (s.supersede a n).winOp = s.winOp := rfl
@[simp] theorem State.supersede_deferred (s : State) (a n : Nat) : (s.supersede a n).deferred = s.deferred := rfl
@[simp] theorem State.supersede_iss (s : State) (a n : Nat) : (s.supersede a n).iss = s.iss := rfl
@[simp] theorem State.freezeOpen_cur (s : State)  : (s.freezeOpen).cur = s.cur := rfl
@[simp] theorem State.freezeOpen_others (s : State)  : (s.freezeOpen).others = s.others := rfl
@[simp] theorem State.freezeOpen_clusters (s : State)  : (s.freezeOpen).clusters = s.clusters := rfl
@[simp] theorem State.freezeOpen_mem (s : State)  : (s.freezeOpen).mem = s.mem := rfl
@[simp] theorem State.freezeOpen_ext (s : State)  : (s.freezeOpen).ext = s.ext := rfl
@[simp] theorem State.freezeOpen_poison (s : State)  : (s.freezeOpen).poison = s.poison := rfl
@[simp] theorem State.freezeOpen_failed (s : State)  : (s.freezeOpen).failed = s.failed := rfl
@[simp] theorem State.freezeOpen_mpe (s : State)  : (s.freezeOpen).mpe = s.mpe := rfl
@[simp] theorem State.freezeOpen_owners (s : State)  : (s.freezeOpen).owners = s.owners := rfl
@[simp] theorem State.freezeOpen_vds (s : State)  : (s.freezeOpen).vds = s.vds := rfl
@[simp] theorem State.freezeOpen_wins (s : State)  : (s.freezeOpen).wins = s.wins := rfl
@[simp] theorem State.freezeOpen_reds (s : State)  : (s.freezeOpen).reds = s.reds := rfl
@[simp] theorem State.freezeOpen_cbinvs (s : State)  : (s.freezeOpen).cbinvs = s.cbinvs := rfl
@[simp] theorem State.freezeOpen_arrivals (s : State)  : (s.freezeOpen).arrivals = s.arrivals := rfl
@[simp] theorem State.freezeOpen_pkg (s : State)  : (s.freezeOpen).pkg = s.pkg := rfl
@[simp] theorem State.freezeOpen_inputs (s : State)  : (s.freezeOpen).inputs = s.inputs := rfl
@[simp] theorem State.freezeOpen_outbox (s : State)  : (s.freezeOpen).outbox = s.outbox := rfl
@[simp] theorem State.freezeOpen_disp (s : State)  : (s.freezeOpen).disp = s.disp := rfl
@[simp] theorem State.freezeOpen_late (s : State)  : (s.freezeOpen).late = s.late := rfl
@[simp] theorem State.freezeOpen_writes (s : State)  : (s.freezeOpen).writes = s.writes := rfl
@[simp] theorem State.freezeOpen_winOp (s : State)  : (s.freezeOpen).winOp = s.winOp := rfl
@[simp] theorem State.freezeOpen_deferred (s : State)  : (s.freezeOpen).deferred = s.deferred := rfl
@[simp] theorem State.freezeOpen_iss (s : State)  : (s.freezeOpen).iss = s.iss := rfl
@[simp] theorem State.freezeOpen_fresh (s : State) : s.freezeOpen.fresh = s.fresh + 1 := rfl
@[simp] theorem State.block_cur (s : State) (w : Wait) : (s.block w).cur = s.cur := rfl
@[simp] theorem State.block_others (s : State) (w : Wait) : (s.block w).others = s.others := rfl
@[simp] theorem State.block_clusters (s : State) (w : Wait) : (s.block w).clusters = s.clusters := rfl
@[simp] theorem State.block_mem (s : State) (w : Wait) : (s.block w).mem = s.mem := rfl
@[simp] theorem State.block_ext (s : State) (w : Wait) : (s.block w).ext = s.ext := rfl
@[simp] theorem State.block_poison (s : State) (w : Wait) : (s.block w).poison = s.poison := rfl
@[simp] theorem State.block_failed (s : State) (w : Wait) : (s.block w).failed = s.failed := rfl
@[simp] theorem State.block_mpe (s : State) (w : Wait) : (s.block w).mpe = s.mpe := rfl
@[simp] theorem State.block_owners (s : State) (w : Wait) : (s.block w).owners = s.owners := rfl
@[simp] theorem State.block_vds (s : State) (w : Wait) : (s.block w).vds = s.vds := rfl
@[simp] theorem State.block_wins (s : State) (w : Wait) : (s.block w).wins = s.wins := rfl
@[simp] theorem State.block_reds (s : State) (w : Wait) : (s.block w).reds = s.reds := rfl
@[simp] theorem State.block_cbinvs (s : State) (w : Wait) : (s.block w).cbinvs = s.cbinvs := rfl
@[simp] theorem State.block_arrivals (s : State) (w : Wait) : (s.block w).arrivals = s.arrivals := rfl
@[simp] theorem State.block_pkg (s : State) (w : Wait) : (s.block w).pkg = s.pkg := rfl
@[simp] theorem State.block_inputs (s : State) (w : Wait) : (s.block w).inputs = s.inputs := rfl
@[simp] theorem State.block_outbox (s : State) (w : Wait) : (s.block w).outbox = s.outbox := rfl
@[simp] theorem State.block_fresh (s : State) (w : Wait) : (s.block w).fresh = s.fresh := rfl
@[simp] theorem State.block_disp (s : State) (w : Wait) : (s.block w).disp = s.disp := rfl
@[simp] theorem State.block_late (s : State) (w : Wait) : (s.block w).late = s.late := rfl
@[simp] theorem State.block_writes (s : State) (w : Wait) : (s.block w).writes = s.writes := rfl
@[simp] theorem State.block_winOp (s : State) (w : Wait) : (s.block w).winOp = s.winOp := rfl
@[simp] theorem State.block_deferred (s : State) (w : Wait) : (s.block w).deferred = s.deferred := rfl
@[simp] theorem State.setCore_cur (s : State) (k : Nat) (c : Core) : (s.setCore k c).cur = s.cur := by
  unfold State.setCore; split <;> rfl
@[simp] theorem State.setCore_clusters (s : State) (k : Nat) (c : Core) : (s.setCore k c).clusters = s.clusters := by
  unfold State.setCore; split <;> rfl
@[simp] theorem State.setCore_mem (s : State) (k : Nat) (c : Core) : (s.setCore k c).mem = s.mem := by
  unfold State.setCore; split <;> rfl
@[simp] theorem State.setCore_ext (s : State) (k : Nat) (c : Core) : (s.setCore k c).ext = s.ext := by
  unfold State.setCore; split <;> rfl
@[simp] theorem State.setCore_poison (s : State) (k : Nat) (c : Core) : (s.setCore k c).poison = s.poison := by
  unfold State.setCore; split <;> rfl
@[simp] theorem State.setCore_failed (s : State) (k : Nat) (c : Core) : (s.setCore k c).failed = s.failed := by
  unfold State.setCore; split <;> rfl
@[simp] theorem State.setCore_mpe (s : State) (k : Nat) (c : Core) : (s.setCore k c).mpe = s.mpe := by
  unfold State.setCore; split <;> rfl
@[simp] theorem State.setCore_owners (s : State) (k : Nat) (c : Core) : (s.setCore k c).owners = s.owners := by
  unfold State.setCore; split <;> rfl
@[simp] theorem State.setCore_vds (s : State) (k : Nat) (c : Core) : (s.setCore k c).vds = s.vds := by
  unfold State.setCore; split <;> rfl
@[simp] theorem State.setCore_wins (s : State) (k : Nat) (c : Core) : (s.setCore k c).wins = s.wins := by
  unfold State.setCore; split <;> rfl
@[simp] theorem State.setCore_reds (s : State) (k : Nat) (c : Core) : (s.setCore k c).reds = s.reds := by
  unfold State.setCore; split <;> rfl
@[simp] theorem State.setCore_cbinvs (s : State) (k : Nat) (c : Core) : (s.setCore k c).cbinvs = s.cbinvs := by
  unfold State.setCore; split <;> rfl
@[simp] theorem State.setCore_arrivals (s : State) (k : Nat) (c : Core) : (s.setCore k c).arrivals = s.arrivals := by
  unfold State.setCore; split <;> rfl
@[simp] theorem State.setCore_pkg (s : State) (k : Nat) (c : Core) : (s.setCore k c).pkg = s.pkg := by
  unfold State.setCore; split <;> rfl
@[simp] theorem State.setCore_inputs (s : State) (k : Nat) (c : Core) : (s.setCore k c).inputs = s.inputs := by
  unfold State.setCore; split <;> rfl
@[simp] theorem State.setCore_outbox (s : State) (k : Nat) (c : Core) : (s.setCore k c).outbox = s.outbox := by
  unfold State.setCore; split <;> rfl
@[simp] theorem State.setCore_fresh (s : State) (k : Nat) (c : Core) : (s.setCore k c).fresh = s.fresh := by
  unfold State.setCore; split <;> rfl
@[simp] theorem State.setCore_disp (s : State) (k : Nat) (c : Core) : (s.setCore k c).disp = s.disp := by
  unfold State.setCore; split <;> rfl
@[simp] theorem State.setCore_late (s : State) (k : Nat) (c : Core) : (s.setCore k c).late = s.late := by
  unfold State.setCore; split <;> rfl
@[simp] theorem State.setCore_writes (s : State) (k : Nat) (c : Core) : (s.setCore k c).writes = s.writes := by
  unfold State.setCore; split <;> rfl
@[simp] theorem State.setCore_winOp (s : State) (k : Nat) (c : Core) : (s.setCore k c).winOp = s.winOp := by
  unfold State.setCore; split <;> rfl
@[simp] theorem State.setCore_deferred (s : State) (k : Nat) (c : Core) : (s.setCore k c).deferred = s.deferred := by
  unfold State.setCore; split <;> rfl
@[simp] theorem State.setCore_iss (s : State) (k : Nat) (c : Core) : (s.setCore k c).iss = s.iss := by
  unfold State.setCore; split <;> rfl
@[simp] theorem State.updCore_cur (s : State) (k : Nat) (f : Core → Core) : (s.updCore k f).cur = s.cur := State.setCore_cur s k _
@[simp] theorem State.updCore_clusters (s : State) (k : Nat) (f : Core → Core) : (s.updCore k f).clusters = s.clusters := State.setCore_clusters s k _
@[simp] theorem State.updCore_mem (s : State) (k : Nat) (f : Core → Core) : (s.updCore k f).mem = s.mem := State.setCore_mem s k _
@[simp] theorem State.updCore_ext (s : State) (k : Nat) (f : Core → Core) : (s.updCore k f).ext = s.ext := State.setCore_ext s k _
@[simp] theorem State.updCore_poison (s : State) (k : Nat) (f : Core → Core) : (s.updCore k f).poison = s.poison := State.setCore_poison s k _
@[simp] theorem State.updCore_failed (s : State) (k : Nat) (f : Core → Core) : (s.updCore k f).failed = s.failed := State.setCore_failed s k _
@[simp] theorem State.updCore_mpe (s : State) (k : Nat) (f : Core → Core) : (s.updCore k f).mpe = s.mpe := State.setCore_mpe s k _
@[simp] theorem State.updCore_owners (s : State) (k : Nat) (f : Core → Core) : (s.updCore k f).owners = s.owners := State.setCore_owners s k _
@[simp] theorem State.updCore_vds (s : State) (k : Nat) (f : Core → Core) : (s.updCore k f).vds = s.vds := State.setCore_vds s k _
@[simp] theorem State.updCore_wins (s : State) (k : Nat) (f : Core → Core) : (s.updCore k f).wins = s.wins := State.setCore_wins s k _
@[simp] theorem State.updCore_reds (s : State) (k : Nat) (f : Core → Core) : (s.updCore k f).reds = s.reds := State.setCore_reds s k _
@[simp] theorem State.updCore_cbinvs (s : State) (k : Nat) (f : Core → Core) : (s.updCore k f).cbinvs = s.cbinvs := State.setCore_cbinvs s k _
@[simp] theorem State.updCore_arrivals (s : State) (k : Nat) (f : Core → Core) : (s.updCore k f).arrivals = s.arrivals := State.setCore_arrivals s k _
@[simp] theorem State.updCore_pkg (s : State) (k : Nat) (f : Core → Core) : (s.updCore k f).pkg = s.pkg := State.setCore_pkg s k _
@[simp] theorem State.updCore_inputs (s : State) (k : Nat) (f : Core → Core) : (s.updCore k f).inputs = s.inputs := State.setCore_inputs s k _
@[simp] theorem State.updCore_outbox (s : State) (k : Nat) (f : Core → Core) : (s.updCore k f).outbox = s.outbox := State.setCore_outbox s k _
@[simp] theorem State.updCore_fresh (s : State) (k : Nat) (f : Core → Core) : (s.updCore k f).fresh = s.fresh := State.setCore_fresh s k _
@[simp] theorem State.updCore_disp (s : State) (k : Nat) (f : Core → Core) : (s.updCore k f).disp = s.disp := State.setCore_disp s k _
@[simp] theorem State.updCore_late (s : State) (k : Nat) (f : Core → Core) : (s.updCore k f).late = s.late := State.setCore_late s k _
@[simp] theorem State.updCore_writes (s : State) (k : Nat) (f : Core → Core) : (s.updCore k f).writes = s.writes := State.setCore_writes s k _
@[simp] theorem State.updCore_winOp (s : State) (k : Nat) (f : Core → Core) : (s.updCore k f).winOp = s.winOp := State.setCore_winOp s k _
@[simp] theorem State.updCore_deferred (s : State) (k : Nat) (f : Core → Core) : (s.updCore k f).deferred = s.deferred := State.setCore_deferred s k _
@[simp] theorem State.updCore_iss (s : State) (k : Nat) (f : Core → Core) : (s.updCore k f).iss = s.iss := State.setCore_iss s k _
@[simp] theorem State.updCluster_cur (s : State) (m : Nat) (f : Cluster → Cluster) : (s.updCluster m f).cur = s.cur := rfl
@[simp] theorem State.updCluster_c (s : State) (m : Nat) (f : Cluster → Cluster) : (s.updCluster m f).c = s.c := rfl
@[simp] theorem State.updCluster_others (s : State) (m : Nat) (f : Cluster → Cluster) : (s.updCluster m f).others = s.others := rfl
@[simp] theorem State.updCluster_mem (s : State) (m : Nat) (f : Cluster → Cluster) : (s.updCluster m f).mem = s.mem := rfl
@[simp] theorem State.updCluster_ext (s : State) (m : Nat) (f : Cluster → Cluster) : (s.updCluster m f).ext = s.ext := rfl
@[simp] theorem State.updCluster_poison (s : State) (m : Nat) (f : Cluster → Cluster) : (s.updCluster m f).poison = s.poison := rfl
@[simp] theorem State.updCluster_failed (s : State) (m : Nat) (f : Cluster → Cluster) : (s.updCluster m f).failed = s.failed := rfl
@[simp] theorem State.updCluster_mpe (s : State) (m : Nat) (f : Cluster → Cluster) : (s.updCluster m f).mpe = s.mpe := rfl
@[simp] theorem State.updCluster_owners (s : State) (m : Nat) (f : Cluster → Cluster) : (s.updCluster m f).owners = s.owners := rfl
@[simp] theorem State.updCluster_vds (s : State) (m : Nat) (f : Cluster → Cluster) : (s.updCluster m f).vds = s.vds := rfl
@[simp] theorem State.updCluster_wins (s : State) (m : Nat) (f : Cluster → Cluster) : (s.updCluster m f).wins = s.wins := rfl
@[simp] theorem State.updCluster_reds (s : State) (m : Nat) (f : Cluster → Cluster) : (s.updCluster m f).reds = s.reds := rfl
@[simp] theorem State.updCluster_cbinvs (s : State) (m : Nat) (f : Cluster → Cluster) : (s.updCluster m f).cbinvs = s.cbinvs := rfl
@[simp] theorem State.updCluster_arrivals (s : State) (m : Nat) (f : Cluster → Cluster) : (s.updCluster m f).arrivals = s.arrivals := rfl
@[simp] theorem State.updCluster_pkg (s : State) (m : Nat) (f : Cluster → Cluster) : (s.updCluster m f).pkg = s.pkg := rfl
@[simp] theorem State.updCluster_inputs (s : State) (m : Nat) (f : Cluster → Cluster) : (s.updCluster m f).inputs = s.inputs := rfl
@[simp] theorem State.updCluster_outbox (s : State) (m : Nat) (f : Cluster → Cluster) : (s.updCluster m f).outbox = s.outbox := rfl
@[simp] theorem State.updCluster_fresh (s : State) (m : Nat) (f : Cluster → Cluster) : (s.updCluster m f).fresh = s.fresh := rfl
@[simp] theorem State.updCluster_disp (s : State) (m : Nat) (f : Cluster → Cluster) : (s.updCluster m f).disp = s.disp := rfl
@[simp] theorem State.updCluster_late (s : State) (m : Nat) (f : Cluster → Cluster) : (s.updCluster m f).late = s.late := rfl
@[simp] theorem State.updCluster_writes (s : State) (m : Nat) (f : Cluster → Cluster) : (s.updCluster m f).writes = s.writes := rfl
@[simp] theorem State.updCluster_winOp (s : State) (m : Nat) (f : Cluster → Cluster) : (s.updCluster m f).winOp = s.winOp := rfl
@[simp] theorem State.updCluster_deferred (s : State) (m : Nat) (f : Cluster → Cluster) : (s.updCluster m f).deferred = s.deferred := rfl
@[simp] theorem State.updCluster_iss (s : State) (m : Nat) (f : Cluster → Cluster) : (s.updCluster m f).iss = s.iss := rfl
@[simp] theorem State.updVd_cur (s : State) (v : Nat) (f : Vd → Vd) : (s.updVd v f).cur = s.cur := by
  unfold State.updVd; split <;> rfl
@[simp] theorem State.updVd_c (s : State) (v : Nat) (f : Vd → Vd) : (s.updVd v f).c = s.c := by
  unfold State.updVd; split <;> rfl
@[simp] theorem State.updVd_others (s : State) (v : Nat) (f : Vd → Vd) : (s.updVd v f).others = s.others := by
  unfold State.updVd; split <;> rfl
@[simp] theorem State.updVd_clusters (s : State) (v : Nat) (f : Vd → Vd) : (s.updVd v f).clusters = s.clusters := by
  unfold State.updVd; split <;> rfl
@[simp] theorem State.updVd_mem (s : State) (v : Nat) (f : Vd → Vd) : (s.updVd v f).mem = s.mem := by
  unfold State.updVd; split <;> rfl
@[simp] theorem State.updVd_ext (s : State) (v : Nat) (f : Vd → Vd) : (s.updVd v f).ext = s.ext := by
  unfold State.updVd; split <;> rfl
@[simp] theorem State.updVd_poison (s : State) (v : Nat) (f : Vd → Vd) : (s.updVd v f).poison = s.poison := by
  unfold State.updVd; split <;> rfl
@[simp] theorem State.updVd_failed (s : State) (v : Nat) (f : Vd → Vd) : (s.updVd v f).failed = s.failed := by
  unfold State.updVd; split <;> rfl
@[simp] theorem State.updVd_mpe (s : State) (v : Nat) (f : Vd → Vd) : (s.updVd v f).mpe = s.mpe := by
  unfold State.updVd; split <;> rfl
@[simp] theorem State.updVd_owners (s : State) (v : Nat) (f : Vd → Vd) : (s.updVd v f).owners = s.owners := by
  unfold State.updVd; split <;> rfl
@[simp] theorem State.updVd_wins (s : State) (v : Nat) (f : Vd → Vd) : (s.updVd v f).wins = s.wins := by
  unfold State.updVd; split <;> rfl
@[simp] theorem State.updVd_reds (s : State) (v : Nat) (f : Vd → Vd) : (s.updVd v f).reds = s.reds := by
  unfold State.updVd; split <;> rfl
@[simp] theorem State.updVd_cbinvs (s : State) (v : Nat) (f : Vd → Vd) : (s.updVd v f).cbinvs = s.cbinvs := by
  unfold State.updVd; split <;> rfl
@[simp] theorem State.updVd_arrivals (s : State) (v : Nat) (f : Vd → Vd) : (s.updVd v f).arrivals = s.arrivals := by
  unfold State.updVd; split <;> rfl
@[simp] theorem State.updVd_pkg (s : State) (v : Nat) (f : Vd → Vd) : (s.updVd v f).pkg = s.pkg := by
  unfold State.updVd; split <;> rfl
@[simp] theorem State.updVd_inputs (s : State) (v : Nat) (f : Vd → Vd) : (s.updVd v f).inputs = s.inputs := by
  unfold State.updVd; split <;> rfl
@[simp] theorem State.updVd_outbox (s : State) (v : Nat) (f : Vd → Vd) : (s.updVd v f).outbox = s.outbox := by
  unfold State.updVd; split <;> rfl
@[simp] theorem State.updVd_fresh (s : State) (v : Nat) (f : Vd → Vd) : (s.updVd v f).fresh = s.fresh := by
  unfold State.updVd; split <;> rfl
@[simp] theorem State.updVd_disp (s : State) (v : Nat) (f : Vd → Vd) : (s.updVd v f).disp = s.disp := by
  unfold State.updVd; split <;> rfl
@[simp] theorem State.updVd_late (s : State) (v : Nat) (f : Vd → Vd) : (s.updVd v f).late = s.late := by
  unfold State.updVd; split <;> rfl
@[simp] theorem State.updVd_writes (s : State) (v : Nat) (f : Vd → Vd) : (s.updVd v f).writes = s.writes := by
  unfold State.updVd; split <;> rfl
@[simp] theorem State.updVd_winOp (s : State) (v : Nat) (f : Vd → Vd) : (s.updVd v f).winOp = s.winOp := by
  unfold State.updVd; split <;> rfl
@[simp] theorem State.updVd_deferred (s : State) (v : Nat) (f : Vd → Vd) : (s.updVd v f).deferred = s.deferred := by
  unfold State.updVd; split <;> rfl
@[simp] theorem State.updVd_iss (s : State) (v : Nat) (f : Vd → Vd) : (s.updVd v f).iss = s.iss := by
  unfold State.updVd; split <;> rfl
@[simp] theorem State.raiseEvent_cur (s : State) (v : Nat) (cls code : BitVec 8) (p : List Byte) : (s.raiseEvent v cls code p).cur = s.cur := by
  simp [State.raiseEvent]
@[simp] theorem State.raiseEvent_c (s : State) (v : Nat) (cls code : BitVec 8) (p : List Byte) : (s.raiseEvent v cls code p).c = s.c := by
  simp [State.raiseEvent]
@[simp] theorem State.raiseEvent_others (s : State) (v : Nat) (cls code : BitVec 8) (p : List Byte) : (s.raiseEvent v cls code p).others = s.others := by
  simp [State.raiseEvent]
@[simp] theorem State.raiseEvent_clusters (s : State) (v : Nat) (cls code : BitVec 8) (p : List Byte) : (s.raiseEvent v cls code p).clusters = s.clusters := by
  simp [State.raiseEvent]
@[simp] theorem State.raiseEvent_mem (s : State) (v : Nat) (cls code : BitVec 8) (p : List Byte) : (s.raiseEvent v cls code p).mem = s.mem := by
  simp [State.raiseEvent]
@[simp] theorem State.raiseEvent_ext (s : State) (v : Nat) (cls code : BitVec 8) (p : List Byte) : (s.raiseEvent v cls code p).ext = s.ext := by
  simp [State.raiseEvent]
@[simp] theorem State.raiseEvent_poison (s : State) (v : Nat) (cls code : BitVec 8) (p : List Byte) : (s.raiseEvent v cls code p).poison = s.poison := by
  simp [State.raiseEvent]
@[simp] theorem State.raiseEvent_failed (s : State) (v : Nat) (cls code : BitVec 8) (p : List Byte) : (s.raiseEvent v cls code p).failed = s.failed := by
  simp [State.raiseEvent]
@[simp] theorem State.raiseEvent_mpe (s : State) (v : Nat) (cls code : BitVec 8) (p : List Byte) : (s.raiseEvent v cls code p).mpe = s.mpe := by
  simp [State.raiseEvent]
@[simp] theorem State.raiseEvent_owners (s : State) (v : Nat) (cls code : BitVec 8) (p : List Byte) : (s.raiseEvent v cls code p).owners = s.owners := by
  simp [State.raiseEvent]
@[simp] theorem State.raiseEvent_wins (s : State) (v : Nat) (cls code : BitVec 8) (p : List Byte) : (s.raiseEvent v cls code p).wins = s.wins := by
  simp [State.raiseEvent]
@[simp] theorem State.raiseEvent_reds (s : State) (v : Nat) (cls code : BitVec 8) (p : List Byte) : (s.raiseEvent v cls code p).reds = s.reds := by
  simp [State.raiseEvent]
@[simp] theorem State.raiseEvent_cbinvs (s : State) (v : Nat) (cls code : BitVec 8) (p : List Byte) : (s.raiseEvent v cls code p).cbinvs = s.cbinvs := by
  simp [State.raiseEvent]
@[simp] theorem State.raiseEvent_arrivals (s : State) (v : Nat) (cls code : BitVec 8) (p : List Byte) : (s.raiseEvent v cls code p).arrivals = s.arrivals := by
  simp [State.raiseEvent]
@[simp] theorem State.raiseEvent_inputs (s : State) (v : Nat) (cls code : BitVec 8) (p : List Byte) : (s.raiseEvent v cls code p).inputs = s.inputs := by
  simp [State.raiseEvent]
@[simp] theorem State.raiseEvent_outbox (s : State) (v : Nat) (cls code : BitVec 8) (p : List Byte) : (s.raiseEvent v cls code p).outbox = s.outbox := by
  simp [State.raiseEvent]
@[simp] theorem State.raiseEvent_disp (s : State) (v : Nat) (cls code : BitVec 8) (p : List Byte) : (s.raiseEvent v cls code p).disp = s.disp := by
  simp [State.raiseEvent]
@[simp] theorem State.raiseEvent_late (s : State) (v : Nat) (cls code : BitVec 8) (p : List Byte) : (s.raiseEvent v cls code p).late = s.late := by
  simp [State.raiseEvent]
@[simp] theorem State.raiseEvent_writes (s : State) (v : Nat) (cls code : BitVec 8) (p : List Byte) : (s.raiseEvent v cls code p).writes = s.writes := by
  simp [State.raiseEvent]
@[simp] theorem State.raiseEvent_winOp (s : State) (v : Nat) (cls code : BitVec 8) (p : List Byte) : (s.raiseEvent v cls code p).winOp = s.winOp := by
  simp [State.raiseEvent]
@[simp] theorem State.raiseEvent_deferred (s : State) (v : Nat) (cls code : BitVec 8) (p : List Byte) : (s.raiseEvent v cls code p).deferred = s.deferred := by
  simp [State.raiseEvent]
@[simp] theorem State.raiseEvent_iss (s : State) (v : Nat) (cls code : BitVec 8) (p : List Byte) : (s.raiseEvent v cls code p).iss = s.iss := by
  simp [State.raiseEvent]

/-! ## Reading registers after writing them -/

/-- S0 reads as zero. -/
@[simp] theorem Core.readS_zero (c : Core) : c.readS 0 = 0 := rfl

/-- A scalar register reads what was written to it last; S0 ignores writes. -/
theorem Core.readS_setS (c : Core) (r x : SReg) (v : Word) :
    (c.setS r v).readS x = if x = r ∧ r ≠ 0 then v else c.readS x := by
  unfold Core.setS Core.readS
  by_cases hr : r = 0
  · simp [hr]
  · by_cases hx : x = 0
    · subst hx
      simp [hr, Ne.symm hr]
    · rw [if_neg hr]
      by_cases e : x = r
      · subst e
        simp [hx]
      · simp only [if_neg hx, e, false_and, if_false]
        exact Vector.getElem_set_ne _ _ (by simpa [Fin.ext_iff] using Ne.symm e)

/-- A mask reads what was written to it last. -/
theorem Core.setM_regs_m (c : Core) (r x : MReg) (v : Lane) :
    (c.setM r v).regs.m[x] = if x = r then v else c.regs.m[x] := by
  unfold Core.setM
  by_cases e : x = r
  · subst e
    simp
  · simp only [e, if_false]
    exact Vector.getElem_set_ne _ _ (by simpa [Fin.ext_iff] using Ne.symm e)

end Sys2Proof.Machine
end

