-- ==== Sys2Proof/Laws/Memory.lean ====
section
/-! SUPPORT. The laws of sparse memory: a read after a write, and that every operation keeps the canonical form. -/

namespace Sys2Proof.Machine

/-! ## The canonical form -/

theorem Mem.above_mono {lo lo' : Nat} {m : Mem} (h : lo' ≤ lo) (hm : Mem.above lo m = true) : Mem.above lo' m = true := by
  cases m with
  | nil => rfl
  | cons c r =>
    obtain ⟨k, b⟩ := c
    simp only [Mem.above, Bool.and_eq_true, decide_eq_true_eq] at hm ⊢
    exact ⟨⟨by omega, hm.1.2⟩, hm.2⟩

theorem Mem.above_wf {lo : Nat} {m : Mem} (hm : Mem.above lo m = true) : Mem.wf m = true := by
  cases m with
  | nil => rfl
  | cons c r =>
    obtain ⟨k, b⟩ := c
    simp only [Mem.above, Mem.wf, Bool.and_eq_true, decide_eq_true_eq] at hm ⊢
    exact ⟨hm.1.2, hm.2⟩

theorem Mem.wf_cons {k : Nat} {b : Byte} {r : Mem} :
    Mem.wf ((k, b) :: r) = true ↔ b ≠ Mem.unlisted ∧ Mem.above k r = true := by
  simp [Mem.wf]

theorem Mem.above_cons {lo k : Nat} {b : Byte} {r : Mem} :
    Mem.above lo ((k, b) :: r) = true ↔ lo < k ∧ b ≠ Mem.unlisted ∧ Mem.above k r = true := by
  simp [Mem.above, and_assoc]

/-- Below its first entry a canonical memory reads as nothing written. -/
theorem Mem.get_below {lo : Nat} {m : Mem} (hm : Mem.above lo m = true) {a : Nat} (h : a ≤ lo) :
    Mem.get m a = Mem.unlisted := by
  cases m with
  | nil => rfl
  | cons c r =>
    obtain ⟨k, b⟩ := c
    have hk := (Mem.above_cons.1 hm).1
    simp only [Mem.get]
    rw [if_neg (by omega), if_pos (by omega)]

/-! ## One byte -/

theorem Mem.set_above {m : Mem} {lo a : Nat} {b : Byte} (hm : Mem.above lo m = true) (h : lo < a) :
    Mem.above lo (Mem.set m a b) = true := by
  induction m generalizing lo with
  | nil =>
    simp only [Mem.set]
    split
    · rfl
    · exact Mem.above_cons.2 ⟨h, by assumption, rfl⟩
  | cons c r ih =>
    obtain ⟨k, x⟩ := c
    obtain ⟨hk, hx, hr⟩ := Mem.above_cons.1 hm
    simp only [Mem.set]
    split
    · split
      · exact hm
      · exact Mem.above_cons.2 ⟨h, by assumption, Mem.above_cons.2 ⟨by assumption, hx, hr⟩⟩
    · split
      · split
        · exact Mem.above_mono (by omega) hr
        · subst_vars
          exact Mem.above_cons.2 ⟨h, by assumption, hr⟩
      · exact Mem.above_cons.2 ⟨hk, hx, ih hr (by omega)⟩

/-- A write of a byte keeps the canonical form. -/
theorem Mem.set_wf {m : Mem} {a : Nat} {b : Byte} (hm : m.wf = true) : (Mem.set m a b).wf = true := by
  cases m with
  | nil =>
    simp only [Mem.set]
    split
    · rfl
    · exact Mem.wf_cons.2 ⟨by assumption, rfl⟩
  | cons c r =>
    obtain ⟨k, x⟩ := c
    obtain ⟨hx, hr⟩ := Mem.wf_cons.1 hm
    simp only [Mem.set]
    split
    · split
      · exact hm
      · exact Mem.wf_cons.2 ⟨by assumption, Mem.above_cons.2 ⟨by assumption, hx, hr⟩⟩
    · split
      · split
        · exact Mem.above_wf hr
        · subst_vars
          exact Mem.wf_cons.2 ⟨by assumption, hr⟩
      · exact Mem.wf_cons.2 ⟨hx, Mem.set_above hr (by omega)⟩

/-- A byte written reads back. -/
theorem Mem.get_set_same {m : Mem} {a : Nat} {b : Byte} (hm : m.wf = true) : (Mem.set m a b).get a = b := by
  induction m with
  | nil =>
    simp only [Mem.set]
    split
    · subst_vars; rfl
    · simp [Mem.get]
  | cons c r ih =>
    obtain ⟨k, x⟩ := c
    obtain ⟨hx, hr⟩ := Mem.wf_cons.1 hm
    simp only [Mem.set]
    split
    · split
      · subst_vars
        simp only [Mem.get]
        rw [if_neg (by omega), if_pos (by omega)]
      · simp [Mem.get]
    · split
      · split
        · subst_vars
          exact Mem.get_below hr (le_refl _)
        · simp [Mem.get]
      · simp only [Mem.get]
        rw [if_neg (by omega), if_neg (by omega)]
        exact ih (Mem.above_wf hr)

/-- A write of a byte leaves every other byte alone. -/
theorem Mem.get_set_other {m : Mem} {a a' : Nat} {b : Byte} (hm : m.wf = true) (h : a' ≠ a) :
    (Mem.set m a b).get a' = m.get a' := by
  induction m with
  | nil =>
    simp only [Mem.set]
    split
    · rfl
    · simp only [Mem.get]
      rw [if_neg (Ne.symm h)]
      split <;> rfl
  | cons c r ih =>
    obtain ⟨k, x⟩ := c
    obtain ⟨hx, hr⟩ := Mem.wf_cons.1 hm
    simp only [Mem.set]
    split
    · split
      · rfl
      · simp only [Mem.get]
        rw [if_neg (Ne.symm h)]
        split
        · rw [if_neg (by omega), if_pos (by omega)]
        · rfl
    · split
      · split
        · subst_vars
          simp only [Mem.get]
          rw [if_neg (Ne.symm h)]
          split
          · exact Mem.get_below hr (by omega)
          · rfl
        · subst_vars
          simp only [Mem.get]
          rw [if_neg (Ne.symm h), if_neg (Ne.symm h)]
      · simp only [Mem.get]
        rw [ih (Mem.above_wf hr)]

/-! ## Ranges of bytes -/

theorem Mem.pop_above {m : Mem} {lo : Nat} (a : Nat) (hm : Mem.above lo m = true) (h : lo < a) (hl : Mem.above (a - 1) m = true) :
    Mem.above a (m.pop a) = true := by
  cases m with
  | nil => rfl
  | cons c r =>
    obtain ⟨k, x⟩ := c
    obtain ⟨hk, hx, hr⟩ := Mem.above_cons.1 hl
    simp only [Mem.pop]
    split
    · subst_vars; exact hr
    · exact Mem.above_cons.2 ⟨by omega, hx, hr⟩

/-- Bytes run into a memory that lists nothing below them. -/
theorem Mem.run_above {m : Mem} {a lo : Nat} (bs : List Byte) (h : lo < a) (hm : Mem.above (a - 1) m = true) :
    Mem.above lo (m.run a bs) = true := by
  induction bs generalizing m a lo with
  | nil => exact Mem.above_mono (by omega) hm
  | cons b r ih =>
    have hp : Mem.above a (m.pop a) = true := Mem.pop_above (lo := a - 1) a hm (by omega) hm
    simp only [Mem.run]
    split
    · exact ih (by omega) (by simpa using hp)
    · exact Mem.above_cons.2 ⟨h, by assumption, ih (by omega) (by simpa using hp)⟩

theorem Mem.setBytes_above {m : Mem} {a lo : Nat} (bs : List Byte) (h : lo < a) (hm : Mem.above lo m = true) :
    Mem.above lo (m.setBytes a bs) = true := by
  induction m generalizing lo with
  | nil => exact Mem.run_above bs h rfl
  | cons c r ih =>
    obtain ⟨k, x⟩ := c
    obtain ⟨hk, hx, hr⟩ := Mem.above_cons.1 hm
    simp only [Mem.setBytes]
    split
    · exact Mem.above_cons.2 ⟨hk, hx, ih (by assumption) hr⟩
    · exact Mem.run_above bs h (Mem.above_cons.2 ⟨by omega, hx, hr⟩)

theorem Mem.run_wf {m : Mem} {a : Nat} (bs : List Byte) (hm : m.wf = true)
    (hl : ∀ k x r, m = (k, x) :: r → a ≤ k) : (m.run a bs).wf = true := by
  have key : ∀ (m : Mem) (a : Nat), Mem.above a m = true → (m.run (a + 1) bs).wf = true := fun m a h =>
    Mem.above_wf (Mem.run_above (lo := a) bs (by omega) (by simpa using h))
  cases bs with
  | nil => exact hm
  | cons b r =>
    have hp : Mem.above a (m.pop a) = true := by
      cases m with
      | nil => rfl
      | cons c r =>
        obtain ⟨k, x⟩ := c
        obtain ⟨hx, hr⟩ := Mem.wf_cons.1 hm
        have := hl k x r rfl
        simp only [Mem.pop]
        split
        · subst_vars; exact hr
        · exact Mem.above_cons.2 ⟨by omega, hx, hr⟩
    have hr : Mem.above a ((m.pop a).run (a + 1) r) = true := Mem.run_above r (by omega) (by simpa using hp)
    simp only [Mem.run]
    split
    · exact Mem.above_wf hr
    · exact Mem.wf_cons.2 ⟨by assumption, hr⟩

/-- A write of a range keeps the canonical form. -/
theorem Mem.setBytes_wf {m : Mem} {a : Nat} (bs : List Byte) (hm : m.wf = true) : (m.setBytes a bs).wf = true := by
  cases m with
  | nil => exact Mem.run_wf bs hm (by simp)
  | cons c r =>
    obtain ⟨k, x⟩ := c
    obtain ⟨hx, hr⟩ := Mem.wf_cons.1 hm
    simp only [Mem.setBytes]
    split
    · exact Mem.wf_cons.2 ⟨hx, Mem.setBytes_above bs (by assumption) hr⟩
    · exact Mem.run_wf bs hm (by rintro _ _ _ ⟨⟩; omega)

theorem Mem.erase_above {m : Mem} {lo : Nat} (a n : Nat) (hm : Mem.above lo m = true) : Mem.above lo (m.erase a n) = true := by
  induction m generalizing lo with
  | nil => rfl
  | cons c r ih =>
    obtain ⟨k, x⟩ := c
    obtain ⟨hk, hx, hr⟩ := Mem.above_cons.1 hm
    simp only [Mem.erase, List.filter_cons]
    split
    · exact Mem.above_cons.2 ⟨hk, hx, ih hr⟩
    · exact Mem.above_mono (by omega) (ih hr)

/-- Making a range read as never written keeps the canonical form. -/
theorem Mem.erase_wf {m : Mem} (a n : Nat) (hm : m.wf = true) : (m.erase a n).wf = true := by
  cases m with
  | nil => rfl
  | cons c r =>
    obtain ⟨k, x⟩ := c
    obtain ⟨hx, hr⟩ := Mem.wf_cons.1 hm
    simp only [Mem.erase, List.filter_cons]
    split
    · exact Mem.wf_cons.2 ⟨hx, Mem.erase_above a n hr⟩
    · exact Mem.above_wf (Mem.erase_above a n hr)

/-- A canonical memory that lists nothing below an address. -/
def Mem.From (a : Nat) (m : Mem) : Prop := m.wf = true ∧ ∀ k x r, m = (k, x) :: r → a ≤ k

theorem Mem.From.pop {m : Mem} {a : Nat} (h : Mem.From a m) : Mem.From (a + 1) (m.pop a) := by
  cases m with
  | nil => exact ⟨rfl, by simp [Mem.pop]⟩
  | cons c r =>
    obtain ⟨k, x⟩ := c
    obtain ⟨hx, hr⟩ := Mem.wf_cons.1 h.1
    have hk := h.2 k x r rfl
    simp only [Mem.pop]
    split
    · subst_vars
      refine ⟨Mem.above_wf hr, ?_⟩
      rintro k' x' r' rfl
      exact (Mem.above_cons.1 hr).1
    · refine ⟨h.1, ?_⟩
      rintro k' x' r' ⟨⟩
      omega

theorem Mem.From.get_below {m : Mem} {a a' : Nat} (h : Mem.From a m) (hl : a' < a) : m.get a' = Mem.unlisted := by
  cases m with
  | nil => rfl
  | cons c r =>
    obtain ⟨k, x⟩ := c
    have := h.2 k x r rfl
    simp only [Mem.get]
    rw [if_neg (by omega), if_pos (by omega)]

theorem Mem.From.get_pop {m : Mem} {a a' : Nat} (h : Mem.From a m) (hn : a' ≠ a) : (m.pop a).get a' = m.get a' := by
  cases m with
  | nil => rfl
  | cons c r =>
    obtain ⟨k, x⟩ := c
    obtain ⟨hx, hr⟩ := Mem.wf_cons.1 h.1
    simp only [Mem.pop]
    split
    · subst_vars
      simp only [Mem.get]
      rw [if_neg (Ne.symm hn)]
      split
      · exact Mem.get_below hr (by omega)
      · rfl
    · rfl

theorem Mem.From.run {m : Mem} {a : Nat} (bs : List Byte) (h : Mem.From a m) : Mem.From a (m.run a bs) := by
  refine ⟨Mem.run_wf bs h.1 h.2, ?_⟩
  induction bs generalizing m a with
  | nil => exact h.2
  | cons b r ih =>
    intro k x l
    simp only [Mem.run]
    split
    · intro e
      have := ih h.pop k x l e
      omega
    · rintro ⟨⟩
      omega

/-- Bytes run into a memory read back at their addresses, and every other byte is as it was. -/
theorem Mem.From.get_run {m : Mem} {a : Nat} (bs : List Byte) (h : Mem.From a m) (a' : Nat) :
    (m.run a bs).get a' = if a ≤ a' ∧ a' < a + bs.length then bs.getD (a' - a) 0 else m.get a' := by
  induction bs generalizing m a with
  | nil => simp only [Mem.run, List.length_nil]; rw [if_neg (by omega)]
  | cons b r ih =>
    have hi := ih h.pop
    have hn : ((m.pop a).run (a + 1) r).get a = Mem.unlisted := (h.pop.run r).get_below (by omega)
    have hrun : (Mem.run m a (b :: r)).get a' =
        if a' = a then b else ((m.pop a).run (a + 1) r).get a' := by
      simp only [Mem.run]
      split
      · split
        · subst_vars; exact hn
        · rfl
      · simp only [Mem.get]
        by_cases e : a' = a
        · rw [if_pos e.symm, if_pos e]
        · rw [if_neg (Ne.symm e), if_neg e]
          split
          · exact ((h.pop.run r).get_below (by omega)).symm
          · rfl
    rw [hrun]
    by_cases e : a' = a
    · subst_vars
      simp
    · rw [if_neg e, hi]
      by_cases c : a + 1 ≤ a' ∧ a' < a + 1 + r.length
      · rw [if_pos c, if_pos (by simp; omega)]
        have : a' - a = (a' - (a + 1)) + 1 := by omega
        rw [this, List.getD_cons_succ]
      · rw [if_neg c, if_neg (by simp; omega), h.get_pop e]

/-- A range written reads back, and every other byte is as it was. -/
theorem Mem.get_setBytes {m : Mem} (hm : m.wf = true) (a : Nat) (bs : List Byte) (a' : Nat) :
    (m.setBytes a bs).get a' = if a ≤ a' ∧ a' < a + bs.length then bs.getD (a' - a) 0 else m.get a' := by
  induction m with
  | nil => exact Mem.From.get_run bs ⟨rfl, by simp⟩ a'
  | cons c r ih =>
    obtain ⟨k, x⟩ := c
    obtain ⟨hx, hr⟩ := Mem.wf_cons.1 hm
    simp only [Mem.setBytes]
    split
    · rename_i hk
      simp only [Mem.get]
      by_cases e : k = a'
      · rw [if_pos e, if_pos e, if_neg (by omega)]
      · rw [if_neg e, if_neg e, ih (Mem.above_wf hr)]
        by_cases l : a' < k
        · rw [if_pos l, if_pos l, if_neg (by omega)]
        · rw [if_neg l, if_neg l]
    · exact Mem.From.get_run bs ⟨hm, by rintro _ _ _ ⟨⟩; omega⟩ a'

theorem Mem.dropWhile_wf {m : Mem} (a : Nat) (hm : m.wf = true) :
    Mem.wf (m.dropWhile fun c => decide (c.1 < a)) = true := by
  induction m with
  | nil => rfl
  | cons c r ih =>
    obtain ⟨k, x⟩ := c
    rw [List.dropWhile_cons]
    split
    · exact ih (Mem.above_wf (Mem.wf_cons.1 hm).2)
    · exact hm

theorem Mem.get_dropWhile {m : Mem} {a a' : Nat} (h : a ≤ a') (hm : m.wf = true) :
    Mem.get (m.dropWhile fun c => decide (c.1 < a)) a' = m.get a' := by
  induction m with
  | nil => rfl
  | cons c r ih =>
    obtain ⟨k, x⟩ := c
    rw [List.dropWhile_cons]
    split
    · rename_i hk
      simp only [decide_eq_true_eq] at hk
      rw [ih (Mem.above_wf (Mem.wf_cons.1 hm).2)]
      simp only [Mem.get]
      rw [if_neg (by omega), if_neg (by omega)]
    · rfl

/-- A range is read byte by byte. -/
theorem Mem.bytes_eq {m : Mem} (hm : m.wf = true) (a n : Nat) : m.bytes a n = (List.range n).map fun i => m.get (a + i) := by
  induction n generalizing m a with
  | zero => rfl
  | succ n ih =>
    simp only [Mem.bytes]
    rw [ih (Mem.dropWhile_wf a hm), List.range_succ_eq_map, List.map_cons, List.map_map, Mem.get_dropWhile (le_refl _) hm]
    congr 1
    refine List.map_congr_left fun i _ => ?_
    rw [Mem.get_dropWhile (by omega) hm]
    simp only [Function.comp]
    congr 1
    omega

/-- A range written reads back whole. -/
theorem Mem.bytes_setBytes {m : Mem} (hm : m.wf = true) (a : Nat) (bs : List Byte) :
    (m.setBytes a bs).bytes a bs.length = bs := by
  rw [Mem.bytes_eq (Mem.setBytes_wf bs hm)]
  apply List.ext_getElem
  · simp
  · intro i h1 h2
    simp only [List.getElem_map, List.getElem_range]
    rw [Mem.get_setBytes hm, if_pos (by omega)]
    simp [List.getD_eq_getElem?_getD, List.getElem?_eq_getElem h2]

/-! ## The machine's memory under the operations that write it -/

@[simp] theorem State.integrityEvent_mem (s : State) (v blk n d k : Nat) : (s.integrityEvent v blk n d k).mem = s.mem := by
  simp [State.integrityEvent]
@[simp] theorem State.integrityEvent_ext (s : State) (v blk n d k : Nat) : (s.integrityEvent v blk n d k).ext = s.ext := by
  simp [State.integrityEvent]

/-- A fold of operations that each leave a part of the state alone leaves it alone. -/
theorem foldl_frame {α β : Type} (g : State → β) (f : State → α → State) (h : ∀ s a, g (f s a) = g s) (l : List α) (s : State) :
    g (l.foldl f s) = g s := by
  induction l generalizing s with
  | nil => rfl
  | cons a r ih => rw [List.foldl_cons, ih, h]

@[simp] theorem State.reportIntegrity_mem (s : State) (blk n k : Nat) : (s.reportIntegrity blk n k).mem = s.mem := by
  unfold State.reportIntegrity
  split
  · rfl
  · simp [foldl_frame State.mem]
@[simp] theorem State.reportIntegrity_ext (s : State) (blk n k : Nat) : (s.reportIntegrity blk n k).ext = s.ext := by
  unfold State.reportIntegrity
  split
  · rfl
  · simp [foldl_frame State.ext]

/-- What a write within a block can do to memory: it happens, or nothing is written. -/
theorem State.writeBlock_mem_cases (s : State) (pa : Nat) (bs : List Byte) :
    (s.writeBlock pa bs).mem = s.mem.setBytes pa bs ∨ (s.writeBlock pa bs).mem = s.mem := by
  unfold State.writeBlock
  dsimp only
  split
  · exact .inr rfl
  · exact .inr rfl
  · repeat' split
    all_goals simp
  · split <;> simp

@[simp] theorem State.writeBlock_ext (s : State) (pa : Nat) (bs : List Byte) : (s.writeBlock pa bs).ext = s.ext := by
  unfold State.writeBlock
  dsimp only
  split
  · rfl
  · rfl
  · repeat' split
    all_goals simp
  · split <;> simp

/-- A block write keeps the canonical form of the memory. -/
theorem State.writeBlock_wf {s : State} (pa : Nat) (bs : List Byte) (h : s.mem.wf = true) :
    (s.writeBlock pa bs).mem.wf = true := by
  rcases s.writeBlock_mem_cases pa bs with e | e <;> rw [e]
  · exact Mem.setBytes_wf bs h
  · exact h

theorem State.writeFuel_wf (n : Nat) {s : State} (pa : Nat) (bs : List Byte) (h : s.mem.wf = true) :
    (State.writeFuel n s pa bs).mem.wf = true := by
  induction n generalizing s pa bs with
  | zero => exact h
  | succ n ih =>
    unfold State.writeFuel
    split
    · exact h
    · exact ih _ _ (State.writeBlock_wf _ _ h)

@[simp] theorem State.writeFuel_ext (n : Nat) (s : State) (pa : Nat) (bs : List Byte) : (State.writeFuel n s pa bs).ext = s.ext := by
  induction n generalizing s pa bs with
  | zero => rfl
  | succ n ih =>
    unfold State.writeFuel
    split
    · rfl
    · simp [ih]

/-- A write of physical memory keeps its canonical form. -/
theorem State.write_wf {s : State} (pa : Nat) (bs : List Byte) (h : s.mem.wf = true) : (s.write pa bs).mem.wf = true :=
  State.writeFuel_wf _ pa bs h

@[simp] theorem State.write_ext (s : State) (pa : Nat) (bs : List Byte) : (s.write pa bs).ext = s.ext := State.writeFuel_ext ..

/-- A store of cells keeps the canonical form of the memory. -/
theorem State.store_wf {s : State} (cells : List Host.Cell) (h : s.mem.wf = true) : (s.store cells).mem.wf = true := by
  unfold State.store
  generalize cellRuns cells = l
  induction l generalizing s with
  | nil => exact h
  | cons r l ih => exact ih (State.write_wf _ _ h)

@[simp] theorem State.store_ext (s : State) (cells : List Host.Cell) : (s.store cells).ext = s.ext := by
  unfold State.store
  exact foldl_frame State.ext (fun s (r : Nat × List Byte) => s.write r.1 r.2) (fun s r => State.write_ext s r.1 r.2) _ s

/-- A store of single bytes keeps the canonical form of the memory. -/
theorem State.writeCells_wf {s : State} (cells : List Host.Cell) (h : s.mem.wf = true) : (s.writeCells cells).mem.wf = true := by
  unfold State.writeCells
  induction cells generalizing s with
  | nil => exact h
  | cons r l ih => exact ih (State.write_wf _ _ h)

/-! ## Memory as a die sees it -/

/-- Where every write is applied everywhere, every die sees memory as its homes hold it. -/
@[simp] theorem State.view_settled {s : State} (h : s.late = []) (die a : Nat) : s.view die a = s.mem.get a := by
  simp [State.view, h, lateOld]

/-- A write that a die has not applied leaves it the byte of before (07 R137). -/
theorem State.view_late {s : State} {die a : Nat} {b : Byte} (h : lateOld die a s.late = some b) : s.view die a = b := by
  simp [State.view, h]

/-- Bytes set one by one keep the canonical form. -/
theorem Mem.foldl_set_wf {α : Type} (f : α → Nat × Byte) (l : List α) {m : Mem} (h : m.wf = true) :
    Mem.wf (l.foldl (fun (m : Mem) x => m.set (f x).1 (f x).2) m) = true := by
  induction l generalizing m with
  | nil => exact h
  | cons a r ih => exact ih (Mem.set_wf h)

end Sys2Proof.Machine
end

