-- ==== Sys2Proof/Laws/Ops.lean ====
section
/-! SUPPORT. What each shared operation can do, said once: the issue of a slot, the taking of an exception, the end of a bundle,
the landing of results. -/

namespace Sys2Proof.Machine

/-! ## The trap a bundle reports -/

@[simp] theorem worst_nil : worst [] = none := rfl

/-- A bundle reports a trap exactly when one was found, and it is one of those found. -/
theorem worst_mem {l : List Trap} {t : Trap} (h : worst l = some t) : t ∈ l := by
  induction l generalizing t with
  | nil => simp [worst] at h
  | cons a r ih =>
    simp only [worst] at h
    split at h
    · simp_all
    · rename_i u hu
      split at h
      · simp only [Option.some.injEq] at h
        exact List.mem_cons_of_mem _ (h ▸ ih hu)
      · simp only [Option.some.injEq] at h
        simp [h]

theorem worst_none_iff {l : List Trap} : worst l = none ↔ l = [] := by
  cases l with
  | nil => simp [worst]
  | cons a r =>
    simp only [worst]
    split
    · simp
    · split <;> simp

/-! ## Issuing a slot -/

/-- Nothing used, nothing noted. -/
@[simp] theorem State.noteUse_nothing (s : State) (k : Fin 4) : s.noteUse ⟨k, [], none⟩ = s := rfl

/-- A slot whose predicate reads 0 has no effect (11 R226). -/
theorem State.runSlot_null (s : State) (k : Fin 4) (p : FReg) (srcs : List VSrc) (dst : Option VDst) (chk : State → Found)
    (eff : State → State) (hp : s.readF p = false) : s.runSlot k p srcs dst chk eff = .next s := by
  simp [State.runSlot, hp]

theorem State.runWait_null (s : State) (k : Fin 4) (p : FReg) (chk : State → Found) (cond : State → Bool)
    (bind : State → List (FReg × FlagBind)) (eff : State → State) (hp : s.readF p = false) : s.runWait k p chk cond bind eff = .next s := by
  simp [State.runWait, hp]

/-- Issuing a slot always answers a next state. -/
theorem State.runSlot_next (s : State) (k : Fin 4) (p : FReg) (srcs : List VSrc) (dst : Option VDst) (chk : State → Found)
    (eff : State → State) : ∃ t, s.runSlot k p srcs dst chk eff = .next t := by
  unfold State.runSlot
  split
  · exact ⟨_, rfl⟩
  · split
    · exact ⟨_, rfl⟩
    · exact ⟨_, rfl⟩
    · exact ⟨_, rfl⟩
    · dsimp only
      split
      · exact ⟨_, rfl⟩
      · split <;> exact ⟨_, rfl⟩

theorem State.runWait_next (s : State) (k : Fin 4) (p : FReg) (chk : State → Found) (cond : State → Bool)
    (bind : State → List (FReg × FlagBind)) (eff : State → State) : ∃ t, s.runWait k p chk cond bind eff = .next t := by
  unfold State.runWait
  split
  · exact ⟨_, rfl⟩
  · split
    · dsimp only
      split <;> exact ⟨_, rfl⟩
    · exact ⟨_, rfl⟩
    · exact ⟨_, rfl⟩
    · split
      · exact ⟨_, rfl⟩
      · split <;> exact ⟨_, rfl⟩

/-- The queue, latch and port checks do not depend on the scratch of the bundle. -/
theorem State.bundleTraps_iss (s : State) (i : Issue) (us : List Use) : ({ s with iss := i } : State).bundleTraps us = s.bundleTraps us := rfl

/-- The state in which a slot takes effect: its use noted, with what its checks have read. -/
def State.checkedBy (s : State) (u : Use) (chk : State → Found) : State :=
  { s.noteUse u with iss := { (s.noteUse u).iss with walk := (chk (s.noteUse u)).walk, block := (chk (s.noteUse u)).block } }

/-- A slot that reads no port waits for no landing entry. -/
@[simp] theorem State.portWait_nil (s : State) (n : Nat) : s.portWait [] n = none := by
  cases h : s.c.csr.compat <;> simp [State.portWait, State.portLands, h]

/-- What a port read waits for does not depend on the uses noted, the walk or the bytes read. -/
theorem State.portWait_checkedBy (s : State) (u : Use) (w : Bool) (b : Option (List Byte)) (srcs : List VSrc) (n : Nat) :
    ({ s.noteUse u with iss := { (s.noteUse u).iss with walk := w, block := b } } : State).portWait srcs n = s.portWait srcs n := by
  unfold State.noteUse
  split <;> rfl

/-- A slot alone in its bundle whose checks find nothing takes effect. -/
theorem State.runSlot_alone {s : State} {k : Fin 4} {p : FReg} {srcs : List VSrc} {dst : Option VDst} {chk : State → Found}
    {eff : State → State} (hp : s.readF p = true) (ha : s.iss.phase = .alone)
    (ht : (chk (s.noteUse ⟨k, srcs, dst⟩)).traps = []) (hw : (chk (s.noteUse ⟨k, srcs, dst⟩)).wait = none)
    (hu : (s.noteUse ⟨k, srcs, dst⟩).bundleTraps (s.noteUse ⟨k, srcs, dst⟩).iss.uses = [])
    (hl : s.portWait srcs (chk (s.noteUse ⟨k, srcs, dst⟩)).land = none) :
    s.runSlot k p srcs dst chk eff = .next (eff (s.checkedBy ⟨k, srcs, dst⟩ chk)) := by
  simp [State.runSlot, hp, ha, ht, hw, State.bundleTraps_iss, hu, State.checkedBy, State.portWait_checkedBy, hl]

/-- With no queue, latch or port in the bundle nothing of them can trap. -/
theorem State.bundleTraps_nil (s : State) : s.bundleTraps [] = [] := by
  simp only [State.bundleTraps, List.flatMap_nil, List.append_nil]
  refine List.flatMap_eq_nil_iff.2 fun k _ => ?_
  rfl

/-- Where the checks of a slot without vector operands read nothing and miss no translation, nothing is noted. -/
theorem State.checkedBy_plain {s : State} {k : Fin 4} {chk : State → Found} (hk : (chk s).walk = s.iss.walk)
    (hb : (chk s).block = s.iss.block) : s.checkedBy ⟨k, [], none⟩ chk = s := by
  simp [State.checkedBy, hk, hb]

/-- A slot without vector operands, alone, whose checks find nothing, takes effect. -/
theorem State.runSlot_plain {s : State} {k : Fin 4} {p : FReg} {chk : State → Found} {eff : State → State}
    (hp : s.readF p = true) (ha : s.iss.phase = .alone) (hu : s.iss.uses = []) (ht : (chk s).traps = [])
    (hw : (chk s).wait = none) (hk : (chk s).walk = s.iss.walk) (hb : (chk s).block = s.iss.block) :
    s.runSlot k p [] none chk eff = .next (eff s) := by
  have := State.runSlot_alone (srcs := []) (dst := none) (eff := eff) (k := k) hp ha (by simpa using ht) (by simpa using hw)
    (by simp [hu, State.bundleTraps_nil]) (by simp)
  rwa [State.checkedBy_plain hk hb] at this

/-- A slot alone whose check fails takes the trap, with its slot, after the stop of a walk that ended in it. -/
theorem State.runSlot_trap {s : State} {k : Fin 4} {p : FReg} {chk : State → Found} {eff : State → State} {t : Trap}
    (hp : s.readF p = true) (ha : s.iss.phase = .alone) (hu : s.iss.uses = []) (ht : (chk s).traps = [t]) :
    s.runSlot k p [] none chk eff = .next ((s.checkedBy ⟨k, [], none⟩ chk).precise { t with slot := k }) := by
  simp [State.runSlot, hp, ha, hu, ht, State.bundleTraps_nil, worst, State.checkedBy]

/-- A waiting slot alone whose condition holds binds its flag and takes effect. -/
theorem State.runWait_alone {s : State} {k : Fin 4} {p : FReg} {chk : State → Found} {cond : State → Bool}
    {bind : State → List (FReg × FlagBind)} {eff : State → State} (hp : s.readF p = true) (ha : s.iss.phase = .alone)
    (ht : (chk s).traps = []) (hc : cond s = true) : s.runWait k p chk cond bind eff = .next (eff (s.bindAll (bind s))) := by
  simp [State.runWait, hp, ha, ht, hc]

/-- A waiting slot alone whose condition fails binds its flag and stops its bundle. -/
theorem State.runWait_blocked {s : State} {k : Fin 4} {p : FReg} {chk : State → Found} {cond : State → Bool}
    {bind : State → List (FReg × FlagBind)} {eff : State → State} (hp : s.readF p = true) (ha : s.iss.phase = .alone)
    (ht : (chk s).traps = []) (hc : cond s = false) : s.runWait k p chk cond bind eff = .next (s.bindAll (bind s)).blockFlags := by
  simp [State.runWait, hp, ha, ht, hc]

/-! ## Taking an exception -/

/-- Everything taking an exception can do: nothing without a task, a double trap in supervisor mode or without a supervisor, else
the entry. -/
theorem State.takeTrap_cases (s : State) (t : Trap) (impr : Bool) (pc raised : Nat) :
    (s.c.task = none ∧ s.takeTrap t impr pc raised = s.endIssue) ∨
    (∃ k, s.c.task = some k ∧ s.c.csr.mode = true ∧ s.takeTrap t impr pc raised =
      (s.leaveUrgent s.cur (.double t.code t.eval (s.bundAddr raised))).endIssue) ∨
    (∃ k, s.c.task = some k ∧ s.c.csr.mode = false ∧ s.supervisor k.vd s.c.csr.evec = none ∧
      s.takeTrap t impr pc raised =
        (({ s with c := { s.c with pc := pc } } : State).leaveUrgent s.cur (.double t.code t.eval 0)).endIssue) ∨
    (∃ k h e, s.c.task = some k ∧ s.c.csr.mode = false ∧ s.supervisor k.vd s.c.csr.evec = some (h, e) ∧
      s.takeTrap t impr pc raised =
        ({ s with c := Core.enter s.cur s.c (causeWord t.code t.sub t.slot impr) (s.bundAddr pc) t.eval pc h e } : State).endIssue) := by
  unfold State.takeTrap
  dsimp only
  split
  · exact .inl ⟨by assumption, rfl⟩
  · rename_i k hk
    split
    · exact .inr (.inl ⟨k, hk, by assumption, rfl⟩)
    · rename_i hm
      simp only [Bool.not_eq_true] at hm
      split
      · exact .inr (.inr (.inl ⟨k, hk, hm, by assumption, rfl⟩))
      · exact .inr (.inr (.inr ⟨k, _, _, hk, hm, by assumption, rfl⟩))

/-- Entry into the supervisor from task mode. -/
theorem State.takeTrap_enters {s : State} {k : Task} {h : BitVec 32} {e : Nat} (t : Trap) (impr : Bool) (pc raised : Nat)
    (ht : s.c.task = some k) (hm : s.c.csr.mode = false) (hs : s.supervisor k.vd s.c.csr.evec = some (h, e)) :
    s.takeTrap t impr pc raised =
      ({ s with c := Core.enter s.cur s.c (causeWord t.code t.sub t.slot impr) (s.bundAddr pc) t.eval pc h e } : State).endIssue := by
  simp [State.takeTrap, ht, hm, hs]

/-! ## The end of a bundle -/

/-- A bundle that stopped before its issue ends without a cycle. -/
theorem State.endBundle_ended {s : State} (h : s.iss.ended = true) : s.endBundle = { s with iss := Issue.none } := by
  simp [State.endBundle, h]

end Sys2Proof.Machine
end

