-- ==== Sys2Proof/Tests/Slice0.lean ====
section
/-! SUPPORT. Tests: well-formedness, the words of the encoding tables, and a state and operands that meet the hypotheses of each
statement. Words are written field by field from Tables 10-3 and 10-6 to 10-11: OP, PRED and the fields of the format from bit 21
down. -/

namespace Sys2Proof.Tests

open Sys2Proof Sys2Proof.Machine

-- one theorem at a time: proofs elaborated side by side would each wait for the kernel with a thread of its own
set_option Elab.async false

/-! ## Well-formedness: an ill-formed term for each check -/

/-- A queue as a source, not peeked. -/
def sq (k : Fin 16) : VSrc := .q k false

/-- No merge. -/
def m0 : Merge := ⟨false, 0⟩

theorem test_wf_refuses_scalar_values :
    [ .exts 0 1 2 60 4, .extz 0 1 2 63 1, .cmp 0 1 2 3 .un, .cmpi 0 1 2 .un 5,
      .ldt8 0 1 2 7 false false .clu, .ldt16 0 1 2 0 true false .die, .ldt32 0 1 2 7 false true .pkg,
      .ldt64 0 1 2 7 false .sys, .lds 0 1 2 .b8 true 0, .waitf 0 0 false, .barwait 0 3 true 0, .cwait 0 1 0 ].all
      (fun i : Instr => !i.wf) = true := by decide

theorem test_wf_refuses_vector_types :
    [ .vadd 0 m0 (.q 1) (sq 2) (sq 3) .e4m3, .vsub 0 m0 (.q 1) (sq 2) (sq 3) .mx4, .vmul 0 m0 (.q 1) (sq 2) (sq 3) .e5m2,
      .vmin 0 m0 (.q 1) (sq 2) (sq 3) .ix4, .vmax 0 m0 (.q 1) (sq 2) (sq 3) .mxi8, .vabs 0 m0 (.q 1) (sq 2) .e4m3,
      .vneg 0 m0 (.q 1) (sq 2) .ix12, .vshl 0 m0 (.q 1) (sq 2) (sq 3) .f32, .vshr 0 m0 (.q 1) (sq 2) (sq 3) .f16,
      .vsra 0 m0 (.q 1) (sq 2) (sq 3) .bf16, .vpopc 0 m0 (.q 1) (sq 2) .f32, .vclz 0 m0 (.q 1) (sq 2) .f16,
      .vperm 0 m0 (.q 1) (sq 2) (sq 3) .e4m3, .vshuf 0 m0 (.q 1) (sq 2) (sq 3) .ix8 ].all
      (fun i : Instr => !i.wf) = true := by decide

theorem test_wf_refuses_vector_values :
    [ .vcmp 0 1 (sq 2) (sq 3) .ltn .f32, .vcmp 0 1 (sq 2) (sq 3) .un .s32, .vcmp 0 1 (sq 2) (sq 3) .eq .s16,
      .vbc 0 m0 (.q 1) (sq 2) 32 .s32, .vrot 0 m0 (.q 1) (sq 2) 63 .f32, .vext 0 1 (sq 2) 32 .n32,
      .vred 0 m0 (.q 1) (sq 2) .and .f32, .vred 0 m0 (.q 1) (sq 2) .add .f16, .vscan 0 m0 (.q 1) (sq 2) .add false .bf16,
      .vcvt 0 m0 (.q 1) (sq 2) false false .f32 .f32, .vcvt 0 m0 (.q 1) (sq 2) true false .f32 .e4m3,
      .vcvt 0 m0 (.q 1) (sq 2) false true .s32 .f32, .vcvt 0 m0 (.q 1) (sq 2) false false .mx4 .f32,
      .vxpand 0 m0 (.q 1) (sq 2) .e2m3 true, .vmx 0 m0 (.q 1) (sq 2) (sq 3) .s8, .vdiff 0 1 (sq 2) (sq 3) .n8 ].all
      (fun i : Instr => !i.wf) = true := by decide

theorem test_wf_refuses_two_broadcast_registers :
    [ .vadd 0 m0 (.q 1) (.bc 2) (.bc 3) .s32, .vshl 0 m0 (.q 1) (.bc 2) (.bc 3) .n8, .vcmp 0 1 (.bc 2) (.bc 3) .eq .s32,
      .vperm 0 m0 (.q 1) (.bc 2) (.bc 3) .s32, .vmx 0 m0 (.q 1) (.bc 2) (.bc 3) .n8, .vdiff 0 1 (.bc 2) (.bc 3) .ix4,
      .vfma 0 m0 (.q 1) (.bc 2) (sq 3) (.bc 4) false, .vfms 0 m0 (.q 1) (sq 2) (.bc 3) (.bc 4) true,
      .vand 0 m0 (.q 1) (.bc 2) (.bc 3), .vor 0 m0 (.q 1) (.bc 2) (.bc 3), .vxor 0 m0 (.q 1) (.bc 2) (.bc 3),
      .vsel 0 m0 (.q 1) (.bc 2) (.bc 3) 0, .vcompact 0 m0 (.q 1) (.bc 2) (.bc 3) 0, .vexpand 0 m0 (.q 1) (.bc 2) (.bc 3) 0,
      .vqz 0 m0 (.q 1) (.bc 2) (.bc 3) 0, .vdq 0 m0 (.q 1) (.bc 2) (.bc 3) 0, .vstx 0 (.bc 2) 1 (.bc 3) false 0 ].all
      (fun i : Instr => !i.wf) = true := by decide

theorem test_wf_refuses_other_values :
    [ .vldt 0 (.q 1) 2 7 false .clu, .cpyq 0 1 2 3 0, .cpyd 0 1 2 3 0, .cpym 0 1 2 3 0, .cbacq 0 1 2 0, .mmtd 0 1 2 3 31 4, .accld 0 1 2 6 3, .accst 0 1 2 .s32 true 3,
      .accst 0 1 2 .e4m3 true 3, .accst 0 1 2 .s16 false 3, .reductionReject 512 0, .loadDataArrival 512 0, .quantumExpiry 512,
      .tnextAnswer 512, .copyCompletion 512 0, .cbsRefill 512 0, .requestCompletion 512 0, .arrayCommandCompletion 128,
      .leaseGrant 128, .cbsEviction 128 0 0 ].all
      (fun i : Instr => !i.wf) = true := by decide

/-! ## Decoding: a word of every encoded instruction, from the encoding tables -/

/-- Slot words that decode, under a header's BCSEL and lent bits, to the instruction beside them. -/
def reads (slot : Nat) (bc : SReg) (hdr : Bool) (ext : Nat) (ws : List (Nat × Instr)) : Bool :=
  ws.all fun x => (decodeSlot slot bc hdr ext x.1).toOption == some x.2

/-- Slot words that are refused with a SUB. -/
def refuses (slot : Nat) (ws : List (Nat × IllegalSub)) : Bool :=
  ws.all fun x => match decodeSlot slot 0 false 0 x.1 with
    | .error e => e == x.2
    | .ok _ => false

theorem test_decode_alu_low : reads 0 0 false 0
    [ (0b000001_0000_00011_11110_00001_0000000, .add 0 3 30 1),
      (0b000001_0001_00100_11101_01000_0000001, .sub 1 4 29 8),
      (0b000001_0010_00101_11100_01111_0000010, .mul 2 5 28 15),
      (0b000001_0011_00110_11011_10110_0000011, .mulh 3 6 27 22),
      (0b000001_0100_00111_11010_11101_0000100, .mulhn 4 7 26 29),
      (0b000001_0101_01000_11001_00100_0000101, .div 5 8 25 4),
      (0b000001_0110_01001_11000_01011_0000110, .divn 6 9 24 11),
      (0b000001_0111_01010_10111_10010_0000111, .rem 7 10 23 18),
      (0b000001_1000_01011_10110_11001_0001000, .remn 8 11 22 25),
      (0b000001_1001_01100_10101_00000_0001001, .and 9 12 21 0) ] = true := by decide

theorem test_decode_alu_high : reads 0 0 false 0
    [ (0b000001_1010_01101_10100_00111_0001010, .or 10 13 20 7),
      (0b000001_1011_01110_10011_01110_0001011, .xor 11 14 19 14),
      (0b000001_1100_01111_10010_10101_0001100, .shl 12 15 18 21),
      (0b000001_1101_10000_10001_11100_0001101, .shr 13 16 17 28),
      (0b000001_1110_10001_10000_00011_0001110, .sra 14 17 16 3),
      (0b000001_1111_10010_01111_01010_0001111, .min 15 18 15 10),
      (0b000001_0000_10011_01110_10001_0010000, .max 0 19 14 17),
      (0b000001_0001_10100_01101_11000_0010001, .minn 1 20 13 24),
      (0b000001_0010_10101_01100_11111_0010010, .maxn 2 21 12 31),
      (0b000001_0000_00010_01001_00000_0010011, .clz 0 2 9),
      (0b000001_0001_00010_01001_00000_0010100, .ctz 1 2 9),
      (0b000001_0010_00010_01001_00000_0010101, .popc 2 2 9) ] = true := by decide

theorem test_decode_scalar_immediates : reads 0 0 false 0
    [ (0b000010_0000_00111_00100_00101_0000_011, .addx 0 7 4 5 3),
      (0b000011_0000_00011_00100_00101_000_0010, .sel 0 3 4 5 2),
      (0b000100_0000_00100_00100_111111111111, .addi 0 4 4 0xFFF),
      (0b000101_0011_00001_00010_100000000001, .andi 3 1 2 0x801),
      (0b000110_0100_00001_00010_011111111110, .ori 4 1 2 0x7FE),
      (0b000111_0101_00001_00010_000100100011, .xori 5 1 2 0x123),
      (0b001000_0000_00110_00110_000000_000011, .shli 0 6 6 3),
      (0b001001_0000_00110_00111_000000_111111, .shri 0 6 7 63),
      (0b001010_0000_00110_00111_000000_100000, .srai 0 6 7 32),
      (0b001011_0000_00101_00100_011111_100000, .exts 0 5 4 31 32),
      (0b001100_0000_00101_00100_010000_001000, .extz 0 5 4 16 8),
      (0b001101_0000_00100_00000001000000000, .li 0 4 512),
      (0b001110_0000_00100_0_0000000001000000, .lih 0 4 0x40) ] = true := by decide

theorem test_decode_flags : reads 0 0 false 0
    [ (0b001111_0000_0101_00110_00111_0110_0000, .cmp 0 5 6 7 .ltn),
      (0b010000_0000_0001_00100_0010_000001010, .cmpi 0 1 4 .lt 10),
      (0b010001_0001_0011_0000_0000_0000000_000, .fset 1 3),
      (0b010001_0010_0011_0000_0000_0000000_001, .fclr 2 3),
      (0b010001_0000_0011_0001_0010_0000000_010, .fand 0 3 1 2),
      (0b010001_0000_0011_0001_0010_0000000_011, .forr 0 3 1 2),
      (0b010001_0000_0011_0001_0000_0000000_100, .fnot 0 3 1) ] = true := by decide

theorem test_decode_scalar_memory : reads 0 0 false 0
    [ (0b010010_0000_00101_00100_10_0_000000010, .lds 0 5 4 .b4 false 2),
      (0b010010_0000_00101_00100_01_1_111111111, .lds 0 5 4 .b2 true 0x1FF),
      (0b010011_0000_00101_00100_00001000_1_0_00, .ldt8 0 5 4 8 true false .clu),
      (0b010100_0000_00101_00100_11111111_0_1_01, .ldt16 0 5 4 255 false true .die),
      (0b010101_0000_00101_00100_00001001_1_1_11, .ldt32 0 5 4 9 true true .sys),
      (0b010110_0000_00110_00100_11111010_0_1_10, .ldt64 0 6 4 250 true .pkg),
      (0b010111_0000_00111_00100_11_1_011_000010, .st 0 7 4 .b8 true .pkg 2),
      (0b010111_0000_00111_00100_00_0_000_111111, .st 0 7 4 .b1 false .core 63) ] = true := by decide

theorem test_decode_control : reads 0 0 false 0
    [ (0b011000_0000_1111111111111111111000, .br 0 0x3FFFF8),
      (0b011001_0000_0001_111111111111111101, .brf 0 1 0x3FFFD),
      (0b011010_0000_00000_01100_000000000000, .jr 0 12),
      (0b011011_0110_1000000000000000000001, .call 6 0x200001),
      (0b011100_0000_00000_01100_000000000000, .callr 0 12),
      (0b011101_0000_0000000000000000000000, .ret 0),
      (0b011110_0000_000000001111_0000000010, .loop 0 15 2),
      (0b011111_0000_00101_00000_00_0000000011, .loops 0 5 3),
      (0b100000_0000_00101_00110_00_0000000001, .loopp 0 5 6 1),
      (0b100001_0000_00111_01000_000000000000, .lstep 0 7 8),
      (0b100010_0010_0000000000000000000000, .lbrk 2),
      (0b100011_0000_0000000000001100_0_00000, .waitf 0 0xC false),
      (0b100011_0000_1000000000000001_1_00000, .waitf 0 0x8001 true) ] = true := by decide

theorem test_decode_csrs_and_shadow_queue : reads 0 0 false 0
    [ (0b100100_0000_01000_000001000000_00000, .crd 0 8 .cycle),
      (0b100100_0000_01000_000000100011_00000, .crd 0 8 (.tstat 3)),
      (0b100101_0000_00011_000000000110_00000, .cwr 0 3 .timecmp),
      (0b100110_0000_01001_1_00000000000_00000, .stqpop 0 9 true),
      (0b100110_0000_01001_0_00000000000_00000, .stqpop 0 9 false) ] = true := by decide

theorem test_decode_synchronisation : reads 0 0 false 0
    [ (0b100111_0000_00111_00100_0111_00_011_1_00, .amo 0 7 4 .minn .rlx .pkg true),
      (0b100111_0000_00111_00100_0000_11_100_0_00, .amo 0 7 4 .swap .acqrel .sys false),
      (0b101000_0000_00101_00100_00110_01_011_1_0, .cas 0 5 4 6 .acq .pkg true),
      (0b101001_0000_00100_00101_00_000_010_0_000, .red 0 4 5 .add .f32 .die),
      (0b101001_0000_00100_00101_10_101_100_0_000, .red 0 4 5 .max .n64 .sys),
      (0b101001_0000_00100_00101_00_000_100_1_000, .redWin 0 4 5),
      (0b101010_0000_000000011_00100_000000_00, .barinit 0 3 4),
      (0b101010_0000_111111111_00101_000000_01, .bararr 0 511 5),
      (0b101010_0000_000000011_1_0101_000000_10, .barwait 0 3 true 5),
      (0b101011_0000_001_00100_00101_000000000, .frset 0 1 4 5),
      (0b101100_0000_00000010_01_011_000000000, .fence 0 2 .rel .pkg) ] = true := by decide

theorem test_decode_tasks : reads 0 0 false 0
    [ (0b101101_0000_00100_00101_00_0000000000, .tspawn 0 4 5),
      (0b101101_0000_00100_00101_01_0000000000, .tspawnWait 0 4 5),
      (0b101110_0000_00110_01010_0_00000000000, .tdep 0 6 10),
      (0b101110_0000_00110_00000_1_00000000000, .tdepDec 0 6),
      (0b101111_0000_00110_0_0000_00000000_0100, .cwait 0 6 4),
      (0b101111_0000_00110_1_0000_000000000011, .cwaitYield 0 6 3),
      (0b110000_0000_00000_0_0000_000000000010, .tsusp 0 2),
      (0b110001_0000_0000000000000000000000, .texit 0),
      (0b110010_0000_0000000000000000000000, .tnext 0),
      (0b110011_0000_00000_0_0000_111111111111, .safept 0 0xFFF) ] = true := by decide

theorem test_decode_system : reads 0 0 false 0
    [ (0b000000_0000_0000000000000000000000, .nop),
      (0b110100_0000_000000_0001001000110100, .trap 0 0x1234),
      (0b110101_0000_0000000000000000000000, .eret 0),
      (0b110110_0111_0000000000000000000000, .ebrk 7),
      (0b110111_0000_0000000000000000000000, .isync 0),
      (0b111000_0000_00100_00101_000000000000, .iinv 0 4 5) ] = true := by decide

theorem test_decode_vector_memory : reads 1 0 false 0
    [ (0b000001_0000_00010_0_00100_00000000010, .vld 0 (.q 2) 4 2),
      (0b000001_0000_00010_1_00100_11111111111, .vld 0 (.nwb 2) 4 0x3FFFF),
      (0b000001_0000_10001_0_00100_01111111111, .vld 0 .p5 4 0x3FF),
      (0b000010_0000_00101_0_00100_00101100_0_01, .vldt 0 (.q 5) 4 44 false .die),
      (0b000011_0000_00001_00101_011_0_0_00_00001, .vst 0 (.q 1 false) 5 .pkg false false 0 1),
      (0b000011_0000_00001_00101_100_1_1_10_10000, .vst 0 (.q 1 false) 5 .sys true true 2 0x7F0),
      (0b000100_0000_00010_0_00100_00011_0_00000, .vldx 0 (.q 2) 4 (.q 3 false)),
      (0b000100_0000_10000_0_00100_00011_1_00000, .vldx 0 .p4 4 (.q 3 true)),
      (0b000101_0000_00001_00100_00011_0_0_0_00_00, .vstx 0 (.q 1 false) 4 (.q 3 false) false 0),
      (0b000101_0000_00001_00100_10101_1_0_1_11_00, .vstx 0 (.q 1 true) 4 (.p 1 false) true 3),
      (0b000110_0000_00011_0_00100_00101_001_000, .vstq 0 (.q 3 false) 4 5 1),
      (0b000111_0000_010_00100_00000000000000, .agset 0 2 4),
      (0b001000_0000_0100_00000_0000_00110_0000, .cbset 0 4 6),
      (0b001001_0000_0100_00101_0110_00000_0000, .cbacq 0 4 5 6),
      (0b001010_0000_0100_00000000000000_0000, .cbrel 0 4) ] = true := by decide

theorem test_decode_vector_memory_with_header : reads 1 9 true 65
    [ (0b000001_0000_00010_0_00100_00000000010, .vld 0 (.q 2) 4 (BitVec.ofNat 18 (0x41 * 2048 + 2))),
      (0b000010_0000_00101_0_00100_00000000_1_11, .vldt 0 (.q 5) 4 (BitVec.ofNat 15 (0x41 * 256)) true .sys),
      (0b000011_0000_00001_00101_011_0_0_00_00001, .vst 0 (.q 1 true) 5 .pkg false false 0 0x21) ] = true := by decide

theorem test_decode_vector_arithmetic : reads 2 0 false 0
    [ (0b000001_0000_00001_0_00010_00011_0_0_0000, .vadd 0 ⟨false, 0⟩ (.q 1) (.q 2 false) (.q 3 false) .s32),
      (0b000010_0000_00001_1_00010_00011_1_0_0110, .vsub 0 ⟨false, 0⟩ (.nwb 1) (.q 2 true) (.q 3 false) .f32),
      (0b000011_0000_10000_0_10001_10110_0_1_1000, .vmul 0 ⟨false, 0⟩ .p4 (.l 1) (.p 2 true) .bf16),
      (0b000100_0000_00001_0_00010_00011_00100_0, .vfma 0 ⟨false, 0⟩ (.q 1) (.q 2 false) (.q 3 false) (.q 4 false) false),
      (0b000101_1001_00001_0_00010_00011_00100_1, .vfms 9 ⟨false, 0⟩ (.q 1) (.q 2 false) (.q 3 false) (.q 4 false) true),
      (0b000110_0000_00001_0_00010_00011_0_0_0001, .vmin 0 ⟨false, 0⟩ (.q 1) (.q 2 false) (.q 3 false) .n32),
      (0b000111_0000_00001_0_00010_00011_0_0_0010, .vmax 0 ⟨false, 0⟩ (.q 1) (.q 2 false) (.q 3 false) .s16),
      (0b001000_0000_00001_0_00010_0_000000_0111, .vabs 0 ⟨false, 0⟩ (.q 1) (.q 2 false) .f16),
      (0b001001_0000_00001_0_00010_1_000000_0011, .vneg 0 ⟨false, 0⟩ (.q 1) (.q 2 true) .n16),
      (0b001010_0000_00001_0_00010_00011_0_0_0000, .vand 0 ⟨false, 0⟩ (.q 1) (.q 2 false) (.q 3 false)),
      (0b001011_0000_00001_0_00010_00011_0_0_0000, .vor 0 ⟨false, 0⟩ (.q 1) (.q 2 false) (.q 3 false)),
      (0b001100_0000_00001_0_00010_00011_0_0_0000, .vxor 0 ⟨false, 0⟩ (.q 1) (.q 2 false) (.q 3 false)),
      (0b001101_0000_00001_0_00010_0_000000_0000, .vnot 0 ⟨false, 0⟩ (.q 1) (.q 2 false)) ] = true := by decide

theorem test_decode_vector_shifts_and_lanes : reads 2 0 false 0
    [ (0b001110_0000_00001_0_00010_00011_0_0_0100, .vshl 0 ⟨false, 0⟩ (.q 1) (.q 2 false) (.q 3 false) .s8),
      (0b001111_0000_00001_0_00010_00011_0_0_0101, .vshr 0 ⟨false, 0⟩ (.q 1) (.q 2 false) (.q 3 false) .n8),
      (0b010000_0000_00001_0_00010_00011_0_0_0000, .vsra 0 ⟨false, 0⟩ (.q 1) (.q 2 false) (.q 3 false) .s32),
      (0b010001_0000_01_00100_10010_0_0_0010_0000, .vcmp 0 1 (.q 4 false) (.l 2) .lt .s32),
      (0b010010_0000_00011_0_00001_00010_0_0_10_00, .vsel 0 ⟨false, 0⟩ (.q 3) (.q 1 false) (.q 2 false) 2),
      (0b010011_0000_00001_0_00010_0_000000_0000, .vmov 0 ⟨false, 0⟩ (.q 1) (.q 2 false)),
      (0b010100_0000_00001_0_00010_0_011111_0110, .vbc 0 ⟨false, 0⟩ (.q 1) (.q 2 false) 31 .f32),
      (0b010101_0000_00001_0_00010_00011_0_0_0000, .vperm 0 ⟨false, 0⟩ (.q 1) (.q 2 false) (.q 3 false) .s32),
      (0b010110_0000_00001_0_00010_0_111111_0010, .vrot 0 ⟨false, 0⟩ (.q 1) (.q 2 false) 63 .s16),
      (0b010111_0000_00001_0_00010_00011_0_0_0100, .vshuf 0 ⟨false, 0⟩ (.q 1) (.q 2 false) (.q 3 false) .s8),
      (0b011000_0000_00010_0_00001_0_000000_0110, .vred 0 ⟨false, 0⟩ (.q 2) (.q 1 false) .add .f32),
      (0b011000_0000_00010_0_00001_0_000101_0000, .vred 0 ⟨false, 0⟩ (.q 2) (.q 1 false) .xor .s32),
      (0b011001_0000_00111_0_00110_0_000100_0000, .vscan 0 ⟨false, 0⟩ (.q 7) (.q 6 false) .add true .s32),
      (0b011010_0000_01011_0_00010_1_011111_0000, .vext 0 11 (.q 2 true) 31 .s32) ] = true := by decide

theorem test_decode_vector_functions_and_conversions : reads 2 0 false 0
    [ (0b011011_0000_00001_0_00010_0_000000_0110, .vexp2 0 ⟨false, 0⟩ (.q 1) (.q 2 false)),
      (0b011100_0000_00001_0_00010_0_000000_0110, .vlog2 0 ⟨false, 0⟩ (.q 1) (.q 2 false)),
      (0b011101_0000_00001_0_00010_0_000000_0110, .vrcp 0 ⟨false, 0⟩ (.q 1) (.q 2 false)),
      (0b011110_0000_00001_0_00010_0_000000_0110, .vrsq 0 ⟨false, 0⟩ (.q 1) (.q 2 false)),
      (0b011111_0000_00010_0_00001_0_0_0_0110_1001, .vcvt 0 ⟨false, 0⟩ (.q 2) (.q 1 false) false false .f32 .e4m3),
      (0b011111_0000_00010_0_00001_0_1_1_0110_1010, .vcvt 0 ⟨false, 0⟩ (.q 2) (.q 1 false) true true .f32 .e5m2),
      (0b100000_0000_00010_0_00001_0_001000_1001, .vxpand 0 ⟨false, 0⟩ (.q 2) (.q 1 false) .s4 true),
      (0b100001_0000_00110_0_00101_00110_0_0_1100, .vmx 0 ⟨false, 0⟩ (.q 6) (.q 5 false) (.q 6 false) .mxi8),
      (0b100010_0000_00011_0_00010_01000_0_0_0_001, .vqz 0 ⟨false, 0⟩ (.q 3) (.q 2 false) (.q 8 false) 1),
      (0b100011_0000_00100_0_00011_11000_0_0_0_111, .vdq 0 ⟨false, 0⟩ (.q 4) (.q 3 false) (.bc 0) 7),
      (0b100100_0000_10_00011_00100_0_1_0000_1110, .vdiff 0 2 (.q 3 false) (.q 4 true) .ix8) ] = true := by decide

theorem test_decode_vector_rearranging_and_masks : reads 2 0 false 0
    [ (0b100101_0000_00011_0_00001_00010_0_0_10_00, .vcompact 0 ⟨false, 0⟩ (.q 3) (.q 1 false) (.q 2 false) 2),
      (0b100110_0000_00011_0_00001_00010_1_1_11_00, .vexpand 0 ⟨false, 0⟩ (.q 3) (.q 1 true) (.q 2 true) 3),
      (0b100111_0000_00001_0_00010_0_000000_0001, .vpopc 0 ⟨false, 0⟩ (.q 1) (.q 2 false) .n32),
      (0b101000_0000_00001_0_00010_0_000000_0011, .vclz 0 ⟨false, 0⟩ (.q 1) (.q 2 false) .n16),
      (0b101001_0000_00000_0_00001_0_000001_0000, .vtrp 0 (.q 1 false) true),
      (0b101010_0000_00010_0_00000_0_000000_0000, .vtrc 0 ⟨false, 0⟩ (.q 2) false),
      (0b101011_0000_01_00_00_00110_00000000000, .mset 0 1 6),
      (0b101100_0000_11_01_10_00000_00000000000, .mand 0 3 1 2),
      (0b101101_0000_11_01_10_00000_00000000000, .mor 0 3 1 2),
      (0b101110_0000_00_01_00_00000_00000000000, .mnot 0 0 1) ] = true := by decide

theorem test_decode_vector_with_header : reads 2 9 true 5
    [ (0b000001_0000_00001_0_00010_11000_0_0_0000, .vadd 0 ⟨true, 1⟩ (.q 1) (.q 2 false) (.bc 9) .s32),
      (0b001000_0000_00001_0_00010_0_000000_0000, .vabs 0 ⟨true, 1⟩ (.q 1) (.q 2 false) .s32),
      (0b000100_0000_00001_0_00010_00011_00100_0, .vfma 0 ⟨false, 0⟩ (.q 1) (.q 2 true) (.q 3 false) (.q 4 true) false) ] = true := by decide

theorem test_decode_array_and_codebooks : reads 3 0 false 0
    [ (0b000001_0000_0000000000000000000000, .lease 0),
      (0b000010_0000_0000000000000000000000, .lfree 0),
      (0b000011_0000_01_00100_00101_00110_0_0000, .mmd 0 1 4 5 6 .bf16),
      (0b000011_0000_01_00100_00101_00110_0_0110, .mmd 0 1 4 5 6 .mx4),
      (0b000100_0000_001_00100_00101_00110_0000, .tbld 0 1 4 5 6),
      (0b000101_0000_00_001_00111_01000_00110_00, .mmt 0 0 1 7 8 6),
      (0b000110_0000_00_001_00111_01000_00110_00, .mmtd 0 0 1 7 8 6),
      (0b000111_0000_11_00000_0000_0_00111_00000, .accz 0 3 7),
      (0b001000_0000_10_00100_0101_0_00110_00000, .accld 0 2 4 5 6),
      (0b001001_0000_10_00100_1010_1_00110_00000, .accst 0 2 4 .e5m2 true 6),
      (0b001010_0000_010_00100_1_00110_00000000, .cbbind 0 2 4 true 6),
      (0b001011_0000_010_00000_0_00000_00000000, .cbfree 0 2),
      (0b001100_0000_000_00100_0_00110_00000000, .cbinv 0 4 6),
      (0b001101_0000_000_00100_0_00000_00000000, .cbpre 0 4) ] = true := by decide

theorem test_decode_copies : reads 3 0 false 0
    [ (0b001110_0000_01010_01011_01100_01101_00, .cpy 0 10 11 12 13),
      (0b001111_0000_01010_01011_01100_01101_00, .cpyq 0 10 11 12 13),
      (0b010000_0000_01010_01011_01100_01101_00, .cpyd 0 10 11 12 13),
      (0b010001_0000_01010_01011_01100_01101_00, .cpym 0 10 11 12 13),
      (0b010010_0000_01010_01011_01100_01101_00, .cpyf 0 10 11 12 13) ] = true := by decide

/-- The examples of 10 R221: an unassigned opcode, a reserved field, an operand value that is not accepted. -/
theorem test_decode_refusals :
    refuses 0 [(0x00000001, .reserved), (0x38080040 + 0x10000, .reserved), (0xE4000000, .opcode), (0x04064296, .value)] = true ∧
    refuses 1 [(0xFC000000, .opcode), (0x1C300000, .value)] = true ∧ refuses 2 [(0x0406C806, .value), (0xBC000000, .opcode)] = true ∧
    refuses 3 [(0x3814B635, .reserved), (0x4C000000, .opcode)] = true := by decide
/-! ## States that meet the hypotheses of the statements -/

open Sys2Proof.Claims

/-- A task in task mode at bundle 0 of its code, on core 0. -/
def run : State := State.reset.placeWord 0 0

/-- A state with another acting core. -/
def onCore (f : Core → Core) (s : State) : State := { s with c := f s.c }

/-- Registers changed. -/
def onRegs (f : Regs → Regs) (s : State) : State := onCore (fun c => { c with regs := f c.regs }) s

/-- CSRs changed. -/
def onCsr (f : Csrs → Csrs) (s : State) : State := onCore (fun c => { c with csr := f c.csr }) s

/-- A scalar register holds a value. -/
def withS (r : SReg) (v : Word) (s : State) : State := onRegs (fun x => { x with s := x.s.set r v }) s

/-- The task in supervisor mode. -/
def sup : State := onCsr (fun x => { x with mode := true }) run

/-- The only VD changed. -/
def onVd (f : Vd → Vd) (s : State) : State := { s with vds := s.vds.map fun p => (p.1, f p.2) }

/-- The VD of `run`. -/
def vd0 : Vd := probeVd

/-- The task of `run`. -/
def task0 : Task := ⟨probeCont, 0, 0, 0, 0, 0, 0, 0⟩

theorem quiet_of_nothing_owed {s : State} (n : Nat) (h : s.c.owed = []) : Quiet s n := by
  intro e he
  rw [h] at he
  cases he

theorem no_loop_end_of_no_level {s : State} (h : s.c.regs.loops.levels = []) : NoLoopEnd s := by
  intro outer l e
  rw [h] at e
  cases outer <;> cases e

/-- Whether a check gives a result. -/
def gives {α β : Type} [DecidableEq α] (x : Except β α) (a : α) : Bool :=
  match x with
  | .ok b => b == a
  | .error _ => false

theorem of_gives {α β : Type} [DecidableEq α] {x : Except β α} {a : α} (h : gives x a = true) : x = .ok a := by
  cases x with
  | ok b => simpa [gives] using h
  | error e => cases h

/-! ### Scalar instructions and control flow -/

theorem witness_scalar_value : (Instr.addi 0 3 4 5).wf = true ∧ Alone run ∧
    scalarResult run (.addi 0 3 4 5) = some (0, 3, 1, 5) ∧ run.readF 0 = true ∧ Quiet run 1 ∧ NoLoopEnd run :=
  ⟨rfl, rfl, rfl, rfl, quiet_of_nothing_owed 1 rfl, no_loop_end_of_no_level rfl⟩

theorem witness_flag_value : (Instr.cmpi 0 1 4 .lt 5).wf = true ∧ Alone run ∧
    flagResult run (.cmpi 0 1 4 .lt 5) = some (0, 1, true) ∧ run.readF 0 = true :=
  ⟨rfl, rfl, rfl, rfl⟩

theorem witness_false_predicate : predOf (.add 1 2 3 4) = some 1 ∧ run.readF 1 = false ∧ predOf (.lease 15) = some 15 := by decide

theorem witness_taken_branch : Alone run ∧ takenTarget run (.br 0 0x3FFFFF) = some (0, false, 0x3FFFFF) ∧ run.readF 0 = true ∧
    Quiet run 2 ∧ takenTarget run (.call 0 0) = some (0, true, 0) ∧ run.readF 1 = false :=
  ⟨rfl, rfl, rfl, quiet_of_nothing_owed 2 rfl, rfl, rfl⟩

theorem witness_loop_start : Alone run ∧ loopCount run (.loop 0 0 1023) = some (0, 1023, 1) ∧ run.readF 0 = true ∧ Quiet run 2 ∧
    loopCount run (.loops 0 4 0) = some (0, 0, 0) ∧ loopCount (withS 5 1 run) (.loopp 0 4 5 7) = some (0, 7, 1) :=
  ⟨rfl, rfl, rfl, quiet_of_nothing_owed 2 rfl, rfl, by decide⟩

/-- One loop level that ends at bundle 0 with n iterations left. -/
def inLoop (n : Nat) : State :=
  onRegs (fun x => { x with loops := ⟨[⟨0, 0, n, ⟨some (5, 6), none⟩⟩], Steps.none⟩ }) run

theorem witness_lstep_and_lbrk : Alone run ∧ run.readF 0 = true ∧ Alone (inLoop 2) ∧ (inLoop 2).readF 0 = true ∧ Quiet (inLoop 2) 2 ∧
    (inLoop 2).c.regs.loops.levels = [] ++ [⟨0, 0, 2, ⟨some (5, 6), none⟩⟩] ∧ run.c.regs.loops.levels = [] :=
  ⟨rfl, rfl, rfl, rfl, quiet_of_nothing_owed 2 rfl, rfl, rfl⟩

theorem witness_loop_end (n : Nat) : Alone (inLoop n) ∧ Quiet (inLoop n) 1 ∧
    (inLoop n).c.regs.loops.levels = [] ++ [⟨0, 0, n, ⟨some (5, 6), none⟩⟩] ∧ 0 + 0 = (inLoop n).c.pc :=
  ⟨rfl, quiet_of_nothing_owed 1 rfl, rfl, rfl⟩

theorem witness_waitf : Alone run ∧ run.readF 0 = true ∧ waitHolds run 1 false ∧ ¬ waitHolds run 3 false ∧ ¬ waitHolds run 2 true := by
  refine ⟨rfl, rfl, ?_⟩
  unfold waitHolds
  decide

theorem witness_crd_and_cwr : Alone run ∧ run.readF 0 = true ∧ run.c.csr.mode = false ∧ Alone sup ∧ sup.readF 0 = true ∧
    sup.c.csr.mode = true ∧ sup.vdOf sup.c = some vd0 ∧ vd0.globalCore ((sup.c.readS 4).toNat % 512) = some 0 ∧
    vd0.globalCore (((withS 4 4 sup).c.readS 4).toNat % 512) = none :=
  ⟨rfl, rfl, rfl, rfl, rfl, rfl, rfl, by decide, by decide⟩

theorem witness_stqpop : Alone run ∧ run.readF 0 = true ∧ run.c.regs.stq = [] ∧
    (onRegs (fun x => { x with stq := [⟨1, 2, 3, 4, 5⟩] }) run).c.regs.stq = ⟨1, 2, 3, 4, 5⟩ :: [] :=
  ⟨rfl, rfl, rfl, rfl⟩

/-! ### Loads, stores and requests -/

/-- S4 points at an own-slice address. -/
def at4 (o : Nat) : State := withS 4 (BitVec.ofNat 64 (sramBase + o)) run

theorem witness_lds : Alone (at4 0x17FFF8) ∧ (at4 0x17FFF8).readF 0 = true ∧ effAddr (at4 0x17FFF8) 4 0 8 = sramBase + 0x17FFF8 ∧
    (at4 0x17FFF8).isOwn (sramBase + 0x17FFF8) 8 = true ∧
    (at4 0x17FFF8).xlateCore (sramBase + 0x17FFF8) .rd = .ok ⟨sliceBase 0 + 0x17FFF8, none, none⟩ ∧ HasRoom (at4 0x17FFF8) true ∧
    (∀ b ∈ sliceBytesAt (at4 0x17FFF8) (sramBase + 0x17FFF8) 8, (at4 0x17FFF8).poisoned b = false) ∧
    (at4 0x17FFF8).localHeld (sliceBytesAt (at4 0x17FFF8) (sramBase + 0x17FFF8) 8) = false := by
  refine ⟨rfl, rfl, rfl, by decide, rfl, ?_, ?_, ?_⟩
  · unfold HasRoom; decide
  · decide
  · decide

/-- A request of core 0 with issue order 0. -/
def req (op : ReqOp) : Req := ⟨0, op, 0, .core, false, false, 0, none, 0, 0, 0, false, false, []⟩

/-- A request stands in the LSU of the acting core. -/
def withReq (r : Req) (s : State) : State := onCore (fun c => { c with lsu := [r], serial := 1 }) s

theorem witness_lds_poisoned_and_held :
    (∃ b ∈ sliceBytesAt { at4 0 with poison := [sliceBase 0 / 64] } sramBase 1,
      ({ at4 0 with poison := [sliceBase 0 / 64] } : State).poisoned b = true) ∧
    (withReq (req (.amo (sliceBase 0) 4 .add 1)) (at4 0)).localHeld
      (sliceBytesAt (withReq (req (.amo (sliceBase 0) 4 .add 1)) (at4 0)) sramBase 1) = true := by
  refine ⟨⟨sliceBase 0, by decide, by decide⟩, by decide⟩

theorem witness_ldt : Alone (at4 8) ∧ timedLoadOf (.ldt64 0 5 4 8 true .pkg) = some (0, 5, 4, 8, 8, false, true, .pkg) ∧
    (at4 8).readF 0 = true ∧ ((at4 8).c.readS 4).toNat % 8 = 0 ∧
    (at4 8).xlateCore ((at4 8).c.readS 4).toNat .rd = .ok ⟨sliceBase 0 + 8, none, none⟩ ∧ HasRoom (at4 8) true :=
  ⟨rfl, rfl, rfl, by decide, rfl, by unfold HasRoom; decide⟩

theorem witness_misaligned : Alone (at4 7) ∧ (at4 7).readF 0 = true ∧ effAddr (at4 7) 4 (0 : BitVec 9).toInt 8 % 8 ≠ 0 ∧
    timedLoadOf (.ldt16 0 5 4 8 false false .clu) = some (0, 5, 4, 2, 8, false, false, .clu) ∧ ((at4 7).c.readS 4).toNat % 2 ≠ 0 ∧
    effAddr (at4 7) 4 (-1 : BitVec 6).toInt 4 % 4 ≠ 0 := by
  refine ⟨rfl, rfl, ?_, rfl, ?_, ?_⟩ <;> decide

theorem witness_st : Alone (at4 0) ∧ (at4 0).readF 0 = true ∧ effAddr (at4 0) 4 (31 : BitVec 6).toInt 8 % 8 = 0 ∧
    (at4 0).xlateCore (effAddr (at4 0) 4 (31 : BitVec 6).toInt 8) .wr = .ok ⟨sliceBase 0 + 248, none, none⟩ ∧ HasRoom (at4 0) false :=
  ⟨rfl, rfl, by decide, rfl, by unfold HasRoom; decide⟩

/-- A store of one byte at the first byte of the slice, in the LSU. -/
def storing : State := withReq (req (.store [(sliceBase 0, 7)])) run

/-- A load of one byte there. -/
def loading : State := withReq (req (.load [sliceBase 0] true [])) run

/-- The first byte of the slice can be stored to. -/
theorem slice_byte_storable : StorableByte storing (sliceBase 0) := ⟨rfl, .inl ⟨0, 0, by decide⟩⟩

theorem witness_performed_requests : coreOk 0 = true ∧ storing.mem.wf = true ∧
    NextToPerform storing 0 (req (.store [(sliceBase 0, 7)])) ∧
    (req (.store [(sliceBase 0, 7)])).op = .store ((List.range 1).map fun j => (sliceBase 0 + j, [(7 : Byte)].getD j 0)) ∧
    StorableByte storing (sliceBase 0) ∧ NextToPerform loading 0 (req (.load [sliceBase 0] true [])) ∧
    (req (.load [sliceBase 0] true [])).op = .load [sliceBase 0] true [] := by
  refine ⟨rfl, by decide, ⟨by decide, by decide, by decide, rfl, by decide⟩, rfl, slice_byte_storable,
    ⟨by decide, by decide, by decide, rfl, by decide⟩, rfl⟩

/-! ### Vectors -/

/-- Queue 2 holds one landed entry. -/
def queued : State := onRegs (fun x => { x with q := x.q.set 2 [⟨0, some 5⟩] }) run

theorem witness_vector_loads : OperandsReady (at4 128) [] (some (.q 1)) ∧ effAddr (at4 128) 4 (-1 : BitVec 18).toInt 128 = sramBase ∧
    (at4 128).isOwn sramBase 128 = true ∧ (at4 128).xlateCore sramBase .rd = .ok ⟨sliceBase 0, none, none⟩ ∧
    HasRoom (at4 128) true ∧
    (at4 128).localHeld (sliceBytesAt (at4 128) sramBase 128) = false ∧
    (∀ b ∈ sliceBytesAt (at4 128) sramBase 128, (at4 128).poisoned b = false) ∧
    (at4 128).xlateCore ((at4 128).c.readS 4).toNat .rd = .ok ⟨sliceBase 0 + 128, none, none⟩ := by
  refine ⟨⟨by simp, trivial, by decide, by decide⟩, by decide, by decide, rfl, ?_, by decide +kernel, by decide +kernel, rfl⟩
  unfold HasRoom; decide

/-- A gather or scatter of the first word of the slice in every lane, its index vector the scalar zero. -/
theorem lane_ok (i : Nat) (h : i < 32) (acc : AccKind) : LaneOk (at4 0) acc (laneAddress (at4 0) 4 (.bc 0) i) := by
  have e : laneAddress (at4 0) 4 (.bc 0) i = sramBase := by
    revert i
    decide +kernel
  rw [e]
  exact ⟨by decide, by decide, ⟨sliceBase 0, none, none⟩, rfl⟩

theorem witness_gather_and_scatter : Alone (at4 0) ∧ (at4 0).readF 0 = true ∧ OperandsReady (at4 0) [.bc 0] (some (.q 1)) ∧
    PortQuiet (at4 0) (.bc 0) ∧ (∀ i < 32, LaneOk (at4 0) .rd (laneAddress (at4 0) 4 (.bc 0) i)) ∧ HasRoom (at4 0) false ∧
    OperandsReady (at4 0) [.bc 0, .bc 0] none ∧
    (∀ i ∈ (List.range 32).filter (laneStored (at4 0) true 0), LaneOk (at4 0) .wr (laneAddress (at4 0) 4 (.bc 0) i)) ∧
    (List.range 32).filter (laneStored (at4 0) true 0) = [] ∧ (List.range 32).filter (laneStored (at4 0) false 0) ≠ [] := by
  refine ⟨rfl, rfl, ⟨by simp [SourceReady], trivial, by decide, by decide⟩, trivial, fun i h => lane_ok i h .rd, ?_,
    ⟨by simp [SourceReady], trivial, by decide, by decide⟩, ?_, by decide, by decide⟩
  · unfold HasRoom; decide
  · intro i h
    exact lane_ok i (by simpa using (List.mem_filter.mp h).1) .wr

theorem witness_gather_words : (at4 0).localHeld ((List.range 32).map fun i => sliceBytesAt (at4 0) (laneAddress (at4 0) 4 (.bc 0) i) 4).flatten = false ∧
    (∀ b ∈ ((List.range 32).map fun i => sliceBytesAt (at4 0) (laneAddress (at4 0) 4 (.bc 0) i) 4).flatten,
      (at4 0).poisoned b = false) := by decide +kernel

/-- A live binding in B1 of version 0. -/
def bound1 (s : State) : State := onRegs (fun x => { x with b := x.b.set 1 { Binding.none with valid := true } }) s

theorem witness_vector_stores : OperandsReady (bound1 (at4 0)) [.bc 0] none ∧ PortQuiet (bound1 (at4 0)) (.bc 0) ∧
    (bound1 (at4 0)).xlateCore sramBase .wr = .ok ⟨sliceBase 0, none, none⟩ ∧ HasRoom (bound1 (at4 0)) false ∧
    ((bound1 (at4 0)).c.regs.b[(1 : BReg)]).valid = true ∧
    ((bound1 (at4 0)).readV 32 (.bc 0)).extractLsb' 512 16 = ((bound1 (at4 0)).c.regs.b[(1 : BReg)]).ver ∧
    ((bound1 (at4 0)).c.readS 4).toNat % 16 = 0 ∧
    (bound1 (at4 0)).isOwn sramBase (4 * ((bound1 (at4 0)).c.regs.b[(1 : BReg)]).w) = true ∧ (bound1 (at4 0)).isOwn sramBase 3 = true := by
  refine ⟨⟨by simp [SourceReady], trivial, by decide, by decide⟩, trivial, rfl, ?_, by decide, by decide +kernel, by decide, by decide, by decide⟩
  unfold HasRoom; decide

/-! ### Atomics, barriers, fences, state blocks, buffers -/

theorem witness_atomics_issue : Alone (at4 8) ∧ (at4 8).readF 0 = true ∧ ((at4 8).c.readS 4).toNat % atomicBytes true = 0 ∧
    (at4 8).xlateCore ((at4 8).c.readS 4).toNat .wr = .ok ⟨sliceBase 0 + 8, none, none⟩ ∧ HasRoom (at4 8) true ∧
    ((at4 8).c.readS 4).toNat % redBytes .bf16 = 0 ∧ HasRoom (at4 8) false := by
  refine ⟨rfl, rfl, by decide, rfl, ?_, by decide, ?_⟩ <;> unfold HasRoom <;> decide

/-- An atomic of four bytes at the start of the slice, in the LSU. -/
def atomic (op : ReqOp) : State := withReq (req op) run

theorem witness_atomics_performed : coreOk 0 = true ∧ (atomic (.amo (sliceBase 0) 4 .maxn 1)).mem.wf = true ∧
    NextToPerform (atomic (.amo (sliceBase 0) 4 .maxn 1)) 0 (req (.amo (sliceBase 0) 4 .maxn 1)) ∧ sliceBase 0 % 4 = 0 ∧
    (∀ j < 4, StorableByte (atomic (.amo (sliceBase 0) 4 .maxn 1)) (sliceBase 0 + j)) ∧
    (atomic (.amo (sliceBase 0) 4 .maxn 1)).poisoned (sliceBase 0) = false ∧
    NextToPerform (atomic (.cas (sliceBase 0) 4 0 9)) 0 (req (.cas (sliceBase 0) 4 0 9)) := by
  refine ⟨rfl, by decide, ⟨by decide, by decide, by decide, rfl, by decide⟩, by decide, ?_, by decide, ⟨by decide, by decide, by decide, rfl, by decide⟩⟩
  intro j h
  refine ⟨?_, .inl ⟨0, j, ?_⟩⟩ <;> revert j <;> decide +kernel

/-- A peer handle 1 whose one page is present. -/
def withPeer : State :=
  { onVd (fun d => { d with handles := [(1, ⟨.peer, true, true, false, 1, 0, 0, BitVec.ofNat 64 sramBase, []⟩)] })
      (withS 4 0x100000000 run) with mem := [(sliceBase 0, 1)] }

theorem witness_red_win : Alone withPeer ∧ withPeer.readF 0 = true ∧ withPeer.winCheck (withPeer.c.readS 4) (withPeer.c.readS 5) 0 = .ok [] ∧
    HasRoom withPeer false := by
  refine ⟨rfl, rfl, of_gives (by decide +kernel), ?_⟩
  unfold HasRoom; decide

/-- Barrier 3 of the acting core stands, with S4 holding a number. -/
def atBar (b : Barrier) (v : Word) : State := onRegs (fun x => { x with bars := [(3, b)] }) (withS 4 v run)

theorem witness_barriers : Alone (atBar ⟨4, 3, true⟩ 4) ∧ (atBar ⟨4, 3, true⟩ 4).readF 0 = true ∧
    (barrierOf (atBar ⟨4, 3, true⟩ 4).c 3).expect ≠ 0 ∧ (barrierOf (atBar ⟨4, 3, true⟩ 4).c 3).ph = true ∧
    (barrierOf (atBar ⟨4, 3, true⟩ 4).c 3).arrived < 4 ∧ 3 ≤ (barrierOf (atBar ⟨4, 3, true⟩ 3).c 3).arrived ∧
    (withS 4 4096 run).c.readS 4 = 4096 ∧ (barrierOf (withS 4 4096 run).c 3).arrived < 4096 ∧
    run.vdOf run.c = some vd0 ∧ ((withS 4 3 run).c.readS 4).toNat < Nat.min 512 vd0.ncore ∧ vd0.globalCore 3 = some 3 ∧
    (barrierOf run.c 3).expect = 0 := by
  refine ⟨rfl, rfl, ?_, rfl, ?_, ?_, rfl, ?_, rfl, ?_, ?_, rfl⟩ <;> decide

/-- An arrival under way for barrier 3 of core 0. -/
def arriving (b : Barrier) : State := { atBar b 0 with arrivals := [(0, 3)] }

theorem witness_barrier_arrival : (arriving ⟨4, 3, true⟩).arrivals[0]? = some (0, 3) ∧
    (0, (3 : BarReg)) ∉ (arriving ⟨4, 3, true⟩).arrivals.take 0 ∧
    (barrierOf ((arriving ⟨4, 3, true⟩).coreAt 0) 3).arrived + 1 = (barrierOf ((arriving ⟨4, 3, true⟩).coreAt 0) 3).expect ∧
    (barrierOf ((arriving ⟨4, 2, true⟩).coreAt 0) 3).arrived + 1 ≠ (barrierOf ((arriving ⟨4, 2, true⟩).coreAt 0) 3).expect ∧
    4095 ≤ (barrierOf ((arriving ⟨7, 4095, true⟩).coreAt 0) 3).arrived ∧ (4095 + 1 : Nat) ≠ 7 := by decide

theorem witness_fences : Alone run ∧ run.readF 0 = true := ⟨rfl, rfl⟩

theorem witness_state_blocks : Alone (at4 65) ∧ (at4 65).readF 0 = true ∧ ((at4 65).c.readS 4).toNat % 64 = 1 ∧
    (at4 65).isOwn (sramBase + 64) 64 = true ∧ HasRoom (at4 65) false ∧ ((at4 64).c.readS 4).toNat % 64 = 0 ∧
    (at4 64).isOwn (sramBase + 64) 64 = true ∧
    (at4 64).localHeld (sliceBytesAt (at4 64) (sramBase + 64) 64) = false ∧
    (∀ b ∈ sliceBytesAt (at4 64) (sramBase + 64) 64, (at4 64).poisoned b = false) ∧
    (at4 64).recentIn (sliceBytesAt (at4 64) (sramBase + 64) 64) = false ∧
    agCheck 5 (sramBase + 64) (BitVec.ofNat 512 (leValue ((at4 64).ownBytes (sliceBytesAt (at4 64) (sramBase + 64) 64)))) = none ∧
    (at4 64).cbCheck 15 (sramBase + 64) ((at4 64).ownBytes (sliceBytesAt (at4 64) (sramBase + 64) 32)) = none := by
  refine ⟨rfl, rfl, by decide, by decide, ?_, by decide, by decide, by decide +kernel, by decide +kernel, by decide +kernel,
    by decide +kernel, by decide +kernel⟩
  unfold HasRoom; decide

/-- Buffer 4 has two slots. -/
def buffered (free filled cheld : Nat) : State :=
  onRegs (fun x => { x with cb := x.cb.set 4 ⟨BitVec.ofNat 64 sramBase, 128, 2, free, filled, 0, 0, 0, cheld, []⟩ }) run

/-- A copy that waits for a slot of buffer 4. -/
def waiting : Chan := ⟨0, 0, .cpy, 4, 0, 0, 0, false, 0, none, 0, 0, true, none, 0, 0, 0, [], true, [], none, .idle, []⟩

theorem witness_circular_buffers : Alone (buffered 1 1 0) ∧ (buffered 1 1 0).readF 0 = true ∧
    0 < ((buffered 1 1 0).c.regs.cb[(4 : CbReg)]).nslot ∧ 0 < ((buffered 1 1 0).c.regs.cb[(4 : CbReg)]).filled ∧
    ((buffered 2 0 0).c.regs.cb[(4 : CbReg)]).filled = 0 ∧ 0 < ((buffered 1 0 1).c.regs.cb[(4 : CbReg)]).cheld ∧
    (∀ h ∈ (buffered 1 0 1).c.chans, (h.held && h.dst.toNat % 16 == 4) = false) ∧
    (onCore (fun c => { c with chans := [waiting] }) (buffered 0 1 1)).c.chans.find? (fun h => h.held && h.dst.toNat % 16 == 4)
      = some waiting ∧ ((buffered 1 1 0).c.regs.cb[(4 : CbReg)]).cheld = 0 := by
  refine ⟨rfl, rfl, ?_, ?_, ?_, ?_, ?_, rfl, ?_⟩ <;> decide

/-! ### Slot 2 -/

theorem witness_vector_value : (Instr.vadd 0 m0 (.q 2) (sq 2) (.bc 4) .s32).wf = true ∧ Alone queued ∧
    (vectorResult queued (.vadd 0 m0 (.q 2) (sq 2) (.bc 4) .s32)).isSome = true ∧ queued.readF 0 = true ∧
    OperandsReady queued [sq 2, .bc 4] (some (.q 2)) ∧ (∀ x ∈ [sq 2, .bc 4], PortQuiet queued x) := by
  refine ⟨rfl, rfl, rfl, rfl, ⟨?_, trivial, by decide, by decide⟩, ?_⟩
  · intro x h
    rcases (by simpa using h : x = sq 2 ∨ x = .bc 4) with rfl | rfl
    · exact ⟨⟨0, some 5⟩, [], 5, rfl, rfl⟩
    · trivial
  · intro x h
    rcases (by simpa using h : x = sq 2 ∨ x = .bc 4) with rfl | rfl <;> trivial

theorem witness_one_source : OperandsReady queued [sq 2] (some (.q 2)) ∧ OperandsReady queued [sq 2] none ∧ PortQuiet queued (sq 2) ∧
    vredOk .add .f32 = true ∧ VTy.redOk .n8 = true ∧ vcmpOk .un .f32 = true ∧ laneOk 31 .s32 = true ∧ laneOk 63 .n16 = true ∧
    VTy.isInt .n8 = true ∧ vdiffOk .ix12 = true ∧ vcvtOk true true .f32 .e5m2 = true ∧ vxpandOk .s4 true = true ∧ vmxOk .n8 = true := by
  refine ⟨⟨?_, trivial, by decide, by decide⟩, ⟨?_, trivial, by decide, by decide⟩, trivial, rfl, rfl, rfl, rfl, rfl, rfl, rfl, rfl, rfl, rfl⟩ <;>
  · intro x h
    rw [List.mem_singleton] at h
    subst h
    exact ⟨⟨0, some 5⟩, [], 5, rfl, rfl⟩

theorem witness_transposer :
    OperandsReady run [.bc 0] none ∧ OperandsReady run [] (some (.q 0)) ∧ PortQuiet run (.bc 0) ∧ run.c.csr.mode = false ∧
      (onRegs (fun x => { x with tr := { x.tr with rv := BitVec.allOnes 32 } }) run).c.regs.tr.rv = BitVec.allOnes 32 ∧
      sup.c.csr.mode = true ∧ OperandsReady sup [.bc 0] none ∧ OperandsReady sup [] (some (.q 0)) := by
  refine ⟨⟨by simp [SourceReady], trivial, by decide, by decide⟩, ⟨by simp, trivial, by decide, by decide⟩, trivial, rfl, rfl, rfl,
    ⟨by simp [SourceReady], trivial, by decide, by decide⟩, ⟨by simp, trivial, by decide, by decide⟩⟩

/-- The VD's Pedigree is one page of the slice, of one entry: version 1, ACTIVE, bound to nothing. -/
def withPed (s : State) : State :=
  { onVd (fun d => { d with pedbase := BitVec.ofNat 64 (sramBase + 4096), pedn := 1 }) s with
    mem := s.mem ++ [(sliceBase 0 + 4098, 1), (sliceBase 0 + 4104, 1)] }

/-- B1 is live and its copy, of codewords of zeros, stands in the CBS. -/
def copy0 : CbsCopy := ⟨sliceBase 0 + 4096, 0, List.replicate 32 0, none⟩

def coded : State := { withPed (bound1 run) with clusters := [(0, { Cluster.idle with cbs := [copy0] })] }

theorem witness_codebook_copy : Alone coded ∧ coded.readF 0 = true ∧ OperandsReady coded [.bc 0, .bc 0] (some (.q 1)) ∧
    PortQuiet coded (.bc 0) ∧ (coded.c.regs.b[(1 : BReg)]).valid = true ∧ coded.copyAt 1 true = .ok (copy0, false) ∧
    coded.copyAt 1 false = .ok (copy0, false) ∧
    (coded.readV 32 (.bc 0)).extractLsb' 512 16 = (coded.c.regs.b[(1 : BReg)]).ver ∧ (run.c.regs.b[(1 : BReg)]).valid = false := by
  refine ⟨rfl, rfl, ⟨by simp [SourceReady], trivial, by decide, by decide⟩, trivial, rfl, of_gives (by decide +kernel), of_gives (by decide +kernel), by decide +kernel, rfl⟩

/-! ### Slot 3 and the engines -/

/-- S4 names entry 0 of the Pedigree with version 1. -/
def binding : State := withPed (withS 4 0x100000000 run)

theorem witness_codebook_commands : Alone binding ∧ binding.readF 0 = true ∧
    (binding.bindFound 2 (binding.c.readS 4) 0 (wordOf (.cbbind 0 2 4 true 0))).traps = [] ∧
    (binding.bindFound 2 (binding.c.readS 4) 0 (wordOf (.cbbind 0 2 4 true 0))).wait = none ∧
    binding.xlateCore (binding.entryVa 0 + 8) .wr = .ok ⟨sliceBase 0 + 4104, none, none⟩ ∧
    (binding.c.regs.b[(2 : BReg)]).valid = false ∧ ((withPed (bound1 run)).c.regs.b[(1 : BReg)]).valid = true ∧
    (withPed (bound1 run)).xlateCore ((withPed (bound1 run)).entryVa ((withPed (bound1 run)).c.regs.b[(1 : BReg)]).entry.toNat + 8) .wr
      = .ok ⟨sliceBase 0 + 4104, none, none⟩ ∧ HasRoom (withPed (bound1 run)) false ∧ (binding.c.readS 5).toNat < 65536 ∧
    binding.entryBad (binding.c.readS 5).toNat = false ∧ binding.xlateCore (binding.entryVa 0) .rd = .ok ⟨sliceBase 0 + 4096, none, none⟩ ∧
    binding.ctrTraps 0 0 = [] ∧ (binding.c.readS 4).toNat < 2 ^ 48 := by
  refine ⟨rfl, rfl, by decide +kernel, by decide +kernel, of_gives (by decide +kernel), rfl, rfl, of_gives (by decide +kernel), ?_, by decide,
    by decide +kernel, of_gives (by decide +kernel), rfl, by decide⟩
  unfold HasRoom; decide

/-- The core holds the lease, and its accumulators are those of the task. -/
def leased (l : LeaseState) : State :=
  onCsr (fun x => { x with accown := BitVec.twoPow 64 58 }) (onCore (fun c => { c with lease := l }) (at4 0))

theorem witness_array_commands : (Instr.accld 0 2 4 5 0).wf = true ∧ Alone (leased .held) ∧
    arrayCommand (leased .held) (.accz 0 1 0) = some (0, ⟨[], some 1, none, none, 0, false⟩, 0, none, some (1, some 0)) ∧
    (leased .held).readF 0 = true ∧ (leased .held).c.lease = .held ∧ (leased .held).leasePassing 0 = false ∧
    (leased .held).arrayTraps ⟨[], some 1, none, none, 0, false⟩ 0 = [] ∧
    (leased .held).arrayTraps ⟨[accldOp ((leased .held).c.readS 4).toNat], some 2, none, none, 0, false⟩ 0 = [] := by
  refine ⟨rfl, rfl, rfl, rfl, rfl, rfl, by decide +kernel, by decide +kernel⟩

/-- Core 0 holds the lease, its bound reached, and core 1 waits. -/
def passing : State := { leased .held with clusters := [(0, { Cluster.idle with holder := some 0, turn := 64, reqs := [1] })] }

theorem witness_lease_at_its_bound : passing.iss = Issue.none ∧ passing.readF 0 = true ∧ passing.c.lease = .held ∧
    passing.leasePassing passing.cur = true ∧
    ({ passing with c := { passing.c with lease := .held } } : State).arrayTraps ⟨[], some 1, none, none, 0, false⟩ 0 = [] := by
  refine ⟨rfl, rfl, rfl, rfl, by decide +kernel⟩

theorem witness_array_commands_without_lease : (Instr.accz 0 1 0).wf = true ∧ (leased .none).iss = Issue.none ∧
    (leased .none).c.lease = .none ∧ (leased .none).c.grace = false ∧ (leased .requested).c.lease = .requested ∧
    ({ leased .none with c := { (leased .none).c with lease := .held } } : State).arrayTraps ⟨[], some 1, none, none, 0, false⟩ 0 = [] := by
  refine ⟨rfl, rfl, rfl, rfl, rfl, by decide +kernel⟩

/-- Core 1 has asked for the lease, which no core holds. -/
def asked : State := { run with clusters := [(0, { Cluster.idle with reqs := [1] })] }

/-- Core 0 holds the lease. -/
def holding : State := { leased .held with clusters := [(0, { Cluster.idle with holder := some 0 })] }

theorem witness_lease : Alone run ∧ run.readF 0 = true ∧ run.c.lease = .none ∧ run.cur ∉ (run.clusterAt (clusterOf run.cur)).reqs ∧
    (leased .held).c.lease ≠ .none ∧ sup.c.csr.mode = true ∧ sup.c.leaseAtTrap = .none ∧
    (onCore (fun c => { c with leaseAtTrap := .held }) sup).c.leaseAtTrap = .held ∧
    (onCore (fun c => { c with leaseAtTrap := .requested, lease := .held }) sup).c.leaseAtTrap = .requested ∧
    (onCore (fun c => { c with leaseAtTrap := .requested, lease := .held }) sup).c.lease = .held ∧ holding.c.csr.mode = false ∧
    (holding.clusterAt (clusterOf holding.cur)).holder = some holding.cur ∧
    (holding.clusterAt (clusterOf holding.cur)).idleFor holding.cur = true ∧ clusterOk 0 = true ∧ (asked.clusterAt 0).holder = none ∧
    asked.leaseTo 0 = some 1 := by
  refine ⟨rfl, rfl, rfl, ?_, ?_, rfl, rfl, rfl, rfl, rfl, rfl, rfl, rfl, rfl, rfl, rfl⟩ <;> decide

theorem witness_copies : Alone (at4 0) ∧ copyOf (.cpy 0 4 4 0 0) = some (0, .cpy, 4, 4, 0, 0) ∧ (at4 0).readF 0 = true ∧
    (at4 0).c.task = some task0 ∧ (at4 0).vd? 0 = some vd0 ∧ (at4 0).c.chans.length < 16 ∧
    (at4 0).copyCheck 0 0 vd0 ((at4 0).copyArgs .cpy 4 4 0 0) (wordOf (.cpy 0 4 4 0 0)) = .ok [] ∧
    16 ≤ (onCore (fun c => { c with chans := List.replicate 16 waiting }) (at4 0)).c.chans.length ∧
    (∃ e, run.copyCheck 0 0 vd0 (run.copyArgs .cpy 4 4 0 0) (wordOf (.cpy 0 4 4 0 0)) = .error e) := by
  refine ⟨rfl, rfl, rfl, rfl, rfl, by decide, of_gives (by decide +kernel), by decide, ?_⟩
  have h : ((run.copyCheck 0 0 vd0 (run.copyArgs .cpy 4 4 0 0) (wordOf (.cpy 0 4 4 0 0))).toOption).isNone = true := by decide +kernel
  cases e : run.copyCheck 0 0 vd0 (run.copyArgs .cpy 4 4 0 0) (wordOf (.cpy 0 4 4 0 0)) with
  | ok l => rw [e] at h; cases h
  | error t => exact ⟨t, rfl⟩

/-- One command, one copy, one fill, one copy in the CBS, one release. -/
def cma0 : CmaCmd := ⟨0, 0, .accz 1, none, none, 0, 0, 0, 0, 0, 0, 0, [], true, []⟩
def chan0 : Chan := ⟨3, 0, .cpy, BitVec.ofNat 64 sramBase, BitVec.ofNat 64 sramBase, 0, 0, false, 0, none, 0, 0, false, none, 0, 0, 0, [], true, [], none, .idle, []⟩
def fill0 : Fill := ⟨0, sliceBase 0, false, 2, Binding.none, false, none, 0, 0, 0⟩
def inv0 : CbInv := ⟨0, 0, sliceBase 0, none, 0, 0, 0⟩

def busy : State :=
  { onCore (fun c => { c with chans := [chan0] }) run with
    clusters := [(0, { Cluster.idle with cmds := [cma0], fills := [fill0], cbs := [⟨7, 9, [], none⟩] })], cbinvs := [inv0] }

theorem witness_engines : busy.nextCma 0 = some (cma0, []) ∧ coreOk 0 = true ∧ (busy.coreAt 0).chans = [chan0] ∧
    busy.copyReady 0 chan0 = true ∧ chan0.named = false ∧
    (busy.clusterAt (clusterOf 0)).fills.find? (fun f => f.core == 0 && f.bn == 2) = some fill0 ∧ fill0.ctr = none ∧
    (⟨7, 9, [], none⟩ : CbsCopy) ∈ (busy.clusterAt 0).cbs ∧ busy.cbinvs[0]? = some inv0 ∧ busy.invReady inv0 = true ∧ inv0.ctr = none := by
  refine ⟨rfl, rfl, rfl, by decide +kernel, rfl, rfl, rfl, by decide, rfl, by decide +kernel, rfl⟩

/-! ### Tasks -/

/-- The VD has a quota, one counter on die 0, and a code object of two bundles with one live list. -/
def vdT : Vd := { vd0 with quota := 4, ctrsN := Vector.replicate 4 1, codes := [{ probeCode with nbund := 2, live := [0] }], maxprio := 0 }

/-- A task whose frame is the start of its slice. -/
def taskT : Task := { task0 with cont := { probeCont with frame := BitVec.ofNat 64 sramBase } }

def tasked (n : Int) : State :=
  onCore (fun c => { c with task := some taskT }) { withS 5 1 run with vds := [(0, { vdT with ctrs := [(0, ⟨n, none⟩)] })] }

theorem witness_counters : Alone (tasked 3) ∧ depOf (tasked 3) (.tdepDec 0 4) = some (0, 4, -1) ∧ (tasked 3).readF 0 = true ∧
    (tasked 3).c.task = some taskT ∧ (tasked 3).vd? 0 = some { vdT with ctrs := [(0, ⟨3, none⟩)] } ∧
    ((tasked 3).c.readS 4).toNat < 65536 ∧ NothingToRelease (tasked 3) ∧ Allocated { vdT with ctrs := [(0, ⟨3, none⟩)] } 0 ∧
    CountFits (-1) ∧ CountFits (({ vdT with ctrs := [(0, ⟨3, none⟩)] } : Vd).ctr 0 |>.count) ∧ ¬ CountFits (-2 ^ 31 - 1) ∧
    ¬ Allocated vdT 1 ∧ 65536 ≤ ((withS 4 65536 run).c.readS 4).toNat ∧ (1 : BitVec 16) ≠ vdT.gen := by
  refine ⟨rfl, rfl, rfl, rfl, rfl, by decide, ?_, ?_, ?_, ?_, ?_, ?_, by decide, by decide⟩
  · intro r h; cases h
  · unfold Allocated; decide
  all_goals first | (unfold CountFits; decide) | (unfold Allocated; decide)

/-- A NAME that arrives finds a counter without a name, at COUNT 3 or 0, or one that has a name. -/
theorem witness_name_arrives : (List.replicate 64 (0 : Byte)).length = 64 ∧
    (({ vdT with ctrs := [(0, ⟨3, none⟩)] } : Vd).ctr 0) = ⟨3, none⟩ ∧ (vdT.ctr 0) = ⟨0, none⟩ ∧ Allocated vdT (0 : BitVec 16).toNat ∧
    (({ vdT with ctrs := [(0, ⟨3, some taskT.cont⟩)] } : Vd).ctr 0).named.isSome = true ∧
    (Cont.ofBytes (List.replicate 64 0)).launch = false ∧ vdT.ready.length < vdT.quota ∧
    vdT.overOf (Cont.ofBytes (List.replicate 64 0)).cls = [] := by
  refine ⟨by decide, rfl, rfl, ?_, rfl, by decide, by decide, by decide⟩
  unfold Allocated; decide

/-- A record that TSPAWN may copy, at the start of the slice: handle 1, bundle 0, LIVE all ones, class 0. -/
def spawning (w : Word) : State :=
  { withS 5 w (withS 4 (BitVec.ofNat 64 sramBase) (tasked 0)) with
    mem := [(sliceBase 0, 1), (sliceBase 0 + 26, 0xFF), (sliceBase 0 + 27, 0xFF)] }

theorem witness_tspawn : Alone (spawning 0) ∧ ((spawning 0).c.readS 5).extractLsb' 48 15 = 0 ∧ ((spawning 0).c.readS 4).toNat % 64 = 0 ∧
    (spawning 0).xlateCore ((spawning 0).c.readS 4).toNat .rd = .ok ⟨sliceBase 0, none, none⟩ ∧ (spawning 0).poisoned (sliceBase 0) = false ∧
    (spawning 0).recordCheck 0 (spawned (spawning 0) (sliceBase 0) taskT { vdT with ctrs := [(0, ⟨0, none⟩)] }) true = none ∧
    (spawned (spawning 0) (sliceBase 0) taskT vdT).launch = false ∧ vdT.ready.length < vdT.quota ∧ vdT.overOf 0 = [] ∧
    ((spawning 0).c.readS 5)[63] = false ∧ ((spawning 0x8000000000010000).c.readS 5)[63] = true ∧
    (((spawning 0x8000000000010000).c.readS 5).extractLsb' 16 32).toInt = 1 ∧ Allocated vdT 0 ∧
    ({ vdT with ctrs := [(0, ⟨0, none⟩)] } : Vd).ctr 0 = ⟨0, none⟩ ∧
    (∀ j ∈ vdT.cores, ((spawning 0).coreAt j).wait = none) := by
  refine ⟨rfl, by decide, by decide, of_gives (by decide +kernel), by decide +kernel, by decide +kernel, by decide +kernel, by decide,
    by decide, by decide, by decide, by decide, ?_, rfl, by decide⟩
  unfold Allocated; decide

theorem chunks_within (fuel va n : Nat) : ∀ p ∈ chunksFuel fuel va n, va ≤ p.1 ∧ p.1 < va + n := by
  induction fuel generalizing va n with
  | zero => intro p h; cases h
  | succ f ih =>
    intro p h
    unfold chunksFuel at h
    split at h
    · cases h
    · rcases List.mem_cons.mp h with rfl | h
      · exact ⟨Nat.le_refl _, by simp only; omega⟩
      · have := ih _ _ p h
        simp only [Nat.min_def] at this
        split at this <;> omega

/-- Every part of the first slice of a VD of cluster 0 is mapped. -/
theorem slice_mapped {s : State} {d : Vd} (hv : s.vd? 0 = some d) (hd : d.clusters = [0]) (a n : Nat) (h : a + n ≤ sliceSize) :
    s.mappedVd 0 (sramBase + a) n = true := by
  unfold State.mappedVd chunks
  rw [List.all_eq_true]
  intro p hp
  have hb := chunks_within _ _ _ p hp
  unfold sliceSize sramBase at *
  have hx : ∃ x, s.xlateVd 0 p.1 .rd = .ok x := by
    refine ⟨⟨sliceBase 0 + (p.1 - sramBase) % sliceSize, none, none⟩, ?_⟩
    simp only [State.xlateVd, hv, State.xlate]
    rw [if_neg (by unfold sramBase; omega), if_pos (by unfold hbmBase; omega)]
    have e : (p.1 - sramBase) / sliceSize = 0 := by unfold sramBase sliceSize; omega
    simp [Vd.xlateSlice, Vd.globalCore, e, hd]
  obtain ⟨x, hx⟩ := hx
  simp [hx]

theorem witness_suspending (n : Int) : Alone (tasked n) ∧ (tasked n).readF 0 = true ∧ (tasked n).c.task = some taskT ∧
    (∃ d o, (tasked n).vd? 0 = some d ∧ d.code? (tasked n).c.code = some o ∧ 0 < o.live.length ∧ o.live.length ≤ 1 ∧
      (d.ctr 0) = ⟨n, none⟩ ∧ d.ready.length < d.quota ∧ d.overOf taskT.cont.cls = [] ∧ Allocated d 0 ∧
      ∀ j ∈ d.cores, ((tasked n).coreAt j).wait = none) ∧
    (tasked n).c.csr.mode = false ∧ (tasked n).c.csr.slend = false ∧ NothingUnderWay (tasked n) ∧ NoLoopEnd (tasked n) ∧
    FrameReady (tasked n) taskT ∧ taskT.cont.launch = false := by
  refine ⟨rfl, rfl, rfl, ⟨{ vdT with ctrs := [(0, ⟨n, none⟩)] }, _, rfl, rfl, Nat.one_pos, Nat.le_refl 1, rfl, Nat.zero_lt_succ 3, rfl, Nat.one_pos, ?_⟩,
    rfl, rfl, ⟨rfl, rfl, rfl, rfl, rfl, ?_, (by decide : ∀ k : CbReg, (run.c.regs.cb[k]).pheld = 0)⟩, no_loop_end_of_no_level rfl,
    ⟨?_, (by decide : ∀ j : Fin 16, (run.c.regs.q[j]).length ≤ 4), Nat.zero_le 64⟩, rfl⟩
  · intro j h
    have : j = 0 ∨ j = 1 ∨ j = 2 ∨ j = 3 := by simpa [vdT, vd0, probeVd, Vd.cores, Vd.fresh] using h
    rcases this with rfl | rfl | rfl | rfl <;> rfl
  · intro m h; cases h
  · intro o k h
    exact slice_mapped (d := { vdT with ctrs := [(0, ⟨n, none⟩)] }) rfl rfl o k (by unfold sliceSize; omega)

/-- The task of a launch of cursor 7, waiting for the answer of its TNEXT. -/
def nextEntry : Owed := ⟨0, 8, 0, .next 0, none, false, 0, false, 0, none, [], none⟩

theorem witness_tnext : Alone run ∧ run.c.csr.mode = false ∧ sup.c.csr.mode = true ∧
    ((onCore (fun c => { c with owed := [nextEntry] }) run).coreAt 0).owed = [nextEntry] ∧
    ((onCore (fun c => { c with owed := [nextEntry] }) run).coreAt 0).shadow = [] ∧ task0.cont.shepCursor = none := by
  refine ⟨rfl, rfl, rfl, rfl, rfl, by decide⟩

/-- A launch whose tiles are all generated, with one tile ready where `tile` is set. -/
def tileWid : Word := 5
def cursor0 : Cursor := ⟨0, 0, 1, 0, 0, [4], [1], [], 0, 0, 0, false, 1, 1, 0, 0⟩
def taskL : Task := { task0 with cont := { probeCont with shep := shepOf 0 0 1 0 0 } }
def tile0 : Ready := ⟨{ probeCont with wid := tileWid }, 0, 0, some (0, 0)⟩
def launched (tiles : List Ready) : State :=
  { onCore (fun c => { c with task := some taskL, owed := [nextEntry] }) run with
    vds := [(0, { vd0 with cursors := [cursor0], ready := tiles })] }

theorem witness_tnext_answers : coreOk 0 = true ∧ ((launched []).coreAt 0).task = some taskL ∧
    (launched []).vd? 0 = some { vd0 with cursors := [cursor0], ready := [] } ∧ ((launched []).coreAt 0).owed = [nextEntry] ∧
    taskL.cont.shepCursor = some 0 ∧ cursor0.next = cursor0.total ∧ [cursor0].find? (fun c => c.id == 0) = some cursor0 ∧
    (launched [tile0]).vd? 0 = some { vd0 with cursors := [cursor0], ready := [tile0] } ∧ tile0.tile = some (0, 0) ∧
    tile0.cont.live = 0xFFFF ∧ tile0.cont.wid ≠ 0xFFFFFFFFFFFFFFFF ∧ tile0.die.val = dieOf 0 := by
  refine ⟨rfl, rfl, rfl, rfl, ?_, rfl, rfl, rfl, rfl, rfl, ?_, rfl⟩ <;> decide

/-! ### Traps and stops -/

/-- EVEC names bundle 0 of code object 1. -/
def guarded (s : State) : State := onCsr (fun x => { x with evec := 0x100000000 }) s

theorem witness_traps : Quiet (guarded run) 1 ∧ (guarded run).c.task = some task0 ∧ (guarded run).c.csr.mode = false ∧
    (guarded run).supervisor 0 (guarded run).c.csr.evec = some (1, 0) ∧ Alone (guarded run) ∧ AtTaskBoundary (guarded run) ∧
    (guarded run).c.reports = [] ∧ (onCsr (fun x => { x with ipTimer := true }) run).c.csr.ipTimer = true ∧
    (onCsr (fun x => { x with ipIpi := true }) run).c.csr.ipIpi = true ∧
    (onCore (fun c => { c with reports := [⟨1, 0, 3, 0⟩] }) run).c.reports = ⟨1, 0, 3, 0⟩ :: [] := by
  refine ⟨quiet_of_nothing_owed 1 rfl, rfl, rfl, by decide +kernel, rfl, ⟨rfl, rfl, quiet_of_nothing_owed 0 rfl, rfl, rfl, rfl, .inl rfl⟩,
    rfl, rfl, rfl, rfl⟩

theorem witness_eret : Alone sup ∧ sup.readF 0 = true ∧ sup.c.csr.mode = true ∧ Quiet sup 4 ∧ NoLoopEnd sup ∧ sup.c.stop = none ∧
    (∀ e ∈ sup.c.shadow, 0 < e.due) ∧ run.c.csr.mode = false :=
  ⟨rfl, rfl, rfl, quiet_of_nothing_owed 4 rfl, no_loop_end_of_no_level rfl, rfl, (fun _ h => by cases h), rfl⟩

theorem nothing_under_way {s : State} (h1 : s.c.owed = []) (h2 : s.c.shadow = []) (h3 : s.c.lsu = []) (h4 : s.c.chans = [])
    (ha : s.c.again = []) (h5 : s.clusters = []) (h6 : s.c.regs.cb = run.c.regs.cb) : NothingUnderWay s := by
  refine ⟨h1, h2, h3, h4, ha, ?_, ?_⟩
  · simp [State.clusterAt, h5, lookup, Cluster.idle]
  · rw [h6]; exact (by decide : ∀ k : CbReg, (run.c.regs.cb[k]).pheld = 0)

theorem witness_double_traps_and_stops : run.c.task = some task0 ∧ run.vd? 0 = some vd0 ∧ vd0.life = none ∧
    vd0.pend.length + run.c.reports.length < 200 ∧ NothingUnderWay run ∧ NothingUnderWay sup ∧ sup.c.csr.mode = true ∧
    run.c.csr.mode = false ∧ run.supervisor 0 run.c.csr.evec = none ∧ (∀ l, run.c.wait ≠ some (.leave l)) ∧
    (∀ l, sup.c.wait ≠ some (.leave l)) ∧ State.reset.c.task = none ∧ (∀ l, State.reset.c.wait ≠ some (.leave l)) := by
  refine ⟨rfl, rfl, rfl, by decide, nothing_under_way rfl rfl rfl rfl rfl rfl rfl, nothing_under_way rfl rfl rfl rfl rfl rfl rfl, rfl, rfl,
    by decide +kernel, ?_, ?_, rfl, ?_⟩ <;> (intro l h; cases h)

/-- The quantum has just ended while another continuation of the class waits. -/
def expired : State := onCore (fun c => { c with dieCyc := 262144 }) (onVd (fun d => { d with ready := [⟨probeCont, 0, 0, none⟩] }) run)

theorem witness_quantum_expiry : coreOk 0 = true ∧ (expired.coreAt 0).task = some task0 ∧
    expired.vd? 0 = some { vd0 with ready := [⟨probeCont, 0, 0, none⟩] } ∧ (expired.coreAt 0).csr.slend = false ∧
    task0.since + 262144 ≤ (expired.coreAt 0).dieCyc ∧ (0 : Fin 4).val = dieOf 0 ∧ probeCont.cls = task0.cont.cls ∧
    probeCont.launch = false := by
  refine ⟨rfl, rfl, rfl, rfl, ?_, rfl, rfl, rfl⟩
  decide

/-- Page tables that map one 2 MiB page, and an empty TLB. -/
def mapped : State := { onCore (fun c => { c with tlb := [] }) run with mem := [(0, 1), (3, 0x20), (4104, 7), (4105, 4)] }

theorem witness_caches_and_translation : Alone run ∧ run.readF 0 = true ∧ Quiet run 3 ∧ NoLoopEnd run ∧
    (∀ l ∈ run.c.icache.lines, l.1 % 64 = 0) ∧ run.c.csr.mode = false ∧ sup.c.csr.mode = true ∧ sup.vdOf sup.c = some vd0 ∧
    vd0.globalCore 3 = some 3 ∧ vd0.globalCore 4 = none ∧ mapped.vdOf mapped.c = some vd0 ∧ vd0.winAt (hbmBase + frameSize) = none ∧
    (∀ e ∈ mapped.c.tlb, e.covers (hbmBase + frameSize) = false) ∧ hbmBase + frameSize < hbmTop ∧
    (∃ x, mapped.xlateCore (hbmBase + frameSize) .wr = .ok x) ∧ (∃ e, mapped.xlateCore (hbmBase + frameSize) .fetch = .error e) := by
  refine ⟨rfl, rfl, quiet_of_nothing_owed 3 rfl, no_loop_end_of_no_level rfl, (fun _ h => by cases h), rfl, rfl, rfl, by decide,
    by decide, rfl, by decide, (fun _ h => by cases h), by decide,
    ⟨⟨frameSize, none, some ⟨hbmBase + frameSize, true, frameSize, true, false, none⟩⟩, of_gives (by decide +kernel)⟩, ?_⟩
  have h : ((mapped.xlateCore (hbmBase + frameSize) .fetch).toOption).isNone = true := by decide +kernel
  cases e : mapped.xlateCore (hbmBase + frameSize) .fetch with
  | ok x => rw [e] at h; cases h
  | error t => exact ⟨t, rfl⟩

/-! ### The package -/

/-- Bring-up has ended. -/
def up (s : State) : State := { s with pkg := { s.pkg with bring := ⟨0xFF, 0, 3, true, false, false, 0, 0, []⟩ } }

theorem witness_bring_up : State.reset.pkg.on = true ∧ UnderWay State.reset .root ∧
    ({ State.reset with pkg := { State.reset.pkg with on := false } } : State).pkg.on = false ∧
    UnderWay { State.reset with pkg := { State.reset.pkg with bring := ⟨0, 0, 0, false, false, false, 0, 0, [.service]⟩ } } .service ∧
    UnderWay { State.reset with pkg := { State.reset.pkg with bring := ⟨0, 0, 0, false, false, true, 1, 0, [.pcie 1]⟩ } } (.pcie 1) ∧
    (.pcie 0 : BringItem) ∉ ([] : List BringItem) ∧ (0 : BitVec 2).getLsbD 0 = false := by
  refine ⟨rfl, ⟨rfl, by decide, by decide, ?_⟩, rfl, ⟨rfl, by decide, by decide, ?_⟩, ⟨rfl, by decide, by decide, ?_⟩, ?_, ?_⟩
  · intro h; cases h
  · intro h; cases h
  · intro _; exact ⟨1, rfl⟩
  · decide
  · decide

/-- Eight sensors at one temperature. -/
def sensorsAt (t : BitVec 16) (ok : Bool) : Vector (BitVec 16 × Bool) 8 := Vector.replicate 8 (t, ok)

/-- Die 0 as given. -/
def heated (h : DieHeat) : State := { up run with pkg := { (up run).pkg with heat := (up run).pkg.heat.set 0 h } }

theorem witness_heat : (up run).pkg.on = true ∧ DieTemp (sensorsAt 1920 true) (deg 120) ∧ DieTemp (sensorsAt 0 false) (deg 120) ∧
    DieTemp (sensorsAt 1792 true) (deg 112) ∧ DieTemp (sensorsAt 1680 true) (deg 105) ∧
    ((heated { DieHeat.cool with level := 1, clkT := 69 }).pkg.heat[(0 : Fin 4)]).level = 1 ∧
    ((heated DieHeat.cool).pkg.heat[(0 : Fin 4)]).level = 0 ∧ ((heated DieHeat.cool).pkg.heat[(0 : Fin 4)]).clkT ≤ 140 ∧
    ((heated { DieHeat.cool with level := 3 }).pkg.heat[(0 : Fin 4)]).level = 3 ∧
    ((heated { DieHeat.cool with level := 3 }).pkg.heat[(0 : Fin 4)]).temp < deg 95 ∧
    ((heated { DieHeat.cool with level := 3 }).pkg.heat[(0 : Fin 4)]).stack[0] < deg 95 ∧
    (up run).pkg.bring.hbmok.getLsbD 0 = true ∧ ((up run).pkg.heat[(0 : Fin 4)]).refr[(0 : Fin 2)] ≤ 2 := by
  refine ⟨rfl, .inl ⟨⟨0, rfl, by decide⟩, by decide⟩, .inr ⟨by decide, rfl⟩, .inl ⟨⟨0, rfl, by decide⟩, by decide⟩,
    .inl ⟨⟨0, rfl, by decide⟩, by decide⟩, rfl, rfl, ?_, rfl, ?_, ?_, rfl, ?_⟩ <;> decide

/-- The power controller is enabled with a set point of 100 W; the task is ballast where `prio` is 7. -/
def powered (prio : BitVec 8) : State :=
  let s := onCore (fun c => { c with task := some { task0 with cont := { probeCont with prio := prio } } }) (up run)
  { s with pkg := { s.pkg with en := true, setpt := 100, band := 10 } }

theorem witness_power : (up run).pkg.en = false ∧ (powered 0).pkg.en = true ∧
    (89 : BitVec 12).toNat + (powered 0).pkg.band < (powered 0).pkg.setpt ∧
    (powered 0).pkg.setpt ≤ (90 : BitVec 12).toNat + (powered 0).pkg.band ∧ (100 : BitVec 12).toNat ≤ (powered 0).pkg.setpt ∧
    (powered 0).pkg.setpt < (101 : BitVec 12).toNat ∧ (powered 0).pkg.setpt + (powered 0).pkg.band < (111 : BitVec 12).toNat ∧
    (∃ t, ((powered 7).coreAt (powered 7).cur).task = some t ∧ t.cont.cls = 7) ∧
    (∀ k, ¬ ∃ t, ((powered 0).coreAt k).task = some t ∧ t.cont.cls = 7) := by
  refine ⟨rfl, rfl, by decide, by decide, by decide, by decide, by decide, ⟨_, rfl, by decide⟩, ?_⟩
  rintro k ⟨t, h, hc⟩
  unfold State.coreAt at h
  split at h
  · cases h; revert hc; decide
  · cases h

/-- A Falyth port in a state. -/
def ported (p : FalPort) : State := { up run with pkg := { (up run).pkg with ports := (up run).pkg.ports.set 5 p } }

/-- A contribution of rank 0 to a window of peer chip 1, its payload one byte. -/
def tx0 : TxReq := ⟨3, [7], .red 0 (some 1, 0, 0) 0 0 0, 0, 0⟩

/-- A partner with two lanes and the least and the most credits. -/
def partner0 : FalPartner := ⟨2, true, 2, 512, true, [16, 1024, 16, 16]⟩

theorem witness_die_links : (up run).pkg.on = true ∧ Linked 0 1 ∧ ((0, 1) : Nat × Nat) ∉ (up run).pkg.d2dDown ∧
    1 ≤ ({ up run with pkg := { (up run).pkg with d2dTries := [((0, 1), 15)] } } : State).linkTries (0, 1) ∧
    ({ up run with pkg := { (up run).pkg with d2dTries := [((0, 1), 15)] } } : State).linkTries (0, 1) < 16 ∧
    ({ up run with pkg := { (up run).pkg with d2dTries := [((0, 1), 16)] } } : State).linkTries (0, 1) = 16 := by
  refine ⟨rfl, .inl (by decide), ?_, ?_, ?_, ?_⟩ <;> decide

theorem witness_falyth : ((ported { FalPort.idle with phase := .active }).pkg.ports[(5 : Fin 24)]).phase = .active ∧
    ([(0, 1), (1, 1), (2, 1), (135, 0x80)] : List (Nat × Byte)).length ≤ 4 ∧ flitBad (corrected [] []) = true ∧
    ((ported { FalPort.idle with phase := .active, queue := [tx0] }).pkg.ports[(5 : Fin 24)]).queue = [tx0] ∧
    0 < ((ported { FalPort.idle with phase := .active, queue := [tx0] }).pkg.ports[(5 : Fin 24)]).credits[tx0.vc] + 1 ∧
    ((ported { FalPort.idle with phase := .active, replay := [⟨9, tx0, 0, 0⟩] }).pkg.ports[(5 : Fin 24)]).replay ≠ [] ∧
    8 ≤ ((ported { FalPort.idle with phase := .active, stalls := 8 }).pkg.ports[(5 : Fin 24)]).stalls ∧
    phaseAfter .param = some .active ∧ (up run).pkg.bring.ready = true ∧
    ((ported FalPort.idle).pkg.ports[(5 : Fin 24)]).phase = .detect ∧
    ((ported { FalPort.idle with phase := .align, fails := 3 }).pkg.ports[(5 : Fin 24)]).phase = .align ∧ (8 : Fin 16).val % 8 = 0 ∧
    (up run).pkg.ethGroup = none := by
  refine ⟨rfl, by decide, by decide, rfl, by decide, by decide, by decide, rfl, rfl, rfl, rfl, rfl, rfl⟩

theorem witness_partners_agree : PartnersAgree { FalPort.idle with phase := .param, lanes := 2 } partner0 :=
  ⟨rfl, rfl, rfl, rfl, by decide⟩

/-- A port in training holds an unacknowledged contribution of core 0. -/
def losing : State := withReq (req (.redWin 0 [] 0 0 true)) (ported { FalPort.idle with phase := .align, replay := [⟨9, tx0, 0, 0⟩] })

theorem witness_training_loss : (losing.pkg.ports[(5 : Fin 24)]).phase = .align ∧ (losing.pkg.ports[(5 : Fin 24)]).replay = [⟨9, tx0, 0, 0⟩] ∧
    coreOk tx0.core = true ∧ (losing.coreAt tx0.core).request tx0.ord = some (req (.redWin 0 [] 0 0 true)) ∧
    (losing.coreAt tx0.core).task.isSome = true ∧ (losing.coreAt tx0.core).taskId = (req (.redWin 0 [] 0 0 true)).task ∧
    (losing.coreAt tx0.core).reports.length < 8 := by
  refine ⟨rfl, rfl, rfl, rfl, rfl, by decide, by decide⟩

/-- A reduction window of one rank with a completed line, and a contribution that is rejected. -/
def contrib : Contribution := ⟨0, 0, 0, 0⟩
def redWindow : RedWindow := ⟨0, 0, 1, 0, 64, .f32, .add, 1, [0], some 0, [(0, 0, [contrib])], 0⟩
def reducing : State := { withReq (req (.redWin 0 [] 7 0 true)) run with reds := [(2, redWindow)] }

theorem witness_reduction_windows : lookup 2 reducing.reds = some redWindow ∧ (0, 0, [contrib]) ∈ redWindow.lines ∧
    (∀ m ∈ redWindow.lines, m.1 = 0 → m = (0, 0, [contrib])) ∧ (∀ r ∈ redWindow.ranks, ∃ c ∈ [contrib], c.rank = r) := by
  refine ⟨rfl, List.mem_singleton.mpr rfl, ?_, ?_⟩
  · intro m h _; exact List.mem_singleton.mp h
  · intro r h; exact ⟨contrib, List.mem_singleton.mpr rfl, (List.mem_singleton.mp h).symm⟩

/-- A contribution that the switch has turned away. -/
def rejectedReq : Req := { req (.redWin 0 [] 7 0 true) with rel := true }

theorem witness_rejection : coreOk 0 = true ∧ ((withReq rejectedReq run).coreAt 0).request 0 = some rejectedReq ∧
    rejectedReq.rejected = true := by decide

/-! ### The host and firmware -/

/-- Bytes, zero but for those listed. -/
def bytesAt (n : Nat) (l : List (Nat × Byte)) : List Byte := (List.range n).map fun o => (lookup o l).getD 0

/-- A request stands in the mailbox of link 0. -/
def asking (n : Nat) (l : List (Nat × Byte)) (s : State) : State :=
  { up s with pkg := { (up s).pkg with boxes := (up s).pkg.boxes.set 0 ⟨true, 0, bytesAt n l⟩, waiting := [0] } }

/-- A mailbox with a command that is known, or not. -/
def boxed (cmd : Byte) (busy : Bool) : State :=
  { up run with pkg := { (up run).pkg with boxes := (up run).pkg.boxes.set 0 ⟨busy, 0, [cmd, 0]⟩ } }

theorem witness_register_writes : HostUp (up run) ∧ pfReadOnly 0x108 ∧ ¬ pfAssigned 0x110 ∧ ((boxed 1 true).pkg.boxes[(0 : Fin 2)]).busy = true ∧
    ((boxed 1 false).pkg.boxes[(0 : Fin 2)]).busy = false ∧ (1 : Word)[0] = true ∧ (boxed 1 false).pkg.waiting = [] ∧
    ((boxed 1 false).pkg.boxes[(0 : Fin 2)]).known = true ∧ ((boxed 0 false).pkg.boxes[(0 : Fin 2)]).known = false ∧
    (up run).vdOfVf 1 63 = none ∧ (up run).vdOfVf 0 0 = some 0 ∧ (up run).vd? 0 = some vd0 ∧ ¬ vfAssigned 0x1050 ∧ vfAssigned 0x23FF := by
  refine ⟨⟨rfl, rfl⟩, .inl ⟨by decide, by decide⟩, ?_, rfl, rfl, rfl, rfl, rfl, rfl, by decide, by decide, rfl, ?_, ?_⟩
  · unfold pfAssigned pfReadOnly; decide
  · unfold vfAssigned; decide
  · unfold vfAssigned; decide

/-- The host's window on the first slice: no region below 200_0000_0000h, so the mapped page of `mapped`. -/
def hosted : State := { up mapped with vds := [(0, { vdT with regs := { vdT.regs with win := 0 } })] }

theorem witness_aperture : hosted.pkg.on = true ∧ (0x200000 : Nat) % 4096 + 4096 ≤ 4096 ∧ (List.replicate 4096 (7 : Byte)).length = 4096 ∧
    hosted.vdOfVf 0 0 = some 0 ∧ hosted.vdOfVf 0 1 = none ∧
    0x20000000000 + vdT.regs.win.toNat * 2 ^ 32 + 0x200000 = hbmBase + frameSize ∧
    (∃ x, hosted.xlateVd 0 (hbmBase + frameSize) .rd = .ok x ∧ hosted.poisonedRange x.pa 4096 = false) ∧
    (∃ e, hosted.xlateVd 0 (hbmBase + frameSize + 0x200000) .wr = .error e) ∧ vdT.pend.length < 256 ∧ hosted.mem.wf = true := by
  refine ⟨rfl, by decide, List.length_replicate, by decide, by decide, by decide,
    ⟨⟨frameSize, none, some ⟨hbmBase + frameSize, true, frameSize, true, false, none⟩⟩, of_gives (by decide +kernel), by decide +kernel⟩, ?_,
    by decide, by decide⟩
  have h : ((hosted.xlateVd 0 (hbmBase + frameSize + 0x200000) .wr).toOption).isNone = true := by decide +kernel
  cases e : hosted.xlateVd 0 (hbmBase + frameSize + 0x200000) .wr with
  | ok x => rw [e] at h; cases h
  | error t => exact ⟨t, rfl⟩

/-- A record that passes every check, and one that names no code object. -/
def goodRecord : List Byte := bytesAt 64 [(0, 1), (26, 0xFF), (27, 0xFF)]

/-- The record as the device stores it. -/
def goodCont : Cont := { Cont.ofBytes goodRecord with vd := 0, gen := vdT.gen }

theorem good_record_passes (r : Nat) : ¬ RecordFails hosted 0 vdT goodCont r := by
  match r with
  | 0 | 1 => exact fun h => h
  | 2 => exact (by decide : ¬ (vdT.code? goodCont.code = none))
  | 3 => exact (by decide : ¬ ¬ (goodCont.prio.toNat % 8 = 7 ∨ goodCont.prio.toNat % 8 ≤ 3 ∧ vdT.maxprio ≤ goodCont.prio.toNat % 8))
  | 4 => exact fun h => absurd h.1 (by decide)
  | 5 =>
    rintro ⟨-, o, h, g⟩
    have e : vdT.code? goodCont.code = some { probeCode with nbund := 2, live := [0] } := by decide
    cases e.symm.trans h
    exact absurd g (by decide)
  | 6 => exact fun h => absurd h.1 (by decide)
  | 7 =>
    exact (by decide : ¬ (8 ≤ goodCont.prio.toNat ∨ 64 ≤ goodCont.vd.toNat ∨ 8 ≤ goodCont.flags.toNat ∨ goodCont.rsv ≠ 0 ∨
      goodCont.live ≠ 0xFFFF ∨ goodCont.flags[1] = true ∨ goodCont.shep ≠ 0))
  | n + 8 => exact fun h => h

theorem witness_injection : goodRecord.length = 64 ∧ (4032 : Nat) % 64 = 0 ∧ vdT.state = .running ∧
    goodCont.flags[0] = false ∧ vdT.ready.length < vdT.quota ∧
    vdT.overOf (goodCont.prio.toNat % 8) = [] ∧
    RecordFails hosted 0 vdT (Cont.ofBytes (bytesAt 64 [])) 2 ∧ ¬ ((bytesAt 63 []).length = 64 ∧ (0 : Nat) % 64 = 0) ∧
    ({ vdT with state := .paused } : Vd).hold.length < 256 := by
  refine ⟨by decide, by decide, rfl, by decide, by decide, by decide, ?_, by decide, by decide⟩
  show vdT.code? (Cont.ofBytes (bytesAt 64 [])).code = none
  decide

/-- A VD of cluster 0 without code. -/
def plainVd (st : VdState) : Vd := { vd0 with codes := [], state := st }
def idleVd (st : VdState) : State := { State.reset with vds := [(0, plainVd st)], owners := [(0, .vd 0), (1, .vd 0)] }

theorem cluster0_idle {s : State} {st : VdState} (h : ∀ k, k < 4 → s.coreAt k = Core.reset) (hc : s.clusterAt 0 = Cluster.idle) :
    VdIdle s (plainVd st) := by
  constructor
  · intro k hk
    have : k < 4 := by
      have : k = 0 ∨ k = 1 ∨ k = 2 ∨ k = 3 := by simpa [plainVd, vd0, probeVd, Vd.cores, Vd.fresh] using hk
      omega
    rw [h k this]
    exact ⟨rfl, rfl, rfl, rfl, rfl, rfl⟩
  · intro m hm
    have : m = 0 := by simpa [plainVd, vd0, probeVd, Vd.fresh] using hm
    subst this
    rw [hc]
    exact ⟨rfl, rfl⟩

theorem witness_lifecycle (st : VdState) : VdIdle (asking 9 [(0, 3), (2, 9)] (idleVd st)) (plainVd st) ∧
    Named (asking 9 [(0, 3), (2, 9)] (idleVd st)) 0 0 (plainVd st) := by
  refine ⟨cluster0_idle ?_ rfl, rfl, rfl⟩
  intro k hk
  unfold State.coreAt
  split <;> rfl

/-- Every VD of a state has no lifecycle request under way. -/
theorem requests_stand : RequestStands (asking 9 [(0, 2), (2, 9)] (idleVd .running)) 0 2 ∧
    RequestStands (asking 9 [(0, 3), (2, 9)] (idleVd .running)) 0 3 ∧ RequestStands (asking 9 [(0, 4), (2, 9)] (idleVd .paused)) 0 4 ∧
    RequestStands (asking 9 [(0, 5), (2, 9)] (idleVd .paused)) 0 5 ∧ requestLength (asking 9 [(0, 5), (2, 9)] (idleVd .paused)) 0 = 9 ∧
    requestLength (asking 9 [(0, 5), (2, 8)] (idleVd .paused)) 0 ≠ 9 ∧ (5, 9, Instr.vdReset) ∈ fixedLength ∧
    (asking 9 [(0, 5), (2, 9), (8, 1)] (idleVd .paused)).vd? (num ((asking 9 [(0, 5), (2, 9), (8, 1)] (idleVd .paused)).pkg.boxes[(0 : Fin 2)]).buf 8 1)
      = none := by
  refine ⟨⟨rfl, ?_, rfl, rfl, by decide⟩, ⟨rfl, ?_, rfl, rfl, by decide⟩, ⟨rfl, ?_, rfl, rfl, by decide⟩,
    ⟨rfl, ?_, rfl, rfl, by decide⟩, by decide, by decide, by simp [fixedLength], by decide⟩ <;>
  · intro p h
    cases List.mem_singleton.mp h
    rfl

/-- VD_CREATE of VD 5 with VF 1 of link 0, cluster 2, one frame on die 0, one Pedigree entry. -/
def creating : State :=
  asking 0x58 [(0, 1), (2, 0x58), (8, 5), (0xA, 1), (0xC, 1), (0x10, 4), (0x20, 1), (0x48, 1)] (idleVd .running)

theorem witness_create : RequestStands creating 0 1 ∧ requestLength creating 0 = 0x58 ∧ CreateOk creating (creating.pkg.boxes[(0 : Fin 2)]).buf := by
  refine ⟨⟨rfl, ?_, rfl, rfl, by decide⟩, by decide, ?_⟩
  · intro p h
    cases List.mem_singleton.mp h
    rfl
  · refine ⟨by decide, by decide +kernel, by decide, by decide, by decide, by decide, by decide, ?_, by decide +kernel, ?_, by decide +kernel,
      by decide +kernel, by decide +kernel, by decide, by decide, by decide, by decide, by decide, by decide⟩
    · intro p h
      cases List.mem_singleton.mp h
      decide
    · have e : maskClusters (creating.pkg.boxes[(0 : Fin 2)]).buf 0x10 = [2] := by decide +kernel
      rw [e]
      intro m hm p h
      cases List.mem_singleton.mp h
      cases List.mem_singleton.mp hm
      decide

/-- VD_MIGRATE of VD 0 from cluster 0 to cluster 1. -/
def migrating : State := asking 0x28 [(0, 6), (2, 0x28), (0x10, 2)] (idleVd .running)

theorem witness_migrate : RequestStands migrating 0 6 ∧ requestLength migrating 0 = 0x28 + 8 * num (migrating.pkg.boxes[(0 : Fin 2)]).buf 0x20 4 ∧
    num (migrating.pkg.boxes[(0 : Fin 2)]).buf 9 7 = 0 ∧ migrating.migrateOk 0 (plainVd .running) (migrating.pkg.boxes[(0 : Fin 2)]).buf = true := by
  refine ⟨⟨rfl, ?_, rfl, rfl, by decide⟩, by decide, by decide, by decide +kernel⟩
  intro p h
  cases List.mem_singleton.mp h
  rfl

/-! ### Windows, code objects, handles, reports -/

/-- The header and the one bundle (TEXIT) of a code object, with a number in its HASH field. -/
def objWith (x : Nat) : List Byte :=
  bytesAt 64 [(0, 0x4E), (1, 0x55), (2, 0x4D), (3, 0x52), (4, 3), (6, 6), (8, 1), (0xC, 0x80), (0x30, 1)] ++ bytesOf 48 x
    ++ bytesAt 32 [(19, 0xC4)]

/-- The object with its own hash, computed outside the model by FIPS 180-4's SHA-384. -/
def obj : List Byte :=
  objWith 12437004287533920129087201385434242173783015301519360467854079190975002765111552674543699939607089732241861744636932

theorem obj_checks : loaderCheck vdT obj none = .ok (obj, obj) := of_gives (by decide +kernel)

/-- WIN_CREATE, WIN_REKEY or WIN_FREE of window 3: VD 0 alone, one frame of die 0, at the second frame of its region. -/
def windowing (op : Byte) (s : State) : State :=
  asking 0x28 ([(0, 0x20), (2, 0x28), (8, op), (9, 3)] ++ if op = 2 then [] else [(0xB, 0xFF), (0x1A, 0x40), (0x1D, 2)]
    ++ if op = 0 then [(0x10, 1)] else []) s

/-- Window 3 exists. -/
def window3 : Window := ⟨3, 0, 2, 1, [0], 1⟩
def withWindow : State := { idleVd .running with wins := [(3, window3)] }

theorem vd0_alone {s : State} {d : Vd} (h : s.vds = [(0, d)]) (hd : d.life = none) : ∀ p ∈ s.vds, p.2.life = none := by
  intro p hp
  rw [h] at hp
  cases List.mem_singleton.mp hp
  exact hd

theorem witness_window_create : RequestStands (windowing 0 (idleVd .running)) 0 0x20 ∧
    requestLength (windowing 0 (idleVd .running)) 0 = 0x28 ∧ num ((windowing 0 (idleVd .running)).pkg.boxes[(0 : Fin 2)]).buf 8 1 = 0 ∧
    lookup 3 (windowing 0 (idleVd .running)).wins = none ∧ num ((windowing 0 (idleVd .running)).pkg.boxes[(0 : Fin 2)]).buf 0x10 4 = 1 ∧
    (windowing 0 (idleVd .running)).holdersOk [] [(0, hbmBase + 2 * frameSize)] 1 = true ∧
    num ((windowing 0 (idleVd .running)).pkg.boxes[(0 : Fin 2)]).buf 0x18 8 = hbmBase + 2 * frameSize ∧
    (windowing 0 (idleVd .running)).degraded 0 = false ∧
    (∃ f, f + 1 ≤ dieFrames ∧ ∀ i, i < 1 → lookup (0 * dieFrames + (f + i)) (windowing 0 (idleVd .running)).owners = none) := by
  refine ⟨⟨rfl, vd0_alone rfl rfl, rfl, rfl, by decide⟩, by decide, by decide, rfl, by decide, by decide +kernel, by decide, by decide,
    ⟨2, by decide, ?_⟩⟩
  decide

theorem witness_window_rekey_and_free : RequestStands (windowing 1 withWindow) 0 0x20 ∧ RequestStands (windowing 2 withWindow) 0 0x20 ∧
    lookup 3 (windowing 1 withWindow).wins = some window3 ∧ Standing (windowing 1 withWindow) 0 (plainVd .running) ∧
    VdIdle (windowing 1 withWindow) (plainVd .running) ∧ num ((windowing 1 withWindow).pkg.boxes[(0 : Fin 2)]).buf 0xC 12 = 0 ∧
    (windowing 1 withWindow).holdersOk [0] [(0, hbmBase + 2 * frameSize)] 1 = true ∧
    num ((windowing 2 withWindow).pkg.boxes[(0 : Fin 2)]).buf 8 1 = 2 ∧ num ((windowing 2 withWindow).pkg.boxes[(0 : Fin 2)]).buf 0xA 30 = 0 := by
  refine ⟨⟨rfl, vd0_alone rfl rfl, rfl, rfl, by decide⟩, ⟨rfl, vd0_alone rfl rfl, rfl, rfl, by decide⟩, rfl, ⟨rfl, by decide, by decide⟩,
    cluster0_idle ?_ rfl, by decide, by decide +kernel, by decide, by decide⟩
  intro k _
  unfold State.coreAt
  split <;> rfl

/-- A request with a command, on the VD with its page tables. -/
def serving (cmd : Byte) : State := asking 0x28 [(0, cmd), (2, 0x28), (9, 3), (0xC, 1), (0x12, 0x20), (0x15, 2)] { mapped with vds := [(0, vdT)] }

theorem witness_code_objects : RequestStands (serving 0x10) 0 0x10 ∧ Standing (serving 0x10) 0 vdT ∧
    loaderCheck vdT obj none = .ok (obj, obj) ∧ (serving 0x10).pagesMapped 0 vdT (hbmBase + frameSize) obj.length = true ∧
    vdT.codes.length < 2 ^ 32 - 1 ∧ loaderCheck vdT [] none = .error ⟨1, none⟩ ∧ RequestStands (serving 0x11) 0 0x11 ∧
    (∃ o ∈ vdT.codes, o.handle = 1) ∧ (asking 8 [(0, 0x11)] (idleVd .running)).codeNamed 0 vdT 1 = false ∧
    (serving 0x11).codeNamed 0 { vdT with ready := [⟨probeCont, 0, 0, none⟩] } 1 = true := by
  refine ⟨⟨rfl, vd0_alone rfl rfl, rfl, rfl, by decide⟩, ⟨rfl, by decide, by decide⟩, obj_checks, by decide +kernel, by decide, rfl,
    ⟨rfl, vd0_alone rfl rfl, rfl, rfl, by decide⟩, ⟨_, List.mem_singleton.mpr rfl, rfl⟩, by decide +kernel, by decide⟩

theorem handle_chunk_one : num ((serving 0x30).pkg.boxes[(0 : Fin 2)]).buf 0xC 4 = 1 := by decide

theorem witness_handle_make : RequestStands (serving 0x30) 0 0x30 ∧ requestLength (serving 0x30) 0 = 0x28 ∧
    (serving 0x30).vd? (num ((serving 0x30).pkg.boxes[(0 : Fin 2)]).buf 0x24 1) = some vdT ∧
    HandleOk (serving 0x30) 0 0 vdT ((serving 0x30).pkg.boxes[(0 : Fin 2)]).buf := by
  refine ⟨⟨rfl, vd0_alone rfl rfl, rfl, rfl, by decide⟩, by decide, rfl, by decide, by decide, by decide, by decide, by decide, by decide,
    by decide, ?_, .inl (by decide), fun _ => by decide, fun _ => ⟨by decide, by decide, ?_⟩, ?_, ?_⟩
  · intro h; exact absurd h (by decide)
  · intro i hi
    have e0 : i = 0 := by have e := handle_chunk_one; omega
    subst e0
    exact ⟨⟨frameSize, none, some ⟨hbmBase + frameSize, true, frameSize, true, false, none⟩⟩, of_gives (by decide +kernel)⟩
  · intro h; exact absurd h (by decide)
  · intro h; exact absurd h (by decide)

theorem witness_reports : RequestStands (serving 0x40) 0 0x40 ∧ RequestStands (serving 0x50) 0 0x50 ∧ (serving 0x40).vd? 0 = some vdT ∧
    (List.replicate 32 (0 : Byte)).length = 32 ∧ (serving 0x40).pkg.bring.ready = true :=
  ⟨⟨rfl, vd0_alone rfl rfl, rfl, rfl, by decide⟩, ⟨rfl, vd0_alone rfl rfl, rfl, rfl, by decide⟩, rfl, rfl, rfl⟩

/-! ### Events, memory, the Shepherd -/

/-- An event area of 64 records behind handle 1, present, with one event that waits. -/
def area (kind : HandleKind) : Handle := ⟨kind, true, true, false, 1, 0, 0, BitVec.ofNat 64 sramBase, [(frameSize, none)]⟩
def event0 (gen : BitVec 16) : Event := ⟨6, 1, gen, 0, 0, []⟩
def vdE (kind : HandleKind) (gen : BitVec 16) : Vd :=
  { vdT with handles := [(1, area kind)], regs := { VdRegs.reset with en := true, evhdl := 1 }, pend := [event0 gen] }
def telling (kind : HandleKind) (gen : BitVec 16) : State := { up run with vds := [(0, vdE kind gen)], mem := [(sliceBase 0, 1)] }

theorem frame1_storable {s : State} (h1 : s.poison = []) (h2 : s.pkg.bring.hbmfail = 0) (h3 : s.failed = []) (h4 : s.mpe = run.mpe) :
    StorableByte s frameSize := by
  refine ⟨by rw [h1]; decide, .inr ⟨0, 1, 0, by decide, ?_, ?_, ?_⟩⟩
  · simp only [State.degraded, h2]; decide
  · simp only [State.failedBlock, h3]; rfl
  · rw [h4]; decide +kernel

theorem witness_events : (onVd (fun d => { d with pend := List.replicate 256 (event0 0) }) run).vd? 0
      = some { vd0 with pend := List.replicate 256 (event0 0) } ∧ 256 ≤ (List.replicate 256 (event0 0)).length ∧ vd0.regs.en = false ∧
    vd0.due7 = false ∧ (telling .host 0).vd? 0 = some (vdE .host 0) ∧ (vdE .host 0).state = .running ∧
    (vdE .host 0).msgs = [] ∧
    (telling .host 0).areaSlot 0 (vdE .host 0) = some (area .host, 0) ∧ (telling .device 0).areaSlot 0 (vdE .device 0) = some (area .device, 0) ∧
    (event0 1).gen ≠ (vdE .host 1).gen ∧ (event0 0).gen = (vdE .host 0).gen ∧ (telling .host 0).ext.wf = true ∧
    (area .device).phys 0 = some (frameSize, none) ∧ StorableByte (telling .device 0) frameSize ∧ (telling .device 0).mem.wf = true := by
  refine ⟨rfl, Nat.le_of_eq List.length_replicate.symm, rfl, rfl, rfl, rfl, by decide, by decide +kernel, by decide +kernel, by decide, by decide,
    rfl, rfl, frame1_storable rfl rfl rfl rfl, by decide⟩

/-- A message of class 2 is owed on a masked vector, then one of class 3 on vector 0, which is not masked. -/
def vdTelling : Vd := { vdT with msgs := [(2, 5), (3, 0)], msix := [(0, ⟨0, 0, 0⟩)] }
theorem witness_msix : vdTelling.msgs = [((2 : Fin 8), (5 : BitVec 6))] ++ (3, 0) :: [] ∧ vdTelling.state = .running ∧
    (∀ m ∈ [((2 : Fin 8), (5 : BitVec 6))], m.1 = 3 → (vdTelling.msixAtEntry m.2.toNat).ctl[0] = true) ∧
    (vdTelling.msixAtEntry (0 : BitVec 6).toNat).ctl[0] = false :=
  ⟨rfl, rfl, by decide +kernel, by decide +kernel⟩
theorem test_pba : vdTelling.pba = 0x21 := by decide +kernel

/-- Frame 1 of die 0 is the VD's and its first block has been written. -/
def written : State := { up run with mpe := { run.mpe with minor := [(frameSize / 64, 1)] } }

theorem witness_memory_protection : physArea (frameSize / 64 * 64) = .hbmData 0 1 0 ∧ written.degraded 0 = false ∧
    lookup (0 * dieFrames + 1) written.owners = some (.vd 0) ∧ written.poisoned (frameSize / 64 * 64) = false ∧
    countAt (frameSize / 64) written.mpe.minor ≠ 0 ∧ written.mem.wf = true ∧ StorableByte (up run) frameSize ∧
    (lookup (0 * dieFrames + 1) (up run).owners).isSome = true := by
  refine ⟨by decide, by decide, by decide, by decide, by decide, by decide, frame1_storable rfl rfl rfl rfl, by decide⟩

/-- A launch of one field of 5 tiles, three generated. -/
def cursorG : Cursor := ⟨7, 0, 1, 0, 0, [4], [5], [], BitVec.ofNat 64 sramBase, 128, 0, false, 3, 5, 0, 0⟩
def vdG : Vd := { vdT with cursors := [cursorG] }

/-- A fresh continuation waits, with its frame in the slice. -/
def waitingEntry : Ready := ⟨{ probeCont with frame := BitVec.ofNat 64 sramBase }, 0, 0, none⟩
def vdS : Vd := { vdT with ready := [waitingEntry] }
def dispatching : State := { idleVd .running with vds := [(0, vdS)] }

theorem witness_shepherd : ({ up run with vds := [(0, vdG)] } : State).vd? 0 = some vdG ∧ vdG.state = .running ∧
    vdG.ready.length < vdG.quota ∧ cursorG.next < cursorG.total ∧ cursorG.ext.length = cursorG.fw.length ∧
    (dispatching.pkg.heat[(0 : Fin 4)]).level ≠ 3 ∧ vdS.ready = [waitingEntry] ∧ waitingEntry.cont.cls ≤ 3 ∧ waitingEntry.cont.launch = false ∧
    waitingEntry.cont.live = 0xFFFF ∧ (vdS.code? waitingEntry.cont.code).isSome = true ∧
    (∀ j ∈ vdS.cores, (dispatching.coreAt j).csr.accown.getLsbD 58 = false) ∧ waitingEntry.cont.shepLast = none ∧
    (dispatching.idleCores vdS 0).head? = some 0 ∧
    (∀ n m, n + m ≤ 0x80 → dispatching.mappedVd 0 (waitingEntry.cont.frame.toNat + n) m = true) ∧
    (64 : Nat) * 2 ^ (4 / 4) > 127 ∧ (4 : Nat) % 4 = 0 := by
  refine ⟨rfl, rfl, by decide, by decide, rfl, by decide, rfl, by decide, rfl, rfl, by decide, by decide, by decide, by decide, ?_,
    by decide, rfl⟩
  intro n m h
  exact slice_mapped (d := vdS) rfl rfl n m (by unfold sliceSize; omega)

/-! ### The step and the encodings -/

/-- The bundle `addi s4, s4, -1` placed where the acting core fetches next. -/
def fetching : State := State.reset.withFetchWord 32 0x10084FFF

theorem ready {s : State} (h1 : s.inputs = []) (h0 : s.late = []) (h2 : s.lifeDue = none) (hw : s.winDue = false) (h3 : s.c.task.isSome = true) (h4 : s.c.wait = none)
    (h5 : (s.pkg.heat[Fin.ofNat 4 (dieOf s.cur)]).level ≠ 3) (h6 : s.c.owed = []) (h7 : s.c.stop = none) (h8 : s.c.reports = [])
    (hl : s.c.lateStop = false) (he : s.c.empty = 0) (ha : s.c.again = []) (h9 : s.c.csr.ipTimer = false) (h10 : s.c.csr.ipIpi = false) (h11 : s.quantumDue s.cur = false) : ReadyToIssue s :=
  ⟨h1, h0, h2, hw, h3, h4, hl, he, ha, h5, quiet_of_nothing_owed 0 h6, fun _ => ⟨h7, h8, h9, h10, h11⟩⟩

/-- What the fetch of the bundle at the pc of a state finds. -/
def fetched (s : State) : Bundle := decodeBytes ((List.range 16).map fun j => s.mem.get (frameSize + j))

/-- Two slots: `addi` in slot 0 and `vmov q2, q1` in slot 2. -/
def twoSlots : State := { fetching with mem := run.mem.setBytes frameSize (bytesOf 16 (0x10084FFF + 0x4C040800 * 2 ^ 64)) }

theorem witness_step : ReadyToIssue fetching ∧ fetching.vdOf fetching.c = some vd0 ∧ vd0.code? fetching.c.code = some probeCode ∧
    fetching.c.pc < probeCode.nbund ∧ probeCode.nbund ≤ (onCore (fun c => { c with pc := 1 }) fetching).c.pc ∧
    fetching.xlateCore (probeCode.va + probeCode.off) .fetch = .ok ⟨frameSize, none, none⟩ ∧ fetching.poisoned frameSize = false ∧
    fetching.mem.wf = true ∧ (probeCode.va + probeCode.off) % 16 = 0 ∧ frameSize % 64 = (probeCode.va + probeCode.off) % 64 ∧
    (∀ l ∈ fetching.c.icache.lines ++ fetching.c.icache.stale, l.1 ≠ (probeCode.va + probeCode.off) / 64 * 64) ∧
    fetched fetching = .slots [(0, .addi 0 4 4 0xFFF)] ∧ fetched run = .slots [] ∧
    fetched (State.reset.placeWord 1 0xFC000000) = .illegal 1 .opcode 0xFC000000 [] ∧
    fetched twoSlots = .slots [(0, .addi 0 4 4 0xFFF), (2, .vmov 0 m0 (.q 2) (.q 1 false))] ∧
    (∃ e, (onCore (fun c => { c with tlb := [] }) fetching).xlateCore (probeCode.va + probeCode.off) .fetch = .error e) := by
  refine ⟨ready rfl rfl (by decide) rfl rfl rfl (by decide) rfl rfl rfl rfl rfl rfl rfl rfl (by decide +kernel), rfl, by decide, by decide, by decide,
    of_gives (by decide +kernel), by decide, by decide, by decide, by decide, (fun _ h => by cases h), by decide +kernel,
    by decide +kernel, by decide +kernel, by decide +kernel, ?_⟩
  have h : ((onCore (fun c => { c with tlb := [] }) fetching).xlateCore (probeCode.va + probeCode.off) .fetch).toOption.isNone = true := by
    decide +kernel
  cases e : (onCore (fun c => { c with tlb := [] }) fetching).xlateCore (probeCode.va + probeCode.off) .fetch with
  | ok x => rw [e] at h; cases h
  | error t => exact ⟨t, rfl⟩

/-- Inputs: an event that happens, and one that the device does not have. -/
theorem witness_inputs : ({ run with inputs := [.event .powerOff] } : State).inputs = .event .powerOff :: [] ∧
    (∃ t, exec .powerOff { run with inputs := [] } = .next t) ∧ exec .powerOn { run with inputs := [] } = .fault .noSuchEvent :=
  ⟨rfl, ⟨_, rfl⟩, rfl⟩

theorem witness_encodings : (Instr.mmtd 0 1 2 3 30 4).wf = true ∧ (encode (.mmtd 0 1 2 3 30 4)).isSome = true ∧
    (Instr.vfma 3 ⟨true, 2⟩ (.q 1) (.q 2 true) (.p 3 true) (.bc 9) true).wf = true ∧
    (encode (.vfma 3 ⟨true, 2⟩ (.q 1) (.q 2 true) (.p 3 true) (.bc 9) true)).isSome = true := by decide

theorem witness_canonical : State.MemoryCanonical State.reset ∧ (∃ t, Sys2Proof.Machine.step State.reset = .next t) := by
  refine ⟨by unfold State.MemoryCanonical; decide, _, rfl⟩

/-! ## Barold: the lines of 20 Table 20-3 and of 10 Table 10-15 -/

/-- What Barold refuses a line for. -/
def lineError (line : String) : Option AsmErr :=
  match assembleLine line.toList with
  | .error e => some e
  | .ok _ => none

theorem test_barold_lines :
    (assembleLine "(f2) st.n64.pkg s9, [s6] || vmov q3, s0".toList).toOption = some 0x000000004C06C000000000005C926CC0 ∧
    (assembleLine "vmov q3, s9 || nop.m".toList).toOption = some 0x000000004C06C00000000000FD200000 ∧
    (assembleLine "vldt.die q5, [s4], arr=300 || vadd.f32 q1, q0, s9 || cpy s10, s11, s12, s13".toList).toOption
      = some 0x3814B63404020606080A2161FD200001 := by decide

theorem test_barold_refuses_lines :
    lineError "vmov q3, s9 || nop" = some .headerSlot ∧ lineError "(f1) nop" = some .predicateOnNop ∧
    lineError "vadd.f32 q1, q0, s9 || vst s8, [s4]" = some .broadcast ∧ lineError "ldt.n64 s1, [s2], arr=8" = some .suffix ∧
    lineError "vmov q1, l2.pk" = some .operand ∧ lineError "addi s1, s2, 2048" = some .range := by decide

/-- Numbers of R345: 0F7FFh, 1_0b and 1_000 are numbers; an underscore at an end is none. -/
theorem test_barold_numbers :
    ["0F7FFh", "1_0b", "1_000", "0bh", "12_h", "1__0"].map (fun w => numberOf w.toList)
      = [some 0xF7FF, some 2, some 1000, some 0xB, none, none] := by decide

/-- A relocated immediate encodes its logical value and leaves a relocation entry (R350, 04 Table 4-3). -/
theorem test_barold_relocates :
    ((lexLine "li s5, clu(3)".toList).toOption.bind fun ts =>
      (assembleStmts ⟨[], [], 1, 7⟩ none (splitToks .bar ts)).toOption.map fun b => (b.value, b.rels))
      = some (0x340A0003, [7 + 17 * 2 ^ 29 + 1 * 2 ^ 34]) := by decide

/-! ## Further witnesses: loop ends, reductions, fences held, state blocks, moved bytes, results of array commands -/

theorem witness_short_results (n : Nat) : shortResult (inLoop n) .nop none ∧ shortResult (inLoop n) (.addi 0 3 4 5) (some (3, 5)) ∧
    stepsTo ⟨some (5, 6), none⟩ 5 = true :=
  ⟨.inl ⟨rfl, rfl⟩, .inr ⟨0, 3, 5, rfl, rfl, rfl, rfl⟩, rfl⟩

theorem witness_red_performed : coreOk 0 = true ∧ (atomic (.red (sliceBase 0) .add .f32 1)).mem.wf = true ∧
    NextToPerform (atomic (.red (sliceBase 0) .add .f32 1)) 0 (req (.red (sliceBase 0) .add .f32 1)) ∧ sliceBase 0 % redBytes .f32 = 0 ∧
    (∀ j < redBytes .f32, StorableByte (atomic (.red (sliceBase 0) .add .f32 1)) (sliceBase 0 + j)) ∧
    (atomic (.red (sliceBase 0) .add .f32 1)).poisoned (sliceBase 0) = false ∧ run.late = [] := by
  refine ⟨rfl, by decide, ⟨by decide, by decide, by decide, rfl, by decide⟩, by decide, ?_, by decide, rfl⟩
  intro j h
  refine ⟨?_, .inl ⟨0, j, ?_⟩⟩ <;> revert j <;> decide +kernel

/-- A re-key of window 3 is under way, and fence range register 0 covers the window's pages in the VD. -/
def rekeying : State :=
  { onRegs (fun x => { x with fr := x.fr.set 0 ⟨0, 0xFFFFFFFFFFFFFFC1⟩ }) (onVd (fun d => { d with winmap := [⟨hbmBase + frameSize, frameSize, 3⟩] }) run) with
    winOp := some ⟨3, none, 0⟩ }

theorem witness_fence_held : Alone rekeying ∧ rekeying.readF 0 = true ∧ rekeying.fenceFrozen 1 = true ∧ rekeying.fenceFrozen 2 = false ∧
    run.winOp = none := by
  refine ⟨rfl, rfl, ?_, ?_, rfl⟩ <;> decide +kernel

theorem witness_buffer_saved : Alone (at4 65) ∧ (at4 65).readF 0 = true ∧ ((at4 65).c.readS 4).toNat % 32 = 1 ∧
    (at4 65).isOwn (((at4 65).c.readS 4).toNat - 1) 32 = true ∧ HasRoom (at4 65) false := by
  refine ⟨rfl, rfl, by decide, by decide, ?_⟩
  unfold HasRoom; decide

theorem witness_generator_lands : ∃ e : Owed, e.dest = .agen 5 ∧ e.data = some 0 ∧ e.latch = none ∧ e.recs = [] :=
  ⟨⟨0, 0, 0, .agen 5, some 0, false, 0, false, 0, none, [], none⟩, rfl, rfl, rfl, rfl⟩

theorem witness_float_compare : vcmpOk .un .f32 = true ∧ (∀ j < 32, (fdec fmtF32 (el 32 (run.readV 32 (.bc 0)) j)).isNan = false) := by
  decide +kernel

/-! ### The bytes that copies move -/

/-- A copy of one word from the start of the slice to byte 128 of it, through B1 where it is a codebook copy. -/
def moving (op : CopyOp) (ctr : Word) : Chan :=
  ⟨3, 0, op, BitVec.ofNat 64 (sramBase + 128), BitVec.ofNat 64 sramBase, 0, ctr, false, 0, some { Binding.none with valid := true }, 0, 0, false,
   none, 0, 0, 0, [], true, [], none, .idle, []⟩

/-- Core 0 has one copy in flight; its cluster holds B1's codebook. -/
def copying (op : CopyOp) (ctr : Word) : State := onCore (fun c => { c with chans := [moving op ctr] }) coded

theorem last_copy (op : CopyOp) (ctr : Word) (h : (copying op ctr).copyReady 0 (moving op ctr) = true) :
    LastCopy (copying op ctr) 0 (moving op ctr) :=
  ⟨⟨rfl, rfl, h, rfl, fun hn => by cases hn⟩, (by decide : coded.mem.wf = true), rfl, rfl⟩

theorem slice0_storable {s : State} (h : s.poison = []) (j : Nat) (hj : j < sliceSize) : StorableByte s (sliceBase 0 + j) := by
  refine ⟨by rw [h]; rfl, .inl ⟨0, j, ?_⟩⟩
  have e : sliceBase 0 + j = 549755813888 + j := rfl
  have e1 : 549755813888 + j - 549755813888 = j := Nat.add_sub_cancel_left ..
  have e2 : ¬ 549755813888 + j < hbmEnd := fun k => absurd (Nat.lt_of_le_of_lt (Nat.le_add_right _ j) k) (by decide)
  have e5 : sliceSize ≤ 2097152 := by decide
  have e4 : 549755813888 + j < 550829555712 := by omega
  rw [e, physArea, if_neg e2, if_pos ⟨Nat.le_add_right _ _, e4⟩]
  simp only [e1]
  rw [Nat.mod_eq_of_lt (by omega), if_pos hj, Nat.div_eq_of_lt (by omega)]

theorem slice0_roomy {s : State} (h : s.poison = []) (hm : s.mpe = run.mpe) (n j : Nat) (hn : n < 2 ^ 64) (hj : j < sliceSize) :
    Roomy s n (sliceBase 0 + j) := by
  refine ⟨slice0_storable h j hj, ?_⟩
  rw [hm]
  exact Nat.lt_of_le_of_lt (Nat.le_of_eq (Nat.zero_add n)) hn

theorem copying_poison (op : CopyOp) (ctr : Word) : (copying op ctr).poison = [] := by simp only [copying, coded, onCore, withPed, bound1, onRegs, onVd]; rfl
theorem copying_mpe (op : CopyOp) (ctr : Word) : (copying op ctr).mpe = run.mpe := by simp only [copying, coded, onCore, withPed, bound1, onRegs, onVd]

theorem witness_plain_copies : LastCopy (copying .cpy 0) 0 (moving .cpy 0) ∧ LastCopy (copying .cpyf 0) 0 (moving .cpyf 0) ∧
    (copying .cpy 0).chanDst 0 (moving .cpy 0) = some (.slice 0, sramBase + 128) ∧ OnDevice (.slice 0) ∧
    (copying .cpy 0).chanSrc (moving .cpy 0) = some (.slice 0, sramBase) ∧ copyRows (moving .cpy 0) = 1 ∧ copyLen (moving .cpy 0) = 1 ∧
    (∀ r < 1, ∀ j < 4 * 1, Roomy (copying .cpy 0) (1 * (4 * 1)) (sideByte (.slice 0) (sramBase + 128 + r * dstStep (moving .cpy 0) + j))) ∧
    (∀ r < 1, ∀ j < 4 * 1, (copying .cpy 0).poisoned (sideByte (.slice 0) (sramBase + r * srcStep (moving .cpy 0) + j)) = false) := by
  refine ⟨last_copy _ _ (by decide +kernel), last_copy _ _ (by decide +kernel), by decide +kernel, trivial, by decide +kernel, by decide, by decide,
    ?_, by decide +kernel⟩
  intro r hr j hj
  have e : sideByte (.slice 0) (sramBase + 128 + r * dstStep (moving .cpy 0) + j) = sliceBase 0 + (128 + j) := by
    have : r = 0 := by omega
    subst this
    revert j
    decide +kernel
  rw [e]
  exact slice0_roomy (copying_poison _ _) (copying_mpe _ _) _ _ (by decide) (Nat.lt_of_lt_of_le (by omega : _ < 4096) (by decide))

/-- The plan of a codebook copy of one block. -/
def planOf (op : CopyOp) (ctr : Word) : State × Except (Nat × Nat) CopyPlan :=
  (copying op ctr).planCopy 0 (moving op ctr) (.slice 0) sramBase (sramBase + 128)

/-- It is a plan of clean bytes within the first 4,096 of the slice. -/
def planFits (op : CopyOp) (ctr : Word) : Bool :=
  match (planOf op ctr).2 with
  | .ok p => p.runs.all (fun u => u.2.all (fun y => !y.2) &&
      (List.range u.2.length).all fun j => decide (sliceBase 0 ≤ sideByte (.slice 0) (u.1 + j)) &&
        decide (sideByte (.slice 0) (u.1 + j) < sliceBase 0 + 4096)) && decide ((p.runs.map fun u => u.2.length).sum < 2 ^ 64)
  | .error _ => false

theorem plan_witness (op : CopyOp) (ctr : Word) (h : planFits op ctr = true) :
    ∃ s' p, (copying op ctr).planCopy 0 (moving op ctr) (.slice 0) sramBase (sramBase + 128) = (s', .ok p) ∧
      ∀ u ∈ p.runs, (∀ y ∈ u.2, y.2 = false) ∧
        ∀ j < u.2.length, Roomy (copying op ctr) (p.runs.map fun u => u.2.length).sum (sideByte (.slice 0) (u.1 + j)) := by
  unfold planFits at h
  cases e : planOf op ctr with
  | mk s' x =>
    rw [e] at h
    cases x with
    | error t => cases h
    | ok p =>
      refine ⟨s', p, e, fun u hu => ?_⟩
      simp only [Bool.and_eq_true, List.all_eq_true, decide_eq_true_eq] at h
      have hu' := h.1 u hu
      refine ⟨fun y hy => by simpa using hu'.1 y hy, fun j hj => ?_⟩
      have b := hu'.2 j (List.mem_range.mpr hj)
      have e2 : sideByte (.slice 0) (u.1 + j) = sliceBase 0 + (sideByte (.slice 0) (u.1 + j) - sliceBase 0) := by omega
      rw [e2]
      exact slice0_roomy (copying_poison _ _) (copying_mpe _ _) _ _ h.2 (Nat.lt_of_lt_of_le (by omega : _ < 4096) (by decide))

/-- CTR of a codebook copy: FP32 elements, the headers 512 bytes on. -/
def ctr32 : Word := 0x0000020000000000

theorem witness_coded_copies : planFits .cpyq ctr32 = true ∧ planFits .cpyd ctr32 = true ∧ planFits .cpym ctr32 = true ∧
    (copying .cpyq ctr32).copyReady 0 (moving .cpyq ctr32) = true ∧
    (copying .cpyq ctr32).getCopy 0 0 ((moving .cpyq ctr32).bnd.getD Binding.none) false = .ok (copy0, false) ∧
    (∀ j < 128, (copying .cpyq ctr32).poisoned (sideByte (.slice 0) (sramBase + j)) = false) := by
  refine ⟨by decide +kernel, by decide +kernel, by decide +kernel, by decide +kernel, of_gives (by decide +kernel), by decide +kernel⟩

/-- The index block at the start of the slice is clean; its field and header are zero. -/
theorem witness_index_block : indexBlock (copying .cpyd ctr32) (moving .cpyd ctr32) (.slice 0) sramBase 0 0 0 0 := by
  refine ⟨?_, ?_, ?_, ?_⟩ <;> decide +kernel

/-! ### What array commands leave -/

/-- A command of core 0 heads the queue of cluster 0. -/
def commanded (op : CmaOp) : CmaCmd := ⟨0, 0, op, some { Binding.none with valid := true }, none, 0, 0, 0, 0, 0, 1, 0, [], true, []⟩
def queuedCma (op : CmaOp) : State :=
  { coded with clusters := [(0, { Cluster.idle with cmds := [commanded op], cbs := [copy0] })] }

theorem witness_array_results : clusterOk 0 = true ∧ (queuedCma (.accz 1)).clocked 0 = true ∧
    (queuedCma (.mmd 1 (sliceBase 0) (sliceBase 0) .f16)).nextCma 0 = some (commanded (.mmd 1 (sliceBase 0) (sliceBase 0) .f16), []) ∧
    (queuedCma (.accld 1 (sliceBase 0) 0)).nextCma 0 = some (commanded (.accld 1 (sliceBase 0) 0), []) ∧
    (queuedCma (.accst 1 (sliceBase 0) .f32 false)).nextCma 0 = some (commanded (.accst 1 (sliceBase 0) .f32 false), []) ∧
    (floatOf .f32).isSome = true ∧ (queuedCma (.accst 1 (sliceBase 0) .f32 false)).mem.wf = true ∧
    (∀ j < 1024 * (VTy.width .f32 / 8), StorableByte (queuedCma (.accst 1 (sliceBase 0) .f32 false)) (sliceBase 0 + j)) :=
  ⟨rfl, rfl, rfl, rfl, rfl, rfl, (by decide : coded.mem.wf = true), fun j h => slice0_storable rfl j (Nat.lt_of_lt_of_le h (by decide))⟩

theorem witness_table_build : (queuedCma (.tbld (sliceBase 0) 0)).nextCma 0 = some (commanded (.tbld (sliceBase 0) 0), []) ∧
    (queuedCma (.tbld (sliceBase 0) 0)).getCopy 0 0 { Binding.none with valid := true } false = .ok (copy0, false) ∧
    0 * 32768 + 1 * Binding.kcb { Binding.none with valid := true } * 128 ≤ 524288 ∧ (queuedCma (.tbld (sliceBase 0) 0)).poison = [] :=
  ⟨rfl, of_gives (by decide +kernel), by decide, rfl⟩

theorem some_of_isSome {α : Type} {x : Option α} (h : x.isSome = true) : ∃ a, x = some a := Option.isSome_iff_exists.mp h

theorem witness_table_products : (queuedCma (.mmt 1 (sliceBase 0) 0)).nextCma 0 = some (commanded (.mmt 1 (sliceBase 0) 0), []) ∧
    (queuedCma (.mmt 1 (sliceBase 0) 0)).getCopy 0 0 { Binding.none with valid := true } (Binding.needsMap { Binding.none with valid := true })
      = .ok (copy0, false) ∧
    (∃ rs, (queuedCma (.mmt 1 (sliceBase 0) 0)).gatherRows { Binding.none with valid := true } copy0.map (sliceBase 0) 0 0 = some rs) ∧
    (queuedCma (.mmtd 1 (sliceBase 0) 0 0)).nextCma 0 = some (commanded (.mmtd 1 (sliceBase 0) 0 0), []) ∧
    (∃ rs, (queuedCma (.mmtd 1 (sliceBase 0) 0 0)).gatherRows { Binding.none with valid := true } copy0.map (sliceBase 0) 0 0
      (fun _ => false) = some rs) :=
  ⟨rfl, of_gives (by decide +kernel), some_of_isSome (by decide +kernel), rfl, some_of_isSome (by decide +kernel)⟩

/-! ### Tasks, requests and accesses under the new conditions -/

/-- A task whose record has SIG 1 and names a counter that is not allocated. -/
def signing (ctr : BitVec 16) : State :=
  onCore (fun c => { c with task := some { taskT with cont := { taskT.cont with flags := 4, dctr := ctr } } }) (tasked 3)

theorem witness_exit_traps : (signing 1).c.task = some { taskT with cont := { taskT.cont with flags := 4, dctr := 1 } } ∧
    ({ taskT.cont with flags := 4, dctr := 1 } : Cont).sig = true ∧ ¬ Allocated vdT ({ taskT.cont with flags := 4, dctr := 1 } : Cont).dctr.toNat ∧
    Allocated vdT ({ taskT.cont with flags := 4, dctr := 0 } : Cont).dctr.toNat ∧ (signing 0).others = [] ∧
    (onCsr (fun x => { x with mode := true }) (tasked 0)).c.csr.mode = true := by
  refine ⟨rfl, by decide, ?_, ?_, rfl, rfl⟩ <;> unfold Allocated <;> decide

theorem witness_clocks_run : run.stopped (dieOf 0) = false ∧ run.clocked 0 = true ∧ (launched [tile0]).reservedFor vd0 tile0.cont = none ∧
    (∀ c ∈ [cursor0], c.next = c.total) ∧ dieOf 0 < 4 ∧ (run.iss.walk = false) ∧
    ({ run with iss := { run.iss with walk := true } } : State).iss.walk = true ∧ cPRIV ≠ 0 := by
  refine ⟨rfl, rfl, ?_, ?_, ?_, rfl, rfl, ?_⟩ <;> decide +kernel

/-- VD 0 holds window 3 and is to be destroyed, or has left everything but itself. -/
theorem witness_destroy_with_windows : RequestStands (asking 9 [(0, 2), (2, 9)] withWindow) 0 2 ∧
    (∃ p ∈ (asking 9 [(0, 2), (2, 9)] withWindow).wins, 0 ∈ p.2.holders) ∧ (asking 9 [(0, 2), (2, 9)] (idleVd .running)).wins = [] ∧
    VdIdle (asking 9 [(0, 2), (2, 9)] withWindow) (plainVd .running) := by
  refine ⟨⟨rfl, vd0_alone rfl rfl, rfl, rfl, rfl, by decide⟩, ⟨_, List.mem_singleton.mpr rfl, by decide⟩, rfl, cluster0_idle ?_ rfl⟩
  intro k _
  unfold State.coreAt
  split <;> rfl

/-- The last step of a VD_DESTROY. -/
def leaving : State := { asking 9 [(0, 2), (2, 9)] (idleVd .resetting) with vds := [(0, { plainVd .resetting with life := some (.leaving 0) })] }

theorem witness_leaving : leaving.inputs = [] ∧ leaving.late = [] ∧ leaving.winOp = none ∧ leaving.wins = [] ∧
    leaving.vds = [(0, { plainVd .resetting with life := some (.leaving 0) })] := ⟨rfl, rfl, rfl, rfl, rfl⟩

/-- An access of the host lies in a window that a re-key holds. -/
theorem witness_aperture_held : (up rekeying).vdOfVf 0 0 = some 0 ∧ (up rekeying).vd? 0 = some { vd0 with winmap := [⟨hbmBase + frameSize, frameSize, 3⟩] } ∧
    ∃ m, ({ vd0 with winmap := [⟨hbmBase + frameSize, frameSize, 3⟩] } : Vd).winAt
      (0x20000000000 + vd0.regs.win.toNat * 2 ^ 32 + 0x200000) = some m ∧ (up rekeying).frozenWin m.win = true := by
  refine ⟨by decide, rfl, ⟨⟨hbmBase + frameSize, frameSize, 3⟩, by decide +kernel, by decide⟩⟩

/-- The check value of CRC-32C: that of the bytes "123456789" is E3069283h (as published with the polynomial). -/
theorem test_crc32c : crc32c ((List.range 9).map fun i => BitVec.ofNat 8 (0x31 + i)) = 0xE3069283 := by decide +kernel

/-- Table 1-3: TYPE 1, SEQ 5, VC 2, two credits of VC 1 in the header of a flit. -/
theorem test_flit_header : flitHeader 1 5 0 false 2 2 1 = 0x10240000051 := by decide

/-- A write that die 1 has not applied. -/
theorem witness_late : ({ run with late := [⟨0, 0, .core, none, 0, [], [], [⟨sliceBase 0, 0, 0xD⟩]⟩] } : State).inputs = [] ∧
    ({ run with late := [⟨0, 0, .core, none, 0, [], [], [⟨sliceBase 0, 0, 0xD⟩]⟩] } : State).late = [⟨0, 0, .core, none, 0, [], [], [⟨sliceBase 0, 0, 0xD⟩]⟩] :=
  ⟨rfl, rfl⟩

theorem witness_poisoned_fetch : ({ fetching with poison := [frameSize / 64] } : State).xlateCore (probeCode.va + probeCode.off) .fetch
      = .ok ⟨frameSize, none, none⟩ ∧ ({ fetching with poison := [frameSize / 64] } : State).poisoned frameSize = true := by
  refine ⟨of_gives (by decide +kernel), by decide⟩

/-! ## Witnesses of the clauses on what holds a request, on slots, on counters, frames, ports and steps -/

/-- A load that acquires, then another request: the two requests of core 0. -/
def two (r : Req) : State := onCore (fun c => { c with lsu := [{ req (.load [sliceBase 0] false []) with acq := true, tags := 1 }, r] }) run

/-- The same, the first one a load that does not acquire. -/
def plainTwo (r : Req) : State := onCore (fun c => { c with lsu := [req (.load [sliceBase 0] false []), r] }) run

theorem witness_earlier_holds :
    (0 : Nat) < 1 ∧ (two { req (.store [(sliceBase 0 + 64, 7)]) with ord := 1, rel := true, scope := .die }).c.lsu.length = 2 ∧
    (req (.load [sliceBase 0] false [])).op.counts = true ∧ (req (.store [(sliceBase 0 + 64, 7)])).op.counts = true ∧
    fenceCovers 1 { req (.load [sliceBase 0] false []) with tags := 1 } ∧ fenceCovers 0 (req (.load [sliceBase 0] false [])) ∧
    stillOpen .core (req (.load [sliceBase 0] false [])) ∧ (req (.load [sliceBase 0] false [])).op.reads = true ∧
    (two { req (.bararr 1 3) with ord := 1 }).canPerform 0 { req (.bararr 1 3) with ord := 1 } = false := by
  refine ⟨by decide, rfl, rfl, rfl, by unfold fenceCovers; decide, by unfold fenceCovers; decide, .inr rfl, rfl, by decide⟩

theorem witness_nothing_holds : (plainTwo { req (.store [(sliceBase 0 + 64, 7)]) with ord := 1 }).c.chans = [] ∧
    (∀ b ∈ (req (.load [sliceBase 0] false [])).op.touched, b ∉ (req (.store [(sliceBase 0 + 64, 7)])).op.touched) ∧
    (plainTwo { req (.store [(sliceBase 0 + 64, 7)]) with ord := 1 }).canPerform 0 { req (.store [(sliceBase 0 + 64, 7)]) with ord := 1 } = true ∧
    ¬ fenceCovers 2 { req (.load [sliceBase 0] false []) with tags := 1 } ∧ (req (.store [(sliceBase 0, 7)])).op.reads = false := by
  refine ⟨rfl, by decide, by decide, by unfold fenceCovers; decide, rfl⟩

/-- A full fence of core 0 behind its copy and its command. -/
theorem witness_fence_behind_engines : chan0.ord < 1 ∧ chan0.plain = true ∧ cma0.ord < 1 ∧ cma0.core = 0 ∧ cma0.plain = true ∧
    FenceKind.full ≠ .acq ∧ chan0 ∈ (busy.coreAt 0).chans ∧ cma0 ∈ (busy.clusterAt (clusterOf 0)).cmds := by
  refine ⟨by decide, rfl, by decide, rfl, rfl, by decide, by decide, by decide⟩

/-- A copy of 512 bytes of the slice waits for a slot of buffer 4. -/
def slotCopy : Chan := { waiting with src := BitVec.ofNat 64 sramBase, shp := 2 <<< 30 }

/-- Buffer 4, its one slot consumer-held, and the copy that waits for it. -/
def slotWaits : State := onCore (fun c => { c with chans := [slotCopy], serial := 1 }) (buffered 0 0 1)

theorem witness_slot_waited_for : 0 < ((slotWaits).c.regs.cb[(4 : CbReg)]).cheld ∧ slotWaits.c.chans.filter (fun g => g.held) = [slotCopy] ∧
    (∀ g ∈ slotWaits.c.chans, g.ord = slotCopy.ord → g = slotCopy) ∧ shpDkind slotCopy.shp = 2 ∧ slotCopy.dst.toNat % 16 = (4 : CbReg).val ∧
    slotWaits.c.lsu = [] ∧ (∀ e ∈ slotWaits.c.owed, e.dest ≠ .buf 4) ∧ slotWaits.tsoSrc slotCopy = false ∧
    (∀ h ∈ (buffered 1 0 1).c.chans, h.held = true → (buffered 1 0 1).copyFree 0 h = false) := by
  refine ⟨by decide, rfl, ?_, by decide, by decide, rfl, (fun e h => by cases h), by decide +kernel, (fun h m => by cases m)⟩
  intro g h _
  exact List.mem_singleton.mp h

/-- A copy that has taken slot 0 or slot 1 of buffer 4, of which two slots are producer-held. -/
theorem witness_slot_filled : (⟨0, 128, 2, 0, 0, 0, 0, 2, 0, []⟩ : CbBuf).pheld ≤ (⟨0, 128, 2, 0, 0, 0, 0, 2, 0, []⟩ : CbBuf).nslot ∧
    0 = ((⟨0, 128, 2, 0, 0, 0, 0, 2, 0, []⟩ : CbBuf).pidx + 2 - 2) % 2 ∧ 1 ≠ ((⟨0, 128, 2, 0, 0, 0, 0, 2, 0, []⟩ : CbBuf).pidx + 2 - 2) % 2 := by
  decide

/-- Counter 0 of the VD is allocated, stands at 3 and names no continuation. -/
theorem quiet_counter : QuietCounter (tasked 3) 0 vdT.gen 0 := by
  refine ⟨{ vdT with ctrs := [(0, ⟨3, none⟩)] }, rfl, rfl, ?_, ?_, rfl, rfl⟩
  · unfold Allocated; decide
  · unfold CountFits; decide

/-- A copy that has taken slot 0 of buffer 4 and names counter 0. -/
def countedCopy : Chan := { moving .cpyf 0 with named := true, gen := vdT.gen }
def counted : State := { copying .cpyf 0 with c := { (copying .cpyf 0).c with chans := [countedCopy] }, vds := (tasked 3).vds }

theorem witness_counted_copy : OnlyCopy counted 0 countedCopy := by
  refine ⟨rfl, rfl, by decide +kernel, rfl, fun _ => ?_⟩
  refine ⟨{ vdT with ctrs := [(0, ⟨3, none⟩)] }, rfl, rfl, ?_, ?_, rfl, rfl⟩
  · unfold Allocated; decide
  · unfold CountFits; decide

theorem witness_commands_count : (commanded (.accst 1 (sliceBase 0) .f32 false)).done = [] ∧
    ({ commanded (.accz 1) with ctr := some 0 } : CmaCmd).ctr = some 0 ∧ (0 : BitVec 16).toNat = 0 ∧ ({ fill0 with ctr := some 0 } : Fill).ctr = some 0 ∧
    ({ inv0 with ctr := some 0 } : CbInv).ctr = some 0 := ⟨rfl, rfl, rfl, rfl, rfl⟩

/-- The entry of the VD's Pedigree as a fill reads it: of version 1, codewords through handle 0. -/
def filling : State := { onVd (fun d => { d with handles := [(0, ⟨.device, true, true, false, 65536, 0, 0, 0, [(frameSize, none)]⟩)] }) coded with
  mem := [(sliceBase 0 + 4096 + 2, 1), (sliceBase 0 + 4096 + 8, 1)] }

/-- The fill of B2 of core 0 that reads that entry. -/
def fillFits : Fill := { fill0 with pa := sliceBase 0 + 4096, bnd := { Binding.none with valid := true, ver := 1 } }

theorem witness_fill_ends : EntryFits filling fillFits ∧ (∀ w, filling.ownerOf fillFits.pa ≠ some (.win w)) ∧
    HandleHolds filling fillFits.vd (PedEntry.ofBytes (filling.read fillFits.pa 64)).cwhdl
      (PedEntry.ofBytes (filling.read fillFits.pa 64)).cwoff fillFits.bnd.cwBytes (List.replicate 64 0) ∧
    fillFits.map = false ∧ ¬ EntryFits filling fill0 := by
  have e : PedEntry.ofBytes (filling.read fillFits.pa 64) = ⟨0, 1, 0, 0, 0, 1, 0, 0, 1, 0, 0, 0, 0, 0⟩ := by decide +kernel
  refine ⟨?_, ?_, ?_, rfl, ?_⟩
  · unfold EntryFits; rw [e]; decide +kernel
  · intro w h
    have : filling.ownerOf fillFits.pa = none := by decide +kernel
    rw [this] at h; cases h
  · rw [e]
    refine ⟨_, _, rfl, rfl, rfl, by decide +kernel, by decide +kernel, ?_⟩
    intro j hj
    refine ⟨frameSize, ?_⟩
    have all : ∀ j < 64, (lookup 0 [(0, (⟨.device, true, true, false, 65536, 0, 0, 0, [(frameSize, none)]⟩ : Handle))]).any (fun h =>
        h.pages[(0 + j) / 65536]? == some (frameSize, none)) = true ∧ filling.poisoned (frameSize + (0 + j) % 65536) = false ∧
        (List.replicate 64 (0 : Byte))[j]? = some (filling.mem.get (frameSize + (0 + j) % 65536)) := by decide +kernel
    have h := all j hj
    exact ⟨by simpa [lookup] using h.1, h.2.1, h.2.2⟩
  · unfold EntryFits; decide +kernel

/-- A copy that no owed result names may leave the CBS. -/
theorem witness_eviction : busy.copyInUse 0 7 = false ∧ (⟨7, 9, [], none⟩ : CbsCopy) ∈ (busy.clusterAt 0).cbs := by decide +kernel

/-- B1 translates from version 7 and the image in Q3 is of version 7. -/
def translating : Binding := { Binding.none with valid := true, mode := true, ver := 1, prevver := 7 }
def oldImage : Vec := BitVec.ofNat 1024 (7 * 2 ^ 512)

theorem witness_translated_image : namesPrevious translating oldImage ∧ oldImage.extractLsb' 528 8 ≠ 0xFF ∧
    hasSuccessors translating oldImage (List.replicate 64 0) ∧ ¬ hasSuccessors translating oldImage (List.replicate 64 0xFF) := by
  refine ⟨by unfold namesPrevious; decide +kernel, by decide +kernel, ?_, ?_⟩
  · unfold hasSuccessors; decide +kernel
  · unfold hasSuccessors; decide +kernel

/-- The decrement of a BINDCNT that is next to be performed. -/
def unbinding : State := onCore (fun c => { c with lsu := [{ req (.bindcnt (sliceBase 0 + 4104) (BitVec.ofNat 64 (sramBase + 4104))) with rel := true, scope := .sys }] }) coded

theorem witness_unbinding : NextToPerform unbinding 0 { req (.bindcnt (sliceBase 0 + 4104) (BitVec.ofNat 64 (sramBase + 4104))) with rel := true, scope := .sys } ∧
    unbinding.mem.wf = true ∧ (sliceBase 0 + 4104) % 8 = 0 ∧ unbinding.poisoned (sliceBase 0 + 4104) = false ∧
    (∀ j < 8, StorableByte unbinding (sliceBase 0 + 4104 + j)) := by
  refine ⟨?_, by decide +kernel, rfl, rfl, ?_⟩
  · unfold NextToPerform; decide +kernel
  · intro j hj
    rw [Nat.add_assoc]
    exact slice0_storable rfl _ (Nat.lt_of_lt_of_le (by omega : _ < 8192) (by decide))

/-! ### Frames -/

/-- A frame at the start of the slice of a VD of cluster 0, in memory that no poison marks. -/
theorem slice_frame {s : State} {v : Nat} {d : Vd} {fr : Word} (hd : s.vd? v = some d) (hc : d.clusters = [0]) (hf : fr = BitVec.ofNat 64 sramBase)
    (h : s.poison = []) (hm : s.mpe = run.mpe) : FrameAt s v fr (fun o => sliceBase 0 + o) := by
  refine ⟨fun o ho => slice0_roomy h hm _ _ (by decide) (Nat.lt_trans ho (by decide)), fun o o' _ _ e => Nat.add_left_cancel e, ?_⟩
  intro u _ _ _ _ _ hs _ o ho
  obtain ⟨d', hu, e⟩ := hs d hd
  have hn : fr.toNat + o = sramBase + o := by rw [hf]; rfl
  have hz : sliceSize = 1572864 := rfl
  have hb : hbmBase = sramBase + 1099511627776 := rfl
  have e1 : ¬ sramBase + o < sramBase := by omega
  have e2 : sramBase + o < hbmBase := by omega
  have e3 : (sramBase + o - sramBase) = o := Nat.add_sub_cancel_left ..
  have e4 : o / sliceSize = 0 := Nat.div_eq_of_lt (by omega)
  have e5 : o % sliceSize = o := Nat.mod_eq_of_lt (by omega)
  refine ⟨⟨sliceBase 0 + o, none, none⟩, ?_, rfl⟩
  have hg : d'.globalCore 0 = some 0 := by simp [Vd.globalCore, e.2.1, hc]
  simp only [State.xlateVd, hu, State.xlate, hn, if_neg e1, if_pos e2, Vd.xlateSlice, e3, e4, e5, hg]

/-- The entry of a suspended task and the record in its frame: code 1, the frame itself, LIVE 0, saved. -/
def suspended : Ready := ⟨{ probeCont with frame := BitVec.ofNat 64 sramBase, live := 0, flags := 2 }, 0, 0, none⟩
def vdR : Vd := { vdT with ready := [suspended] }
def resuming : State := { idleVd .running with vds := [(0, vdR)], mem := [(sliceBase 0, 1), (sliceBase 0 + 0x15, 1), (sliceBase 0 + 0x20, 2)] }

/-- What the frame holds under a mask of no register: nothing but zeros. -/
def restored : Regs := { Regs.scrubbed with n := Vector.replicate 4 0 }

theorem witness_resumes :
    OnlyEntry resuming 0 0 0 vdR suspended ∧ suspended.cont.live ≠ 0xFFFF ∧ FrameAt resuming 0 suspended.cont.frame (fun o => sliceBase 0 + o) ∧
    resuming.mem.wf = true ∧ resuming.late = [] ∧
    resuming.recordCheck 0 (Cont.ofBytes ((List.range 64).map fun j => resuming.mem.get (sliceBase 0 + j))) false = none ∧
    (Cont.ofBytes ((List.range 64).map fun j => resuming.mem.get (sliceBase 0 + j))).live ≠ 0xFFFF ∧
    (Cont.ofBytes ((List.range 64).map fun j => resuming.mem.get (sliceBase 0 + j))).frame = suspended.cont.frame ∧
    (vdR.code? (Cont.ofBytes ((List.range 64).map fun j => resuming.mem.get (sliceBase 0 + j))).code).isSome = true ∧
    frameNum resuming.mem.get (fun o => sliceBase 0 + o) 0x40 2 = 0 ∧ frameNum resuming.mem.get (fun o => sliceBase 0 + o) 0x43 3 = 0 ∧
    FitsFrame restored ∧ FrameImage resuming.mem.get (fun o => sliceBase 0 + o) 0 restored (fun j => j == 0 || restored.f[j]) restored.loops := by
  refine ⟨?_, by decide, slice_frame (d := vdR) rfl rfl rfl rfl rfl, by decide +kernel, rfl, by decide +kernel, by decide +kernel,
    by decide +kernel, by decide +kernel, by decide +kernel, by decide +kernel, ?_, ?_⟩
  · refine ⟨rfl, rfl, rfl, by decide, rfl, rfl, rfl, rfl, rfl, by decide, rfl, by decide, .inl ⟨rfl, by decide +kernel⟩⟩
  · unfold FitsFrame; decide +kernel
  · have no (k : Nat) (h : (0 : Word).getLsbD k = true) : False := by simp at h
    refine ⟨fun j _ h => ?_, fun h => ?_, by decide +kernel, fun h => ?_, fun j h => ?_, fun h => ?_, fun h => ?_, fun h => ?_, fun h => ?_,
      fun j h => ?_, by decide +kernel, by decide +kernel, by decide +kernel⟩ <;> exact (no _ h).elim

/-- The task of `tasked` suspends into a frame that lies in its slice. -/
theorem witness_saves_a_frame : FrameAt (tasked 3) 0 taskT.cont.frame (fun o => sliceBase 0 + o) ∧ (tasked 3).mem.wf = true :=
  ⟨slice_frame (d := { vdT with ctrs := [(0, ⟨3, none⟩)] }) rfl rfl rfl rfl rfl, by decide +kernel⟩

/-- A spilled continuation of the class waits when the quantum has ended (05 R96, R98). -/
theorem witness_spilled_quantum : (onVd (fun d => { d with ready := [], ovf := [⟨probeCont, 0, 0, none⟩] }) expired).vd? 0 =
    some { vd0 with ovf := [⟨probeCont, 0, 0, none⟩] } ∧ (0 : Fin 4).val = dieOf 0 ∧ probeCont.cls = task0.cont.cls := by
  refine ⟨rfl, rfl, rfl⟩

/-- A copy of core 0 has asked its peer for 256 bytes at a port that trains. -/
def txRead : TxReq := ⟨0, [], .read 512 256, 0, chan0.ord⟩
def losingCopy : State := { ported { FalPort.idle with phase := .align, replay := [⟨9, txRead, 0, 0⟩] } with c := busy.c }

theorem witness_copy_loss : losingCopy.pkg.on = true ∧ (losingCopy.pkg.ports[(5 : Fin 24)]).replay = [⟨9, txRead, 0, 0⟩] ∧ coreOk txRead.core = true ∧
    (losingCopy.coreAt txRead.core).chans.find? (fun g => g.ord == txRead.ord) = some chan0 ∧
    ({ FalPort.idle with phase := .active, replay := [⟨9, txRead, 0, 0⟩] } : FalPort).stalls < 8 ∧
    0 < ({ FalPort.idle with credits := FalPort.idle.credits.set 3 16 } : FalPort).credits[tx0.vc] := by
  refine ⟨rfl, rfl, rfl, rfl, by decide, by decide⟩

/-- A counter operation of die 0 that its trip has held up. -/
def tripped : State := { heated { DieHeat.cool with level := 3 } with parked := [.counterOperation 0 0 0 .dec 0] }

theorem witness_trip_clears : (tripped.pkg.heat[(0 : Fin 4)]).level = 3 ∧ (tripped.vd? 0).isSome = true ∧ (0 : BitVec 16).toNat / 16384 = (0 : Fin 4).val ∧
    (∀ p ∈ tripped.vds, p.2.homeDie = (0 : Fin 4).val → p.2.ovf = [] ∧ p.2.cursors = [] ∧ ∀ r ∈ p.2.ready, r.cont.launch = false) := by
  decide +kernel

end Sys2Proof.Tests
end

/-! PROOFS. Slot 0 alone in its bundle: what each kind of scalar instruction does with the state, the words of slot 0 field by field,
and the statements on division (R229) and ADDX (R233). -/

namespace Sys2Proof.Claims

open Sys2Proof Sys2Proof.Machine

/-! ## A slot alone in its bundle -/

theorem Alone.phase {s : State} (h : Alone s) : s.iss.phase = .alone := by rw [h]; rfl
theorem Alone.uses {s : State} (h : Alone s) : s.iss.uses = [] := by rw [h]; rfl
theorem Alone.walk {s : State} (h : Alone s) : s.iss.walk = false := by rw [h]; rfl
theorem Alone.block {s : State} (h : Alone s) : s.iss.block = none := by rw [h]; rfl
theorem Alone.after {s : State} (h : Alone s) : s.iss.after = none := by rw [h]; rfl
theorem Alone.eret {s : State} (h : Alone s) : s.iss.eret = false := by rw [h]; rfl
theorem Alone.ended {s : State} (h : Alone s) : s.iss.ended = false := by rw [h]; rfl

/-- A slot-0 instruction without operands to check takes its effect on the state as it is. -/
theorem Alone.plain_eq {s : State} {p : FReg} (h : Alone s) (hp : s.readF p = true) (eff : State → State) :
    s.plain p eff = .next (eff s) :=
  State.runSlot_plain hp h.phase h.uses rfl rfl h.walk.symm h.block.symm

/-- A scalar computation owes its value and changes nothing else (R226). -/
theorem Alone.scalar_eq {s : State} {p : FReg} (h : Alone s) (hp : s.readF p = true) (lat : Nat) (d : SReg) (v : Word) :
    s.scalar p lat d v = .next (owesScalar s lat d v) :=
  State.runSlot_plain hp h.phase h.uses rfl rfl h.walk.symm h.block.symm

/-! ## Division (R229) -/

/-- The model's signed quotient, stored in a register, reads as the rule's: the one quotient that does not fit wraps to −2^63. -/
theorem toInt_ofInt_quotRem_fst (x y : Word) :
    (BitVec.ofInt 64 (quotRem x.toInt y.toInt).1).toInt = (signedQuotRem x.toInt y.toInt).1 := by
  unfold quotRem signedQuotRem
  by_cases hzero : y.toInt = 0
  · simp [hzero]
  · rw [if_neg hzero, if_neg hzero]
    by_cases hover : x.toInt = -2 ^ 63 ∧ y.toInt = -1
    · obtain ⟨hx, hy⟩ := hover
      rw [hx, hy]
      decide
    · rw [if_neg hover]
      have hfits : x ≠ BitVec.intMin 64 ∨ y ≠ -1#64 := by
        by_contra hboth
        simp only [not_or, ne_eq, Decidable.not_not] at hboth
        obtain ⟨rfl, rfl⟩ := hboth
        exact hover (by decide)
      rw [BitVec.toInt_ofInt, ← BitVec.toInt_sdiv, BitVec.toInt_sdiv_of_ne_or_ne x y hfits]

/-- The model's signed remainder, stored in a register, reads as the rule's. -/
theorem toInt_ofInt_quotRem_snd (x y : Word) :
    (BitVec.ofInt 64 (quotRem x.toInt y.toInt).2).toInt = (signedQuotRem x.toInt y.toInt).2 := by
  unfold quotRem signedQuotRem
  by_cases hzero : y.toInt = 0
  · rw [if_pos hzero, if_pos hzero, BitVec.ofInt_toInt]
  · rw [if_neg hzero, if_neg hzero]
    have hrem : (BitVec.ofInt 64 (x.toInt.tmod y.toInt)).toInt = x.toInt.tmod y.toInt := by
      rw [← BitVec.toInt_srem, BitVec.ofInt_toInt]
    split
    · next hover =>
      rw [hrem, hover.1, hover.2]
      decide
    · rw [hrem, Int.tmod_def, Int.mul_comm]

/-- The model's unsigned quotient, stored in a register, reads as the rule's. -/
theorem toNat_ofNat_quotRemN_fst (x y : Word) :
    (BitVec.ofNat 64 (quotRemN x.toNat y.toNat).1).toNat = (unsignedQuotRem x.toNat y.toNat).1 := by
  unfold quotRemN unsignedQuotRem
  split
  · rfl
  · exact Nat.mod_eq_of_lt (Nat.lt_of_le_of_lt (Nat.div_le_self ..) x.isLt)

/-- The model's unsigned remainder, stored in a register, reads as the rule's. -/
theorem toNat_ofNat_quotRemN_snd (x y : Word) :
    (BitVec.ofNat 64 (quotRemN x.toNat y.toNat).2).toNat = (unsignedQuotRem x.toNat y.toNat).2 := by
  unfold quotRemN unsignedQuotRem
  split
  · exact Nat.mod_eq_of_lt x.isLt
  · rw [BitVec.toNat_ofNat, Nat.mod_eq_of_lt (Nat.lt_of_le_of_lt (Nat.mod_le ..) x.isLt), Nat.mod_eq_sub_div_mul]

/-- Settles O2: the four divisions are scalar computations without a check, so they owe their value whatever the operands; that value,
read signed or unsigned, is the rule's in each of its cases. -/
theorem divisionNeverTrapsAndHasFixedResults : Obligations.DivisionNeverTrapsAndHasFixedResults := by
  intro s p d a b halone hp
  exact ⟨⟨_, toInt_ofInt_quotRem_fst .., halone.scalar_eq hp ..⟩, ⟨_, toInt_ofInt_quotRem_snd .., halone.scalar_eq hp ..⟩,
    ⟨_, toNat_ofNat_quotRemN_fst .., halone.scalar_eq hp ..⟩, ⟨_, toNat_ofNat_quotRemN_snd .., halone.scalar_eq hp ..⟩⟩

/-! ## The words of slot 0 -/

/-- A word of slot 0 by its fields: OP, PRED, D, A and the 12 bits below them (Table 10-6). -/
def slotWord (op : Nat) (p : FReg) (d a : SReg) (low : Nat) : Nat :=
  op * 2 ^ 26 + p.val * 2 ^ 22 + d.val * 2 ^ 17 + a.val * 2 ^ 12 + low

section Fields

variable {op low : Nat} (p : FReg) (d a : SReg)

theorem slotWord_op (hop : op < 64) (hlow : low < 2 ^ 12) : fld (slotWord op p d a low) 26 6 = op := by
  unfold fld slotWord
  omega

theorem slotWord_pred (hlow : low < 2 ^ 12) : freg (slotWord op p d a low) 22 = p := by
  have hfld : fld (slotWord op p d a low) 22 4 = p.val := by
    unfold fld slotWord
    omega
  rw [freg, hfld]
  exact Fin.ofNat_val_eq_self p

theorem slotWord_d (hlow : low < 2 ^ 12) : sreg (slotWord op p d a low) 17 = d := by
  have hfld : fld (slotWord op p d a low) 17 5 = d.val := by
    unfold fld slotWord
    omega
  rw [sreg, hfld]
  exact Fin.ofNat_val_eq_self d

theorem slotWord_a (hlow : low < 2 ^ 12) : sreg (slotWord op p d a low) 12 = a := by
  have hfld : fld (slotWord op p d a low) 12 5 = a.val := by
    unfold fld slotWord
    omega
  rw [sreg, hfld]
  exact Fin.ofNat_val_eq_self a

/-- A field that lies in the low 12 bits. -/
theorem slotWord_low {lo n : Nat} (hn : lo + n ≤ 12) : fld (slotWord op p d a low) lo n = fld low lo n := by
  obtain ⟨k, hk⟩ := Nat.exists_eq_add_of_le hn
  have hhigh : slotWord op p d a low = low + (op * 2 ^ 14 + p.val * 2 ^ 10 + d.val * 2 ^ 5 + a.val) * 2 ^ k * 2 ^ n * 2 ^ lo := by
    have h12 : (2 ^ k * 2 ^ n * 2 ^ lo : Nat) = 2 ^ 12 := by rw [← pow_add, ← pow_add, hk]; congr 1; omega
    rw [mul_assoc, mul_assoc, ← mul_assoc (2 ^ k), h12, slotWord]
    omega
  rw [fld, fld, hhigh, Nat.add_mul_div_right _ _ (by positivity), Nat.add_mul_mod_self_right]

end Fields

/-- A word with a reserved field that is not zero is refused (R221 case 2). -/
theorem fate_reserved {f : Nat} (h : f ≠ 0) (i : Option Instr) : fate [f] i = .error .reserved := by
  simp [fate, h]

/-- A word whose one reserved field is zero and whose operands are accepted is its instruction (R221 case 5). -/
theorem fate_ok {i : Instr} (h : i.wf = true) : fate [0] (some i) = .ok i := by
  simp [fate, h]

/-- The header's fields say nothing of slot 0. -/
theorem decodeSlot_zero (bc : SReg) (hdr : Bool) (ext w : Nat) : decodeSlot 0 bc hdr ext w = decodeS w := rfl

/-- Opcode 02h of slot 0 (R233). -/
theorem decodeS_addx {w : Nat} (h : fld w 26 6 = 0x02) :
    decodeS w = fate [fld w 3 4] (some (.addx (freg w 22) (sreg w 17) (sreg w 12) (sreg w 7) (Fin.ofNat 8 (fld w 0 3)))) := by
  simp only [decodeS, h]

/-- Opcode 21h of slot 0 (R249). -/
theorem decodeS_lstep {w : Nat} (h : fld w 26 6 = 0x21) :
    decodeS w = fate [fld w 0 12] (some (.lstep (freg w 22) (sreg w 17) (sreg w 12))) := by
  simp only [decodeS, h]

/-- Opcode 22h of slot 0 (R250). -/
theorem decodeS_lbrk {w : Nat} (h : fld w 26 6 = 0x22) : decodeS w = fate [fld w 0 22] (some (.lbrk (freg w 22))) := by
  simp only [decodeS, h]

/-! ## ADDX (R233) -/

/-- The fate of an ADDX word, by what FN holds above the shift. -/
theorem decodeS_addx_word (p : FReg) (d a b : SReg) {fn : Nat} (hfn : fn < 128) :
    decodeS (slotWord 0x02 p d a (b.val * 2 ^ 7 + fn)) = fate [fn / 8] (some (.addx p d a b (Fin.ofNat 8 (fn % 8)))) := by
  have hlow : b.val * 2 ^ 7 + fn < 2 ^ 12 := by omega
  have hshift : fld (b.val * 2 ^ 7 + fn) 0 3 = fn % 8 := by unfold fld; omega
  have hresv : fld (b.val * 2 ^ 7 + fn) 3 4 = fn / 8 := by unfold fld; omega
  have hb : sreg (slotWord 0x02 p d a (b.val * 2 ^ 7 + fn)) 7 = b := by
    have hfld : fld (b.val * 2 ^ 7 + fn) 7 5 = b.val := by unfold fld; omega
    rw [sreg, slotWord_low p d a (by decide), hfld]
    exact Fin.ofNat_val_eq_self b
  rw [decodeS_addx (slotWord_op p d a (by decide) hlow), slotWord_low p d a (by decide), slotWord_low p d a (by decide),
    slotWord_pred p d a hlow, slotWord_d p d a hlow, slotWord_a p d a hlow, hb, hshift, hresv]

/-- ADDX with its reserved bits zero (R233). -/
theorem decodeSlot_addx (p : FReg) (d a b : SReg) (sh : Fin 8) (bc : SReg) (hdr : Bool) (ext : Nat) :
    decodeSlot 0 bc hdr ext (0x02 * 2 ^ 26 + p.val * 2 ^ 22 + d.val * 2 ^ 17 + a.val * 2 ^ 12 + b.val * 2 ^ 7 + sh.val)
      = .ok (.addx p d a b sh) := by
  rw [decodeSlot_zero, Nat.add_assoc _ (b.val * 2 ^ 7), ← slotWord, decodeS_addx_word p d a b (by omega), Nat.div_eq_of_lt sh.isLt,
    Nat.mod_eq_of_lt sh.isLt, Fin.ofNat_val_eq_self, fate_ok rfl]

/-- ADDX with a reserved bit set (R233). -/
theorem decodeSlot_addx_reserved (p : FReg) (d a b : SReg) (fn : Fin 128) (bc : SReg) (hdr : Bool) (ext : Nat) (hfn : 8 ≤ fn.val) :
    decodeSlot 0 bc hdr ext (0x02 * 2 ^ 26 + p.val * 2 ^ 22 + d.val * 2 ^ 17 + a.val * 2 ^ 12 + b.val * 2 ^ 7 + fn.val)
      = .error .reserved := by
  rw [decodeSlot_zero, Nat.add_assoc _ (b.val * 2 ^ 7), ← slotWord, decodeS_addx_word p d a b fn.isLt, fate_reserved (by omega)]

theorem exec_addx (s : State) (p : FReg) (d a b : SReg) (sh : Fin 8) :
    exec (.addx p d a b sh) s = s.scalar p 1 d (s.c.readS a + s.c.readS b <<< sh.val) := rfl

/-- A shift left by n is a product with 2^n. -/
theorem shiftLeft_eq_mul_ofNat (x : Word) (n : Nat) : x <<< n = x * BitVec.ofNat 64 (2 ^ n) := by
  apply BitVec.eq_of_toNat_eq
  rw [BitVec.toNat_shiftLeft, BitVec.toNat_mul, BitVec.toNat_ofNat, Nat.mul_mod_mod, Nat.shiftLeft_eq]

/-- Settles O3: the words go through the fields of FN, the printed one among them, and a shift left by `sh` is a product with 2^sh. -/
theorem addxDecodesAndAddsShifted : Obligations.AddxDecodesAndAddsShifted := by
  refine ⟨decodeSlot_addx, decodeSlot_addx_reserved, decodeSlot_addx 0 7 4 5 3 0 false 0, fun s p d a b sh halone hp => ?_⟩
  rw [exec_addx, halone.scalar_eq hp, shiftLeft_eq_mul_ofNat]

end Sys2Proof.Claims

/-! PROOFS. Core cycles that pass with nothing to land, the end of a bundle whose loop end is not processed (R243, R251), and the
statement on LSTEP and LBRK (R249, R250). -/

namespace Sys2Proof.Machine

open Sys2Proof.Claims

/-! ## Cycles in which nothing is due -/

section NothingDue

variable {c : Core} (h : ∀ e ∈ c.owed, c.csr.cycle < e.due)

include h

theorem Core.due_eq_nil : c.due = [] := by
  simpa [Core.due] using h

theorem Core.presence_of_nothing_due : c.presence = some 0 := by
  simp [Core.presence, Core.due_eq_nil h]

theorem Core.land_of_nothing_due (k : Nat) : c.land k = c := by
  have hkept : c.owed.filter (fun e => !decide (e.due ≤ c.csr.cycle) || e.poison) = c.owed :=
    List.filter_eq_self.2 fun e he => by simp [h e he]
  simp only [Core.land, Core.due_eq_nil h, hkept]
  rfl

end NothingDue

/-- A stop of no die cycles is none. -/
theorem Core.awaitPresence_zero (c : Core) : c.awaitPresence 0 = c := by
  have hcfrz : BitVec.ofNat 16 (Min.min 0xFFFF (c.csr.cfrz.toNat + 0)) = c.csr.cfrz := by
    rw [Nat.add_zero, Nat.min_eq_right (by omega), BitVec.ofNat_toNat, BitVec.setWidth_eq]
  simp only [Core.awaitPresence, Core.freeze_cfrz, hcfrz]
  rfl

/-- Core cycles pass one by one, nothing being due. -/
def Core.passEach : Nat → Core → Core
  | 0, c => c
  | n + 1, c => Core.passEach n (c.pass 1)

/-- Cycles in which nothing comes due only pass. -/
theorem Core.spend_eq_passEach (k n : Nat) {c : Core} (h : ∀ e ∈ c.owed, c.csr.cycle + n < e.due) :
    c.spend k n = { Core.passEach n c with empty := 0 } := by
  induction n generalizing c with
  | zero => rfl
  | succ n ih =>
    have hnext : ∀ e ∈ (c.pass 1).owed, (c.pass 1).csr.cycle + n < e.due := fun e he => by
      have := h e he
      rw [Core.pass_cycle]
      omega
    have hdue : ∀ e ∈ (c.pass 1).owed, (c.pass 1).csr.cycle < e.due := fun e he => by
      have := hnext e he
      omega
    simp only [Core.spend, Core.passEach, Core.presence_of_nothing_due hdue, Core.awaitPresence_zero, Core.land_of_nothing_due hdue]
    exact ih hnext

/-- Cycles that pass change the core's CSRs and its die cycles alone. -/
theorem Core.passEach_eq (n : Nat) (c : Core) :
    Core.passEach n c = { c with csr := (Core.passEach n c).csr, dieCyc := (Core.passEach n c).dieCyc } := by
  induction n generalizing c with
  | zero => rfl
  | succ n ih => exact ih (c.pass 1)

@[simp] theorem Core.passEach_cycle (n : Nat) (c : Core) : (Core.passEach n c).csr.cycle = c.csr.cycle + n := by
  induction n generalizing c with
  | zero => rfl
  | succ n ih => rw [Core.passEach, ih, Core.pass_cycle, Nat.add_assoc, Nat.add_comm 1]

@[simp] theorem Core.passEach_bundles (n : Nat) (c : Core) : (Core.passEach n c).csr.bundles = c.csr.bundles := by
  induction n generalizing c with
  | zero => rfl
  | succ n ih => exact ih (c.pass 1)

theorem sameCsrsButTime_trans {x y z : Csrs} (hxy : SameCsrsButTime x y) (hyz : SameCsrsButTime y z) : SameCsrsButTime x z := by
  unfold SameCsrsButTime at *
  rw [← hxy] at hyz
  exact hyz

/-- Of the CSRs, cycles that pass change what follows time alone. -/
theorem Core.passEach_sameCsrs (n : Nat) (c : Core) : SameCsrsButTime (Core.passEach n c).csr c.csr := by
  induction n generalizing c with
  | zero => rfl
  | succ n ih => exact sameCsrsButTime_trans (ih (c.pass 1)) rfl

/-! ## The end of a bundle that jumps, leaves a loop or starts one -/

@[simp] theorem Core.portLandings_nil (c : Core) : c.portLandings [] = [] := by
  unfold Core.portLandings
  split <;> rfl

@[simp] theorem Core.finishUses_nil (c : Core) : c.finishUses [] = c := by
  simp [Core.finishUses]

/-- The core as a bundle leaves it to the cycles that pass: the next bundle, no wait, one bundle more. -/
def Core.goTo (c : Core) (pc : Nat) : Core := { c with pc := pc, wait := none, csr := { c.csr with bundles := c.csr.bundles + 1 } }

/-- A bundle that jumps, leaves a loop or starts one does not process the loop end; it goes to the bundle named, after one core cycle,
or two where it counts as a taken branch (R243, R251). -/
theorem State.endBundle_unlooped {s : State} (hended : s.iss.ended = false) (huses : s.iss.uses = []) (hafter : s.iss.after = none)
    (heret : s.iss.eret = false) (hun : (s.iss.jumped || s.iss.broke || s.iss.started) = true) :
    s.endBundle = { s with
      c := (s.c.goTo (s.iss.next.getD (s.c.pc + 1))).spend s.cur (1 + if s.iss.jumped || s.iss.broke then 1 else 0)
      iss := Issue.none } := by
  simp [State.endBundle, hended, huses, hafter, heret, hun, State.notePorts, Core.goTo]

/-- A bundle in whose cycles nothing comes due leaves the next bundle, its cycles and itself counted, and all else as it was. -/
theorem Core.spend_goTo (k n pc : Nat) {c : Core} (h : ∀ e ∈ c.owed, c.csr.cycle + n < e.due) :
    let u := (c.goTo pc).spend k n
    u.regs = c.regs ∧ u.owed = c.owed ∧ u.pc = pc ∧ u.csr.cycle = c.csr.cycle + n ∧ u.csr.bundles = c.csr.bundles + 1 ∧
      SameCsrsButTime u.csr c.csr ∧ OtherwiseSame u c := by
  intro u
  have hu : u = { Core.passEach n (c.goTo pc) with empty := 0 } := Core.spend_eq_passEach k n h
  have hpass := Core.passEach_eq n (c.goTo pc)
  have hcsr : u.csr = (Core.passEach n (c.goTo pc)).csr := by rw [hu]
  have hframe : u = { c.goTo pc with csr := u.csr, dieCyc := u.dieCyc, empty := u.empty } := by rw [hu, hpass]
  refine ⟨by rw [hframe]; rfl, by rw [hframe]; rfl, by rw [hframe]; rfl, ?_, ?_, ?_, by rw [hframe]; rfl⟩
  · rw [hcsr, Core.passEach_cycle]
    rfl
  · rw [hcsr, Core.passEach_bundles]
    rfl
  · rw [hcsr]
    exact sameCsrsButTime_trans (Core.passEach_sameCsrs n (c.goTo pc)) rfl

/-- What stays the same beside the registers does not depend on them. -/
theorem otherwiseSame_of_regs {a c : Core} {r : Regs} (h : OtherwiseSame a { c with regs := r }) : OtherwiseSame a c :=
  (congrArg (fun x : Core => { x with regs := c.regs }) h :)

end Sys2Proof.Machine

namespace Sys2Proof.Claims

open Sys2Proof Sys2Proof.Machine

/-! ## LSTEP (R249) -/

/-- The model arms a step as the rule says: it replaces a step of the same destination, else takes a free slot, else step 1 moves
down. -/
theorem arm_eq_armedAfter (x : Steps) (d a : SReg) : x.arm d a = armedAfter x d a := by
  unfold Steps.arm armedAfter
  by_cases hclear : d = 0 ∧ a = 0
  · rw [if_pos hclear, if_pos hclear]
  · rw [if_neg hclear, if_neg hclear]
    match x with
    | ⟨none, none⟩ => simp [armsFor]
    | ⟨none, some (d1, a1)⟩ => simp [armsFor]
    | ⟨some (d0, a0), none⟩ => simp [armsFor]
    | ⟨some (d0, a0), some (d1, a1)⟩ => simp [armsFor]

/-- The fate of an LSTEP word, by its reserved bits. -/
theorem decodeS_lstep_word (p : FReg) (d a : SReg) {x : Nat} (hx : x < 2 ^ 12) :
    decodeS (slotWord 0x21 p d a x) = fate [x] (some (.lstep p d a)) := by
  have hresv : fld x 0 12 = x := by unfold fld; omega
  rw [decodeS_lstep (slotWord_op p d a (by decide) hx), slotWord_low p d a (by decide), slotWord_pred p d a hx, slotWord_d p d a hx,
    slotWord_a p d a hx, hresv]

/-- LSTEP with its reserved bits zero (R249). -/
theorem decodeSlot_lstep (p : FReg) (d a : SReg) :
    decodeSlot 0 0 false 0 (0x21 * 2 ^ 26 + p.val * 2 ^ 22 + d.val * 2 ^ 17 + a.val * 2 ^ 12) = .ok (.lstep p d a) := by
  have hword := decodeS_lstep_word p d a (x := 0) (by decide)
  rw [slotWord, Nat.add_zero, fate_ok rfl] at hword
  rw [decodeSlot_zero, hword]

/-- LSTEP with a reserved bit set (Table 10-6). -/
theorem decodeSlot_lstep_reserved (p : FReg) (d a : SReg) (x : Nat) (hpos : 0 < x) (hx : x < 2 ^ 12) :
    decodeSlot 0 0 false 0 (0x21 * 2 ^ 26 + p.val * 2 ^ 22 + d.val * 2 ^ 17 + a.val * 2 ^ 12 + x) = .error .reserved := by
  rw [decodeSlot_zero, ← slotWord, decodeS_lstep_word p d a hx, fate_reserved (Nat.ne_of_gt hpos)]

theorem exec_lstep (p : FReg) (d a : SReg) (s : State) : exec (.lstep p d a) s = execLstep p d a s := rfl

theorem exec_lstep_alone {s : State} {p : FReg} (halone : Alone s) (hp : s.readF p = true) (d a : SReg) :
    exec (.lstep p d a) s = .next { s with c := { s.c with regs := { s.c.regs with
      loops := { s.c.regs.loops with armed := armedAfter s.c.regs.loops.armed d a } } } } := by
  rw [exec_lstep, execLstep, halone.plain_eq hp, arm_eq_armedAfter]

/-! ## LBRK (R250) -/

/-- The fate of an LBRK word, by its reserved bits. -/
theorem decodeS_lbrk_word (p : FReg) {x : Nat} (hx : x < 2 ^ 22) :
    decodeS (0x22 * 2 ^ 26 + p.val * 2 ^ 22 + x) = fate [x] (some (.lbrk p)) := by
  have hop : fld (0x22 * 2 ^ 26 + p.val * 2 ^ 22 + x) 26 6 = 0x22 := by unfold fld; omega
  have hpred : fld (0x22 * 2 ^ 26 + p.val * 2 ^ 22 + x) 22 4 = p.val := by unfold fld; omega
  have hresv : fld (0x22 * 2 ^ 26 + p.val * 2 ^ 22 + x) 0 22 = x := by unfold fld; omega
  rw [decodeS_lbrk hop, freg, hpred, hresv]
  exact congrArg (fun q => fate [x] (some (.lbrk q))) (Fin.ofNat_val_eq_self p)

/-- LBRK with its reserved bits zero (R250). -/
theorem decodeSlot_lbrk (p : FReg) : decodeSlot 0 0 false 0 (0x22 * 2 ^ 26 + p.val * 2 ^ 22) = .ok (.lbrk p) := by
  have hword := decodeS_lbrk_word p (x := 0) (by decide)
  rw [Nat.add_zero, fate_ok rfl] at hword
  rw [decodeSlot_zero, hword]

/-- LBRK with a reserved bit set (Table 10-6). -/
theorem decodeSlot_lbrk_reserved (p : FReg) (x : Nat) (hpos : 0 < x) (hx : x < 2 ^ 22) :
    decodeSlot 0 0 false 0 (0x22 * 2 ^ 26 + p.val * 2 ^ 22 + x) = .error .reserved := by
  rw [decodeSlot_zero, decodeS_lbrk_word p hx, fate_reserved (Nat.ne_of_gt hpos)]

/-- The state after an LBRK that leaves a level: the level is popped, and the bundle after its END is next as a taken branch. -/
def breaksTo (s : State) (outer : List LoopLevel) (l : LoopLevel) : State :=
  { s with
    c := { s.c with regs := { s.c.regs with loops := { s.c.regs.loops with levels := outer } } }
    iss := { s.iss with next := some (l.start + l.lenM1 + 1), broke := true } }

theorem exec_lbrk (p : FReg) (s : State) : exec (.lbrk p) s = execLbrk p s := rfl

theorem exec_lbrk_inner {s : State} {p : FReg} {outer : List LoopLevel} {l : LoopLevel} (halone : Alone s) (hp : s.readF p = true)
    (hl : s.c.regs.loops.levels = outer ++ [l]) : exec (.lbrk p) s = .next (breaksTo s outer l) := by
  have hinner : s.c.regs.loops.inner = some l := by simp [LoopState.inner, hl]
  have houter : s.c.regs.loops.levels.dropLast = outer := by simp [hl]
  rw [exec_lbrk, execLbrk, halone.plain_eq hp]
  simp only [hinner, houter]
  rfl

theorem exec_lbrk_no_level {s : State} {p : FReg} (halone : Alone s) (hp : s.readF p = true) (hl : s.c.regs.loops.levels = []) :
    exec (.lbrk p) s = .next s := by
  have hinner : s.c.regs.loops.inner = none := by simp [LoopState.inner, hl]
  rw [exec_lbrk, execLbrk, halone.plain_eq hp]
  simp only [hinner]

/-- A bundle that leaves a loop takes two core cycles, as a bundle with a taken branch does. -/
theorem breaksTo_endBundle {s : State} (halone : Alone s) (outer : List LoopLevel) (l : LoopLevel) :
    (breaksTo s outer l).endBundle = { s with
      c := ((breaksTo s outer l).c.goTo (l.start + l.lenM1 + 1)).spend s.cur 2
      iss := Issue.none } := by
  rw [State.endBundle_unlooped (s := breaksTo s outer l) halone.ended halone.uses halone.after halone.eret
    (by simp [breaksTo])]
  simp [breaksTo]

/-- Settles O9: LSTEP is the rule's arming; an LBRK that pops a level ends its bundle in two cycles in which nothing lands; the words go
through their fields. -/
theorem lstepArmsAStepAndLbrkPopsALevel : Obligations.LstepArmsAStepAndLbrkPopsALevel := by
  refine ⟨fun s p d a halone hp => exec_lstep_alone halone hp d a, fun s p outer l halone hp hquiet hl => ?_,
    fun s p => exec_lbrk_no_level, fun p d a => ⟨rfl, decodeSlot_lstep p d a, decodeSlot_lbrk p⟩, decodeSlot_lstep_reserved,
    decodeSlot_lbrk_reserved, decodeSlot_lstep 0 7 8, decodeSlot_lbrk 0, decodeSlot_lbrk 2⟩
  refine ⟨_, exec_lbrk_inner halone hp hl, ?_⟩
  obtain ⟨hregs, -, hpc, hcycle, hbundles, hcsrs, hrest⟩ :=
    Core.spend_goTo s.cur 2 (l.start + l.lenM1 + 1) (c := (breaksTo s outer l).c) hquiet
  rw [breaksTo_endBundle halone]
  exact ⟨hregs, hpc, hcycle, hbundles, hcsrs, otherwiseSame_of_regs hrest, rfl⟩

end Sys2Proof.Claims
